-- ==== Sys2Proof/Word.lean ====
section
/-!
DEFINITION. The word types of the DF1604: octets of frames and messages, 16-bit frame numbers, masks of eight bits.
-/

namespace Sys2Proof

/-- An octet of a frame or a message (12_message_and_frame_formats.md). -/
abbrev Byte := BitVec 8

/-- A 16-bit frame number, counted modulo 65,536 (R10). -/
abbrev FrameNo := BitVec 16

/-- A set of eight: the group mute mask (R60 field 6), the event summary and the notice mask (R171, R172). -/
abbrev Mask8 := BitVec 8

end Sys2Proof
end

