-- ==== Sys2Proof/Config.lean ====
section
/-!
DEFINITION. What the part fixes (capacities and codes) and the free values: what the spec leaves open, or fixes without writing out. A free value has no body, so no
proof can see what it is.
-/

namespace Sys2Proof.Config

/-- Pool entries (R35). -/
abbrev poolSize : Nat := 512
/-- Mixes (00_scope.md, R164). -/
abbrev mixCount : Nat := 16
/-- Records the Staging Queue holds (R119). -/
abbrev stagingSize : Nat := 128
/-- Places of the Reply Queue (R157). -/
abbrev replyPlaces : Nat := 8
/-- Frames the hold buffer reserves at most (R152). -/
abbrev holdFrames : Nat := 64
/-- Bit-times from the start of a frame to the next (section 1.1, R3). -/
abbrev framePeriod : Nat := 2048
/-- Bit-times from a sync to the end of its frame's trailer, and from a period's begin to its delivery point (R8). -/
abbrev trailerEnd : Nat := 1664
/-- Bit-times either side of an expected position (R3). -/
abbrev window : Nat := 4
/-- Cells of a frame's body: everything from the end of the sync pattern through the trailer (R1). -/
abbrev bodyCells : Nat := 1648
/-- Unity gain, in units of 1/4096 (00_scope.md, Conventions). -/
abbrev unity : Nat := 4096
/-- The largest entry and master coefficient (R36, R60). -/
abbrev gainMax : Nat := 32767
/-- The largest sample magnitude a ceiling or threshold names (R60). -/
abbrev sampleMax : Nat := 8388607
/-- Where the 16-bit counters hold (R11, R21, R22). -/
abbrev hold16 : Nat := 65535

/-- Free value (log 6). Whether POWER QUIET completes before the Source Store reads the power state on the delivery whose fade step reaches SHUT: R32 allows
both orders. Applied to a count of the choices drawn. -/
opaque quietBeforePass : Nat → Bool

/-- Free value (log 26). How many of the 8 positions of the lane frame in progress have begun when a command sets QUIET, or its completion stands alone: the time of
a command within a period is open (R140, R161). It counts within what the steps before it fix. Applied to a count of the choices drawn. -/
opaque positionsBegun : Nat → Nat

/-- Free value (log 14). The line levels of the two halves of the 16 bit-times of the sync pattern, for the line level before it, but for the violation that
`syncPattern` puts in: R1 says it is a fixed sequence that contains coding violations, and does not write it out. -/
opaque syncCells : Bool → Vector (Bool × Bool) 16

/-- Free value (log 14). A bit-time of the sync pattern that is a coding violation. -/
opaque syncViolation : Fin 16

/-- The cells of a line with the n-th one begun without a transition from the level before it. -/
def violate : Nat → Bool → List (Bool × Bool) → List (Bool × Bool)
  | _, _, [] => []
  | 0, before, cell :: rest => (before, cell.2) :: rest
  | n + 1, _, cell :: rest => cell :: violate n cell.2 rest

/-- The sync pattern after a line level (R1): 16 bit-times, with a coding violation. -/
def syncPattern (before : Bool) : List (Bool × Bool) := violate syncViolation before (syncCells before).toList

end Sys2Proof.Config
end

