-- ==== Sys2Proof/Syntax.lean ====
section
/-!
DEFINITION. The steps of spec/opcode_table.json, one constructor of `Instr` per row, each with its operands.
-/

namespace Sys2Proof

/-- The body of a frame as it comes down the line (R1): the level of the line at the end of the sync pattern, then the levels of the first and the second half
of each bit cell. -/
structure LineBody where
  entry : Bool
  cells : List (Bool × Bool)
  deriving DecidableEq, Repr

/-- Where a command row finds its command (log 2): the one waiting in the holding slot (R161), or one whose LOCAL message, with a good check, is handed to the
intake in this same step (R160), given by its SRC, its TAG and its payload. -/
inductive CommandSource where
  | held
  | arriving (src tag : Byte) (payload : List Byte)
  deriving DecidableEq, Repr

/-- The rows of the table, in its order. Line positions are counted in bit-times (R3). -/
inductive Instr where
  | powerOn
  | resetAssert
  | syncFound (pos : Nat)
  | syncMissing
  | linkLocked (pos : Nat)
  | linkLost
  | delivery (line : LineBody)
  | deliveryPoint
  | commitFire
  | powerQuietComplete
  | talkHoldExpiry (mix : Nat)
  | enumerate (src tag n : Byte) (check : BitVec 16)
  | frameEvent
  | noticeQueue
  | identify (c : CommandSource)
  | statusRead (c : CommandSource)
  | statusPeek (c : CommandSource)
  | unitSetup (c : CommandSource)
  | eventAck (c : CommandSource)
  | linkCounters (c : CommandSource)
  | mixWrite (c : CommandSource)
  | mixWriteStaged (c : CommandSource)
  | mixRead (c : CommandSource)
  | entryWrite (c : CommandSource)
  | entryWriteStaged (c : CommandSource)
  | entryRemove (c : CommandSource)
  | entryRemoveStaged (c : CommandSource)
  | mixClear (c : CommandSource)
  | mixClearStaged (c : CommandSource)
  | entryRead (c : CommandSource)
  | groupMute (c : CommandSource)
  | groupMuteStaged (c : CommandSource)
  | routeWrite (c : CommandSource)
  | routeRead (c : CommandSource)
  | cueSelect (c : CommandSource)
  | commitAtFrame (c : CommandSource)
  | commitNext (c : CommandSource)
  | cancel (c : CommandSource)
  | discard (c : CommandSource)
  | flagsRead (c : CommandSource)
  | flagsClear (c : CommandSource)
  | powerQuiet (c : CommandSource)
  | powerRun (c : CommandSource)
  | unitReset (c : CommandSource)
  | unknownCommand (kind : Byte) (c : CommandSource)
  deriving DecidableEq, Repr

end Sys2Proof
end

