-- ==== Sys2Proof/Decode.lean ====
section
/-!
DEFINITION. Which row of the table a message is, by its KIND code and its payload (R176, section 12.2), and the host's `decodeTableWord`: the table gives no row any
bits, so no word spells a row.
-/

namespace Sys2Proof

/-- The mode octet, the second of the payload, is 1, STAGED (section 12.2). -/
def isStaged (payload : List Byte) : Bool := payload[1]? == some 1

/-- The first octet of the payload is 1: NEXT of COMMIT, QUIET of POWER (section 12.2). -/
def asksOne (payload : List Byte) : Bool := payload[0]? == some 1

/-- A KIND of the catalogue of section 10.6: codes 0x01 to 0x17 (section 12.2). -/
def isCommandKind (kind : Byte) : Bool := 1 ≤ kind.toNat && kind.toNat ≤ 0x17

/-- The row that a message of this KIND and payload is, for a command taken from `c`. A mode other than STAGED, or a request other than the one a row names, is
the first row of its kind, whose checks refuse what they must. -/
def rowOf (kind : Byte) (payload : List Byte) (c : CommandSource) : Instr :=
  match kind.toNat with
  | 0x01 => .identify c
  | 0x02 => .statusRead c
  | 0x03 => .statusPeek c
  | 0x04 => .unitSetup c
  | 0x05 => .eventAck c
  | 0x06 => .linkCounters c
  | 0x07 => if isStaged payload then .mixWriteStaged c else .mixWrite c
  | 0x08 => .mixRead c
  | 0x09 => if isStaged payload then .entryWriteStaged c else .entryWrite c
  | 0x0A => if isStaged payload then .entryRemoveStaged c else .entryRemove c
  | 0x0B => if isStaged payload then .mixClearStaged c else .mixClear c
  | 0x0C => .entryRead c
  | 0x0D => if isStaged payload then .groupMuteStaged c else .groupMute c
  | 0x0E => .routeWrite c
  | 0x0F => .routeRead c
  | 0x10 => .cueSelect c
  | 0x11 => if asksOne payload then .commitNext c else .commitAtFrame c
  | 0x12 => .cancel c
  | 0x13 => .discard c
  | 0x14 => .flagsRead c
  | 0x15 => .flagsClear c
  | 0x16 => if asksOne payload then .powerQuiet c else .powerRun c
  | 0x17 => .unitReset c
  | _ => .unknownCommand kind c

/-- The KIND code of a command row and the command it takes; none for the rows that are no commands. -/
def commandOf : Instr → Option (Byte × CommandSource)
  | .identify c => some (0x01, c)
  | .statusRead c => some (0x02, c)
  | .statusPeek c => some (0x03, c)
  | .unitSetup c => some (0x04, c)
  | .eventAck c => some (0x05, c)
  | .linkCounters c => some (0x06, c)
  | .mixWrite c => some (0x07, c)
  | .mixWriteStaged c => some (0x07, c)
  | .mixRead c => some (0x08, c)
  | .entryWrite c => some (0x09, c)
  | .entryWriteStaged c => some (0x09, c)
  | .entryRemove c => some (0x0A, c)
  | .entryRemoveStaged c => some (0x0A, c)
  | .mixClear c => some (0x0B, c)
  | .mixClearStaged c => some (0x0B, c)
  | .entryRead c => some (0x0C, c)
  | .groupMute c => some (0x0D, c)
  | .groupMuteStaged c => some (0x0D, c)
  | .routeWrite c => some (0x0E, c)
  | .routeRead c => some (0x0F, c)
  | .cueSelect c => some (0x10, c)
  | .commitAtFrame c => some (0x11, c)
  | .commitNext c => some (0x11, c)
  | .cancel c => some (0x12, c)
  | .discard c => some (0x13, c)
  | .flagsRead c => some (0x14, c)
  | .flagsClear c => some (0x15, c)
  | .powerQuiet c => some (0x16, c)
  | .powerRun c => some (0x16, c)
  | .unitReset c => some (0x17, c)
  | .unknownCommand kind c => some (kind, c)
  | .powerOn => none
  | .resetAssert => none
  | .syncFound _ => none
  | .syncMissing => none
  | .linkLocked _ => none
  | .linkLost => none
  | .delivery _ => none
  | .deliveryPoint => none
  | .commitFire => none
  | .powerQuietComplete => none
  | .talkHoldExpiry _ => none
  | .enumerate _ _ _ _ => none
  | .frameEvent => none
  | .noticeQueue => none

/-- The row a word of `nbits` bits spells: none, since spec/opcode_table.json gives bits to no row (98_reader.md counts no row with fixed bits or fields). -/
def decodeTableWord (_nbits _w : Nat) : Option Instr := none

end Sys2Proof
end

