-- ==== Sys2Proof/Machine/State.lean ====
section
/-!
DEFINITION. The state of the unit, block by block (00_scope.md "Block overview"), as plain data, and its power-on values.
-/

namespace Sys2Proof.Machine

/-! ### Link Receiver, Frame Timebase, Link Transmitter (01_the_stage_link.md) -/

/-- The sync state (section 1.2, R3 to R7). -/
inductive SyncState where
  | search | confirm | locked | holdover
  deriving DecidableEq, Repr

/-- The eight link counters (R11), each 0 to 65,535. -/
structure LinkCounters where
  codingViolations : Nat
  frameCheckErrors : Nat
  trailerErrors : Nat
  inheritedDamage : Nat
  missedSyncs : Nat
  laneFramingErrors : Nat
  laneDrops : Nat
  messageCheckErrors : Nat
  deriving DecidableEq, Repr

/-- All eight at 0 (R11). -/
def LinkCounters.zero : LinkCounters := ⟨0, 0, 0, 0, 0, 0, 0, 0⟩

/-- The Link Receiver (section 1.2, R9 to R13). `accepted` is the position of the sync of a frame accepted and not yet delivered (R2); `missed` says that a sync
was missing in LOCKED or HOLDOVER and its NONE delivery is still to come (R11); `lockedDue` and `lostDue` are the events that the delivery which made the change
will raise (R13, log 5). -/
structure LinkReceiver where
  sync : SyncState
  confirm : Nat
  miss : Nat
  reference : Option Nat
  expected : Nat
  accepted : Option Nat
  missed : Bool
  lockedDue : Bool
  lostDue : Bool
  localFrame : FrameNo
  counters : LinkCounters
  deriving DecidableEq, Repr

/-- The Frame Timebase (section 1.7): the phase of the period in progress as the positions where it began and is to end; whether its end has come in FOLLOW
(R14); whether it is the period that adopts the received phase, whose end R15 fixes; whether its one delivery is still owed (R8); and whether the frame event at
the release of RESET_N is still to be made (R137, log 10). -/
structure Timebase where
  periodStart : Nat
  periodEnd : Nat
  due : Bool
  adopted : Bool
  owed : Bool
  releaseEvent : Bool
  deriving DecidableEq, Repr

/-- The classes of a delivery (R8); `nothing` is NONE. -/
inductive DeliveryClass where
  | good | marked | corrupt | nothing
  deriving DecidableEq, Repr

/-- The kind of a lane frame (R147). -/
inductive LaneKind where
  | idle | first | cont | abort
  deriving DecidableEq, Repr

/-- The frame held for the Link Transmitter (R9): a delivery that was a frame, with its class, number, flags octet and samples. -/
structure HeldFrame where
  cls : DeliveryClass
  number : FrameNo
  flags : Byte
  slots : List Int
  deriving DecidableEq, Repr

/-- A frame begun on LINK_OUT (R17). The trailer is always 0xB4. -/
structure EmittedFrame where
  number : FrameNo
  damaged : Bool
  kind : LaneKind
  slots : List Int
  lane : List Byte
  check : BitVec 16
  deriving DecidableEq, Repr

/-- The Link Transmitter (section 1.8): the cue selection, the frame held for it, whether a mix pass ran in the period (R18) and the frame being emitted. -/
structure Transmitter where
  cueMix : Option Nat
  cueLeft : Nat
  cueRight : Nat
  heldFrame : Option HeldFrame
  passRan : Bool
  emitted : Option EmittedFrame
  deriving DecidableEq, Repr

/-! ### Source Store and Fade Control (02_sources_and_the_link_fade.md) -/

/-- One source (section 2.1): the last sample taken, and its age 0 to 255. -/
structure Source where
  sample : Int
  age : Nat
  deriving DecidableEq, Repr

/-- The Source Store (section 2.1): 64 sources, the bad-run count B and the good-run count G. -/
structure SourceStore where
  sources : List Source
  bad : Nat
  good : Nat
  deriving DecidableEq, Repr

/-- The fade state (section 2.2). -/
inductive FadeState where
  | opened | closing | shut | opening
  deriving DecidableEq, Repr

/-- Fade Control (section 2.2): the fade state, the coefficient f and the fade-in step. -/
structure Fade where
  state : FadeState
  coeff : Nat
  step : Nat
  deriving DecidableEq, Repr

/-! ### Mix Table, Mix Engine and Flag Unit (03, 04, 06) -/

/-- The state of an entry (R37). -/
inductive EntryState where
  | live | retiring
  deriving DecidableEq, Repr

/-- An entry of a contribution list (R36). -/
structure Entry where
  source : Nat
  gL : Nat
  gR : Nat
  group : Option Nat
  mute : Bool
  state : EntryState
  cL : Nat
  cR : Nat
  deriving DecidableEq, Repr

/-- The rounding modes (R91). -/
inductive Rounding where
  | nearestEven | towardZero | floor
  deriving DecidableEq, Repr

/-- A set of the four flags (06). -/
structure Flags where
  headroom : Bool
  stale : Bool
  limit : Bool
  clamp : Bool
  deriving DecidableEq, Repr

/-- No flag. -/
def Flags.none : Flags := ⟨false, false, false, false⟩

/-- The mix settings record, fields 0 to 13 (R60). -/
structure Settings where
  enabled : Bool
  master : Nat
  ramp : Nat
  ceiling : Nat
  limRelease : Nat
  rounding : Rounding
  groupMutes : Mask8
  talk : Option Nat
  threshold : Nat
  holdTime : Nat
  depth : Nat
  attack : Nat
  release : Nat
  enables : Flags
  deriving DecidableEq, Repr

/-- The defaults of R60. -/
def Settings.default : Settings :=
  { enabled := false, master := 4096, ramp := 64, ceiling := 8388607, limRelease := 4, rounding := .nearestEven, groupMutes := 0, talk := none,
    threshold := 1048576, holdTime := 9600, depth := 1024, attack := 256, release := 8, enables := Flags.none }

/-- The stage a capture names (R111). -/
inductive CaptureStage where
  | bus | output
  deriving DecidableEq, Repr

/-- The contents of a HELD capture record (R110). -/
structure Capture where
  frame : FrameNo
  flags : Flags
  stage : CaptureStage
  sL : Int
  sR : Int
  rL : Int
  rR : Int
  lgBefore : Nat
  lgAfter : Nat
  yL : Int
  yR : Int
  deriving DecidableEq, Repr

/-- One mix: its settings record (R60), its contribution list (R34), its running state (R64: mc, d, talk hold counter, duck state, Lg, last outputs) and its flag
state (R106, R107, R109; an absent capture is an EMPTY record). `justEnabled` says that no pass has been made since the enable transition (R102, log 27). -/
structure Mix where
  cfg : Settings
  list : List Entry
  mc : Nat
  duck : Nat
  hold : Nat
  engaged : Bool
  lg : Nat
  yL : Int
  yR : Int
  current : Flags
  accrued : Flags
  capture : Option Capture
  justEnabled : Bool
  deriving DecidableEq, Repr

/-- A mix after either reset (R57, R77, R117). -/
def Mix.reset : Mix :=
  { cfg := Settings.default, list := [], mc := 0, duck := 4096, hold := 0, engaged := false, lg := 4096, yL := 0, yR := 0, current := Flags.none,
    accrued := Flags.none, capture := none, justEnabled := false }

/-- The 16 mixes and the Entry Pool's free count (R34, R35). -/
structure MixTable where
  mixes : List Mix
  free : Nat
  deriving DecidableEq, Repr

/-- The Mix Table, Mix Engine and Flag Unit after either reset (R57, R77, R117). -/
def MixTable.reset : MixTable := { mixes := List.replicate 16 Mix.reset, free := 512 }

/-! ### Staging Queue and Commit Scheduler (07) -/

/-- A staged edit record (R119). -/
inductive StagedEdit where
  | setEntry (mix source gL gR : Nat) (group : Option Nat) (mute : Bool)
  | retireEntry (mix source : Nat)
  | clearMix (mix : Nat)
  | setMix (mix : Nat) (cfg : Settings)
  | setGroupMutes (mix : Nat) (mask : Mask8)
  deriving DecidableEq, Repr

/-- The request that armed the slot (R123): NEXT, or AT_FRAME N taken on time or late. -/
inductive CommitRequest where
  | next
  | atFrame (n : FrameNo) (late : Bool)
  deriving DecidableEq, Repr

/-- The trigger of an armed slot (R123). -/
inductive CommitTrigger where
  | nextDelivery
  | frame (n : FrameNo)
  deriving DecidableEq, Repr

/-- The commit slot (R123). -/
inductive CommitSlot where
  | disarmed
  | armed (trigger : CommitTrigger) (request : CommitRequest)
  deriving DecidableEq, Repr

/-- The commit report of a firing (R129). -/
structure CommitReport where
  frameFired : FrameNo
  request : CommitRequest
  applied : Nat
  skipped : Nat
  firstSkipped : Option Nat
  deriving DecidableEq, Repr

/-- The Staging Queue, oldest first, the commit slot and the commit report (07). -/
structure Staging where
  queue : List StagedEdit
  slot : CommitSlot
  report : Option CommitReport
  deriving DecidableEq, Repr

/-- The values after either reset (R135). -/
def Staging.reset : Staging := { queue := [], slot := .disarmed, report := none }

/-! ### Output Lane Driver (08) -/

/-- A side of a mix. -/
inductive Side where
  | left | right
  deriving DecidableEq, Repr

/-- A route (R141). -/
inductive Route where
  | silent
  | mix (number : Nat) (side : Side)
  deriving DecidableEq, Repr

/-- The default route table (R141): index 8 × lane + position carries mix 4 × lane + position / 2, LEFT at even positions. -/
def Route.defaults : List Route :=
  (List.range 32).map fun i => .mix (i / 2) (if i % 2 = 0 then .left else .right)

/-- The Output Lane Driver (08): the route table, one held pair for each mix, the values that the 32 positions of the lane frame in progress carry, and the bit clocks given to the last
lane frame that ended (R138). -/
structure OutputLanes where
  routes : List Route
  held : List (Int × Int)
  frame : Option (List Int)
  lastClocks : Nat
  deriving DecidableEq, Repr

/-! ### Lane Controller and Reply Queue (09) -/

/-- What is to become of a message being received, and how far it has come (R149, R150): its LOCAL and FORWARD parts, whether the forward part was admitted, the
octets of header, payload and check, and the expected and received frame counts. -/
structure Reception where
  toLocal : Bool
  toForward : Bool
  admitted : Bool
  octets : Nat
  expected : Nat
  received : Nat
  deriving DecidableEq, Repr

/-- The receive state (R147 to R150). -/
inductive ReceiveState where
  | waiting
  | receiving (r : Reception)
  deriving DecidableEq, Repr

/-- A message in the hold buffer (R152, R153): its frame count, the lane frames that have arrived, how many it has emitted, and the spoiled mark. -/
structure HoldMessage where
  total : Nat
  frames : List (List Byte)
  emitted : Nat
  spoiled : Bool
  deriving DecidableEq, Repr

/-- The emission (R156): none, an own message with its lane frames and the count emitted, or the oldest message of the hold buffer (whose count it holds). -/
inductive Emission where
  | none
  | own (frames : List (List Byte)) (sent : Nat)
  | pass
  deriving DecidableEq, Repr

/-- The arbiter memory (R156). -/
inductive ArbiterMemory where
  | own | pass
  deriving DecidableEq, Repr

/-- The Lane Controller (09). The unit number is 1 to 32, or absent: unassigned (R155). -/
structure LaneController where
  rx : ReceiveState
  buffer : List Byte
  hold : List HoldMessage
  emission : Emission
  memory : ArbiterMemory
  unit : Option Nat
  deriving DecidableEq, Repr

/-- A message of the Reply Queue (R157), whole: header, payload and check. -/
structure QueuedMessage where
  isNotice : Bool
  octets : List Byte
  deriving DecidableEq, Repr

/-- The Reply Queue (R157): messages, oldest first, and the places reserved and not yet filled. -/
structure ReplyQueue where
  messages : List QueuedMessage
  reserved : Nat
  deriving DecidableEq, Repr

/-! ### Command Intake and Event Unit (10, 11) -/

/-- A command in a slot of the intake (R160): what its message carried, whether the intake was BUSY when it entered the holding slot, and whether it had to stay
there (R165). -/
structure Command where
  kind : Byte
  src : Byte
  tag : Byte
  payload : List Byte
  busyAtArrival : Bool
  waited : Bool
  deriving DecidableEq, Repr

/-- The power state (R168). -/
inductive PowerState where
  | run | quiescing | quiet
  deriving DecidableEq, Repr

/-- The Command Intake (10). The intake state is BUSY exactly while the executing slot is occupied (R161). -/
structure Intake where
  holding : Option Command
  executing : Option Command
  power : PowerState
  deriving DecidableEq, Repr

/-- The eight events (11), in the order of their bits (section 12.3). -/
inductive Event where
  | linkLocked | linkLost | linkSilent | mixFault | commitDone | intakeOverrun | checkError | laneDrop
  deriving DecidableEq, Repr

/-- The Event Unit (11). -/
structure EventUnit where
  summary : Mask8
  mask : Mask8
  latch : Bool
  deriving DecidableEq, Repr

/-- The values after either reset (R175). -/
def EventUnit.reset : EventUnit := { summary := 0, mask := 0, latch := false }

/-! ### What falls inside a delivery (log 7) -/

/-- A point of a delivery's chain at which an action of its own may fall (R12, R32, R33, R45, R82, R126, R130): before the lane is handed over, before the commit
test, before the Source Store applies the delivery, before it reads the power state, and before the pass's action on a mix. -/
inductive ChainPoint where
  | lane
  | commit
  | sources
  | read
  | mix (k : Nat)
  deriving DecidableEq, Repr

/-- What the unit does of itself at a moment that no rule fixes: take the held command (R161), queue a NOTICE (R173). -/
inductive StandingAction where
  | take
  | notice
  deriving DecidableEq, Repr

/-- How a delivery's chain runs (log 7): the order in which the pass works the 16 mixes (R80), and the standing actions that fall inside it, each at its point.
The model's own. -/
structure ChainPlan where
  order : List Nat
  falls : List (ChainPoint × StandingAction)
  deriving DecidableEq, Repr

/-- The chain with nothing falling inside it, the mixes in rising order. -/
def ChainPlan.whole : ChainPlan := { order := List.range 16, falls := [] }

/-! ### The whole unit -/

/-- The state of the unit. Four fields are the model's own: `pending`, the queue of steps that wait (first in, first out, log 1); `plans`, how the deliveries of the
period in progress and of the coming ones run (first in, first out, log 7); `freeIdx`, the count of free choices drawn (log 6); and `begun`, how many positions of the
lane frame in progress are known to have begun (log 26). -/
structure State where
  pending : List Instr
  plans : List ChainPlan
  resetHeld : Bool
  freeIdx : Nat
  begun : Nat
  rx : LinkReceiver
  tb : Timebase
  tx : Transmitter
  store : SourceStore
  fade : Fade
  table : MixTable
  staging : Staging
  lanes : OutputLanes
  lane : LaneController
  replies : ReplyQueue
  intake : Intake
  events : EventUnit
  deriving DecidableEq, Repr

/-- Why the unit stops with a fault: never. Its spec gives every step an effect, and records what it calls faults in counters, flags and event bits
(R11, R106, R171). No step raises one; an empty type, so safe. -/
inductive Fault where
  deriving DecidableEq, Repr

/-- Why a step is refused. -/
inductive Refusal where
  /-- A row of the table whose meaning is not written yet; raised by `exec`'s arm of that row alone (safe). No arm of this model raises it. -/
  | notModelled (mnemonic : String)
  deriving DecidableEq, Repr

/-- The unit right after power-on (R170): RESET_N has just been released, with every block at the power-on value of its chapter (R19, R23, R29, R57, R77, R117,
R135, R144, R158, R170, R175) and nothing waiting. -/
def State.reset : State where
  pending := []
  plans := []
  resetHeld := false
  freeIdx := 0
  begun := 0
  rx :=
    { sync := .search, confirm := 0, miss := 0, reference := none, expected := 0, accepted := none, missed := false, lockedDue := false, lostDue := false,
      localFrame := 0, counters := LinkCounters.zero }
  tb := { periodStart := 0, periodEnd := 2048, due := false, adopted := false, owed := true, releaseEvent := true }
  tx := { cueMix := none, cueLeft := 62, cueRight := 63, heldFrame := none, passRan := false, emitted := none }
  store := { sources := List.replicate 64 { sample := 0, age := 255 }, bad := 0, good := 0 }
  fade := { state := .shut, coeff := 0, step := 1 }
  table := MixTable.reset
  staging := Staging.reset
  lanes := { routes := Route.defaults, held := List.replicate 16 (0, 0), frame := none, lastClocks := 256 }
  lane := { rx := .waiting, buffer := [], hold := [], emission := .none, memory := .pass, unit := none }
  replies := { messages := [], reserved := 0 }
  intake := { holding := none, executing := none, power := .run }
  events := EventUnit.reset

/-- The unit with other values in one block, the rest as it stands. -/
def State.withPending (s : State) (x : List Instr) : State := { s with pending := x }
def State.withPlans (s : State) (x : List ChainPlan) : State := { s with plans := x }
def State.withResetHeld (s : State) (x : Bool) : State := { s with resetHeld := x }
def State.withFreeIdx (s : State) (x : Nat) : State := { s with freeIdx := x }
def State.withBegun (s : State) (x : Nat) : State := { s with begun := x }
def State.withRx (s : State) (x : LinkReceiver) : State := { s with rx := x }
def State.withTb (s : State) (x : Timebase) : State := { s with tb := x }
def State.withTx (s : State) (x : Transmitter) : State := { s with tx := x }
def State.withStore (s : State) (x : SourceStore) : State := { s with store := x }
def State.withFade (s : State) (x : Fade) : State := { s with fade := x }
def State.withTable (s : State) (x : MixTable) : State := { s with table := x }
def State.withStaging (s : State) (x : Staging) : State := { s with staging := x }
def State.withLanes (s : State) (x : OutputLanes) : State := { s with lanes := x }
def State.withLane (s : State) (x : LaneController) : State := { s with lane := x }
def State.withReplies (s : State) (x : ReplyQueue) : State := { s with replies := x }
def State.withIntake (s : State) (x : Intake) : State := { s with intake := x }
def State.withEvents (s : State) (x : EventUnit) : State := { s with events := x }

end Sys2Proof.Machine
end

