-- ==== Sys2Proof/Machine/Bytes.lean ====
section
/-!
DEFINITION. Octets and bits: the byte order of fields (12: most significant octet first, each octet most significant bit first), two's complement, the two cyclic
redundancy checks (R2, R148) and the line code (R1).
-/

namespace Sys2Proof.Machine

/-- One octet of an unsigned number: its low eight bits. -/
def octet (n : Nat) : Byte := BitVec.ofNat 8 n

/-- An unsigned field of `k` octets, most significant octet first (12). -/
def be : Nat → Nat → List Byte
  | 0, _ => []
  | k + 1, n => octet (n / 256 ^ k) :: be k n

/-- A two's complement field of `k` octets (12). -/
def beInt (k : Nat) (x : Int) : List Byte := be k (x % (256 ^ k : Nat)).toNat

/-- The unsigned number of a field, most significant octet first (12). -/
def fromBe (l : List Byte) : Nat := l.foldl (fun a b => a * 256 + b.toNat) 0

/-- The `k` octets at offset `at` of a payload, as an unsigned number; octets beyond its end read as nothing. -/
def field (p : List Byte) (offset k : Nat) : Nat := fromBe ((p.drop offset).take k)

/-- A 24-bit two's complement sample (00_scope.md, Samples). -/
def sampleOf (n : Nat) : Int := if n < 8388608 then (n : Int) else (n : Int) - 16777216

/-- The eight bits of an octet, most significant first (12). -/
def octetBits (b : Byte) : List Bool :=
  [b.getLsbD 7, b.getLsbD 6, b.getLsbD 5, b.getLsbD 4, b.getLsbD 3, b.getLsbD 2, b.getLsbD 1, b.getLsbD 0]

/-- The bits of octets in transmission order. -/
def bitsOf (l : List Byte) : List Bool := l.flatMap octetBits

/-- The number of bits read most significant first. -/
def natOfBits (l : List Bool) : Nat := l.foldl (fun a b => 2 * a + b.toNat) 0

/-- Whole octets of a bit sequence, most significant bit first. -/
def octetsOf : List Bool → List Byte
  | a :: b :: c :: d :: e :: f :: g :: h :: rest => octet (natOfBits [a, b, c, d, e, f, g, h]) :: octetsOf rest
  | _ => []

/-- One bit of a cyclic redundancy check that meets the register at its high end. -/
def crcHigh (poly reg : BitVec 16) (bit : Bool) : BitVec 16 :=
  if (reg.msb ^^ bit) then (reg <<< 1) ^^^ poly else reg <<< 1

/-- One bit of a cyclic redundancy check that enters the register at its low end, as the remainder of a division. -/
def crcLow (poly reg : BitVec 16) (bit : Bool) : BitVec 16 :=
  let shifted := (reg <<< 1) ||| BitVec.ofNat 16 bit.toNat
  if reg.msb then shifted ^^^ poly else shifted

/-- The frame check (R2): x^16 + x^15 + x^2 + 1 from all ones over the 203 covered octets, sent without final inversion. DEDUCED (log 13): each bit meets the
register at its high end, no octets of zero being fed after the message. -/
def frameCheck (covered : List Byte) : BitVec 16 := (bitsOf covered).foldl (crcHigh 0x8005) 0xFFFF

/-- The message check (R148): x^16 + x^12 + x^5 + 1 from 0, over the header with DEST complemented, the payload and two octets of zero. DEDUCED (log 12): the
octets enter the register at its low end, the two octets of zero carrying the message through it. -/
def messageCheck (message : List Byte) : BitVec 16 :=
  match message with
  | [] => 0
  | dest :: rest => (bitsOf ((~~~dest) :: rest ++ [0, 0])).foldl (crcLow 0x1021) 0

/-! ### The line code (R1) -/

/-- A bit cell of the line as received. -/
inductive LineCell where
  | zero | one | violation
  deriving DecidableEq, Repr

/-- One cell (R1): it begins with a transition from the level before it, and a second one at its middle makes it a one. -/
def cellOf (before first second : Bool) : LineCell :=
  if first = before then .violation else if second = first then .zero else .one

/-- The cells of a stretch of line, from the level before it (R1). -/
def cellsOf : Bool → List (Bool × Bool) → List LineCell
  | _, [] => []
  | before, (first, second) :: rest => cellOf before first second :: cellsOf second rest

/-- The line levels of bits coded by R1, from the level before them. -/
def codeBits : Bool → List Bool → List (Bool × Bool)
  | _, [] => []
  | before, bit :: rest =>
    let first := !before
    let second := if bit then !first else first
    (first, second) :: codeBits second rest

/-- A cell that is a coding violation is taken as a zero (R1). -/
def LineCell.bit : LineCell → Bool
  | .one => true
  | _ => false

/-- The cells of a body (R1). A body of another length is no frame's (WellFormed): cells it lacks count as coding violations, cells beyond are left (log 20). -/
def bodyCells (line : LineBody) : List LineCell :=
  (cellsOf line.entry line.cells ++ List.replicate (Config.bodyCells - line.cells.length) LineCell.violation).take Config.bodyCells

/-- The flags octet's LANE kind (section 12.1). -/
def LaneKind.ofFlags (flags : Byte) : LaneKind :=
  match flags.toNat % 4 with
  | 0 => .idle
  | 1 => .first
  | 2 => .cont
  | _ => .abort

/-- The code of a LANE kind (section 12.1). -/
def LaneKind.code : LaneKind → Nat
  | .idle => 0
  | .first => 1
  | .cont => 2
  | .abort => 3

/-- The flags octet: DAMAGED in bit 7, bits 6 to 2 zero, LANE kind in bits 1 and 0 (section 12.1). -/
def flagsOctet (damaged : Bool) (kind : LaneKind) : Byte := octet (128 * damaged.toNat + kind.code)

/-- The samples of a stretch of slots, three octets each (section 12.1). -/
def samplesOf : List Byte → List Int
  | a :: b :: c :: rest => sampleOf (fromBe [a, b, c]) :: samplesOf rest
  | _ => []

/-- A frame as decoded from its body, and the results of the three tests of R2. -/
structure ReceivedFrame where
  number : FrameNo
  flags : Byte
  damaged : Bool
  kind : LaneKind
  slots : List Int
  lane : List Byte
  codingBad : Bool
  checkBad : Bool
  trailerBad : Bool
  deriving DecidableEq, Repr

/-- The fields of a body's 206 octets (section 12.1, offsets 2 to 207) and the tests of R2, all three applied. -/
def decodeOctets (o : List Byte) (codingBad : Bool) : ReceivedFrame :=
  { number := BitVec.ofNat 16 (field o 0 2)
    flags := o.getD 2 0
    damaged := (o.getD 2 0).getLsbD 7
    kind := LaneKind.ofFlags (o.getD 2 0)
    slots := samplesOf ((o.drop 3).take 192)
    lane := (o.drop 195).take 8
    codingBad := codingBad
    checkBad := frameCheck (o.take 203) != BitVec.ofNat 16 (field o 203 2)
    trailerBad := o.getD 205 0 != 0xB4 }

/-- The decoding of a body (R1, R2). -/
def decodeBody (line : LineBody) : ReceivedFrame :=
  let cells := bodyCells line
  decodeOctets (octetsOf (cells.map LineCell.bit)) (cells.any (· == .violation))

/-- The class of an accepted frame (R2, R8). -/
def ReceivedFrame.cls (f : ReceivedFrame) : DeliveryClass :=
  if f.codingBad || f.checkBad || f.trailerBad then .corrupt else if f.damaged then .marked else .good

/-- The 203 octets the frame check covers (R2): frame number, flags octet, 64 slots, 8 lane octets. -/
def coveredOctets (number : FrameNo) (damaged : Bool) (kind : LaneKind) (slots : List Int) (lane : List Byte) : List Byte :=
  be 2 number.toNat ++ [flagsOctet damaged kind] ++ slots.flatMap (beInt 3) ++ lane

/-- The octets of an emitted frame from its frame number through its trailer (R17). -/
def EmittedFrame.body (e : EmittedFrame) : List Byte :=
  coveredOctets e.number e.damaged e.kind e.slots e.lane ++ be 2 e.check.toNat ++ [0xB4]

end Sys2Proof.Machine
end

