-- ==== Sys2Proof/Machine/Ops.lean ====
section
/-!
DEFINITION. The shared operations over the state: RESET_N's hold, counters that hold, events and their latch, messages, the Reply Queue and the intake's slots.
-/

namespace Sys2Proof.Machine

/-- A step while RESET_N is held low does nothing: every block takes its power-on values at the release (R19, R170, log 11). -/
def whileReleased (s : State) (f : State → State) : State := if s.resetHeld then s else f s

/-- A 16-bit counter rises by 1 and holds at 65,535 (R11, R21, R22). -/
def rise (n : Nat) : Nat := if n < Config.hold16 then n + 1 else n

/-! ### Events (11) -/

/-- The bit of an event (section 12.3). -/
def Event.bit : Event → Nat
  | .linkLocked => 0
  | .linkLost => 1
  | .linkSilent => 2
  | .mixFault => 3
  | .commitDone => 4
  | .intakeOverrun => 5
  | .checkError => 6
  | .laneDrop => 7

/-- The event set of one event (section 12.3). -/
def Event.set (e : Event) : Mask8 := BitVec.twoPow 8 e.bit

/-- Raising an event (R171, R172): its summary bit becomes set; the latch is set when that bit was clear and the mask holds the event. -/
def EventUnit.raise (u : EventUnit) (e : Event) : EventUnit :=
  { u with
    summary := u.summary ||| e.set
    latch := u.latch || (!u.summary.getLsbD e.bit && u.mask.getLsbD e.bit) }

/-- The unit with an event raised. -/
def State.raise (s : State) (e : Event) : State := s.withEvents (s.events.raise e)

/-- The unit with an event raised if a condition holds. -/
def State.raiseIf (s : State) (c : Bool) (e : Event) : State := if c then s.raise e else s

/-- A change of the link counters. -/
def State.count (s : State) (f : LinkCounters → LinkCounters) : State := s.withRx { s.rx with counters := f s.rx.counters }

/-- Counter 6, lane framing errors, rises (R11). -/
def State.countFraming (s : State) : State := s.count fun c => { c with laneFramingErrors := rise c.laneFramingErrors }

/-- A pass-through message is dropped (R152, R153): LANE_DROP is raised and counter 7 rises. -/
def State.dropLane (s : State) : State := (s.count fun c => { c with laneDrops := rise c.laneDrops }).raise .laneDrop

/-- A message check differs (R151, R154): counter 8 rises and CHECK_ERROR is raised. -/
def State.checkError (s : State) : State := (s.count fun c => { c with messageCheckErrors := rise c.messageCheckErrors }).raise .checkError

/-! ### Messages and the Reply Queue (R148, R157) -/

/-- A message: header, payload and check (R148). -/
def message (dest src kind tag : Byte) (payload : List Byte) : List Byte :=
  let m := [dest, src, kind, tag, octet payload.length] ++ payload
  m ++ be 2 (messageCheck m).toNat

/-- The lane frames a message of L payload octets occupies (R148): ceil((7 + L) / 8). -/
def frameCount (payloadLength : Nat) : Nat := (payloadLength + 14) / 8

/-- Octets cut into lane frames of eight, the last filled with zeros (R148). -/
def laneFrames (octets : List Byte) : List (List Byte) :=
  (List.range ((octets.length + 7) / 8)).map fun i =>
    let part := (octets.drop (8 * i)).take 8
    part ++ List.replicate (8 - part.length) 0

/-- The octet of a unit number, 254 for unassigned (section 12.2, R155). -/
def unitCode (unit : Option Nat) : Byte := octet (unit.getD 254)

/-- The Reply Queue has a place neither filled nor reserved (R157, R161). -/
def State.hasPlace (s : State) : Bool := s.replies.messages.length + s.replies.reserved < Config.replyPlaces

/-- A NOTICE stands in the Reply Queue, its emission not begun (R157). -/
def State.noticeQueued (s : State) : Bool := s.replies.messages.any (·.isNotice)

/-- The Reply Queue without a NOTICE whose emission has not begun (R157, R174). -/
def ReplyQueue.withoutNotice (q : ReplyQueue) : ReplyQueue := { q with messages := q.messages.filter (!·.isNotice) }

/-- The sync state's code (section 12.4). -/
def SyncState.code : SyncState → Nat
  | .search => 0
  | .confirm => 1
  | .locked => 2
  | .holdover => 3

/-- The power state's code (section 12.4). -/
def PowerState.code : PowerState → Nat
  | .run => 0
  | .quiescing => 1
  | .quiet => 2

/-! ### Replies (R163) -/

/-- The result codes (R163). -/
inductive Result where
  | done | doneLate | refusedKind | refusedLength | refusedValue | refusedMix | refusedPool | refusedStage | refusedArmed | refusedNotArmed
  deriving DecidableEq, Repr

/-- The codes of section 12.2. -/
def Result.code : Result → Byte
  | .done => 0x00
  | .doneLate => 0x01
  | .refusedKind => 0x10
  | .refusedLength => 0x11
  | .refusedValue => 0x12
  | .refusedMix => 0x14
  | .refusedPool => 0x15
  | .refusedStage => 0x16
  | .refusedArmed => 0x17
  | .refusedNotArmed => 0x18

/-- What a completed command answers (R163): the result, the clamped indicator, the item index and the kind data. -/
structure Answer where
  result : Result
  clamped : Bool
  item : Option Nat
  data : List Byte
  deriving DecidableEq, Repr

/-- DONE with kind data, nothing clamped, no item. -/
def Answer.done (data : List Byte) : Answer := { result := .done, clamped := false, item := none, data := data }

/-- A refusal with kind data: clamped indicator clear, no item. -/
def Answer.refuse (r : Result) (data : List Byte) : Answer := { result := r, clamped := false, item := none, data := data }

/-- The reply to a command (R163, section 12.4): addressed to the command's SRC, with its TAG, from the unit number in force. -/
def replyTo (c : Command) (unit : Option Nat) (a : Answer) : List Byte :=
  message c.src (unitCode unit) 0x80 c.tag
    ([c.kind, a.result.code, octet a.clamped.toNat, octet (a.item.getD 255)] ++ a.data)

/-! ### The slots of the intake (R160, R161) -/

/-- BUSY while the executing slot is occupied (R161). -/
def State.busy (s : State) : Bool := s.intake.executing.isSome

/-- A held command can be taken: the executing slot is empty and the Reply Queue has a place (R161). -/
def State.canTake (s : State) : Bool := !s.busy && s.hasPlace

/-- A verified LOCAL message reaches the intake (R160): it enters the empty holding slot with a note of the intake state, or is an overrun. It has to stay there
when it cannot be taken on arrival (R165, log 18). -/
def State.handOver (s : State) (kind src tag : Byte) (payload : List Byte) : State :=
  match s.intake.holding with
  | none =>
    s.withIntake { s.intake with
      holding := some { kind := kind, src := src, tag := tag, payload := payload, busyAtArrival := s.busy, waited := !s.canTake } }
  | some _ => s.raise .intakeOverrun

/-- Taking a command, first part (R161 steps 1 and 2): it moves into the executing slot and a place is reserved. -/
def State.beginCommand (s : State) (c : Command) : State :=
  (s.withIntake { s.intake with holding := none, executing := some c }).withReplies { s.replies with reserved := s.replies.reserved + 1 }

/-- A command completes (R161 step 4, R163): its reply fills the reserved place at the end of the queue and the executing slot becomes empty. -/
def State.completeCommand (s : State) (c : Command) (a : Answer) : State :=
  (s.withReplies
      { messages := s.replies.messages ++ [{ isNotice := false, octets := replyTo c s.lane.unit a }]
        reserved := s.replies.reserved - 1 }).withIntake
    { s.intake with executing := none }

/-- What a command's own checks and effects do: the state they leave, and the answer, or none while the command stays in the executing slot. -/
abbrev Action := Command → State → State × Option Answer

/-- Taking one command, one action (R161). -/
def State.takeCommand (s : State) (act : Action) (c : Command) : State :=
  match act c (s.beginCommand c) with
  | (s', some a) => s'.completeCommand c a
  | (s', none) => s'

/-- The taking of a held command of one row (R161): the command waits when it cannot be taken; a held command of another row is not this step's. -/
def State.takeHeld (s : State) (kind : Byte) (belongs : List Byte → Bool) (act : Action) : State :=
  match s.intake.holding with
  | some c => if c.kind == kind && belongs c.payload && s.canTake then s.takeCommand act c else s
  | none => s

/-- A command row (log 2): take the held command of this row, or hand over an arriving one (R160) and take it at once if it can be taken (R161). An arriving
command that is not of this row is not well formed, and is not handed over. -/
def commandRow (kind : Byte) (belongs : List Byte → Bool) (act : Action) (src : CommandSource) (s : State) : State :=
  whileReleased s fun s =>
    match src with
    | .held => s.takeHeld kind belongs act
    | .arriving sender tag payload =>
      if belongs payload then
        match s.intake.holding with
        | none => (s.handOver kind sender tag payload).takeHeld kind belongs act
        | some _ => s.handOver kind sender tag payload
      else s

end Sys2Proof.Machine
end

