-- ==== Sys2Proof/Machine/Lists.lean ====
section
/-!
DEFINITION. Contribution lists and the Entry Pool: set, retire, clear (03_contribution_lists_and_the_entry_pool.md, R34 to R43). Retire completion is a stage of
the pass and stands in MixPass.lean.
-/

namespace Sys2Proof.Machine

/-- The values a set operation gives an entry (R39 to R41). -/
structure EntryValues where
  source : Nat
  gL : Nat
  gR : Nat
  group : Option Nat
  mute : Bool
  deriving DecidableEq, Repr

/-- Mix k of the table; a number that names no mix reads as a mix at its defaults. -/
def MixTable.mix (t : MixTable) (k : Nat) : Mix := t.mixes.getD k Mix.reset

/-- The table with another mix k. -/
def MixTable.setMix (t : MixTable) (k : Nat) (m : Mix) : MixTable := { t with mixes := t.mixes.set k m }

/-- The entry of a list for a source (R34). -/
def entryFor (l : List Entry) (source : Nat) : Option Entry := l.find? (·.source == source)

/-- A new entry (R41): LIVE, its currents 0. -/
def Entry.create (v : EntryValues) : Entry :=
  { source := v.source, gL := v.gL, gR := v.gR, group := v.group, mute := v.mute, state := .live, cL := 0, cR := 0 }

/-- An entry with its values replaced (R39, R40): LIVE, its currents and source as they are. -/
def Entry.write (e : Entry) (v : EntryValues) : Entry :=
  { e with gL := v.gL, gR := v.gR, group := v.group, mute := v.mute, state := .live }

/-- An entry joins at the place its source takes (R34). -/
def insertEntry (e : Entry) : List Entry → List Entry
  | [] => [e]
  | x :: rest => if e.source < x.source then e :: x :: rest else x :: insertEntry e rest

/-- The entry of a source changed in place. -/
def updateEntry (source : Nat) (f : Entry → Entry) (l : List Entry) : List Entry := l.map fun e => if e.source == source then f e else e

/-- What a set operation did (R49). -/
inductive SetKind where
  | created | revived | replaced
  deriving DecidableEq, Repr

/-- Set entry (R39 to R41): none is the outcome POOL_FULL, which leaves everything unchanged. -/
def MixTable.setEntry (t : MixTable) (k : Nat) (v : EntryValues) : Option (MixTable × SetKind) :=
  let m := t.mix k
  match entryFor m.list v.source with
  | some e =>
    some (t.setMix k { m with list := updateEntry v.source (·.write v) m.list },
      match e.state with
      | .live => .replaced
      | .retiring => .revived)
  | none =>
    if 1 ≤ t.free then
      some ({ t.setMix k { m with list := insertEntry (Entry.create v) m.list } with free := t.free - 1 }, .created)
    else none

/-- How a retire counts a source (R42). -/
inductive RetireKind where
  | retired | already | absent
  deriving DecidableEq, Repr

/-- The entry becomes RETIRING, every other field as it is (R42). -/
def Entry.retire (e : Entry) : Entry := { e with state := .retiring }

/-- Retire entry (R42). -/
def MixTable.retireEntry (t : MixTable) (k source : Nat) : MixTable × RetireKind :=
  let m := t.mix k
  match entryFor m.list source with
  | some e =>
    match e.state with
    | .live => (t.setMix k { m with list := updateEntry source Entry.retire m.list }, .retired)
    | .retiring => (t, .already)
  | none => (t, .absent)

/-- Clear mix (R43): every entry becomes or stays RETIRING. -/
def MixTable.clearMix (t : MixTable) (k : Nat) : MixTable :=
  let m := t.mix k
  t.setMix k { m with list := m.list.map Entry.retire }

/-- The LIVE entries of a list (R53). -/
def liveCount (l : List Entry) : Nat := (l.filter (·.state == .live)).length

/-- The new entries a command needs (R48): its distinct sources with no entry in the list. -/
def newEntriesNeeded (l : List Entry) (vs : List EntryValues) : Nat :=
  (((vs.map (·.source)).filter fun x => (entryFor l x).isNone).dedup).length

/-- The counts of an applied ENTRY_WRITE (R49). -/
structure SetCounts where
  created : Nat
  revived : Nat
  replaced : Nat
  deriving DecidableEq, Repr

/-- One more set of a kind. -/
def SetCounts.add (c : SetCounts) : SetKind → SetCounts
  | .created => { c with created := c.created + 1 }
  | .revived => { c with revived := c.revived + 1 }
  | .replaced => { c with replaced := c.replaced + 1 }

/-- The records of a command applied in command order (R49). A set that met POOL_FULL would change nothing; the pool check has excluded it. -/
def MixTable.setEntries (t : MixTable) (k : Nat) : List EntryValues → SetCounts → MixTable × SetCounts
  | [], c => (t, c)
  | v :: rest, c =>
    match t.setEntry k v with
    | some (t', kind) => t'.setEntries k rest (c.add kind)
    | none => t.setEntries k rest c

/-- The counts of an ENTRY_REMOVE (R52). -/
structure RetireCounts where
  retired : Nat
  already : Nat
  absent : Nat
  deriving DecidableEq, Repr

/-- One more retire of a kind. -/
def RetireCounts.add (c : RetireCounts) : RetireKind → RetireCounts
  | .retired => { c with retired := c.retired + 1 }
  | .already => { c with already := c.already + 1 }
  | .absent => { c with absent := c.absent + 1 }

/-- The sources of a command retired in command order (R52). -/
def MixTable.retireEntries (t : MixTable) (k : Nat) : List Nat → RetireCounts → MixTable × RetireCounts
  | [], c => (t, c)
  | source :: rest, c => (t.retireEntry k source).1.retireEntries k rest (c.add (t.retireEntry k source).2)

/-- The stretch of a list that ENTRY_READ returns (R54): a count of 0 or above 20 is taken as 20. -/
def readStretch (l : List Entry) (start count : Nat) : List Entry :=
  (l.drop start).take (if count = 0 ∨ 20 < count then 20 else count)

end Sys2Proof.Machine
end

