-- ==== Sys2Proof/Machine/Records.lean ====
section
/-!
DEFINITION. The replacement of a settings record with its running-state effects, and the group mute mask (04_mix_records_groups_and_talk_priority.md, R63 to R71).
-/

namespace Sys2Proof.Machine

/-- The disable transition (R68). -/
def Mix.disable (m : Mix) : Mix := { m with mc := 0, lg := 4096, hold := 0, engaged := false }

/-- A talk source differs (R65, R75): hold counter 0 and duck state IDLE; d stays. -/
def Mix.talkChanged (m : Mix) : Mix := { m with hold := 0, engaged := false }

/-- The replacement of a settings record (R63) with the effects of R65. The enable transition changes no running state (R69); the pass
that comes next is the first after it (R102). -/
def Mix.replaceSettings (m : Mix) (new : Settings) : Mix :=
  let a := if m.cfg.talk ≠ new.talk then m.talkChanged else m
  let b := if m.cfg.enabled && !new.enabled then a.disable else a
  { b with cfg := new, justEnabled := new.enabled && (!m.cfg.enabled || m.justEnabled) }

/-- SET_MIX, or an IMMEDIATE MIX_WRITE, on the table (R63, R119). -/
def MixTable.replaceSettings (t : MixTable) (k : Nat) (new : Settings) : MixTable := t.setMix k ((t.mix k).replaceSettings new)

/-- The group mute mask replaced; no other field and no running state (R71). -/
def MixTable.setGroupMutes (t : MixTable) (k : Nat) (mask : Mask8) : MixTable :=
  t.setMix k { t.mix k with cfg := { (t.mix k).cfg with groupMutes := mask } }

end Sys2Proof.Machine
end

