-- ==== Sys2Proof/Machine/Flags.lean ====
section
/-!
DEFINITION. The flag sets and the Flag Unit's capture (06_mix_flags_and_fault_capture.md, R106 to R115).
-/

namespace Sys2Proof.Machine

/-- The flags in both sets. -/
def Flags.inter (a b : Flags) : Flags := ⟨a.headroom && b.headroom, a.stale && b.stale, a.limit && b.limit, a.clamp && b.clamp⟩

/-- The flags in either set. -/
def Flags.union (a b : Flags) : Flags := ⟨a.headroom || b.headroom, a.stale || b.stale, a.limit || b.limit, a.clamp || b.clamp⟩

/-- The flags of the first set that are not in the second. -/
def Flags.without (a b : Flags) : Flags := ⟨a.headroom && !b.headroom, a.stale && !b.stale, a.limit && !b.limit, a.clamp && !b.clamp⟩

/-- Some flag is in the set. -/
def Flags.any (a : Flags) : Bool := a.headroom || a.stale || a.limit || a.clamp

/-- The octet of a flag set (section 12.3): bits 4 to 7 are sent 0. -/
def Flags.octet (a : Flags) : Byte := Machine.octet (a.headroom.toNat + 2 * a.stale.toNat + 4 * a.limit.toNat + 8 * a.clamp.toNat)

/-- A received flag set: bits 4 to 7 are ignored (R176). -/
def Flags.ofOctet (b : Byte) : Flags := ⟨b.getLsbD 0, b.getLsbD 1, b.getLsbD 2, b.getLsbD 3⟩

/-- What an enabled mix hands the Flag Unit (R100). -/
structure PassFindings where
  flags : Flags
  sL : Int
  sR : Int
  rL : Int
  rR : Int
  lgBefore : Nat
  lgAfter : Nat
  yL : Int
  yR : Int
  deriving DecidableEq, Repr

/-- The stage a capture names (R111), from the enabled finding. -/
def captureStage (enabledFinding : Flags) : CaptureStage := if enabledFinding.limit || enabledFinding.clamp then .output else .bus

/-- The capture of a pass (R110): all its contents from that one pass and the frame number of its delivery. -/
def captureOf (p : PassFindings) (enables : Flags) (frame : FrameNo) : Capture :=
  { frame := frame, flags := p.flags, stage := captureStage (p.flags.inter enables), sL := p.sL, sR := p.sR, rL := p.rL, rR := p.rR,
    lgBefore := p.lgBefore, lgAfter := p.lgAfter, yL := p.yL, yR := p.yR }

/-- A capture is taken (R109): the enabled finding is not empty and the record is EMPTY. -/
def Mix.captures (m : Mix) (found : Flags) : Bool := (found.inter m.cfg.enables).any && m.capture.isNone

/-- Stage 10 of an enabled mix's pass (R106, R107, R109, R112). -/
def Mix.report (m : Mix) (p : PassFindings) (frame : FrameNo) : Mix :=
  { m with
    current := p.flags
    accrued := m.accrued.union p.flags
    capture := if m.captures p.flags then some (captureOf p m.cfg.enables frame) else m.capture }

/-- Stage 10 of a disabled mix's pass: the empty set (R100, R106, R107). -/
def Mix.reportNone (m : Mix) : Mix := { m with current := Flags.none }

/-- FLAGS_CLEAR on a mix (R114, R115). -/
def Mix.clearFlags (m : Mix) (echo : Flags) (release : Bool) : Mix :=
  { m with accrued := m.accrued.without echo, capture := if release then none else m.capture }

end Sys2Proof.Machine
end

