-- ==== Sys2Proof/Machine/Sources.lean ====
section
/-!
DEFINITION. The Source Store and Fade Control (02_sources_and_the_link_fade.md).
-/

namespace Sys2Proof.Machine

/-- Source k, stale when its age is above 0 (R20). -/
def SourceStore.source (st : SourceStore) (k : Nat) : Source := st.sources.getD k { sample := 0, age := 255 }

/-- A source is stale when its age is above 0 (R20). -/
def Source.stale (x : Source) : Bool := 0 < x.age

/-- A GOOD delivery (R21): source k takes the sample of slot k. -/
def SourceStore.takeGood (st : SourceStore) (slots : List Int) : SourceStore :=
  { sources := (List.range 64).map fun k => { sample := slots.getD k 0, age := 0 }
    bad := 0
    good := rise st.good }

/-- A MARKED, CORRUPT or NONE delivery (R22): the samples are held, every age rises and holds at 255. -/
def SourceStore.holdBad (st : SourceStore) : SourceStore :=
  { sources := st.sources.map fun x => { x with age := if x.age < 255 then x.age + 1 else x.age }
    good := 0
    bad := rise st.bad }

/-- The Source Store applies a delivery (R21, R22). -/
def SourceStore.apply (st : SourceStore) (cls : DeliveryClass) (slots : List Int) : SourceStore :=
  match cls with
  | .good => st.takeGood slots
  | .marked => st.holdBad
  | .corrupt => st.holdBad
  | .nothing => st.holdBad

/-! ### Fade Control (R24 to R28) -/

/-- The state test (R24 part 1, R25, R26). -/
def Fade.test (x : FadeState) (bad good : Nat) (power : PowerState) : FadeState :=
  match x with
  | .opened => if 8 ≤ bad then .closing else .opened
  | .opening => if 8 ≤ bad then .closing else .opening
  | .closing => if 16 ≤ good ∧ power = .run then .opening else .closing
  | .shut => if 16 ≤ good ∧ power = .run then .opening else .shut

/-- The movement of f (R24 part 2): the fade-out step is 128. -/
def Fade.move (x : FadeState) (coeff step : Nat) : Nat :=
  match x with
  | .opened => 4096
  | .closing => coeff - 128
  | .shut => 0
  | .opening => min 4096 (coeff + step)

/-- The end test (R24 part 3). -/
def Fade.endTest (x : FadeState) (coeff : Nat) : FadeState :=
  match x with
  | .closing => if coeff = 0 then .shut else .closing
  | .opening => if coeff = 4096 then .opened else .opening
  | .opened => .opened
  | .shut => .shut

/-- One step of Fade Control (R24). -/
def Fade.next (fd : Fade) (bad good : Nat) (power : PowerState) : Fade :=
  let tested := Fade.test fd.state bad good power
  let moved := Fade.move tested fd.coeff fd.step
  { fd with state := Fade.endTest tested moved, coeff := moved }

/-- The step takes the fade from CLOSING into SHUT (R25, R28). -/
def Fade.shuts (fd : Fade) (bad good : Nat) (power : PowerState) : Bool :=
  Fade.test fd.state bad good power == .closing && (fd.next bad good power).state == .shut

/-- The fade's step on a delivery: in RUN, entering SHUT from CLOSING raises LINK_SILENT (R25). -/
def State.fadeStep (s : State) : State :=
  (s.withFade (s.fade.next s.store.bad s.store.good s.intake.power)).raiseIf
    (s.fade.shuts s.store.bad s.store.good s.intake.power && s.intake.power == .run) .linkSilent

/-- The step reports SHUT to the Command Intake: it enters SHUT while the power state is QUIESCING (R28). -/
def State.reportsShut (s : State) : Bool :=
  s.fade.shuts s.store.bad s.store.good s.intake.power && s.intake.power == .quiescing

/-- POWER QUIET taken in RUN acts on the fade (R28): OPEN and OPENING become CLOSING, f as it stands. -/
def Fade.startClose (fd : Fade) : Fade :=
  match fd.state with
  | .opened => { fd with state := .closing }
  | .opening => { fd with state := .closing }
  | .closing => fd
  | .shut => fd

/-- The code of a fade state (section 12.4). -/
def FadeState.code : FadeState → Nat
  | .opened => 0
  | .closing => 1
  | .shut => 2
  | .opening => 3

end Sys2Proof.Machine
end

