-- ==== Sys2Proof/Machine/MixPass.lean ====
section
/-!
DEFINITION. The mix pass of one mix (05_the_mix_pass.md, R80 to R105; the talk detector R72 to R76; retire completion R44). The pass over the mixes stands in Chain.lean.
-/

namespace Sys2Proof.Machine

/-- What every mix of one pass reads (R82): the Source Store after the delivery's update, f after the fade's step, and the delivery's local frame number. -/
structure PassInput where
  store : SourceStore
  coeff : Nat
  frame : FrameNo
  deriving DecidableEq, Repr

/-! ### Stage 1: the talk detector (R72, R73) -/

/-- The talk source is fresh and its sample's magnitude is T or more (R73). -/
def talkDetected (st : SourceStore) (k threshold : Nat) : Bool := !(st.source k).stale && threshold ≤ (st.source k).sample.natAbs

/-- One run of the detector (R73). -/
def Mix.detectRun (m : Mix) (st : SourceStore) (k : Nat) : Mix :=
  if talkDetected st k m.cfg.threshold then { m with hold := m.cfg.holdTime, engaged := true }
  else if 0 < m.hold then { m with hold := m.hold - 1, engaged := 0 < m.hold - 1 }
  else { m with hold := 0, engaged := false }

/-- The detector runs when the mix is enabled and its talk source is 0 to 63 (R72). -/
def Mix.detect (m : Mix) (st : SourceStore) : Mix :=
  match m.cfg.talk with
  | some k => if m.cfg.enabled then m.detectRun st k else m
  | none => m

/-! ### Stage 2: the ramps (R38, R74, R83 to R85) -/

/-- One ramp step of a current toward a target (R83). -/
def ramp (x target step : Nat) : Nat := if x < target then min target (x + step) else if target < x then max target (x - step) else x

/-- The entry is silenced: RETIRING, muted, or of a muted group (R38). -/
def Entry.silenced (e : Entry) (mutes : Mask8) : Bool :=
  e.state == .retiring || e.mute ||
    match e.group with
    | some g => mutes.getLsbD g
    | none => false

/-- The effective target of a side with gain g (R38). -/
def Entry.target (e : Entry) (mutes : Mask8) (g : Nat) : Nat := if e.silenced mutes then 0 else g

/-- The ramp of an entry's two currents (R84). -/
def Entry.ramped (e : Entry) (mutes : Mask8) (step : Nat) : Entry :=
  { e with cL := ramp e.cL (e.target mutes e.gL) step, cR := ramp e.cR (e.target mutes e.gR) step }

/-- The duck target (R74). -/
def Mix.duckTarget (m : Mix) : Nat := if m.engaged then m.cfg.depth else 4096

/-- The ramp of the duck current: the step goes by the direction of the move (R74, R85). -/
def Mix.duckRamped (m : Mix) : Nat := ramp m.duck m.duckTarget (if m.duckTarget < m.duck then m.cfg.attack else m.cfg.release)

/-- The ramp stage (R84, R85). -/
def Mix.rampStage (m : Mix) : Mix :=
  { m with
    list := m.list.map (·.ramped m.cfg.groupMutes m.cfg.ramp)
    mc := ramp m.mc (if m.cfg.enabled then m.cfg.master else 0) m.cfg.ramp
    duck := m.duckRamped }

/-! ### Stage 3: retire completion (R44) -/

/-- A RETIRING entry with both currents 0 (R44). -/
def Entry.completes (e : Entry) : Bool := e.state == .retiring && e.cL == 0 && e.cR == 0

/-- Retire completion: such entries leave the list (R44). -/
def Mix.complete (m : Mix) : Mix := { m with list := m.list.filter (!·.completes) }

/-! ### Stages 4 to 9 of an enabled mix -/

/-- s × c of an entry on a side (R87). -/
def entryProduct (st : SourceStore) (current : Entry → Nat) (e : Entry) : Int := (st.source e.source).sample * (current e : Int)

/-- The entry is the talk entry (R76). -/
def Mix.isTalk (m : Mix) (e : Entry) : Bool := m.cfg.talk == some e.source

/-- P_rest (R87). -/
def Mix.sumRest (m : Mix) (st : SourceStore) (current : Entry → Nat) : Int :=
  ((m.list.filter (!m.isTalk ·)).map (entryProduct st current)).sum

/-- P_talk (R87). -/
def Mix.sumTalk (m : Mix) (st : SourceStore) (current : Entry → Nat) : Int :=
  ((m.list.filter (m.isTalk ·)).map (entryProduct st current)).sum

/-- The bus sum S of a side (R88). -/
def Mix.busSum (m : Mix) (st : SourceStore) (current : Entry → Nat) : Int :=
  m.sumRest st current * (m.duck : Int) + m.sumTalk st current * 4096

/-- The side is outside the 24-bit range (R89): S below −2^47, or 2^47 and above. -/
def overRange (s : Int) : Bool := s < -140737488355328 || 140737488355328 ≤ s

/-- The integer of a rounding mode for n / d, d above 0 (R91). -/
def roundQuotient (mode : Rounding) (n : Int) (d : Nat) : Int :=
  match mode with
  | .floor => n / (d : Int)
  | .towardZero => n.tdiv (d : Int)
  | .nearestEven =>
    let q := n / (d : Int)
    let r2 := 2 * (n % (d : Int))
    if r2 < (d : Int) then q else if (d : Int) < r2 then q + 1 else if q % 2 = 0 then q else q + 1

/-- The scaled value r of a side (R90): V / 2^48 rounded, with mc as the ramp stage left it. In the first pass after an enable transition r is 0, as R102 says of
that pass, and mc has moved all the same (DESIGN CHOICE against R90's general form, log 27). -/
def Mix.scaled (m : Mix) (coeff : Nat) (s : Int) : Int :=
  if m.justEnabled then 0 else roundQuotient m.cfg.rounding (s * (m.mc : Int) * (coeff : Int)) 281474976710656

/-- Lcap (R93). -/
def limiterCap (ceiling : Nat) (rL rR : Int) : Nat :=
  let peak := max rL.natAbs rR.natAbs
  if peak = 0 then 4096 else min 4096 (ceiling * 4096 / peak)

/-- The limiter gain after its stage (R94): attack, or release by Rl up to Lcap. -/
def limiterGain (lg cap release : Nat) : Nat := if cap < lg then max 1 cap else min (lg + release) cap

/-- y of a side before the clamp (R97). -/
def Mix.rounded (m : Mix) (r : Int) (lg : Nat) : Int := roundQuotient m.cfg.rounding (r * (lg : Int)) 4096

/-- The ceiling clamp (R97). -/
def clampTo (ceiling : Nat) (y : Int) : Int := if (ceiling : Int) < y then ceiling else if y < -(ceiling : Int) then -(ceiling : Int) else y

/-- STALE (R99): some entry with a current above 0 has a stale source. -/
def Mix.staleFound (m : Mix) (st : SourceStore) : Bool := m.list.any fun e => (0 < e.cL || 0 < e.cR) && (st.source e.source).stale

/-- Stages 4 to 9 (R87 to R99), over what stages 1 to 3 have left. -/
def Mix.findings (m : Mix) (input : PassInput) : PassFindings :=
  let sL := m.busSum input.store Entry.cL
  let sR := m.busSum input.store Entry.cR
  let rL := m.scaled input.coeff sL
  let rR := m.scaled input.coeff sR
  let lg := limiterGain m.lg (limiterCap m.cfg.ceiling rL rR) m.cfg.limRelease
  let yL := m.rounded rL lg
  let yR := m.rounded rR lg
  { flags :=
      { headroom := overRange sL || overRange sR
        stale := m.staleFound input.store
        limit := lg < 4096
        clamp := clampTo m.cfg.ceiling yL != yL || clampTo m.cfg.ceiling yR != yR }
    sL := sL, sR := sR, rL := rL, rR := rR, lgBefore := m.lg, lgAfter := lg
    yL := clampTo m.cfg.ceiling yL, yR := clampTo m.cfg.ceiling yR }

/-! ### The pass of one mix and of the unit -/

/-- Stages 1 to 3 (R81). -/
def Mix.prepare (m : Mix) (st : SourceStore) : Mix := ((m.detect st).rampStage).complete

/-- One mix's action in a pass (R81): the enabled field is read once, at its begin. A disabled mix publishes 0 and keeps Lg at 4096, and so does
an enabled one in its first pass after the enable transition, which makes every stage with r at 0 (R102, log 27). -/
def Mix.pass (m : Mix) (input : PassInput) : Mix :=
  let p := m.prepare input.store
  if m.cfg.enabled then
    let f := p.findings input
    { p.report f input.frame with lg := f.lgAfter, yL := f.yL, yR := f.yR, justEnabled := false }
  else { p.reportNone with lg := 4096, yL := 0, yR := 0, justEnabled := false }

/-- The mix's pass takes a capture (R109). -/
def Mix.passCaptures (m : Mix) (input : PassInput) : Bool :=
  m.cfg.enabled && (m.prepare input.store).captures ((m.prepare input.store).findings input).flags

/-- The entries retire completion returns to the pool in a mix's pass (R44, R86). -/
def Mix.passReturns (m : Mix) (input : PassInput) : Nat := m.list.length - (m.pass input).list.length

/-- One mix's action on its list, entries, record and running state, and on the pool (R80): no mix's work reads another's. -/
def MixTable.passMix (t : MixTable) (k : Nat) (input : PassInput) : MixTable :=
  { t.setMix k ((t.mix k).pass input) with free := t.free + (t.mix k).passReturns input }

/-- What the pass of a delivery reads (R82). -/
def State.passInput (s : State) : PassInput := { store := s.store, coeff := s.fade.coeff, frame := s.rx.localFrame }

/-- One mix's action in a pass: its stages, the published pair held by the Output Lane Driver (R101), and MIX_FAULT for a capture taken (R109). -/
def State.mixAction (s : State) (input : PassInput) (k : Nat) : State :=
  let m := (s.table.mix k).pass input
  ((s.withTable (s.table.passMix k input)).withLanes { s.lanes with held := s.lanes.held.set k (m.yL, m.yR) }).raiseIf
    ((s.table.mix k).passCaptures input) .mixFault

end Sys2Proof.Machine
end

