-- ==== Sys2Proof/Machine/Commit.lean ====
section
/-!
DEFINITION. The Staging Queue's room, the commit slot, its test at a delivery and the firing (07_staged_edits_and_scene_commit.md, R119 to R132).
-/

namespace Sys2Proof.Machine

/-- The records fit: not more than 128 minus the staging count (R120). -/
def Staging.hasRoom (st : Staging) (records : Nat) : Bool := records ≤ Config.stagingSize - st.queue.length

/-- One record applied by the operation of R119; none: a SET_ENTRY met POOL_FULL and is skipped (R128). -/
def MixTable.applyEdit (t : MixTable) : StagedEdit → Option MixTable
  | .setEntry k source gL gR group mute => (t.setEntry k ⟨source, gL, gR, group, mute⟩).map (·.1)
  | .retireEntry k source => some (t.retireEntry k source).1
  | .clearMix k => some (t.clearMix k)
  | .setMix k cfg => some (t.replaceSettings k cfg)
  | .setGroupMutes k mask => some (t.setGroupMutes k mask)

/-- The records applied so far, those skipped, and the position of the first skipped (R129). -/
structure FiringCounts where
  applied : Nat
  skipped : Nat
  first : Option Nat
  deriving DecidableEq, Repr

/-- The records in queue order from a position, each finding the tables as those before it left them (R127, R128). -/
def MixTable.applyEdits (t : MixTable) : List StagedEdit → Nat → FiringCounts → MixTable × FiringCounts
  | [], _, c => (t, c)
  | e :: rest, position, c =>
    match t.applyEdit e with
    | some t' => t'.applyEdits rest (position + 1) { c with applied := c.applied + 1 }
    | none => t.applyEdits rest (position + 1) { c with skipped := c.skipped + 1, first := if c.first.isNone then some position else c.first }

/-- The firing (R127 to R129): every record applied or skipped, the queue emptied, the slot DISARMED, the report written, COMMIT_DONE raised. -/
def State.fire (s : State) (request : CommitRequest) : State :=
  let result := s.table.applyEdits s.staging.queue 1 { applied := 0, skipped := 0, first := none }
  ((s.withTable result.1).withStaging
    { queue := []
      slot := .disarmed
      report := some
        { frameFired := s.rx.localFrame, request := request, applied := result.2.applied, skipped := result.2.skipped,
          firstSkipped := result.2.first } }).raise .commitDone

/-- Frame N has been reached or passed (R125). -/
def frameReached (now n : FrameNo) : Bool := (now - n).toNat < 32768

/-- The firing test of a trigger (R125). -/
def CommitTrigger.reached (t : CommitTrigger) (now : FrameNo) : Bool :=
  match t with
  | .nextDelivery => true
  | .frame n => frameReached now n

/-- The Commit Scheduler's stage of a delivery (R125, R31 stage 1). -/
def State.commitStage (s : State) : State :=
  match s.staging.slot with
  | .disarmed => s
  | .armed trigger request => if trigger.reached s.rx.localFrame then s.fire request else s

/-- Arming the slot for AT_FRAME N (R124): on time at a distance of 1 to 32,767, otherwise late, for the next delivery. -/
def slotAtFrame (now n : FrameNo) : CommitSlot :=
  if 1 ≤ (n - now).toNat ∧ (n - now).toNat ≤ 32767 then .armed (.frame n) (.atFrame n false) else .armed .nextDelivery (.atFrame n true)

/-- A slot or a trigger disarmed, three octets (section 12.4). -/
def CommitSlot.octets : CommitSlot → List Byte
  | .disarmed => [0, 0, 0]
  | .armed .nextDelivery _ => [1, 0, 0]
  | .armed (.frame n) _ => 2 :: be 2 n.toNat

/-- The request of a report and its N (section 12.4); NEXT names no N, sent as zero (R177). -/
def CommitRequest.octets : CommitRequest → List Byte
  | .next => [0, 0, 0]
  | .atFrame n late => (if late then 2 else 1) :: be 2 n.toNat

/-- The commit report, nine octets (section 12.4); every field of a report that is none is zero (R177). -/
def reportOctets : Option CommitReport → List Byte
  | none => List.replicate 9 0
  | some r => [1] ++ be 2 r.frameFired.toNat ++ r.request.octets ++ [octet r.applied, octet r.skipped, octet (r.firstSkipped.getD 0)]

end Sys2Proof.Machine
end

