-- ==== Sys2Proof/Machine/LaneIn.lean ====
section
/-!
DEFINITION. The Control Lane's reception and hold buffer (09_the_control_lane.md, R147 to R155).
-/

namespace Sys2Proof.Machine

/-- The receive state and the receive buffer set. -/
def State.receive (s : State) (rx : ReceiveState) (buffer : List Byte) : State := s.withLane { s.lane with rx := rx, buffer := buffer }

/-- The reserved count of a hold buffer (R152): each message's frame count less its frames emitted. -/
def reservedFrames (hold : List HoldMessage) : Nat := (hold.map fun m => m.total - m.emitted).sum

/-- A pass-through message of F frames fits (R152). -/
def State.admits (s : State) (total : Nat) : Bool := reservedFrames s.lane.hold + total ≤ Config.holdFrames

/-- A pass-through message at its FIRST frame (R152): admitted with its whole F reserved and its FIRST frame held, or dropped. The eight octets of each frame are held
and later emitted as they came, those beyond the check with them (DESIGN CHOICE, log 25). -/
def State.holdForward (s : State) (total : Nat) (octets : List Byte) : State :=
  if s.admits total then
    s.withLane { s.lane with hold := s.lane.hold ++ [{ total := total, frames := [octets], emitted := 0, spoiled := false }] }
  else s.dropLane

/-- The last message of the hold buffer changed: the one being received, while its forward part is admitted. -/
def changeLast (f : HoldMessage → HoldMessage) : List HoldMessage → List HoldMessage
  | [] => []
  | [m] => [f m]
  | m :: rest => m :: changeLast f rest

/-- The message being received, spoiled (R153): not begun, it leaves the hold buffer and its reservation is released; begun, it is marked. -/
def spoilLast : List HoldMessage → List HoldMessage
  | [] => []
  | [m] => if m.emitted = 0 then [] else [{ m with spoiled := true }]
  | m :: rest => m :: spoilLast rest

/-- The message in progress is spoiled (R150, R153): WAITING; its LOCAL part is discarded and counted, its admitted FORWARD part is a drop. -/
def State.spoil (s : State) : State :=
  match s.lane.rx with
  | .waiting => s
  | .receiving r =>
    let waiting := s.receive .waiting []
    let counted := if r.toLocal then waiting.countFraming else waiting
    if r.toForward && r.admitted then (counted.withLane { counted.lane with hold := spoilLast counted.lane.hold }).dropLane else counted

/-- A complete LOCAL message (R151): header, payload and check verified, then handed to the Command Intake (R160). -/
def State.verifyLocal (s : State) (m : List Byte) : State :=
  let length := (m.getD 4 0).toNat
  if messageCheck (m.take (5 + length)) = BitVec.ofNat 16 (field m (5 + length) 2) then
    s.handOver (m.getD 2 0) (m.getD 1 0) (m.getD 3 0) ((m.drop 5).take length)
  else s.checkError

/-- The number an ENUMERATE gives the unit (R154): n from 1 to 32, otherwise unassigned. -/
def enumeratedUnit (n : Byte) : Option Nat := if 1 ≤ n.toNat ∧ n.toNat ≤ 32 then some n.toNat else none

/-- The ENUMERATE message a unit forwards (R154): n + 1 and its check when the unit took a number, otherwise unchanged. -/
def enumerateForward (octets : List Byte) : List Byte :=
  if (enumeratedUnit (octets.getD 5 0)).isSome then
    let m := octets.take 5 ++ [octet ((octets.getD 5 0).toNat + 1)]
    m ++ be 2 (messageCheck m).toNat
  else octets

/-- A message with disposition ENUMERATE, a single lane frame (R154). -/
def State.enumerate (s : State) (octets : List Byte) : State :=
  if messageCheck (octets.take 6) = BitVec.ofNat 16 (field octets 6 2) then
    (s.withLane { s.lane with unit := enumeratedUnit (octets.getD 5 0) }).holdForward 1 (enumerateForward octets)
  else s.checkError

/-- What becomes of a message (R149). -/
inductive Disposition where
  | enumerate
  | parts (toLocal toForward : Bool)
  deriving DecidableEq, Repr

/-- The disposition of a header, the first row of R149 that matches. -/
def disposition (unit : Option Nat) (dest kind : Byte) (length : Nat) : Disposition :=
  if kind.toNat = 0x82 ∧ dest.toNat = 255 ∧ length = 1 then .enumerate
  else if dest.toNat = 255 then .parts true true
  else if unit = some dest.toNat then .parts true false
  else .parts false true

/-- The parts of a message at its FIRST frame, once its disposition is decided (R149). -/
def State.beginMessage (s : State) (toLocal toForward : Bool) (length : Nat) (octets : List Byte) : State :=
  let total := frameCount length
  let admitted := toForward && s.admits total
  let held := if toForward then s.holdForward total octets else s
  let buffer := if toLocal then octets.take (7 + length) else []
  if total = 1 then
    if toLocal then held.verifyLocal buffer else held
  else
    held.receive
      (.receiving { toLocal := toLocal, toForward := toForward, admitted := admitted, octets := 7 + length, expected := total, received := 1 }) buffer

/-- A FIRST frame arrives (R149): a message in progress is spoiled, a LENGTH above 240 is a framing error, otherwise the disposition decides. -/
def State.laneFirst (s : State) (octets : List Byte) : State :=
  let s := s.spoil
  let length := (octets.getD 4 0).toNat
  if 240 < length then s.countFraming
  else
    match disposition s.lane.unit (octets.getD 0 0) (octets.getD 2 0) length with
    | .enumerate => s.enumerate octets
    | .parts toLocal toForward => s.beginMessage toLocal toForward length octets

/-- A CONT frame arrives (R150): outside a message a framing error; otherwise it joins the message, which is complete at its F-th frame. -/
def State.laneCont (s : State) (octets : List Byte) : State :=
  match s.lane.rx with
  | .waiting => s.countFraming
  | .receiving r =>
    let held :=
      if r.toForward && r.admitted then
        s.withLane { s.lane with hold := changeLast (fun m => { m with frames := m.frames ++ [octets] }) s.lane.hold }
      else s
    let buffer := if r.toLocal then (s.lane.buffer ++ octets).take r.octets else []
    if r.received + 1 < r.expected then held.receive (.receiving { r with received := r.received + 1 }) buffer
    else
      let done := held.receive .waiting []
      if r.toLocal then done.verifyLocal buffer else done

/-- One valid lane frame by its kind (R147, R149, R150). -/
def State.laneFrame (s : State) (f : ReceivedFrame) : State :=
  match f.kind with
  | .idle => s.spoil
  | .first => s.laneFirst f.lane
  | .cont => s.laneCont f.lane
  | .abort => s.spoil

/-- What a delivery hands the Lane Controller (R147): the lane of a GOOD or MARKED frame; CORRUPT and NONE hand no valid lane, which spoils a message. -/
def State.laneDeliver (s : State) (cls : DeliveryClass) (frame : Option ReceivedFrame) : State :=
  match cls, frame with
  | .good, some f => s.laneFrame f
  | .marked, some f => s.laneFrame f
  | _, _ => s.spoil

end Sys2Proof.Machine
end

