-- ==== Sys2Proof/Machine/Link.lean ====
section
/-!
DEFINITION. The Link Receiver's sync states and the Frame Timebase (01_the_stage_link.md, R3 to R15), and the first stage of a delivery (R9 to R11, R13).
-/

namespace Sys2Proof.Machine

/-- FOLLOW while the sync state is LOCKED or HOLDOVER, FREE_RUN otherwise (R14); after an adoption of the received phase, from the next period on (R15). -/
def State.follow (s : State) : Bool := (s.rx.sync == .locked || s.rx.sync == .holdover) && !s.tb.adopted

/-- A position lies within 4 bit-times either side of the expected one (R3). -/
def LinkReceiver.inWindow (r : LinkReceiver) (pos : Nat) : Bool := pos ≤ r.expected + Config.window && r.expected ≤ pos + Config.window

/-- The sync at this position becomes the reference (R3). -/
def LinkReceiver.refer (r : LinkReceiver) (pos : Nat) : LinkReceiver := { r with reference := some pos, expected := pos + Config.framePeriod }

/-- An expected position is settled at this position, and the period in progress ends here (R14). In the period that adopts the received phase the end is the one
that R15 fixed; and where the lengthened one ended at the expected position, the frame event of that position has been, and ends no second period (R15, log 8). -/
def Timebase.endAt (t : Timebase) (expected pos : Nat) : Timebase :=
  if t.adopted || expected ≤ t.periodStart then t else { t with periodEnd := pos, due := true }

/-- The received phase is adopted at the third sync (R15): the period is shortened to end at it, or lengthened to end 2,048 bit-times after it, whatever
sync is found or missed there. -/
def Timebase.adopt (t : Timebase) (pos : Nat) : Timebase :=
  if t.periodStart + 1024 ≤ pos then { t with periodEnd := pos, due := true, adopted := true }
  else { t with periodEnd := pos + Config.framePeriod, due := false, adopted := true }

/-! ### The moments a lane frame has passed (log 26) -/

/-- Positions of the lane frame begun so many bit-times after its frame event (R137): one in each 32 bit clocks, 256 bit-times. A position that begins at this very
moment counts as begun (DESIGN CHOICE, log 28). -/
def begunAfter (bitTimes : Nat) : Nat := min 8 (bitTimes / 256 + 1)

/-- Positions surely begun at this line position: in FOLLOW the bit clocks are spread over a period whose end the next sync moves (R137), and a position may begin
up to that much later. -/
def State.begunAt (s : State) (pos : Nat) : Nat := begunAfter (pos - s.tb.periodStart - if s.follow then Config.window else 0)

/-- A step of the line says that this line position is reached (log 26). -/
def State.note (s : State) (pos : Nat) : State := s.withBegun (max (min 8 s.begun) (s.begunAt pos))

/-- The window of the expected position is reached and closes (R3). -/
def State.noteClose (s : State) : State := s.note (s.rx.expected + Config.window)

/-! ### Syncs found and missing -/

/-- The confirm count reaches 3 (R5): LOCKED, the frame of this sync is accepted, its delivery will raise LINK_LOCKED (R13, log 5), the phase is adopted (R15). -/
def State.lock (s : State) (pos : Nat) : State :=
  (s.withRx { s.rx.refer pos with sync := .locked, confirm := 0, accepted := some pos, lockedDue := true }).withTb (s.tb.adopt pos)

/-- A sync found in LOCKED or HOLDOVER at the expected position (R6, R7): LOCKED, the frame is accepted, and the frame event occurs here (R14). -/
def State.keepLock (s : State) (pos : Nat) : State :=
  (s.withRx { s.rx.refer pos with sync := .locked, miss := 0, accepted := some pos }).withTb (s.tb.endAt s.rx.expected pos)

/-- What a sync pattern found does to the receiver and the timebase (R3 to R7). -/
def State.takeSync (s : State) (pos : Nat) : State :=
  match s.rx.sync with
  | .search => s.withRx { s.rx.refer pos with sync := .confirm, confirm := 1 }
  | .confirm =>
    if s.rx.inWindow pos then
      if s.rx.confirm + 1 < 3 then s.withRx { s.rx.refer pos with confirm := s.rx.confirm + 1 } else s.lock pos
    else s
  | .locked => if s.rx.inWindow pos then s.keepLock pos else s
  | .holdover => if s.rx.inWindow pos then s.keepLock pos else s

/-- A sync pattern is found (R3 to R7): its line position is reached, also where it is not acted upon. -/
def State.syncFound (s : State) (pos : Nat) : State := (s.note pos).takeSync pos

/-- The miss count reaches 8 (R7): SEARCH, no reference, the NONE delivery to come raises LINK_LOST (R13, log 5), and the timebase free-runs (R14). -/
def State.lose (s : State) : State :=
  (s.noteClose.withRx { s.rx with sync := .search, miss := 0, reference := none, missed := true, lostDue := true }).withTb
    (s.tb.endAt s.rx.expected (s.rx.expected + Config.window))

/-- A missing sync in LOCKED or HOLDOVER short of the eighth (R6, R7): HOLDOVER with the count given, the next position expected 2,048 bit-times on (R3), and the
frame event as the window closes (R14). -/
def State.miss (s : State) (count : Nat) : State :=
  (s.noteClose.withRx { s.rx with sync := .holdover, miss := count, expected := s.rx.expected + Config.framePeriod, missed := true }).withTb
    (s.tb.endAt s.rx.expected (s.rx.expected + Config.window))

/-- The window of the expected position closes with no sync (R3, R5 to R7). In SEARCH nothing is expected (R4). -/
def State.syncMissing (s : State) : State :=
  match s.rx.sync with
  | .search => s
  | .confirm => s.noteClose.withRx { s.rx with sync := .search, confirm := 0, reference := none }
  | .locked => s.miss 1
  | .holdover => if s.rx.miss + 1 < 8 then s.miss (s.rx.miss + 1) else s.lose

/-- The counters 1 to 5 at a delivery (R11): the failed tests of a CORRUPT frame, a MARKED delivery, a NONE delivery caused by a missing sync. -/
def LinkCounters.atDelivery (c : LinkCounters) (cls : DeliveryClass) (frame : Option ReceivedFrame) (missed : Bool) : LinkCounters :=
  match cls, frame with
  | .corrupt, some f =>
    { c with
      codingViolations := if f.codingBad then rise c.codingViolations else c.codingViolations
      frameCheckErrors := if f.checkBad then rise c.frameCheckErrors else c.frameCheckErrors
      trailerErrors := if f.trailerBad then rise c.trailerErrors else c.trailerErrors }
  | .marked, _ => { c with inheritedDamage := rise c.inheritedDamage }
  | .nothing, _ => if missed then { c with missedSyncs := rise c.missedSyncs } else c
  | _, _ => c

/-- The local frame number at a delivery (R10). -/
def nextFrameNumber (now : FrameNo) (cls : DeliveryClass) (frame : Option ReceivedFrame) : FrameNo :=
  match cls, frame with
  | .good, some f => f.number
  | .marked, some f => f.number
  | _, _ => now + 1

/-- An accepted frame whose trailer ends within the period in progress (R8). -/
def State.frameInPeriod (s : State) : Bool :=
  match s.rx.accepted with
  | some pos => pos + Config.trailerEnd ≤ s.tb.periodEnd
  | none => false

/-- Bit-times from the begin of the period to its delivery (R8): 1,664 after an accepted frame's sync, or the delivery point. -/
def State.deliveryTime (s : State) (isFrame : Bool) : Nat :=
  match isFrame, s.rx.accepted with
  | true, some pos => pos + Config.trailerEnd - s.tb.periodStart
  | _, _ => min Config.trailerEnd (s.tb.periodEnd - s.tb.periodStart)

/-- Positions of the lane frame begun at the delivery (R8, R137). -/
def State.begunAtDelivery (s : State) (isFrame : Bool) : Nat := begunAfter (s.deliveryTime isFrame)

/-- The first stage of a delivery (R9): the local frame number (R10), the counters (R11) and the events (R13). An accepted frame's delivery uses up the acceptance
and raises LINK_LOCKED when it is due, a NONE delivery the missing sync and LINK_LOST. Its moment says how many positions of the lane frame have begun (log 26). -/
def State.settleLink (s : State) (cls : DeliveryClass) (frame : Option ReceivedFrame) : State :=
  let isFrame := frame.isSome
  let r := s.rx
  let s' := s.withRx { r with
    localFrame := nextFrameNumber r.localFrame cls frame
    counters := r.counters.atDelivery cls frame r.missed
    accepted := if isFrame then none else r.accepted
    lockedDue := if isFrame then false else r.lockedDue
    missed := if isFrame then r.missed else false
    lostDue := if isFrame then r.lostDue else false }
  ((s'.withBegun (s.begunAtDelivery isFrame)).raiseIf (isFrame && r.lockedDue) .linkLocked).raiseIf (!isFrame && r.lostDue) .linkLost

end Sys2Proof.Machine
end

