-- ==== Sys2Proof/Machine/Delivery.lean ====
section
/-!
DEFINITION. The stages of a delivery that touch no command (R8, R9, R31) and the completion of POWER QUIET (R167).
-/

namespace Sys2Proof.Machine

/-- The values of a lane frame as its positions carry them when QUIET comes with this many positions begun (R140): those begun go on, those that begin later carry
0, also after a return to RUN. -/
def silenceFrom (begun : Nat) (values : List Int) : List Int := values.zipIdx.map fun x => if x.2 % 8 < begun then x.1 else 0

/-- The driver as QUIET comes (R140, R146): the held pairs, and with them the held cue pair, become 0, and so do the positions not yet begun. -/
def OutputLanes.quiet (l : OutputLanes) (begun : Nat) : OutputLanes :=
  { l with held := List.replicate 16 (0, 0), frame := l.frame.map (silenceFrom begun) }

/-- The power state becomes QUIET with this many positions of the lane frame begun (R167). -/
def State.enterQuiet (s : State) (begun : Nat) : State :=
  ((s.withIntake { s.intake with power := .quiet }).withLanes (s.lanes.quiet begun)).withBegun begun

/-- Bit-times of the period in progress that have passed at most: to the delivery that it still owes (R8), or to its end; and to the close of the window of the
position expected next (R3). -/
def State.passedAtMost (s : State) : Nat :=
  let period := if s.tb.owed then s.deliveryTime s.frameInPeriod else s.tb.periodEnd - s.tb.periodStart
  if s.rx.reference.isSome then min period (s.rx.expected + Config.window - s.tb.periodStart) else period

/-- The positions that have surely begun (log 26): those at the last moment of the lane frame that a step of the period has shown. -/
def State.begunAtLeast (s : State) : Nat := min 8 s.begun

/-- The positions that may have begun (log 26). -/
def State.begunAtMost (s : State) : Nat := max s.begunAtLeast (begunAfter s.passedAtMost)

/-- The positions begun at a moment that is open (log 26): a free value between the two. -/
def State.drawBegun (s : State) : Nat := max s.begunAtLeast (min s.begunAtMost (Config.positionsBegun s.freeIdx))

/-- The POWER reply's kind data (R166): the power state before and after. -/
def powerAnswer (before after : PowerState) : Answer := .done [octet before.code, octet after.code]

/-- POWER QUIET completes (R167), in one action at the report of SHUT: QUIET, held pairs 0, the reply composed into its place, the executing slot empty. -/
def State.completeQuiet (s : State) (begun : Nat) : State :=
  match s.intake.executing with
  | some c => (s.enterQuiet begun).completeCommand c (powerAnswer .run .quiet)
  | none => s.enterQuiet begun

/-- The Source Store applies the delivery (R31 stage 2). -/
def State.applySources (s : State) (cls : DeliveryClass) (frame : Option ReceivedFrame) : State :=
  s.withStore (s.store.apply cls ((frame.map (·.slots)).getD []))

/-- The frame of a delivery is held for the Link Transmitter, and the period's delivery is made (R8, R9). -/
def State.holdDelivered (s : State) (cls : DeliveryClass) (frame : Option ReceivedFrame) : State :=
  (s.withTx { s.tx with heldFrame := frame.map fun f => { cls := cls, number := f.number, flags := f.flags, slots := f.slots } }).withTb
    { s.tb with owed := false }

end Sys2Proof.Machine
end

