-- ==== Sys2Proof/Machine/Operands.lean ====
section
/-!
DEFINITION. The operand forms: what the payload octets of each command carry, the generic length check (R162), the clamps (R47, R61, R27), the codes refused
(R176), and the records of replies (12.3, 12.4).
-/

namespace Sys2Proof.Machine

/-- The octet at an offset of a payload, as a number. -/
def at8 (p : List Byte) (offset : Nat) : Nat := (p.getD offset 0).toNat

/-- The two-octet field at an offset. -/
def at16 (p : List Byte) (offset : Nat) : Nat := field p offset 2

/-- The three-octet field at an offset. -/
def at24 (p : List Byte) (offset : Nat) : Nat := field p offset 3

/-- The payload length is right for the kind (R162, section 12.2): fixed, or for ENTRY_WRITE and ENTRY_REMOVE the fixed part and the octets of the count. -/
def lengthRight (kind : Byte) (p : List Byte) : Bool :=
  match kind.toNat with
  | 0x01 => p.length == 0
  | 0x02 => p.length == 0
  | 0x03 => p.length == 0
  | 0x04 => p.length == 3
  | 0x05 => p.length == 1
  | 0x06 => p.length == 1
  | 0x07 => p.length == 27
  | 0x08 => p.length == 1
  | 0x09 => 3 ≤ p.length && p.length == 3 + 6 * at8 p 2
  | 0x0A => 3 ≤ p.length && p.length == 3 + at8 p 2
  | 0x0B => p.length == 2
  | 0x0C => p.length == 3
  | 0x0D => p.length == 3
  | 0x0E => p.length == 32
  | 0x0F => p.length == 0
  | 0x10 => p.length == 3
  | 0x11 => p.length == 3
  | 0x12 => p.length == 0
  | 0x13 => p.length == 0
  | 0x14 => p.length == 1
  | 0x15 => p.length == 3
  | 0x16 => p.length == 1
  | 0x17 => p.length == 0
  | _ => false

/-- A command of a kind of the catalogue, its length checked before its own checks and effects (R162). -/
def checkedLength (act : Command → State → State × Option Answer) : Action := fun c s =>
  if lengthRight c.kind c.payload then act c s else (s, some (.refuse .refusedLength []))

/-! ### Values that are clamped -/

/-- A value brought into a range, and whether it was clamped. -/
def clampInto (lo hi n : Nat) : Nat × Bool := if n < lo then (lo, true) else if hi < n then (hi, true) else (n, false)

/-- A gain of an entry wire record (R47), and the master gain (R61). -/
def takeGain (n : Nat) : Nat × Bool := clampInto 0 Config.gainMax n

/-- The ramp step E (R61). -/
def takeRampStep (n : Nat) : Nat × Bool := clampInto 1 Config.gainMax n

/-- The ceiling C (R61). -/
def takeCeiling (n : Nat) : Nat × Bool := clampInto 256 Config.sampleMax n

/-- Rl, the duck attack step and the duck release step (R61), and the fade-in step (R27). -/
def takeStep (n : Nat) : Nat × Bool := clampInto 1 4096 n

/-- The talk threshold T (R61). -/
def takeThreshold (n : Nat) : Nat × Bool := clampInto 0 Config.sampleMax n

/-- The duck depth D (R61). -/
def takeDepth (n : Nat) : Nat × Bool := clampInto 0 4096 n

/-! ### Codes (R176, section 12.3) -/

/-- A rounding mode code; above 2 is refused (R62). -/
def roundingOf (n : Nat) : Option Rounding :=
  match n with
  | 0 => some .nearestEven
  | 1 => some .towardZero
  | 2 => some .floor
  | _ => none

/-- The code of a rounding mode. -/
def Rounding.code : Rounding → Nat
  | .nearestEven => 0
  | .towardZero => 1
  | .floor => 2

/-- A talk source code: 0 to 63, or 255 for NONE; others are refused (R62). -/
def talkOf (n : Nat) : Option (Option Nat) := if n < 64 then some (some n) else if n = 255 then some none else none

/-- A group code: 0 to 7, or 15 for NONE; others are refused (R46). -/
def groupOf (n : Nat) : Option (Option Nat) := if n < 8 then some (some n) else if n = 15 then some none else none

/-- A route octet (section 12.3): 0xFF is SILENT, otherwise a mix 0 to 15 in bits 4 to 0, the side in bit 5, bits 6 and 7 zero; others are refused (R142). -/
def routeOf (b : Byte) : Option Route :=
  if b.toNat = 255 then some .silent
  else if b.toNat < 64 ∧ b.toNat % 32 < 16 then some (.mix (b.toNat % 32) (if b.toNat < 32 then .left else .right))
  else none

/-- The octet of a route. -/
def Route.octet : Route → Byte
  | .silent => 0xFF
  | .mix k .left => Machine.octet k
  | .mix k .right => Machine.octet (32 + k)

/-- A cue mix code: 0 to 15, or 255 for NONE; others are refused (R145). -/
def cueMixOf (n : Nat) : Option (Option Nat) := if n < 16 then some (some n) else if n = 255 then some none else none

/-! ### The mix settings record -/

/-- The 25 octets of a settings record taken field by field (R61): the number of the first refused field (R62), or the record and whether any field was clamped. -/
def takeSettings (p : List Byte) : Except Nat (Settings × Bool) :=
  match roundingOf (at8 p 10) with
  | none => .error 5
  | some mode =>
    match talkOf (at8 p 12) with
    | none => .error 7
    | some talk =>
      let m := takeGain (at16 p 1)
      let e := takeRampStep (at16 p 3)
      let c := takeCeiling (at24 p 5)
      let rl := takeStep (at16 p 8)
      let t := takeThreshold (at24 p 13)
      let d := takeDepth (at16 p 18)
      let atk := takeStep (at16 p 20)
      let rel := takeStep (at16 p 22)
      .ok
        ({ enabled := at8 p 0 != 0, master := m.1, ramp := e.1, ceiling := c.1, limRelease := rl.1, rounding := mode, groupMutes := p.getD 11 0,
           talk := talk, threshold := t.1, holdTime := at16 p 16, depth := d.1, attack := atk.1, release := rel.1,
           enables := Flags.ofOctet (p.getD 24 0) },
          m.2 || e.2 || c.2 || rl.2 || t.2 || d.2 || atk.2 || rel.2)

/-- The 25 octets of a settings record (section 12.3). -/
def Settings.octets (r : Settings) : List Byte :=
  [octet r.enabled.toNat] ++ be 2 r.master ++ be 2 r.ramp ++ be 3 r.ceiling ++ be 2 r.limRelease ++ [octet r.rounding.code, r.groupMutes, octet (r.talk.getD 255)]
    ++ be 3 r.threshold ++ be 2 r.holdTime ++ be 2 r.depth ++ be 2 r.attack ++ be 2 r.release ++ [r.enables.octet]

/-! ### Entry records -/

/-- An entry wire record taken (R46 step 4, R47): none when its source or its group is bad, otherwise its values and whether a gain was clamped. Bit 5 and bits 6
and 7 of the attributes octet are ignored (R176). -/
def takeEntry (p : List Byte) : Option (EntryValues × Bool) :=
  if 63 < at8 p 0 then none
  else
    match groupOf (at8 p 1 % 16) with
    | none => none
    | some group =>
      let l := takeGain (at16 p 2)
      let r := takeGain (at16 p 4)
      some ({ source := at8 p 0, gL := l.1, gR := r.1, group := group, mute := (p.getD 1 0).getLsbD 4 }, l.2 || r.2)

/-- The records of an ENTRY_WRITE from a position on, in order: the position of the first bad one, or the values taken and whether any gain was clamped. -/
def takeEntries (p : List Byte) : Nat → Nat → Except Nat (List EntryValues × Bool)
  | _, 0 => .ok ([], false)
  | index, more + 1 =>
    match takeEntry (p.drop (3 + 6 * index)) with
    | none => .error index
    | some v =>
      match takeEntries p (index + 1) more with
      | .error bad => .error bad
      | .ok rest => .ok (v.1 :: rest.1, v.2 || rest.2)

/-- The sources of an ENTRY_REMOVE from a position on: the position of the first one above 63, or all of them (R51). -/
def takeSources (p : List Byte) : Nat → Nat → Except Nat (List Nat)
  | _, 0 => .ok []
  | index, more + 1 =>
    if 63 < at8 p (3 + index) then .error index
    else
      match takeSources p (index + 1) more with
      | .error bad => .error bad
      | .ok rest => .ok (at8 p (3 + index) :: rest)

/-- The 32 routes of a ROUTE_WRITE in index order: the index of the first invalid code, or the table (R142). -/
def takeRoutes : List Byte → Nat → Except Nat (List Route)
  | [], _ => .ok []
  | b :: rest, index =>
    match routeOf b with
    | none => .error index
    | some r =>
      match takeRoutes rest (index + 1) with
      | .error bad => .error bad
      | .ok rs => .ok (r :: rs)

/-- The attributes octet of an entry (section 12.3). -/
def Entry.attributes (e : Entry) : Byte :=
  octet (e.group.getD 15 + 16 * e.mute.toNat + 32 * (if e.state = .retiring then 1 else 0))

/-- An entry read record, ten octets (R55, section 12.3). -/
def Entry.octets (e : Entry) : List Byte := [octet e.source, e.attributes] ++ be 2 e.gL ++ be 2 e.gR ++ be 2 e.cL ++ be 2 e.cR

/-! ### Capture records -/

/-- A capture record, 41 octets (section 12.3); every content of an EMPTY one is zero (R177). -/
def captureOctets : Option Capture → List Byte
  | none => List.replicate 41 0
  | some c =>
    [1] ++ be 2 c.frame.toNat ++ [c.flags.octet, if c.stage = .output then 1 else 0] ++ beInt 8 c.sL ++ beInt 8 c.sR ++ beInt 5 c.rL ++ beInt 5 c.rR
      ++ be 2 c.lgBefore ++ be 2 c.lgAfter ++ beInt 3 c.yL ++ beInt 3 c.yR

/-- The kind of a capture record (section 12.4). -/
def captureKind (c : Option Capture) : Byte := if c.isSome then 1 else 0

/-- The cue selection, three octets (section 12.2, CUE_SELECT). -/
def Transmitter.cueOctets (t : Transmitter) : List Byte := [octet (t.cueMix.getD 255), octet t.cueLeft, octet t.cueRight]

/-- The eight counters in the order of R11's table, two octets each (R12). -/
def LinkCounters.octets (c : LinkCounters) : List Byte :=
  be 2 c.codingViolations ++ be 2 c.frameCheckErrors ++ be 2 c.trailerErrors ++ be 2 c.inheritedDamage ++ be 2 c.missedSyncs ++ be 2 c.laneFramingErrors
    ++ be 2 c.laneDrops ++ be 2 c.messageCheckErrors

end Sys2Proof.Machine
end

