-- ==== Sys2Proof/Machine/UnitCommands.lean ====
section
/-!
DEFINITION. The commands on the unit as a whole: IDENTIFY, STATUS, UNIT_SETUP, EVENT_ACK, LINK_COUNTERS, POWER, UNIT_RESET, and a command of no kind
(10_commands_and_replies.md, 11_events_and_notices.md).
-/

namespace Sys2Proof.Machine

/-- Every payload is of the kind's one row. -/
def anyPayload (_p : List Byte) : Bool := true

/-- IDENTIFY's kind data, 13 octets (R164, R177). -/
def identifyOctets (s : State) : List Byte :=
  [0x49, 0x53, 0x16, 0x04, 0x01, unitCode s.lane.unit, 16] ++ be 2 512 ++ [128, 32] ++ be 2 s.table.free

/-- IDENTIFY's effect (R164): it changes nothing. -/
def actIdentify : Action := checkedLength fun _ s => (s, some (.done (identifyOctets s)))

/-- IDENTIFY (R164). -/
def execIdentify (c : CommandSource) (s : State) : Host.Outcome State Fault Refusal := .next (commandRow 0x01 anyPayload actIdentify c s)

/-- The status payload, 28 octets (R165, section 12.5). -/
def statusOctets (c : Command) (s : State) : List Byte :=
  [octet s.intake.power.code, octet s.rx.sync.code, octet s.fade.state.code] ++ be 2 s.fade.coeff ++ [octet c.busyAtArrival.toNat, octet c.waited.toNat]
    ++ be 2 s.rx.localFrame.toNat ++ s.staging.slot.octets ++ reportOctets s.staging.report
    ++ [octet s.staging.queue.length, octet s.replies.messages.length, octet (reservedFrames s.lane.hold)] ++ be 2 s.table.free
    ++ [s.events.summary, s.events.mask]

/-- What STATUS_READ does to the Event Unit and the Reply Queue (R174): the latch is cleared and an unsent NOTICE withdrawn. -/
def State.readEvents (s : State) : State := (s.withEvents { s.events with latch := false }).withReplies s.replies.withoutNotice

/-- STATUS_READ's effect (R165, R174): the payload is taken after it. -/
def actStatusRead : Action := checkedLength fun c s => (s.readEvents, some (.done (statusOctets c s.readEvents)))

/-- STATUS_READ (R165, R174). -/
def execStatusRead (c : CommandSource) (s : State) : Host.Outcome State Fault Refusal := .next (commandRow 0x02 anyPayload actStatusRead c s)

/-- STATUS_PEEK's effect (R165): it changes nothing. -/
def actStatusPeek : Action := checkedLength fun c s => (s, some (.done (statusOctets c s)))

/-- STATUS_PEEK (R165). -/
def execStatusPeek (c : CommandSource) (s : State) : Host.Outcome State Fault Refusal := .next (commandRow 0x03 anyPayload actStatusPeek c s)

/-- A new notice mask (R172): the latch is set when it newly enables an event whose summary bit is set (DEDUCED, log 17). -/
def EventUnit.setMask (u : EventUnit) (mask : Mask8) : EventUnit :=
  { u with mask := mask, latch := u.latch || (mask &&& ~~~u.mask &&& u.summary) != 0 }

/-- UNIT_SETUP's effect (R27, R172). -/
def actUnitSetup : Action := checkedLength fun c s =>
  let step := takeStep (at16 c.payload 1)
  let mask := c.payload.getD 0 0
  ((s.withEvents (s.events.setMask mask)).withFade { s.fade with step := step.1 },
    some { result := .done, clamped := step.2, item := none, data := [s.events.mask, mask] ++ be 2 step.1 })

/-- UNIT_SETUP (R27, R172). -/
def execUnitSetup (c : CommandSource) (s : State) : Host.Outcome State Fault Refusal := .next (commandRow 0x04 anyPayload actUnitSetup c s)

/-- EVENT_ACK's effect (R171): the echoed bits of the summary are cleared. -/
def actEventAck : Action := checkedLength fun c s =>
  let after := s.events.summary &&& ~~~(c.payload.getD 0 0)
  (s.withEvents { s.events with summary := after }, some (.done [s.events.summary, after]))

/-- EVENT_ACK (R171). -/
def execEventAck (c : CommandSource) (s : State) : Host.Outcome State Fault Refusal := .next (commandRow 0x05 anyPayload actEventAck c s)

/-- LINK_COUNTERS' check and effect (R12): a clear option other than NO and YES is refused. -/
def actLinkCounters : Action := checkedLength fun c s =>
  match at8 c.payload 0 with
  | 0 => (s, some (.done s.rx.counters.octets))
  | 1 => (s.count fun _ => LinkCounters.zero, some (.done s.rx.counters.octets))
  | _ => (s, some (.refuse .refusedValue []))

/-- LINK_COUNTERS (R12). -/
def execLinkCounters (c : CommandSource) (s : State) : Host.Outcome State Fault Refusal := .next (commandRow 0x06 anyPayload actLinkCounters c s)

/-- POWER QUIET's effect (R166, R28, R167): in RUN it starts closing the fade, and completes at once when the fade is SHUT; in QUIET it does nothing. In QUIESCING
none is taken (R166); the model then does nothing (log 19). How much of the lane frame has begun is open (log 26). -/
def actPowerQuiet : Action := checkedLength fun _ s =>
  match s.intake.power with
  | .run =>
    if s.fade.state = .shut then ((s.enterQuiet s.drawBegun).withFreeIdx (s.freeIdx + 1), some (powerAnswer .run .quiet))
    else ((s.withIntake { s.intake with power := .quiescing }).withFade s.fade.startClose, none)
  | .quiescing => (s, some (powerAnswer .quiescing .quiescing))
  | .quiet => (s, some (powerAnswer .quiet .quiet))

/-- POWER_QUIET (R166). -/
def execPowerQuiet (c : CommandSource) (s : State) : Host.Outcome State Fault Refusal := .next (commandRow 0x16 asksOne actPowerQuiet c s)

/-- POWER RUN's check and effect (R166): any request but RUN and QUIET is refused; in QUIET the power state becomes RUN. -/
def actPowerRun : Action := checkedLength fun c s =>
  if at8 c.payload 0 = 0 then
    match s.intake.power with
    | .quiet => (s.withIntake { s.intake with power := .run }, some (powerAnswer .quiet .run))
    | .run => (s, some (powerAnswer .run .run))
    | .quiescing => (s, some (powerAnswer .quiescing .quiescing))
  else (s, some (.refuse .refusedValue []))

/-- POWER_RUN (R166). -/
def execPowerRun (c : CommandSource) (s : State) : Host.Outcome State Fault Refusal := .next (commandRow 0x16 (!asksOne ·) actPowerRun c s)

/-- What UNIT_RESET returns to its defaults (R169): R57, R77, R117 (the table), R135, R144, R19, R158, R175, R11, R23, R29, R168. -/
def State.unitReset (s : State) : State :=
  { s with
    rx := { s.rx with counters := LinkCounters.zero }
    tx := { s.tx with cueMix := none, cueLeft := 62, cueRight := 63 }
    store := { s.store with bad := 0, good := 0 }
    fade := { state := .shut, coeff := 0, step := 1 }
    table := MixTable.reset
    staging := Staging.reset
    lanes := { s.lanes with routes := Route.defaults }
    replies := s.replies.withoutNotice
    intake := { s.intake with power := .run }
    events := EventUnit.reset }

/-- UNIT_RESET's effect (R169): the reply is composed after it. -/
def actUnitReset : Action := checkedLength fun _ s => (s.unitReset, some (.done [unitCode s.lane.unit]))

/-- UNIT_RESET (R169). -/
def execUnitReset (c : CommandSource) (s : State) : Host.Outcome State Fault Refusal := .next (commandRow 0x17 anyPayload actUnitReset c s)

/-- A command of a KIND that names no command kind (R162): refused, and no block changes. -/
def actUnknown : Action := fun _ s => (s, some (.refuse .refusedKind []))

/-- UNKNOWN_COMMAND (R162): a kind of the catalogue is not this row's. -/
def execUnknownCommand (kind : Byte) (c : CommandSource) (s : State) : Host.Outcome State Fault Refusal :=
  .next (commandRow kind (fun _ => !isCommandKind kind) actUnknown c s)

end Sys2Proof.Machine
end

