-- ==== Sys2Proof/Machine/MixCommands.lean ====
section
/-!
DEFINITION. The commands on mix records and entry lists, IMMEDIATE and STAGED (03_contribution_lists_and_the_entry_pool.md, 04_mix_records_groups_and_talk_priority.md,
07_staged_edits_and_scene_commit.md R119 to R121).
-/

namespace Sys2Proof.Machine

/-- The payload is of the row that is not the STAGED one of its kind. -/
def notStaged (p : List Byte) : Bool := !isStaged p

/-- The mix check and the mode check that every command with a mode makes first, in this order (R46, R51, R53, R62, R71). -/
def mixAndMode (p : List Byte) : Option Result :=
  if 15 < at8 p 0 then some .refusedMix else if 1 < at8 p 1 then some .refusedValue else none

/-- A STAGED command that has passed its checks meets the room check (R120): refused with the records needed and the staging count (R121), or every record
appended in one action, answered with the records appended, the staging count after and what the kind adds (R121). -/
def stageEdits (edits : List StagedEdit) (clamped : Bool) (extra : List Byte) (s : State) : State × Option Answer :=
  if s.staging.hasRoom edits.length then
    (s.withStaging { s.staging with queue := s.staging.queue ++ edits },
      some
        { result := .done, clamped := clamped, item := none
          data := [octet edits.length, octet (s.staging.queue.length + edits.length)] ++ extra })
  else (s, some (.refuse .refusedStage [octet edits.length, octet s.staging.queue.length]))

/-! ### MIX_WRITE and MIX_READ (R61 to R66) -/

/-- The checks of MIX_WRITE (R62): the refusal, or the record as taken and whether any field was clamped. -/
def mixWriteChecks (p : List Byte) : Except Answer (Settings × Bool) :=
  match mixAndMode p with
  | some r => .error (.refuse r [])
  | none =>
    match takeSettings (p.drop 2) with
    | .error index => .error { result := .refusedValue, clamped := false, item := some index, data := [] }
    | .ok taken => .ok taken

/-- An IMMEDIATE MIX_WRITE's checks and effect (R62, R63, R65). -/
def actMixWrite : Action := checkedLength fun c s =>
  match mixWriteChecks c.payload with
  | .error a => (s, some a)
  | .ok taken =>
    (s.withTable (s.table.replaceSettings (at8 c.payload 0) taken.1),
      some { result := .done, clamped := taken.2, item := none, data := taken.1.octets })

/-- MIX_WRITE (R63). -/
def execMixWrite (c : CommandSource) (s : State) : Host.Outcome State Fault Refusal := .next (commandRow 0x07 notStaged actMixWrite c s)

/-- A STAGED MIX_WRITE's checks and effect (R120, R121): one SET_MIX record. -/
def actMixWriteStaged : Action := checkedLength fun c s =>
  match mixWriteChecks c.payload with
  | .error a => (s, some a)
  | .ok taken => stageEdits [.setMix (at8 c.payload 0) taken.1] taken.2 taken.1.octets s

/-- MIX_WRITE_STAGED (R120). -/
def execMixWriteStaged (c : CommandSource) (s : State) : Host.Outcome State Fault Refusal := .next (commandRow 0x07 isStaged actMixWriteStaged c s)

/-- MIX_READ's kind data, 41 octets (R66, R177). -/
def mixReadOctets (m : Mix) : List Byte :=
  m.cfg.octets ++ be 2 m.mc ++ be 2 m.duck ++ be 2 m.hold ++ [octet m.engaged.toNat] ++ be 2 m.lg ++ [octet m.list.length] ++ beInt 3 m.yL ++ beInt 3 m.yR

/-- MIX_READ's check and answer (R66): it changes nothing. -/
def actMixRead : Action := checkedLength fun c s =>
  if 15 < at8 c.payload 0 then (s, some (.refuse .refusedMix [])) else (s, some (.done (mixReadOctets (s.table.mix (at8 c.payload 0)))))

/-- MIX_READ (R66). -/
def execMixRead (c : CommandSource) (s : State) : Host.Outcome State Fault Refusal := .next (commandRow 0x08 anyPayload actMixRead c s)

/-! ### ENTRY_WRITE (R46 to R50) -/

/-- The list length of the mix named and the free count, as they stand; the length is 0 where the mix is refused (R50, R52, R53). -/
def listAndFree (s : State) (p : List Byte) : List Byte :=
  [octet (if 15 < at8 p 0 then 0 else (s.table.mix (at8 p 0)).list.length)] ++ be 2 s.table.free

/-- The checks of ENTRY_WRITE, steps 1 to 4 (R46), with the gains taken (R47). A refusal carries the data of R50. -/
def entryWriteChecks (s : State) (p : List Byte) : Except Answer (List EntryValues × Bool) :=
  match mixAndMode p with
  | some r => .error (.refuse r ([0, 0, 0] ++ listAndFree s p))
  | none =>
    if 32 < at8 p 2 then .error (.refuse .refusedValue ([0, 0, 0] ++ listAndFree s p))
    else
      match takeEntries p 0 (at8 p 2) with
      | .error index => .error { result := .refusedValue, clamped := false, item := some index, data := [0, 0, 0] ++ listAndFree s p }
      | .ok taken => .ok taken

/-- An IMMEDIATE ENTRY_WRITE's checks and effect (R46 to R50): the pool check is made in the same action (R48). -/
def actEntryWrite : Action := checkedLength fun c s =>
  match entryWriteChecks s c.payload with
  | .error a => (s, some a)
  | .ok taken =>
    let k := at8 c.payload 0
    let needed := newEntriesNeeded (s.table.mix k).list taken.1
    if s.table.free < needed then (s, some (.refuse .refusedPool ([octet needed, 0, 0] ++ listAndFree s c.payload)))
    else
      let r := s.table.setEntries k taken.1 { created := 0, revived := 0, replaced := 0 }
      (s.withTable r.1,
        some
          { result := .done, clamped := taken.2, item := none
            data := [octet r.2.created, octet r.2.revived, octet r.2.replaced] ++ listAndFree (s.withTable r.1) c.payload })

/-- ENTRY_WRITE (R49). -/
def execEntryWrite (c : CommandSource) (s : State) : Host.Outcome State Fault Refusal := .next (commandRow 0x09 notStaged actEntryWrite c s)

/-- A STAGED ENTRY_WRITE's checks and effect (R120, R121): no pool check; one SET_ENTRY record for each entry. -/
def actEntryWriteStaged : Action := checkedLength fun c s =>
  match entryWriteChecks s c.payload with
  | .error a => (s, some a)
  | .ok taken => stageEdits (taken.1.map fun v => .setEntry (at8 c.payload 0) v.source v.gL v.gR v.group v.mute) taken.2 [] s

/-- ENTRY_WRITE_STAGED (R120). -/
def execEntryWriteStaged (c : CommandSource) (s : State) : Host.Outcome State Fault Refusal :=
  .next (commandRow 0x09 isStaged actEntryWriteStaged c s)

/-! ### ENTRY_REMOVE (R51, R52) -/

/-- The checks of ENTRY_REMOVE (R51). A refusal carries the data of R52. -/
def entryRemoveChecks (s : State) (p : List Byte) : Except Answer (List Nat) :=
  match mixAndMode p with
  | some r => .error (.refuse r ([0, 0, 0] ++ listAndFree s p))
  | none =>
    if at8 p 2 = 0 ∨ 32 < at8 p 2 then .error (.refuse .refusedValue ([0, 0, 0] ++ listAndFree s p))
    else
      match takeSources p 0 (at8 p 2) with
      | .error index => .error { result := .refusedValue, clamped := false, item := some index, data := [0, 0, 0] ++ listAndFree s p }
      | .ok sources => .ok sources

/-- An IMMEDIATE ENTRY_REMOVE's checks and effect (R51, R52). -/
def actEntryRemove : Action := checkedLength fun c s =>
  match entryRemoveChecks s c.payload with
  | .error a => (s, some a)
  | .ok sources =>
    let r := s.table.retireEntries (at8 c.payload 0) sources { retired := 0, already := 0, absent := 0 }
    (s.withTable r.1, some (.done ([octet r.2.retired, octet r.2.already, octet r.2.absent] ++ listAndFree (s.withTable r.1) c.payload)))

/-- ENTRY_REMOVE (R52). -/
def execEntryRemove (c : CommandSource) (s : State) : Host.Outcome State Fault Refusal := .next (commandRow 0x0A notStaged actEntryRemove c s)

/-- A STAGED ENTRY_REMOVE's checks and effect (R120, R121): one RETIRE_ENTRY record for each source. -/
def actEntryRemoveStaged : Action := checkedLength fun c s =>
  match entryRemoveChecks s c.payload with
  | .error a => (s, some a)
  | .ok sources => stageEdits (sources.map fun x => .retireEntry (at8 c.payload 0) x) false [] s

/-- ENTRY_REMOVE_STAGED (R120). -/
def execEntryRemoveStaged (c : CommandSource) (s : State) : Host.Outcome State Fault Refusal :=
  .next (commandRow 0x0A isStaged actEntryRemoveStaged c s)

/-! ### MIX_CLEAR (R53) and ENTRY_READ (R54, R55) -/

/-- An IMMEDIATE MIX_CLEAR's checks and effect (R53). -/
def actMixClear : Action := checkedLength fun c s =>
  match mixAndMode c.payload with
  | some r => (s, some (.refuse r ([0, 0] ++ listAndFree s c.payload)))
  | none =>
    let l := (s.table.mix (at8 c.payload 0)).list
    let t := s.table.clearMix (at8 c.payload 0)
    (s.withTable t, some (.done ([octet (liveCount l), octet (l.length - liveCount l)] ++ listAndFree (s.withTable t) c.payload)))

/-- MIX_CLEAR (R53). -/
def execMixClear (c : CommandSource) (s : State) : Host.Outcome State Fault Refusal := .next (commandRow 0x0B notStaged actMixClear c s)

/-- A STAGED MIX_CLEAR's checks and effect (R120, R121): one CLEAR_MIX record. -/
def actMixClearStaged : Action := checkedLength fun c s =>
  match mixAndMode c.payload with
  | some r => (s, some (.refuse r ([0, 0] ++ listAndFree s c.payload)))
  | none => stageEdits [.clearMix (at8 c.payload 0)] false [] s

/-- MIX_CLEAR_STAGED (R120). -/
def execMixClearStaged (c : CommandSource) (s : State) : Host.Outcome State Fault Refusal := .next (commandRow 0x0B isStaged actMixClearStaged c s)

/-- ENTRY_READ's check and answer (R54, R55): it changes nothing. -/
def actEntryRead : Action := checkedLength fun c s =>
  let start := at8 c.payload 1
  if 15 < at8 c.payload 0 then (s, some (.refuse .refusedMix [0, octet start, 0]))
  else
    let l := (s.table.mix (at8 c.payload 0)).list
    let part := readStretch l start (at8 c.payload 2)
    (s, some (.done ([octet l.length, octet start, octet part.length] ++ part.flatMap Entry.octets)))

/-- ENTRY_READ (R54, R55). -/
def execEntryRead (c : CommandSource) (s : State) : Host.Outcome State Fault Refusal := .next (commandRow 0x0C anyPayload actEntryRead c s)

/-! ### GROUP_MUTE (R71) -/

/-- An IMMEDIATE GROUP_MUTE's checks and effect (R71). -/
def actGroupMute : Action := checkedLength fun c s =>
  match mixAndMode c.payload with
  | some r => (s, some (.refuse r []))
  | none =>
    let mask := c.payload.getD 2 0
    (s.withTable (s.table.setGroupMutes (at8 c.payload 0) mask), some (.done [(s.table.mix (at8 c.payload 0)).cfg.groupMutes, mask]))

/-- GROUP_MUTE (R71). -/
def execGroupMute (c : CommandSource) (s : State) : Host.Outcome State Fault Refusal := .next (commandRow 0x0D notStaged actGroupMute c s)

/-- A STAGED GROUP_MUTE's checks and effect (R120, R121): one SET_GROUP_MUTES record. -/
def actGroupMuteStaged : Action := checkedLength fun c s =>
  match mixAndMode c.payload with
  | some r => (s, some (.refuse r []))
  | none => stageEdits [.setGroupMutes (at8 c.payload 0) (c.payload.getD 2 0)] false [c.payload.getD 2 0] s

/-- GROUP_MUTE_STAGED (R120). -/
def execGroupMuteStaged (c : CommandSource) (s : State) : Host.Outcome State Fault Refusal := .next (commandRow 0x0D isStaged actGroupMuteStaged c s)

end Sys2Proof.Machine
end

