-- ==== Sys2Proof/Machine/SceneCommands.lean ====
section
/-!
DEFINITION. The commands on routes and cue (08_output_lanes_and_cue.md), on the commit slot and the Staging Queue (07_staged_edits_and_scene_commit.md), and on flags
and captures (06_mix_flags_and_fault_capture.md).
-/

namespace Sys2Proof.Machine

/-- ROUTE_WRITE's check and effect (R142): the whole table, or the index of the first invalid code. -/
def actRouteWrite : Action := checkedLength fun c s =>
  match takeRoutes c.payload 0 with
  | .error index => (s, some { result := .refusedValue, clamped := false, item := some index, data := [] })
  | .ok routes => (s.withLanes { s.lanes with routes := routes }, some (.done (routes.map Route.octet)))

/-- ROUTE_WRITE (R142). -/
def execRouteWrite (c : CommandSource) (s : State) : Host.Outcome State Fault Refusal := .next (commandRow 0x0E anyPayload actRouteWrite c s)

/-- ROUTE_READ's answer (R143): it changes nothing. -/
def actRouteRead : Action := checkedLength fun _ s => (s, some (.done (s.lanes.routes.map Route.octet)))

/-- ROUTE_READ (R143). -/
def execRouteRead (c : CommandSource) (s : State) : Host.Outcome State Fault Refusal := .next (commandRow 0x0F anyPayload actRouteRead c s)

/-- CUE_SELECT's checks and effect (R145). -/
def actCueSelect : Action := checkedLength fun c s =>
  match cueMixOf (at8 c.payload 0) with
  | none => (s, some (.refuse .refusedMix []))
  | some cue =>
    if 63 < at8 c.payload 1 ∨ 63 < at8 c.payload 2 ∨ at8 c.payload 1 = at8 c.payload 2 then (s, some (.refuse .refusedValue []))
    else
      let tx := { s.tx with cueMix := cue, cueLeft := at8 c.payload 1, cueRight := at8 c.payload 2 }
      (s.withTx tx, some (.done (s.tx.cueOctets ++ tx.cueOctets)))

/-- CUE_SELECT (R145). -/
def execCueSelect (c : CommandSource) (s : State) : Host.Outcome State Fault Refusal := .next (commandRow 0x10 anyPayload actCueSelect c s)

/-- The payload is of the row whose request octet is not 1. -/
def notOne (p : List Byte) : Bool := !asksOne p

/-- A refused COMMIT carries the commit slot and the staging count as they stand (R123). -/
def refuseCommit (r : Result) (s : State) : Answer := .refuse r (s.staging.slot.octets ++ [octet s.staging.queue.length])

/-- The reply's data of an accepted COMMIT (R124): the request as sent (log 16), the distance, the local frame number at arming, the staging count. -/
def commitOctets (p : List Byte) (distance : Nat) (s : State) : List Byte :=
  p.take 3 ++ be 2 distance ++ be 2 s.rx.localFrame.toNat ++ [octet s.staging.queue.length]

/-- COMMIT with any request but NEXT: its checks and effect for AT_FRAME (R123, R124). -/
def actCommitAtFrame : Action := checkedLength fun c s =>
  if at8 c.payload 0 = 0 then
    match s.staging.slot with
    | .armed _ _ => (s, some (refuseCommit .refusedArmed s))
    | .disarmed =>
      let n : FrameNo := BitVec.ofNat 16 (at16 c.payload 1)
      let distance := (n - s.rx.localFrame).toNat
      (s.withStaging { s.staging with slot := slotAtFrame s.rx.localFrame n },
        some
          { result := if 1 ≤ distance ∧ distance ≤ 32767 then .done else .doneLate, clamped := false, item := none
            data := commitOctets c.payload distance s })
  else (s, some (refuseCommit .refusedValue s))

/-- COMMIT_AT_FRAME (R124). -/
def execCommitAtFrame (c : CommandSource) (s : State) : Host.Outcome State Fault Refusal := .next (commandRow 0x11 notOne actCommitAtFrame c s)

/-- COMMIT NEXT's check and effect (R123, R124); its reply sends the distance as zero (R177). -/
def actCommitNext : Action := checkedLength fun c s =>
  match s.staging.slot with
  | .armed _ _ => (s, some (refuseCommit .refusedArmed s))
  | .disarmed => (s.withStaging { s.staging with slot := .armed .nextDelivery .next }, some (.done (commitOctets c.payload 0 s)))

/-- COMMIT_NEXT (R124). -/
def execCommitNext (c : CommandSource) (s : State) : Host.Outcome State Fault Refusal := .next (commandRow 0x11 asksOne actCommitNext c s)

/-- CANCEL's check and effect (R131). -/
def actCancel : Action := checkedLength fun _ s =>
  match s.staging.slot with
  | .disarmed => (s, some (.refuse .refusedNotArmed []))
  | .armed trigger request =>
    (s.withStaging { s.staging with slot := .disarmed },
      some (.done ((CommitSlot.armed trigger request).octets ++ [octet s.staging.queue.length])))

/-- CANCEL (R131). -/
def execCancel (c : CommandSource) (s : State) : Host.Outcome State Fault Refusal := .next (commandRow 0x12 anyPayload actCancel c s)

/-- DISCARD's effect (R122). -/
def actDiscard : Action := checkedLength fun _ s =>
  (s.withStaging { s.staging with queue := [] }, some (.done ([octet s.staging.queue.length] ++ s.staging.slot.octets)))

/-- DISCARD (R122). -/
def execDiscard (c : CommandSource) (s : State) : Host.Outcome State Fault Refusal := .next (commandRow 0x13 anyPayload actDiscard c s)

/-- FLAGS_READ's check and answer (R113): it changes nothing. -/
def actFlagsRead : Action := checkedLength fun c s =>
  if 15 < at8 c.payload 0 then (s, some (.refuse .refusedMix []))
  else
    let m := s.table.mix (at8 c.payload 0)
    (s, some (.done ([m.current.octet, m.accrued.octet, m.cfg.enables.octet] ++ captureOctets m.capture)))

/-- FLAGS_READ (R113). -/
def execFlagsRead (c : CommandSource) (s : State) : Host.Outcome State Fault Refusal := .next (commandRow 0x14 anyPayload actFlagsRead c s)

/-- FLAGS_CLEAR's checks and effect (R114, R115); an absent released capture is sent as an EMPTY record (R177). -/
def actFlagsClear : Action := checkedLength fun c s =>
  if 15 < at8 c.payload 0 then (s, some (.refuse .refusedMix []))
  else if 1 < at8 c.payload 2 then (s, some (.refuse .refusedValue []))
  else
    let release := at8 c.payload 2 == 1
    let m := s.table.mix (at8 c.payload 0)
    let m' := m.clearFlags (Flags.ofOctet (c.payload.getD 1 0)) release
    (s.withTable (s.table.setMix (at8 c.payload 0) m'),
      some (.done ([m.accrued.octet, m'.accrued.octet, captureKind m.capture, captureKind m'.capture] ++ captureOctets (if release then m.capture else none))))

/-- FLAGS_CLEAR (R114, R115). -/
def execFlagsClear (c : CommandSource) (s : State) : Host.Outcome State Fault Refusal := .next (commandRow 0x15 anyPayload actFlagsClear c s)

end Sys2Proof.Machine
end

