-- ==== Sys2Proof/Machine/Chain.lean ====
section
/-!
DEFINITION. The standing actions (the taking of a held command, R161; the queueing of a NOTICE, R173), and a delivery as one chain of stages between which they may
fall (R9, R31 to R33, R45, R80 to R82).
-/

namespace Sys2Proof.Machine

/-! ### The standing actions -/

/-- The checks and effects of a command of this KIND and payload (R162, section 12.2), row by row as `rowOf` names them. -/
def actionOf (kind : Byte) (payload : List Byte) : Action :=
  match kind.toNat with
  | 0x01 => actIdentify
  | 0x02 => actStatusRead
  | 0x03 => actStatusPeek
  | 0x04 => actUnitSetup
  | 0x05 => actEventAck
  | 0x06 => actLinkCounters
  | 0x07 => if isStaged payload then actMixWriteStaged else actMixWrite
  | 0x08 => actMixRead
  | 0x09 => if isStaged payload then actEntryWriteStaged else actEntryWrite
  | 0x0A => if isStaged payload then actEntryRemoveStaged else actEntryRemove
  | 0x0B => if isStaged payload then actMixClearStaged else actMixClear
  | 0x0C => actEntryRead
  | 0x0D => if isStaged payload then actGroupMuteStaged else actGroupMute
  | 0x0E => actRouteWrite
  | 0x0F => actRouteRead
  | 0x10 => actCueSelect
  | 0x11 => if asksOne payload then actCommitNext else actCommitAtFrame
  | 0x12 => actCancel
  | 0x13 => actDiscard
  | 0x14 => actFlagsRead
  | 0x15 => actFlagsClear
  | 0x16 => if asksOne payload then actPowerQuiet else actPowerRun
  | 0x17 => actUnitReset
  | _ => actUnknown

/-- The held command, of whatever row, is taken if it can be (R161). -/
def State.takeWaiting (s : State) : State :=
  match s.intake.holding with
  | some c => if s.canTake then s.takeCommand (actionOf c.kind c.payload) c else s
  | none => s

/-- The NOTICE a unit composes now (R173, section 12.5). -/
def State.noticeOctets (s : State) : List Byte :=
  message 0 (unitCode s.lane.unit) 0x81 0 ([s.events.summary] ++ be 2 s.rx.localFrame.toNat ++ [octet s.intake.power.code, octet s.rx.sync.code])

/-- A held command that cannot be taken has had to stay in the holding slot (R165, log 18). -/
def State.noteWait (s : State) : State :=
  match s.intake.holding with
  | some c => s.withIntake { s.intake with holding := some { c with waited := c.waited || !s.canTake } }
  | none => s

/-- A NOTICE joins the end of the Reply Queue and the latch is cleared (R173). -/
def State.queueNotice (s : State) : State :=
  ((s.withReplies { s.replies with messages := s.replies.messages ++ [{ isNotice := true, octets := s.noticeOctets }] }).withEvents
    { s.events with latch := false }).noteWait

/-- A NOTICE is queued where the latch is set, none is queued and a place is free; while any of the three fails it waits (R173). -/
def State.offerNotice (s : State) : State :=
  if s.events.latch = true ∧ s.noticeQueued = false ∧ s.hasPlace = true then s.queueNotice else s

/-- The plan of the delivery of the period in progress (log 7): the one at the front, and with none given nothing falls inside it. -/
def State.plan (s : State) : ChainPlan := s.plans.headD .whole

/-- A standing action. -/
def State.standing (s : State) : StandingAction → State
  | .take => s.takeWaiting
  | .notice => s.offerNotice

/-- The standing actions that fall at a point of the chain, in the plan's order. -/
def State.fallsAt (s : State) (plan : ChainPlan) (point : ChainPoint) : State :=
  (plan.falls.filter (·.1 == point)).foldl (fun u fall => u.standing fall.2) s

/-! ### The mix pass over the 16 mixes -/

/-- The order in which a pass works the mixes (R80): the plan's, where it names each of the 16 once. -/
def mixOrder (plan : ChainPlan) : List Nat :=
  if plan.order.isPerm (List.range Config.mixCount) then plan.order else List.range Config.mixCount

/-- The mixes worked one after another, each action whole (R45, R80, R82): what falls before a mix's action is in force for it and for the later ones.
A POWER QUIET that completes among them, with the fade SHUT, lets the rest of the pass run, which publishes 0 in QUIET (DESIGN CHOICE, log 29). -/
def State.passMixes (s : State) (plan : ChainPlan) (input : PassInput) : List Nat → State
  | [] => s
  | k :: rest => ((s.fallsAt plan (.mix k)).mixAction input k).passMixes plan input rest

/-- Stage 4 of R31: the pass is started in RUN and QUIESCING and not in QUIET (R32); what it reads of the delivery is fixed at its start (R33, R82). -/
def State.startPass (s : State) (plan : ChainPlan) : State :=
  match s.intake.power with
  | .quiet => s
  | _ => (s.withTx { s.tx with passRan := true }).passMixes plan s.passInput (mixOrder plan)

/-! ### The delivery -/

/-- Stages 3 and 4 of R31: the fade's step, then the start of the pass. Where the step reports SHUT, POWER QUIET completes before the Source Store reads the power
state, or after the pass that it then starts (R32, R101, log 6). -/
def State.fadeAndPass (s : State) (plan : ChainPlan) (begun : Nat) : State :=
  let stepped := s.fadeStep
  if s.reportsShut then
    let drawn := stepped.withFreeIdx (s.freeIdx + 1)
    if Config.quietBeforePass s.freeIdx then ((drawn.completeQuiet begun).fallsAt plan .read).startPass plan
    else ((drawn.fallsAt plan .read).startPass plan).completeQuiet begun
  else (stepped.fallsAt plan .read).startPass plan

/-- The first stage of a delivery, the lane, the commit test and the Source Store (R9, R31 stages 1 and 2). That the lane comes before the stages of R31 is the
model's choice (DESIGN CHOICE, log 23): R9 and R31 do not order them. -/
def State.settleDelivery (s : State) (plan : ChainPlan) (cls : DeliveryClass) (frame : Option ReceivedFrame) : State :=
  let linked := (s.settleLink cls frame).fallsAt plan .lane
  let laned := (linked.laneDeliver cls frame).fallsAt plan .commit
  (laned.commitStage.fallsAt plan .sources).applySources cls frame

/-- One delivery (R9, R31): the Link Receiver's own state, the lane (before the rest: DESIGN CHOICE, log 23), the commit test, the Source Store, the fade and the
pass, with the plan's standing actions between them (log 7). -/
def State.deliver (s : State) (plan : ChainPlan) (cls : DeliveryClass) (frame : Option ReceivedFrame) : State :=
  (((s.settleDelivery plan cls frame).fadeAndPass plan (s.begunAtDelivery frame.isSome))).holdDelivered cls frame

/-- An accepted frame's trailer ends (R8, R9): its delivery, if the period in progress still owes one and the frame's trailer ends within it. A frame that was not
accepted is put to no test and delivers nothing (R4, R5). -/
def State.deliverFrame (s : State) (line : LineBody) : State :=
  if s.tb.owed && s.frameInPeriod then s.deliver s.plan (decodeBody line).cls (some (decodeBody line)) else s

/-- The delivery point (R8): NONE, in a period that still owes its delivery and in which no accepted frame's trailer ends. -/
def State.deliverNone (s : State) : State := if s.tb.owed && !s.frameInPeriod then s.deliver s.plan .nothing none else s

end Sys2Proof.Machine
end

