-- ==== Sys2Proof/Machine/Transmit.lean ====
section
/-!
DEFINITION. The frame event: the Lane Arbiter (R156), the Link Transmitter (R16 to R18), the lane frame (R137 to R140), and what the lines carry.
-/

namespace Sys2Proof.Machine

/-! ### The Lane Arbiter (R156) -/

/-- The lane octets of an IDLE or ABORT frame (R147). -/
def zeroLane : List Byte := List.replicate 8 0

/-- The oldest message of the hold buffer after one more of its frames is emitted: it leaves with its last (R152). -/
def advanceHead : List HoldMessage → List HoldMessage
  | [] => []
  | m :: rest => if m.emitted + 1 < m.total then { m with emitted := m.emitted + 1 } :: rest else rest

/-- The next frame of the oldest message of the hold buffer. -/
def headFrame (hold : List HoldMessage) : List Byte :=
  match hold with
  | m :: _ => m.frames.getD m.emitted zeroLane
  | [] => zeroLane

/-- The oldest message of the hold buffer has more frames than the one now begun. -/
def headGoesOn (hold : List HoldMessage) : Bool :=
  match hold with
  | m :: _ => m.emitted + 1 < m.total
  | [] => false

/-- The emission of a pass-through message goes on or begins with its next frame. -/
def LaneController.passFrame (l : LaneController) : LaneController :=
  { l with hold := advanceHead l.hold, emission := if headGoesOn l.hold then .pass else .none }

/-- The pass-through message in emission is marked spoiled (R153). -/
def headSpoiled (hold : List HoldMessage) : Bool :=
  match hold with
  | m :: _ => m.spoiled
  | [] => false

/-- A pass-through message's emission begins (R156). -/
def State.beginPass (s : State) : State × LaneKind × List Byte :=
  (s.withLane { s.lane.passFrame with memory := .pass }, .first, headFrame s.lane.hold)

/-- The emission of the oldest message of the Reply Queue begins, and it leaves the queue (R156, R157). -/
def State.beginOwn (s : State) (m : QueuedMessage) (rest : List QueuedMessage) : State × LaneKind × List Byte :=
  let frames := laneFrames m.octets
  ((s.withReplies { s.replies with messages := rest }).withLane
      { s.lane with emission := if 1 < frames.length then .own frames 1 else .none, memory := .own },
    .first, frames.getD 0 zeroLane)

/-- The choice at a message boundary (R156). -/
def State.arbitrateIdle (s : State) : State × LaneKind × List Byte :=
  match s.lane.hold, s.replies.messages with
  | [], [] => (s, .idle, zeroLane)
  | _ :: _, [] => s.beginPass
  | [], m :: rest => s.beginOwn m rest
  | _ :: _, m :: rest =>
    match s.lane.memory with
    | .own => s.beginPass
    | .pass => s.beginOwn m rest

/-- The lane content of the frame begun at a frame event (R156). -/
def State.arbitrate (s : State) : State × LaneKind × List Byte :=
  match s.lane.emission with
  | .own frames sent =>
    (s.withLane { s.lane with emission := if sent + 1 < frames.length then .own frames (sent + 1) else .none }, .cont, frames.getD sent zeroLane)
  | .pass =>
    if headSpoiled s.lane.hold then (s.withLane { s.lane with hold := s.lane.hold.tail, emission := .none }, .abort, zeroLane)
    else (s.withLane s.lane.passFrame, .cont, headFrame s.lane.hold)
  | .none => s.arbitrateIdle

/-! ### The Link Transmitter (R16 to R18) -/

/-- The pair the driver holds for a mix (R101, R139). -/
def OutputLanes.pair (l : OutputLanes) (mix : Nat) : Int × Int := l.held.getD mix (0, 0)

/-- The slots with the cue written (R18): in RUN, with a cue mix, in a period in which a pass ran. -/
def State.withCue (s : State) (slots : List Int) : List Int :=
  match s.tx.cueMix with
  | some k =>
    if s.intake.power = .run ∧ s.tx.passRan = true then
      (slots.set s.tx.cueLeft (s.lanes.pair k).1).set s.tx.cueRight (s.lanes.pair k).2
    else slots
  | none => slots

/-- The frame number of the frame begun (R17). -/
def State.emitNumber (s : State) : FrameNo :=
  match s.tx.heldFrame with
  | some h =>
    match h.cls with
    | .good => h.number
    | .marked => h.number
    | .corrupt => s.rx.localFrame
    | .nothing => s.rx.localFrame
  | none => s.rx.localFrame

/-- DAMAGED of the frame begun (R16): clear for a forwarded GOOD frame only. -/
def State.emitDamaged (s : State) : Bool :=
  match s.tx.heldFrame with
  | some h => h.cls != .good
  | none => true

/-- The slots of the frame begun (R16): a frame's verbatim, or 64 zeros, with the cue. -/
def State.emitSlots (s : State) : List Int :=
  s.withCue
    (match s.tx.heldFrame with
    | some h => h.slots
    | none => List.replicate 64 0)

/-- The frame begun at a frame event, with the arbiter's lane content, its frame check computed afresh (R17). -/
def State.frameBegun (s : State) (kind : LaneKind) (lane : List Byte) : EmittedFrame :=
  { number := s.emitNumber, damaged := s.emitDamaged, kind := kind, slots := s.emitSlots, lane := lane
    check := frameCheck (coveredOctets s.emitNumber s.emitDamaged kind s.emitSlots lane) }

/-! ### The lane frame (R137 to R140) -/

/-- The value a route carries (R139). -/
def OutputLanes.routed (l : OutputLanes) : Route → Int
  | .silent => 0
  | .mix k .left => (l.pair k).1
  | .mix k .right => (l.pair k).2

/-- The bit clocks of the lane frame that ends (R137, R138): 256, or one per 8 bit-times in the period that adopts the received phase. -/
def Timebase.laneClocks (t : Timebase) : Nat := if t.adopted then (t.periodEnd - t.periodStart) / 8 else 256

/-- The lane frame begun at a frame event (R139): the routed values, or 0 in every position while the power state is QUIET (R140). -/
def OutputLanes.beginFrame (l : OutputLanes) (power : PowerState) : OutputLanes :=
  { l with frame := some (l.routes.map fun r => if power = .quiet then 0 else l.routed r) }

/-- The next period begins where the last one ended, and owes its delivery (R8, R14). -/
def Timebase.nextPeriod (t : Timebase) : Timebase :=
  { periodStart := t.periodEnd, periodEnd := t.periodEnd + Config.framePeriod, due := false, adopted := false, owed := true, releaseEvent := false }

/-- What every frame event begins: an emitted frame (R16, R17) and a lane frame (R139). Position 0 of the lane frame begins with it (R137). The
delivered frame has been used. -/
def State.beginFrames (s : State) : State :=
  let a := s.arbitrate
  ((a.1.withTx { s.tx with emitted := some (s.frameBegun a.2.1 a.2.2), heldFrame := none, passRan := false }).withLanes
    (s.lanes.beginFrame s.intake.power)).withBegun 1

/-- The frame event that ends a period (R14): NONE is delivered first where the period still owes its delivery (R8, log 9). The plan of the period's delivery is used
up (log 7). -/
def State.endPeriod (s : State) : State :=
  let s := if s.tb.owed then s.deliver s.plan .nothing none else s
  let b := s.beginFrames
  ((b.withLanes { b.lanes with lastClocks := s.tb.laneClocks }).withTb s.tb.nextPeriod).withPlans s.plans.tail

/-- The frame event falls now (R14): in FREE_RUN, and in the period that adopts the received phase (R15), as the period ends; in FOLLOW once the sync of the
expected position is found or its window closed. -/
def State.eventDue (s : State) : Bool := !s.follow || s.tb.due

/-- The frame event (R14). The one at the release of RESET_N begins the first frames and ends no period (R137, R144, log 10). -/
def State.frameEvent (s : State) : State :=
  if s.tb.releaseEvent && s.tb.owed then s.beginFrames.withTb { s.tb with releaseEvent := false }
  else if s.eventDue then s.endPeriod else s

/-! ### What the lines carry -/

/-- The value a position of the lane frame in progress carries (R139, R140); none while no lane frame is sent. -/
def State.lanePosition (s : State) (lane position : Nat) : Option Int :=
  match s.lanes.frame with
  | some values => some (values.getD (8 * lane + position) 0)
  | none => none

/-- The level of LANE_D<lane> in a bit clock of the lane frame (R137): the sample of its position most significant bit first, then zeros, and zeros beyond the
256 clocks (R138). Low while no lane frame is sent. -/
def State.laneBit (s : State) (lane clock : Nat) : Bool :=
  match s.lanePosition lane (clock / 32) with
  | some value => if clock < 256 ∧ clock % 32 < 24 then (BitVec.ofInt 24 value).getMsbD (clock % 32) else false
  | none => false

/-- LANE_FSYNC (R137): high for bit clock 0 of position 0. -/
def State.laneSync (s : State) (clock : Nat) : Bool := s.lanes.frame.isSome && clock == 0

/-- What LINK_OUT carries in the first bit-times after the frame event that began the frame being emitted, up to the next one, from the line level before it (R1,
R17): sync pattern, body, and coded zeros to that frame event. A period that R15 makes shorter than the frame cuts it there, as R138 does with the lane frame
(DESIGN CHOICE, log 24). Coded zeros alone while no frame is emitted (R19). -/
def State.linkOut (s : State) (before : Bool) (bitTimes : Nat) : List (Bool × Bool) :=
  match s.tx.emitted with
  | some e =>
    let sync := Config.syncPattern before
    let entry := ((sync.map (·.2)).getLast?).getD before
    (sync ++ codeBits entry (bitsOf e.body ++ List.replicate (bitTimes - Config.trailerEnd) false)).take bitTimes
  | none => codeBits before (List.replicate bitTimes false)

end Sys2Proof.Machine
end

