-- ==== Sys2Proof/Machine/LinkSteps.lean ====
section
/-!
DEFINITION. The meanings of the rows that come from the pins and the line, and of the stages and standing actions that are rows of their own.
-/

namespace Sys2Proof.Machine

/-- POWER_ON (R170): release of RESET_N brings every block to its power-on values. The queue of waiting steps, the plans and the count of free choices are the model's
own and stay (log 1, log 6, log 7). -/
def execPowerOn (s : State) : Host.Outcome State Fault Refusal :=
  .next (((State.reset.withPending s.pending).withPlans s.plans).withFreeIdx s.freeIdx)

/-- RESET_ASSERT (R19, R137): RESET_N goes low: LINK_OUT carries coded zeros with no sync and no lane frame is sent. -/
def execResetAssert (s : State) : Host.Outcome State Fault Refusal :=
  .next (((s.withResetHeld true).withTx { s.tx with emitted := none }).withLanes { s.lanes with frame := none })

/-- SYNC_FOUND (R3 to R7): a sync pattern is found at a line position. -/
def execSyncFound (pos : Nat) (s : State) : Host.Outcome State Fault Refusal := .next (whileReleased s (·.syncFound pos))

/-- SYNC_MISSING (R3, R5 to R7): the window of the expected position closes with no sync. -/
def execSyncMissing (s : State) : Host.Outcome State Fault Refusal := .next (whileReleased s State.syncMissing)

/-- LINK_LOCKED (R5): the third sync is found at the expected position in CONFIRM. With a count short of 2, outside the window or in another sync state it is not
this step, and nothing changes (log 3). -/
def execLinkLocked (pos : Nat) (s : State) : Host.Outcome State Fault Refusal :=
  .next (whileReleased s fun s => if s.rx.sync = .confirm ∧ 3 ≤ s.rx.confirm + 1 ∧ s.rx.inWindow pos = true then (s.note pos).lock pos else s)

/-- LINK_LOST (R7): the eighth consecutive missing sync in HOLDOVER. With a count short of 7 or in another sync state it is not this step (log 3). -/
def execLinkLost (s : State) : Host.Outcome State Fault Refusal :=
  .next (whileReleased s fun s => if s.rx.sync = .holdover ∧ 8 ≤ s.rx.miss + 1 then s.lose else s)

/-- DELIVERY (R9): the trailer of a frame ends; an accepted one is tested and delivered GOOD, MARKED or CORRUPT. -/
def execDelivery (line : LineBody) (s : State) : Host.Outcome State Fault Refusal := .next (whileReleased s (·.deliverFrame line))

/-- DELIVERY_POINT (R8): NONE is delivered in a period in which no accepted frame ended. -/
def execDeliveryPoint (s : State) : Host.Outcome State Fault Refusal := .next (whileReleased s State.deliverNone)

/-- COMMIT_FIRE (R125, R127): the Commit Scheduler's test of the slot and, where it is met, the firing; the same stage that every delivery makes (log 4). -/
def execCommitFire (s : State) : Host.Outcome State Fault Refusal := .next (whileReleased s State.commitStage)

/-- POWER_QUIET_COMPLETE (R167): the fade is SHUT under QUIESCING, and the command completes; the same action that DELIVERY makes at the report (log 4). How much
of the lane frame has begun is open (log 26). -/
def execPowerQuietComplete (s : State) : Host.Outcome State Fault Refusal :=
  .next (whileReleased s fun s =>
    if s.intake.power = .quiescing ∧ s.fade.state = .shut then (s.completeQuiet s.drawBegun).withFreeIdx (s.freeIdx + 1) else s)

/-- The detector of a mix runs with the counter at 1 and finds no talk (R73): the hold expires. -/
def Mix.holdExpires (m : Mix) (st : SourceStore) : Bool :=
  match m.cfg.talk with
  | some k => m.cfg.enabled && !talkDetected st k m.cfg.threshold && m.hold == 1
  | none => false

/-- TALK_HOLD_EXPIRY (R73): the hold counter of a mix counts down to 0 and its duck state becomes IDLE; the same run of the detector that a pass makes (log 4),
and so not in QUIET, where no pass runs (R72). -/
def execTalkHoldExpiry (mix : Nat) (s : State) : Host.Outcome State Fault Refusal :=
  .next (whileReleased s fun s =>
    if s.intake.power ≠ .quiet ∧ (s.table.mix mix).holdExpires s.store = true then
      s.withTable (s.table.setMix mix ((s.table.mix mix).detect s.store)) else s)

/-- The lane octets of an ENUMERATE message (R154, section 12.2). -/
def enumerateOctets (src tag n : Byte) (check : BitVec 16) : List Byte := [0xFF, src, 0x82, tag, 1, n] ++ be 2 check.toNat

/-- ENUMERATE (R154): the message's FIRST frame arrives in the lane, is verified, and numbers the unit. -/
def execEnumerate (src tag n : Byte) (check : BitVec 16) (s : State) : Host.Outcome State Fault Refusal :=
  .next (whileReleased s (·.laneFirst (enumerateOctets src tag n check)))

/-- FRAME_EVENT (R14): a period ends, and an emitted frame and a lane frame begin. -/
def execFrameEvent (s : State) : Host.Outcome State Fault Refusal := .next (whileReleased s State.frameEvent)

/-- NOTICE_QUEUE (R173): with the latch set, no NOTICE queued and a free place. While any of the three fails the latch stays set and the NOTICE waits. -/
def execNoticeQueue (s : State) : Host.Outcome State Fault Refusal :=
  .next (whileReleased s State.offerNotice)

end Sys2Proof.Machine
end

