-- ==== Sys2Proof/Machine/Dispatch.lean ====
section
/-!
DEFINITION. One arm per row of the table, each one direct call of its meaning.
-/

namespace Sys2Proof.Machine

def exec (i : Instr) (s : State) : Host.Outcome State Fault Refusal :=
  match i with
  | .powerOn => Sys2Proof.Machine.execPowerOn s
  | .resetAssert => Sys2Proof.Machine.execResetAssert s
  | .syncFound pos => Sys2Proof.Machine.execSyncFound pos s
  | .syncMissing => Sys2Proof.Machine.execSyncMissing s
  | .linkLocked pos => Sys2Proof.Machine.execLinkLocked pos s
  | .linkLost => Sys2Proof.Machine.execLinkLost s
  | .delivery line => Sys2Proof.Machine.execDelivery line s
  | .deliveryPoint => Sys2Proof.Machine.execDeliveryPoint s
  | .commitFire => Sys2Proof.Machine.execCommitFire s
  | .powerQuietComplete => Sys2Proof.Machine.execPowerQuietComplete s
  | .talkHoldExpiry mix => Sys2Proof.Machine.execTalkHoldExpiry mix s
  | .enumerate src tag n check => Sys2Proof.Machine.execEnumerate src tag n check s
  | .frameEvent => Sys2Proof.Machine.execFrameEvent s
  | .noticeQueue => Sys2Proof.Machine.execNoticeQueue s
  | .identify c => Sys2Proof.Machine.execIdentify c s
  | .statusRead c => Sys2Proof.Machine.execStatusRead c s
  | .statusPeek c => Sys2Proof.Machine.execStatusPeek c s
  | .unitSetup c => Sys2Proof.Machine.execUnitSetup c s
  | .eventAck c => Sys2Proof.Machine.execEventAck c s
  | .linkCounters c => Sys2Proof.Machine.execLinkCounters c s
  | .mixWrite c => Sys2Proof.Machine.execMixWrite c s
  | .mixWriteStaged c => Sys2Proof.Machine.execMixWriteStaged c s
  | .mixRead c => Sys2Proof.Machine.execMixRead c s
  | .entryWrite c => Sys2Proof.Machine.execEntryWrite c s
  | .entryWriteStaged c => Sys2Proof.Machine.execEntryWriteStaged c s
  | .entryRemove c => Sys2Proof.Machine.execEntryRemove c s
  | .entryRemoveStaged c => Sys2Proof.Machine.execEntryRemoveStaged c s
  | .mixClear c => Sys2Proof.Machine.execMixClear c s
  | .mixClearStaged c => Sys2Proof.Machine.execMixClearStaged c s
  | .entryRead c => Sys2Proof.Machine.execEntryRead c s
  | .groupMute c => Sys2Proof.Machine.execGroupMute c s
  | .groupMuteStaged c => Sys2Proof.Machine.execGroupMuteStaged c s
  | .routeWrite c => Sys2Proof.Machine.execRouteWrite c s
  | .routeRead c => Sys2Proof.Machine.execRouteRead c s
  | .cueSelect c => Sys2Proof.Machine.execCueSelect c s
  | .commitAtFrame c => Sys2Proof.Machine.execCommitAtFrame c s
  | .commitNext c => Sys2Proof.Machine.execCommitNext c s
  | .cancel c => Sys2Proof.Machine.execCancel c s
  | .discard c => Sys2Proof.Machine.execDiscard c s
  | .flagsRead c => Sys2Proof.Machine.execFlagsRead c s
  | .flagsClear c => Sys2Proof.Machine.execFlagsClear c s
  | .powerQuiet c => Sys2Proof.Machine.execPowerQuiet c s
  | .powerRun c => Sys2Proof.Machine.execPowerRun c s
  | .unitReset c => Sys2Proof.Machine.execUnitReset c s
  | .unknownCommand kind c => Sys2Proof.Machine.execUnknownCommand kind c s

end Sys2Proof.Machine
end

