-- ==== Sys2Proof/Machine/Step.lean ====
section
/-!
DEFINITION. One step: the waiting step at the front of the queue, run on the unit with the queue's rest.
-/

namespace Sys2Proof.Machine

/-- Take the step at the front of the queue and run it with the rest waiting; on an empty queue the unit idles (log 1). -/
def step (s : State) : Host.Outcome State Fault Refusal :=
  match s.pending with
  | [] => .next s
  | c :: rest => exec c (s.withPending rest)

/-- The unit with the step a word spells at the front of its queue; as it stands where the word spells none. -/
def State.withFetchWord (s : State) (nbits w : Nat) : State :=
  match decodeTableWord nbits w with
  | some c => s.withPending (c :: s.pending)
  | none => s

end Sys2Proof.Machine
end

