-- ==== Sys2Proof/Safety.lean ====
section
/-!
DEFINITION. What a sound state of the unit is, block by block, in the terms the statements use, and what it is for a held command to be ready to be taken.
-/

namespace Sys2Proof.Machine

/-! ### Link Receiver -/

/-- The counts and the reference agree with the sync state (R4 to R7). -/
def LinkReceiver.sound (r : LinkReceiver) : Prop :=
  match r.sync with
  | .search => r.confirm = 0 ∧ r.miss = 0 ∧ r.reference = none
  | .confirm => (r.confirm = 1 ∨ r.confirm = 2) ∧ r.miss = 0 ∧ r.reference.isSome = true
  | .locked => r.confirm = 0 ∧ r.miss = 0 ∧ r.reference.isSome = true
  | .holdover => r.confirm = 0 ∧ 1 ≤ r.miss ∧ r.miss ≤ 7 ∧ r.reference.isSome = true

/-- Every link counter is within 16 bits (R11). -/
def LinkCounters.sound (c : LinkCounters) : Prop :=
  c.codingViolations ≤ 65535 ∧ c.frameCheckErrors ≤ 65535 ∧ c.trailerErrors ≤ 65535 ∧ c.inheritedDamage ≤ 65535 ∧ c.missedSyncs ≤ 65535 ∧
    c.laneFramingErrors ≤ 65535 ∧ c.laneDrops ≤ 65535 ∧ c.messageCheckErrors ≤ 65535

/-! ### Source Store -/

/-- 64 sources with samples of 24 bits, all of one age of at most 255 (R20), and B and G within 16 bits, one of them 0 (R21, R22). -/
def SourceStore.sound (st : SourceStore) : Prop :=
  st.sources.length = 64 ∧ (∀ x ∈ st.sources, -8388608 ≤ x.sample ∧ x.sample ≤ 8388607) ∧ (∃ age, age ≤ 255 ∧ ∀ x ∈ st.sources, x.age = age) ∧
    st.bad ≤ 65535 ∧ st.good ≤ 65535 ∧ (st.bad = 0 ∨ st.good = 0)

/-! ### Mix Table -/

/-- An entry in its ranges (R36). -/
def Entry.sound (e : Entry) : Prop :=
  e.source ≤ 63 ∧ e.gL ≤ 32767 ∧ e.gR ≤ 32767 ∧ e.cL ≤ 32767 ∧ e.cR ≤ 32767 ∧ ∀ g, e.group = some g → g ≤ 7

/-- A contribution list in rising order of source, no source twice (R34), its entries in their ranges. -/
def listSound (l : List Entry) : Prop := l.Pairwise (fun a b => a.source < b.source) ∧ ∀ e ∈ l, e.sound

/-- A settings record in the ranges of R60. -/
def Settings.sound (c : Settings) : Prop :=
  c.master ≤ 32767 ∧ (1 ≤ c.ramp ∧ c.ramp ≤ 32767) ∧ (256 ≤ c.ceiling ∧ c.ceiling ≤ 8388607) ∧ (1 ≤ c.limRelease ∧ c.limRelease ≤ 4096) ∧
    c.threshold ≤ 8388607 ∧ c.holdTime ≤ 65535 ∧ c.depth ≤ 4096 ∧ (1 ≤ c.attack ∧ c.attack ≤ 4096) ∧ (1 ≤ c.release ∧ c.release ≤ 4096) ∧
    ∀ k, c.talk = some k → k ≤ 63

/-- A mix in the ranges of R60 and R64; a disabled mix has mc 0, Lg 4096 and an idle detector (R67, R68), and so has a mix without talk source (R72);
the pass after an enable transition starts from mc at 0 (R102). -/
def Mix.sound (m : Mix) : Prop :=
  m.cfg.sound ∧ listSound m.list ∧ m.mc ≤ 32767 ∧ m.duck ≤ 4096 ∧ m.hold ≤ 65535 ∧ (1 ≤ m.lg ∧ m.lg ≤ 4096) ∧
    (-8388607 ≤ m.yL ∧ m.yL ≤ 8388607) ∧ (-8388607 ≤ m.yR ∧ m.yR ≤ 8388607) ∧
    (m.cfg.enabled = false → m.mc = 0 ∧ m.lg = 4096 ∧ m.hold = 0 ∧ m.engaged = false) ∧ (m.cfg.talk = none → m.hold = 0 ∧ m.engaged = false) ∧
    (m.justEnabled = true → m.cfg.enabled = true ∧ m.mc = 0)

/-- The entries in all lists. -/
def MixTable.entries (t : MixTable) : Nat := (t.mixes.map fun m => m.list.length).sum

/-- 16 sound mixes, and the free count and the lists hold the 512 entries of the pool between them (R35). -/
def MixTable.sound (t : MixTable) : Prop := t.mixes.length = 16 ∧ (∀ m ∈ t.mixes, m.sound) ∧ t.free + t.entries = 512

/-- A staged record in its ranges, as it was checked and clamped when it was appended (R119). -/
def StagedEdit.sound : StagedEdit → Prop
  | .setEntry k source gL gR group _ => k ≤ 15 ∧ source ≤ 63 ∧ gL ≤ 32767 ∧ gR ≤ 32767 ∧ ∀ g, group = some g → g ≤ 7
  | .retireEntry k source => k ≤ 15 ∧ source ≤ 63
  | .clearMix k => k ≤ 15
  | .setMix k cfg => k ≤ 15 ∧ cfg.sound
  | .setGroupMutes k _ => k ≤ 15

/-- At most 128 sound records are staged (R119). -/
def Staging.sound (st : Staging) : Prop := st.queue.length ≤ 128 ∧ ∀ e ∈ st.queue, e.sound

/-! ### Fade, power, intake and Reply Queue -/

/-- The fade coefficient agrees with the fade state (R24), and the fade-in step is in its range (R27). -/
def Fade.sound (fd : Fade) : Prop :=
  (1 ≤ fd.step ∧ fd.step ≤ 4096) ∧
    match fd.state with
    | .opened => fd.coeff = 4096
    | .closing => 1 ≤ fd.coeff ∧ fd.coeff ≤ 4096
    | .shut => fd.coeff = 0
    | .opening => 1 ≤ fd.coeff ∧ fd.coeff ≤ 4095

/-- The power state agrees with the fade and the intake (R28, R166, R167): QUIET is SHUT, QUIESCING is CLOSING, and the executing slot is occupied exactly in
QUIESCING, by the POWER QUIET. -/
def State.powerSound (s : State) : Prop :=
  (s.intake.power = .quiet → s.fade.state = .shut) ∧ (s.intake.power = .quiescing → s.fade.state = .closing) ∧
    (s.intake.power = .quiescing ↔ s.intake.executing.isSome = true)

/-- The Reply Queue's places (R157): at most 8 filled or reserved, one reserved exactly while a command executes (R161), at most one NOTICE. -/
def State.repliesSound (s : State) : Prop :=
  s.replies.messages.length + s.replies.reserved ≤ 8 ∧ s.replies.reserved = s.intake.executing.isSome.toNat ∧
    (s.replies.messages.filter (·.isNotice)).length ≤ 1

/-! ### Lane, outputs and cue -/

/-- The hold buffer reserves at most 64 frames (R152), the unit number is 1 to 32 or absent (R155), and a message being received has at most 247 octets (R148). -/
def LaneController.sound (l : LaneController) : Prop :=
  reservedFrames l.hold ≤ 64 ∧ (∀ n, l.unit = some n → 1 ≤ n ∧ n ≤ 32) ∧ l.buffer.length ≤ 247 ∧
    ∀ r, l.rx = .receiving r → r.octets ≤ 247

/-- A sample a lane position can carry (R98, R139). -/
def sampleSound (y : Int) : Prop := -8388607 ≤ y ∧ y ≤ 8388607

/-- 32 routes to mixes 0 to 15 (R141), 16 held pairs of valid samples (R139), and 32 valid samples in a lane frame. -/
def OutputLanes.sound (l : OutputLanes) : Prop :=
  l.routes.length = 32 ∧ (∀ k side, Route.mix k side ∈ l.routes → k ≤ 15) ∧ l.held.length = 16 ∧
    (∀ p ∈ l.held, sampleSound p.1 ∧ sampleSound p.2) ∧ ∀ values, l.frame = some values → values.length = 32 ∧ ∀ y ∈ values, sampleSound y

/-- The cue slots are slots and differ, and the cue mix is a mix (R145). -/
def Transmitter.cueSound (t : Transmitter) : Prop :=
  t.cueLeft ≤ 63 ∧ t.cueRight ≤ 63 ∧ t.cueLeft ≠ t.cueRight ∧ ∀ k, t.cueMix = some k → k ≤ 15

/-! ### Commands -/

/-- A command row's command can be taken now (R161): RESET_N is high, the executing slot is empty, the Reply Queue has a place, and the command waits in the
holding slot, or arrives and finds it empty: it is then noted READY and taken on arrival (R160, R165). -/
def State.takes (s : State) (src : CommandSource) (kind : Byte) (c : Command) : Prop :=
  s.resetHeld = false ∧ s.intake.executing = none ∧ s.replies.messages.length + s.replies.reserved < 8 ∧
    match src with
    | .held => s.intake.holding = some c ∧ c.kind = kind
    | .arriving sender tag payload =>
      s.intake.holding = none ∧ c = { kind := kind, src := sender, tag := tag, payload := payload, busyAtArrival := false, waited := false }

/-- The unit with the holding slot empty and the reply to a command at the end of the Reply Queue (R161, R163). -/
def State.replied (s : State) (c : Command) (a : Answer) : State :=
  { s with
    intake := { s.intake with holding := none }
    replies := { s.replies with messages := s.replies.messages ++ [{ isNotice := false, octets := replyTo c s.lane.unit a }] } }

/-! ### Deliveries and frame events -/

/-- An accepted frame ends its trailer within the period in progress, which still owes its delivery (R8). -/
def State.frameEnds (s : State) : Prop :=
  s.resetHeld = false ∧ s.tb.owed = true ∧ ∃ pos, s.rx.accepted = some pos ∧ pos + 1664 ≤ s.tb.periodEnd

/-- The period in progress still owes its delivery, and no accepted frame ends its trailer in it (R8). -/
def State.noneDue (s : State) : Prop :=
  s.resetHeld = false ∧ s.tb.owed = true ∧ ∀ pos, s.rx.accepted = some pos → s.tb.periodEnd < pos + 1664

/-- The step is a delivery of this class with nothing falling inside it (R2, R8), whatever the order of its pass: the trailer of an accepted frame ends, or the delivery
point comes. -/
def State.delivers (s : State) (i : Instr) (cls : DeliveryClass) : Prop :=
  match i with
  | .delivery line => s.frameEnds ∧ s.plan.falls = [] ∧ cls = (decodeBody line).cls
  | .deliveryPoint => s.noneDue ∧ s.plan.falls = [] ∧ cls = .nothing
  | _ => False

/-- The step is a delivery of this class inside which one standing action falls, at this point of its chain (log 7), the pass in this order of the 16 mixes (R80). -/
def State.deliversWith (s : State) (i : Instr) (cls : DeliveryClass) (order : List Nat) (point : ChainPoint) (action : StandingAction) : Prop :=
  order.Perm (List.range 16) ∧ (∀ k, point = .mix k → k < 16) ∧ s.plan = { order := order, falls := [(point, action)] } ∧
    match i with
    | .delivery line => s.frameEnds ∧ cls = (decodeBody line).cls
    | .deliveryPoint => s.noneDue ∧ cls = .nothing
    | _ => False

/-- The armed commit fires at a delivery that settles this local frame number (R125). -/
def State.firesAt (s : State) (now : FrameNo) : Bool :=
  match s.staging.slot with
  | .disarmed => false
  | .armed .nextDelivery _ => true
  | .armed (.frame n) _ => (now - n).toNat < 32768

/-- A frame event ends the period in progress (R14): it is not the one at the release of RESET_N, and in FOLLOW, which an adoption of the received
phase puts off to the next period (R15), the expected position has been settled. -/
def State.eventComes (s : State) : Prop :=
  s.resetHeld = false ∧ (s.tb.releaseEvent && s.tb.owed) = false ∧ (s.tb.due = true ∨ s.tb.adopted = true ∨ s.rx.sync = .search ∨ s.rx.sync = .confirm)

/-! ### The lane of a delivery -/

/-- The unit after the message being received is spoiled (R150, R153): WAITING, the octets received discarded; counter 6 rises for a LOCAL part; of an admitted
FORWARD part the message leaves the hold buffer, or is marked where its emission has begun, and it is a drop: counter 7 rises and LANE_DROP is raised. -/
def State.afterSpoil (s : State) : State :=
  match s.lane.rx with
  | .waiting => s
  | .receiving r =>
    { s with
      lane :=
        { s.lane with
          rx := .waiting, buffer := []
          hold :=
            if r.toForward && r.admitted then
              s.lane.hold.dropLast ++ ((s.lane.hold.getLast?.filter (·.emitted != 0)).map fun m => { m with spoiled := true }).toList
            else s.lane.hold }
      rx :=
        { s.rx with
          counters :=
            { s.rx.counters with
              laneFramingErrors := if r.toLocal then rise s.rx.counters.laneFramingErrors else s.rx.counters.laneFramingErrors
              laneDrops := if r.toForward && r.admitted then rise s.rx.counters.laneDrops else s.rx.counters.laneDrops } }
      events := if r.toForward && r.admitted then s.events.raise .laneDrop else s.events }

/-- The unit agrees with another in all that the lane of a delivery can change: the Lane Controller, the holding slot, counters 6 to 8 and the events 5 to 7. -/
def State.sameLane (t u : State) : Prop :=
  t.lane = u.lane ∧ t.intake.holding = u.intake.holding ∧ t.rx.counters.laneFramingErrors = u.rx.counters.laneFramingErrors ∧
    t.rx.counters.laneDrops = u.rx.counters.laneDrops ∧ t.rx.counters.messageCheckErrors = u.rx.counters.messageCheckErrors ∧
    ∀ i, 5 ≤ i → i ≤ 7 → t.events.summary.getLsbD i = u.events.summary.getLsbD i

/-! ### Wire records -/

/-- Two octets as a number, most significant first (12). -/
def word2 (a b : Byte) : Nat := a.toNat * 256 + b.toNat

/-- Three octets as a number, most significant first (12). -/
def word3 (a b c : Byte) : Nat := (a.toNat * 256 + b.toNat) * 256 + c.toNat

/-- An entry wire record, octet by octet (section 12.3). -/
structure WireRecord where
  source : Byte
  attributes : Byte
  l1 : Byte
  l0 : Byte
  r1 : Byte
  r0 : Byte
  deriving DecidableEq, Repr

/-- The six octets of a wire record in order. -/
def WireRecord.octets (w : WireRecord) : List Byte := [w.source, w.attributes, w.l1, w.l0, w.r1, w.r0]

/-- The source and the group code are good (R46 step 4). -/
def WireRecord.valid (w : WireRecord) : Prop := w.source.toNat ≤ 63 ∧ (w.attributes.toNat % 16 ≤ 7 ∨ w.attributes.toNat % 16 = 15)

/-- The values taken from a good wire record (R46, R47). -/
def WireRecord.values (w : WireRecord) : EntryValues :=
  { source := w.source.toNat, gL := min 32767 (word2 w.l1 w.l0), gR := min 32767 (word2 w.r1 w.r0)
    group := if w.attributes.toNat % 16 ≤ 7 then some (w.attributes.toNat % 16) else none, mute := w.attributes.getLsbD 4 }

/-- A gain of a wire record is clamped (R47). -/
def WireRecord.clamped (w : WireRecord) : Bool := 32767 < word2 w.l1 w.l0 || 32767 < word2 w.r1 w.r0

end Sys2Proof.Machine
end

