-- ==== Sys2Proof/WellFormed.lean ====
section
/-!
DEFINITION. What makes a step well formed: operands that the line and the lane can bring.
-/

namespace Sys2Proof

/-- A frame's body has the cells from the end of the sync pattern through the trailer (R1, section 12.1). -/
def LineBody.wellFormed (b : LineBody) : Bool := b.cells.length == Config.bodyCells

/-- The KIND and payload are of this row of their kind: the mode octet or the request octet that tells the two rows of a kind apart (section 12.2), and no KIND of
the catalogue for UNKNOWN_COMMAND (R162). -/
def Instr.ownPayload (i : Instr) (payload : List Byte) : Bool :=
  match i with
  | .mixWrite _ => !isStaged payload
  | .mixWriteStaged _ => isStaged payload
  | .entryWrite _ => !isStaged payload
  | .entryWriteStaged _ => isStaged payload
  | .entryRemove _ => !isStaged payload
  | .entryRemoveStaged _ => isStaged payload
  | .mixClear _ => !isStaged payload
  | .mixClearStaged _ => isStaged payload
  | .groupMute _ => !isStaged payload
  | .groupMuteStaged _ => isStaged payload
  | .commitAtFrame _ => !asksOne payload
  | .commitNext _ => asksOne payload
  | .powerQuiet _ => asksOne payload
  | .powerRun _ => !asksOne payload
  | .unknownCommand kind _ => !isCommandKind kind
  | _ => true

/-- UNKNOWN_COMMAND names no KIND of the catalogue (R162). -/
def Instr.ownKind (i : Instr) : Bool :=
  match i with
  | .unknownCommand kind _ => !isCommandKind kind
  | _ => true

/-- The checks of a step: a body's length (R1), a mix's number, a command's payload of at most 240 octets (R148) that is of its row. -/
def Instr.wellFormed (i : Instr) : Bool :=
  match i with
  | .delivery line => line.wellFormed
  | .talkHoldExpiry mix => mix < Config.mixCount
  | i =>
    match commandOf i with
    | some (_, .arriving _ _ payload) => decide (payload.length ≤ 240) && i.ownPayload payload
    | some (_, .held) => i.ownKind
    | none => true

end Sys2Proof
end

