-- ==== Sys2Proof/Certificates/Slice0/Obligations.lean ====
section
/-!
DEFINITION. The statements about the DF1604, for the provers: each names the rules it formalises. The hypotheses `takes`, `delivers` and `eventComes`
(Safety.lean) say when a step's own effect comes; where a statement rests on a choice of the model its docstring names the log entry.
-/

open Sys2Proof Sys2Proof.Machine

/-! ### The step, resets and RESET_N -/

/-- A step runs the command at the front of the queue with the rest waiting, and an empty queue idles. The queue is the model's own (log 1). -/
def Obligations.StepRunsFront : Prop :=
  (∀ (s : State) (c : Instr) (rest : List Instr), s.pending = c :: rest → step s = exec c (s.withPending rest)) ∧
    ∀ s : State, s.pending = [] → step s = .next s

/-- POWER_ON leaves every block at the power-on values of R19, R23, R29, R57, R60, R77, R117, R135, R141, R144, R158, R170 and R175. The
queues of waiting steps and of plans and the count of free choices, which are the model's own, stay (log 1, log 6, log 7); positions count from 0 at
the release (log 8), and `releaseEvent`, `lastClocks`, `begun` and a mix's `justEnabled` are the model's (log 10, log 21, log 26, log 27). -/
def Obligations.PowerOnValues : Prop :=
  ∀ s : State,
    exec .powerOn s =
      .next
        { pending := s.pending
          plans := s.plans
          resetHeld := false
          freeIdx := s.freeIdx
          begun := 0
          rx :=
            { sync := .search, confirm := 0, miss := 0, reference := none, expected := 0, accepted := none, missed := false, lockedDue := false,
              lostDue := false, localFrame := 0, counters := ⟨0, 0, 0, 0, 0, 0, 0, 0⟩ }
          tb := { periodStart := 0, periodEnd := 2048, due := false, adopted := false, owed := true, releaseEvent := true }
          tx := { cueMix := none, cueLeft := 62, cueRight := 63, heldFrame := none, passRan := false, emitted := none }
          store := { sources := List.replicate 64 { sample := 0, age := 255 }, bad := 0, good := 0 }
          fade := { state := .shut, coeff := 0, step := 1 }
          table :=
            { mixes :=
                List.replicate 16
                  { cfg :=
                      { enabled := false, master := 4096, ramp := 64, ceiling := 8388607, limRelease := 4, rounding := .nearestEven, groupMutes := 0,
                        talk := none, threshold := 1048576, holdTime := 9600, depth := 1024, attack := 256, release := 8,
                        enables := ⟨false, false, false, false⟩ }
                    list := [], mc := 0, duck := 4096, hold := 0, engaged := false, lg := 4096, yL := 0, yR := 0
                    current := ⟨false, false, false, false⟩, accrued := ⟨false, false, false, false⟩, capture := none
                    justEnabled := false }
              free := 512 }
          staging := { queue := [], slot := .disarmed, report := none }
          lanes :=
            { routes := (List.range 32).map fun i => .mix (4 * (i / 8) + i % 8 / 2) (if i % 2 = 0 then .left else .right)
              held := List.replicate 16 (0, 0), frame := none, lastClocks := 256 }
          lane := { rx := .waiting, buffer := [], hold := [], emission := .none, memory := .pass, unit := none }
          replies := { messages := [], reserved := 0 }
          intake := { holding := none, executing := none, power := .run }
          events := { summary := 0, mask := 0, latch := false } }

/-- RESET_ASSERT: nothing is emitted and no lane frame is sent; LINK_OUT carries coded zeros (each bit-time one transition, at its begin), LANE_FSYNC
and the data lines are low (R19, R137). Every other block keeps its state until the release (log 11). While RESET_N is low, every step but POWER_ON
and RESET_ASSERT leaves the unit as it is: the model's choice (log 11). -/
def Obligations.ResetAssertHoldsUnit : Prop :=
  (∀ s : State, ∃ t, exec .resetAssert s = .next t ∧
      t = { s with resetHeld := true, tx := { s.tx with emitted := none }, lanes := { s.lanes with frame := none } } ∧
      (∀ before n, (t.linkOut before n).length = n ∧
        ∀ k, k < n → (t.linkOut before n)[k]? = some (decide (k % 2 = 0) ^^ before, decide (k % 2 = 0) ^^ before)) ∧
      ∀ lane clock, t.laneBit lane clock = false ∧ t.laneSync clock = false) ∧
  (∀ (s : State) (i : Instr), s.resetHeld = true → i ≠ .powerOn → i ≠ .resetAssert → exec i s = .next s)

/-- The state at reset is sound, block by block: every property that the invariants at the end of this file keep holds of it. -/
def Obligations.ResetIsSound : Prop :=
  State.reset.rx.sound ∧ State.reset.rx.counters.sound ∧ State.reset.store.sound ∧ State.reset.table.sound ∧ State.reset.staging.sound ∧
    State.reset.fade.sound ∧ State.reset.powerSound ∧ State.reset.repliesSound ∧ State.reset.lane.sound ∧ State.reset.lanes.sound ∧
    State.reset.tx.cueSound

/-! ### Finding and keeping frames -/

/-- A sync found, by sync state and window (R3 to R7), with the phase kept or adopted (R14, R15): in the period that adopts the phase, and at the
expected position at which a lengthened one ended (log 8), a sync moves no frame event. The events of the change are raised by its delivery (log 5). The positions
of the lane frame that its moment shows begun are noted, in or out of the window (log 26). -/
def Obligations.SyncFoundActs : Prop :=
  ∀ (s : State) (pos : Nat), s.resetHeld = false →
    exec (.syncFound pos) s =
      .next
        (let s := s.withBegun (max (min 8 s.begun) (min 8 ((pos - s.tb.periodStart -
            if s.tb.adopted = false ∧ (s.rx.sync = .locked ∨ s.rx.sync = .holdover) then 4 else 0) / 256 + 1)))
        if s.rx.sync = .search then s.withRx { s.rx with sync := .confirm, confirm := 1, reference := some pos, expected := pos + 2048 }
        else if pos + 4 < s.rx.expected ∨ s.rx.expected + 4 < pos then s
        else if s.rx.sync = .confirm ∧ s.rx.confirm < 2 then
          s.withRx { s.rx with confirm := s.rx.confirm + 1, reference := some pos, expected := pos + 2048 }
        else if s.rx.sync = .confirm then
          (s.withRx
              { s.rx with
                sync := .locked, confirm := 0, reference := some pos, expected := pos + 2048, accepted := some pos, lockedDue := true }).withTb
            (if s.tb.periodStart + 1024 ≤ pos then { s.tb with periodEnd := pos, due := true, adopted := true }
            else { s.tb with periodEnd := pos + 2048, due := false, adopted := true })
        else
          (s.withRx { s.rx with sync := .locked, miss := 0, reference := some pos, expected := pos + 2048, accepted := some pos }).withTb
            (if s.tb.adopted = true ∨ s.rx.expected ≤ s.tb.periodStart then s.tb else { s.tb with periodEnd := pos, due := true }))

/-- A window closes with no sync, by sync state (R3, R5 to R7), with the frame event as it closes (R14), but where R15 has given that expected position
its frame event (log 8). The positions of the lane frame that its moment shows begun are noted (log 26). In SEARCH no window closes, and the row leaves the
unit as it is: the model's choice (log 3). That LINK_LOST and counter 5 come with the NONE delivery of the missing sync, and not here, is the model's
reading (log 5). -/
def Obligations.SyncMissingActs : Prop :=
  ∀ s : State, s.resetHeld = false →
    exec .syncMissing s =
      .next
        (let noted := s.withBegun (max (min 8 s.begun) (min 8 ((s.rx.expected + 4 - s.tb.periodStart -
            if s.tb.adopted = false ∧ (s.rx.sync = .locked ∨ s.rx.sync = .holdover) then 4 else 0) / 256 + 1)))
        let closed := if s.tb.adopted = true ∨ s.rx.expected ≤ s.tb.periodStart then s.tb else { s.tb with periodEnd := s.rx.expected + 4, due := true }
        if s.rx.sync = .search then s
        else if s.rx.sync = .confirm then noted.withRx { s.rx with sync := .search, confirm := 0, reference := none }
        else if s.rx.sync = .holdover ∧ 7 ≤ s.rx.miss then
          (noted.withRx { s.rx with sync := .search, miss := 0, reference := none, missed := true, lostDue := true }).withTb closed
        else
          (noted.withRx
              { s.rx with
                sync := .holdover, miss := if s.rx.sync = .locked then 1 else s.rx.miss + 1, expected := s.rx.expected + 2048, missed := true }).withTb
            closed)

/-- LINK_LOCKED is the third sync found in CONFIRM, with the phase adopted (R5, R15); LINK_LOST is the eighth consecutive missing sync (R7). Their own
rows are the same changes as SYNC_FOUND and SYNC_MISSING make (log 4), and change nothing where the condition does not hold (log 3). Both note
the positions of the lane frame that their moment shows begun (log 26). The events
LINK_LOCKED and LINK_LOST are raised by the delivery that follows, and not here: the model's reading (log 5). -/
def Obligations.LinkLockedAndLost : Prop :=
  (∀ (s : State) (pos : Nat), s.resetHeld = false →
      exec (.linkLocked pos) s =
        .next
          (if s.rx.sync = .confirm ∧ 2 ≤ s.rx.confirm ∧ pos ≤ s.rx.expected + 4 ∧ s.rx.expected ≤ pos + 4 then
            ((s.withBegun (max (min 8 s.begun) (min 8 ((pos - s.tb.periodStart) / 256 + 1)))).withRx
                { s.rx with
                  sync := .locked, confirm := 0, reference := some pos, expected := pos + 2048, accepted := some pos, lockedDue := true }).withTb
              (if s.tb.periodStart + 1024 ≤ pos then { s.tb with periodEnd := pos, due := true, adopted := true }
              else { s.tb with periodEnd := pos + 2048, due := false, adopted := true })
          else s)) ∧
    ∀ s : State, s.resetHeld = false →
      exec .linkLost s =
        .next
          (if s.rx.sync = .holdover ∧ 7 ≤ s.rx.miss then
            ((s.withBegun (max (min 8 s.begun)
                    (min 8 ((s.rx.expected + 4 - s.tb.periodStart - if s.tb.adopted = false then 4 else 0) / 256 + 1)))).withRx
                { s.rx with sync := .search, miss := 0, reference := none, missed := true, lostDue := true }).withTb
              (if s.tb.adopted = true ∨ s.rx.expected ≤ s.tb.periodStart then s.tb else { s.tb with periodEnd := s.rx.expected + 4, due := true })
          else s)

/-! ### Deliveries -/

/-- A frame's delivery settles the Link Receiver (R8 to R11, R13): the local frame number, the counters of the tests failed, LINK_LOCKED where the
frame's sync made the change and nowhere else (log 5); class, number, flags and samples are held for the Link Transmitter, and the period's delivery is
made. Counters 6 to 8 are the Lane Controller's. NONE settles the Link Receiver (R7, R8, R10, R11, R13): the local frame number advances by 1, the
missed syncs counter rises where a missing sync caused it, LINK_LOST is raised where that was the eighth and nowhere else (log 5); no frame is held,
and the period's delivery is made. The mask stays, and the latch is set where a delivery newly sets a bit of it (R172). Both note how many positions of
the lane frame their moment has begun (log 26, log 28). -/
def Obligations.DeliveriesSettleLink : Prop :=
  (∀ (s : State) (line : LineBody), s.frameEnds → s.plan.falls = [] → s.rx.counters.sound →
      ∃ t, exec (.delivery line) s = .next t ∧
        (let f := decodeBody line
        let corrupt := f.codingBad || f.checkBad || f.trailerBad
        let add := fun (c : Bool) (n : Nat) => if c then min 65535 (n + 1) else n
        t.rx =
            { s.rx with
              accepted := none
              lockedDue := false
              localFrame := if corrupt then s.rx.localFrame + 1 else f.number
              counters :=
                { codingViolations := add f.codingBad s.rx.counters.codingViolations
                  frameCheckErrors := add f.checkBad s.rx.counters.frameCheckErrors
                  trailerErrors := add f.trailerBad s.rx.counters.trailerErrors
                  inheritedDamage := add (!corrupt && f.damaged) s.rx.counters.inheritedDamage
                  missedSyncs := s.rx.counters.missedSyncs
                  laneFramingErrors := t.rx.counters.laneFramingErrors
                  laneDrops := t.rx.counters.laneDrops
                  messageCheckErrors := t.rx.counters.messageCheckErrors } } ∧
          t.events.summary.getLsbD 0 = (s.events.summary.getLsbD 0 || s.rx.lockedDue) ∧ t.events.summary.getLsbD 1 = s.events.summary.getLsbD 1 ∧
          t.events.mask = s.events.mask ∧
          t.events.latch =
            (s.events.latch || (List.range 8).any fun i => s.events.mask.getLsbD i && !s.events.summary.getLsbD i && t.events.summary.getLsbD i) ∧
          t.tx =
            { s.tx with
              heldFrame :=
                some
                  { cls := if corrupt then .corrupt else if f.damaged then .marked else .good, number := f.number, flags := f.flags, slots := f.slots }
              passRan := t.tx.passRan } ∧
          t.tb = { s.tb with owed := false } ∧ t.pending = s.pending ∧ t.plans = s.plans ∧ t.resetHeld = s.resetHeld ∧
          ∀ pos, s.rx.accepted = some pos → t.begun = min 8 ((pos + 1664 - s.tb.periodStart) / 256 + 1))) ∧
  (∀ s : State, s.noneDue → s.plan.falls = [] → s.rx.counters.sound →
      ∃ t, exec .deliveryPoint s = .next t ∧
        t.rx =
          { s.rx with
            missed := false
            lostDue := false
            localFrame := s.rx.localFrame + 1
            counters :=
              { s.rx.counters with
                missedSyncs := if s.rx.missed then min 65535 (s.rx.counters.missedSyncs + 1) else s.rx.counters.missedSyncs
                laneFramingErrors := t.rx.counters.laneFramingErrors
                laneDrops := t.rx.counters.laneDrops } } ∧
        t.events.summary.getLsbD 0 = s.events.summary.getLsbD 0 ∧ t.events.summary.getLsbD 1 = (s.events.summary.getLsbD 1 || s.rx.lostDue) ∧
        t.events.mask = s.events.mask ∧
        t.events.latch =
          (s.events.latch || (List.range 8).any fun i => s.events.mask.getLsbD i && !s.events.summary.getLsbD i && t.events.summary.getLsbD i) ∧
        t.tx = { s.tx with heldFrame := none, passRan := t.tx.passRan } ∧ t.tb = { s.tb with owed := false } ∧ t.pending = s.pending ∧
        t.plans = s.plans ∧ t.resetHeld = s.resetHeld ∧ t.begun = min 8 (min 1664 (s.tb.periodEnd - s.tb.periodStart) / 256 + 1))

/-- The lane of a delivery at the Lane Controller and the Command Intake (R147 to R153, R160). No valid lane, an IDLE or an ABORT spoils the message being
received. A FIRST spoils it and begins a message: a LENGTH above 240 is a framing error; ENUMERATE is as its own row says; a FORWARD part is admitted or
dropped; a LOCAL part of one frame is verified, and a longer one is received. A CONT joins the message being received, which is verified at its last
frame, and is a framing error outside one. A message that passes its check enters the empty holding slot with its note, or is an overrun; one that
fails is counted and dropped. Padding is forwarded as it came (log 25), and the lane is handed over before the rest of the delivery (log 23). -/
def Obligations.DeliveryHandsLane : Prop :=
  (∀ s : State, s.noneDue → s.plan.falls = [] → ∃ t, exec .deliveryPoint s = .next t ∧ t.sameLane s.afterSpoil) ∧
    ∀ (s : State) (line : LineBody), s.frameEnds → s.plan.falls = [] →
      ∃ t, exec (.delivery line) s = .next t ∧
        (let f := decodeBody line
        let o := f.lane
        let valid := !(f.codingBad || f.checkBad || f.trailerBad)
        let length := (o.getD 4 0).toNat
        let framing := fun (u : State) =>
          { u with rx := { u.rx with counters := { u.rx.counters with laneFramingErrors := rise u.rx.counters.laneFramingErrors } } }
        let dropped := fun (u : State) =>
          { u with
            rx := { u.rx with counters := { u.rx.counters with laneDrops := rise u.rx.counters.laneDrops } }
            events := u.events.raise .laneDrop }
        let verified := fun (u : State) (m : List Byte) =>
          let l := (m.getD 4 0).toNat
          if messageCheck (m.take (5 + l)) = BitVec.ofNat 16 (fromBe ((m.drop (5 + l)).take 2)) then
            if u.intake.holding = none then
              { u with
                intake :=
                  { u.intake with
                    holding :=
                      some
                        { kind := m.getD 2 0, src := m.getD 1 0, tag := m.getD 3 0, payload := (m.drop 5).take l
                          busyAtArrival := u.intake.executing.isSome
                          waited := u.intake.executing.isSome || decide (8 ≤ u.replies.messages.length + u.replies.reserved) } } }
            else { u with events := u.events.raise .intakeOverrun }
          else
            { u with
              rx := { u.rx with counters := { u.rx.counters with messageCheckErrors := rise u.rx.counters.messageCheckErrors } }
              events := u.events.raise .checkError }
        (valid = false ∨ f.kind = .idle ∨ f.kind = .abort → t.sameLane s.afterSpoil) ∧
          (valid = true → f.kind = .first → 240 < length → t.sameLane (framing s.afterSpoil)) ∧
          (∀ src tag n c1 c0, valid = true → f.kind = .first → o = [0xFF, src, 0x82, tag, 1, n, c1, c0] →
            ∃ u, exec (.enumerate src tag n (BitVec.ofNat 16 (word2 c1 c0))) s = .next u ∧ t.sameLane u) ∧
          (valid = true → f.kind = .first → length ≤ 240 → ¬(o.getD 2 0 = 0x82 ∧ o.getD 0 0 = 0xFF ∧ length = 1) →
            (let v := s.afterSpoil
            let toLocal := decide (o.getD 0 0 = 0xFF ∨ s.lane.unit = some (o.getD 0 0).toNat)
            let toForward := decide (o.getD 0 0 = 0xFF ∨ s.lane.unit ≠ some (o.getD 0 0).toNat)
            let frames := (7 + length + 7) / 8
            let fits := decide (reservedFrames v.lane.hold + frames ≤ 64)
            let w :=
              if toForward = true then
                if fits = true then
                  { v with
                    lane := { v.lane with hold := v.lane.hold ++ [{ total := frames, frames := [o], emitted := 0, spoiled := false }] } }
                else dropped v
              else v
            t.sameLane
              (if frames = 1 then if toLocal = true then verified w (o.take (7 + length)) else w
              else
                { w with
                  lane :=
                    { w.lane with
                      rx :=
                        .receiving
                          { toLocal := toLocal, toForward := toForward, admitted := toForward && fits, octets := 7 + length, expected := frames, received := 1 }
                      buffer := if toLocal = true then o.take (7 + length) else [] } }))) ∧
          (valid = true → f.kind = .cont → s.lane.rx = .waiting → t.sameLane (framing s)) ∧
          ∀ r, valid = true → f.kind = .cont → s.lane.rx = .receiving r →
            (let hold :=
              if (r.toForward && r.admitted) = true then
                s.lane.hold.dropLast ++ (s.lane.hold.getLast?.map fun m => { m with frames := m.frames ++ [o] }).toList
              else s.lane.hold
            let buffer := if r.toLocal = true then (s.lane.buffer ++ o).take r.octets else []
            t.sameLane
              (if r.received + 1 < r.expected then
                { s with lane := { s.lane with hold := hold, rx := .receiving { r with received := r.received + 1 }, buffer := buffer } }
              else
                let done := { s with lane := { s.lane with hold := hold, rx := .waiting, buffer := [] } }
                if r.toLocal = true then verified done buffer else done)))

/-- The Source Store at a delivery (R21, R22): GOOD gives every source its slot's sample, fresh; every other class holds the samples and ages them. -/
def Obligations.DeliveryUpdatesSources : Prop :=
  ∀ (s : State) (i : Instr) (cls : DeliveryClass), s.delivers i cls → s.store.sound →
    ∃ t, exec i s = .next t ∧
      (cls = .good → ∃ line, i = .delivery line ∧
        t.store =
          { sources := (List.range 64).map fun k => { sample := (decodeBody line).slots.getD k 0, age := 0 }
            bad := 0
            good := min 65535 (s.store.good + 1) }) ∧
      (cls ≠ .good →
        t.store =
          { sources := s.store.sources.map fun x => { sample := x.sample, age := min 255 (x.age + 1) }
            bad := min 65535 (s.store.bad + 1)
            good := 0 })

/-- Fade Control's step at a delivery, as the table of R26 gives it (R24 to R26), read after the Source Store's update; entering SHUT in RUN raises
LINK_SILENT, and nothing else in a delivery raises it (R25). -/
def Obligations.DeliveryStepsFade : Prop :=
  ∀ (s : State) (i : Instr) (cls : DeliveryClass), s.delivers i cls → s.fade.sound →
    ∃ t, exec i s = .next t ∧ t.fade.step = s.fade.step ∧
      (let f := s.fade.coeff
      let opens : FadeState × Nat := (if 4096 ≤ f + s.fade.step then .opened else .opening, min 4096 (f + s.fade.step))
      let closes : FadeState × Nat := (if f ≤ 128 then .shut else .closing, f - 128)
      (t.fade.state, t.fade.coeff) =
        match s.fade.state with
        | .opened => if 8 ≤ t.store.bad then (.closing, 3968) else (.opened, 4096)
        | .closing => if 16 ≤ t.store.good ∧ s.intake.power = .run then opens else closes
        | .shut => if 16 ≤ t.store.good ∧ s.intake.power = .run then opens else (.shut, 0)
        | .opening => if 8 ≤ t.store.bad then closes else opens) ∧
      t.events.summary.getLsbD 2 =
        (s.events.summary.getLsbD 2 || decide (s.fade.state ≠ .shut ∧ t.fade.state = .shut ∧ s.intake.power = .run))

/-- The commit slot is tested at every delivery against the local frame number just settled (R125, R132); where it fires, the queue is emptied, the
slot disarmed, the report written and COMMIT_DONE raised, and otherwise nothing of the block changes and COMMIT_DONE is not raised (R127, R129). The
pass of a delivery (R31, R32, R80, R82, R101, R109), whatever the order of its mixes: in RUN, and in QUIESCING while the fade has not reached SHUT,
every mix's pass runs over the tables as the commit left them, with the store, f and the frame number of this delivery, the pairs are published, the
pool takes back what leaves, and MIX_FAULT is raised exactly where a capture is taken; in QUIET nothing of the tables moves. -/
def Obligations.DeliveryCommitsAndPasses : Prop :=
  (∀ (s : State) (i : Instr) (cls : DeliveryClass), s.delivers i cls →
      ∃ t, exec i s = .next t ∧ t.events.summary.getLsbD 4 = (s.events.summary.getLsbD 4 || s.firesAt t.rx.localFrame) ∧
        if s.firesAt t.rx.localFrame then
          ∃ trigger request, s.staging.slot = .armed trigger request ∧
            t.staging =
              (let r := s.table.applyEdits s.staging.queue 1 ⟨0, 0, none⟩
              { queue := [], slot := .disarmed
                report := some
                  { frameFired := t.rx.localFrame, request := request, applied := r.2.applied, skipped := r.2.skipped, firstSkipped := r.2.first } })
        else t.staging = s.staging) ∧
  (∀ (s : State) (i : Instr) (cls : DeliveryClass), s.delivers i cls → s.table.mixes.length = 16 → s.lanes.held.length = 16 →
      ∃ t, exec i s = .next t ∧
        (let committed := if s.firesAt t.rx.localFrame then (s.table.applyEdits s.staging.queue 1 ⟨0, 0, none⟩).1 else s.table
        let input : PassInput := { store := t.store, coeff := t.fade.coeff, frame := t.rx.localFrame }
        ((s.intake.power = .run ∨ t.intake.power = .quiescing) →
          t.table.mixes = committed.mixes.map (·.pass input) ∧ t.table.free + t.table.entries = committed.free + committed.entries ∧
            t.lanes = { s.lanes with held := t.table.mixes.map (fun m => (m.yL, m.yR)) } ∧ t.tx.passRan = true ∧
            t.events.summary.getLsbD 3 = (s.events.summary.getLsbD 3 || committed.mixes.any (·.passCaptures input))) ∧
          (s.intake.power = .quiet →
            t.table = committed ∧ t.lanes = s.lanes ∧ t.tx.passRan = s.tx.passRan ∧ t.events.summary.getLsbD 3 = s.events.summary.getLsbD 3)))

/-- POWER QUIET completes at the delivery whose fade step reaches SHUT (R28, R32, R140, R167): QUIET, every held pair 0, the positions of the lane frame
not yet begun carry 0 (one begins every 256 bit-times, and one that begins at this very moment counts as begun: the model's choice, log 28), the reply
at the end of the queue in the place reserved for it, the executing slot empty, LINK_SILENT not raised; a last pass with f 0 is made, or none, as R32
allows either (log 6). That the reply's SRC is the number which an ENUMERATE of this same delivery has set is the model's choice: the lane is handed
over before the fade (log 23). -/
def Obligations.QuietCompletesAtShut : Prop :=
  ∀ (s : State) (i : Instr) (cls : DeliveryClass) (c : Command), s.delivers i cls → s.intake.power = .quiescing → s.intake.executing = some c →
    s.fade.state = .closing → s.fade.coeff ≤ 128 → s.table.mixes.length = 16 → s.lanes.held.length = 16 →
    ∃ t, exec i s = .next t ∧ t.intake.power = .quiet ∧ t.intake.executing = none ∧ t.fade = { s.fade with state := .shut, coeff := 0 } ∧
      (let committed := if s.firesAt t.rx.localFrame then (s.table.applyEdits s.staging.queue 1 ⟨0, 0, none⟩).1 else s.table
      let input : PassInput := { store := t.store, coeff := 0, frame := t.rx.localFrame }
      t.table = committed ∨
        t.table.mixes = committed.mixes.map (·.pass input) ∧ t.table.free + t.table.entries = committed.free + committed.entries) ∧
      (let time :=
        if cls = .nothing then min 1664 (s.tb.periodEnd - s.tb.periodStart) else s.rx.accepted.getD 0 + 1664 - s.tb.periodStart
      t.lanes =
        { s.lanes with
          held := List.replicate 16 (0, 0)
          frame := s.lanes.frame.map fun values => values.zipIdx.map fun x => if 256 * (x.2 % 8) ≤ time then x.1 else 0 }) ∧
      t.replies =
        { messages := s.replies.messages ++
            [{ isNotice := false, octets := replyTo c t.lane.unit { result := .done, clamped := false, item := none, data := [0, 2] } }]
          reserved := s.replies.reserved - 1 } ∧
      t.events.summary.getLsbD 2 = s.events.summary.getLsbD 2

/-- What falls inside a delivery (log 7). A standing action that falls there is the held row of the command's KIND and payload, or NOTICE_QUEUE. POWER RUN
taken in QUIET, after the fade's step and before the power state is read, meets the fade SHUT: the pass runs with f 0 though G is 16 or more; taken
before the fade's step it lets the fade open (R26, R32). UNIT_RESET taken before the Source Store applies the delivery leaves B, G and the fade to one
step from their reset values, and after it at them; a pass in progress completes for the mixes not yet worked with reset tables and publishes 0 for
them, and what the mixes worked before it published stays (R33, R57, R105). MIX_WRITE taken between two mixes' actions is in force for its mix in this
pass only where that mix is not yet worked (R45, R82). -/
def Obligations.CommandsFallInsideDelivery : Prop :=
  (∀ s : State, s.resetHeld = false →
      (∀ c, s.intake.holding = some c → exec (rowOf c.kind c.payload .held) s = .next s.takeWaiting) ∧ (s.intake.holding = none → s.takeWaiting = s) ∧
        exec .noticeQueue s = .next s.offerNotice) ∧
  ∀ (s : State) (i : Instr) (cls : DeliveryClass) (order : List Nat) (point : ChainPoint) (c : Command), s.deliversWith i cls order point .take →
    s.intake.holding = some c → s.intake.executing = none → s.replies.messages.length + s.replies.reserved < 8 → s.table.mixes.length = 16 →
    s.lanes.held.length = 16 →
    (let committed := fun (now : FrameNo) => if s.firesAt now then (s.table.applyEdits s.staging.queue 1 ⟨0, 0, none⟩).1 else s.table
    let pair := fun (m : Mix) => (m.yL, m.yR)
    (c.kind = 0x16 → c.payload = [0] → s.intake.power = .quiet → s.fade.state = .shut → s.fade.coeff = 0 → (∀ k, point ≠ .mix k) →
        ∃ t, exec i s = .next t ∧ t.intake.power = .run ∧ t.intake.executing = none ∧ (point ≠ .lane → t.intake.holding = none) ∧ t.tx.passRan = true ∧
          t.fade =
            (if point ≠ .read ∧ 16 ≤ t.store.good then
              { s.fade with state := if 4096 ≤ s.fade.step then .opened else .opening, coeff := min 4096 s.fade.step }
            else s.fade) ∧
          t.table.mixes = (committed t.rx.localFrame).mixes.map (·.pass { store := t.store, coeff := t.fade.coeff, frame := t.rx.localFrame }) ∧
          t.lanes.held = t.table.mixes.map pair) ∧
      (c.kind = 0x17 → c.payload = [] → s.intake.power = .run →
        ∃ t, exec i s = .next t ∧ t.intake.power = .run ∧ t.intake.executing = none ∧ (point ≠ .lane → t.intake.holding = none) ∧ t.table = State.reset.table ∧
          t.staging = State.reset.staging ∧ t.fade = { state := .shut, coeff := 0, step := 1 } ∧
          (point = .lane ∨ point = .commit ∨ point = .sources → t.store.good = (if cls = .good then 1 else 0) ∧ t.store.bad = if cls = .good then 0 else 1) ∧
          (¬(point = .lane ∨ point = .commit ∨ point = .sources) → t.store.good = 0 ∧ t.store.bad = 0) ∧
          ((∀ k, point ≠ .mix k) → t.lanes.held = List.replicate 16 (0, 0)) ∧
          ∀ before k after, point = .mix k → order = before ++ k :: after →
            ∃ input : PassInput, input.store.sources = t.store.sources ∧
              input.coeff = (s.fade.next input.store.bad input.store.good .run).coeff ∧ input.frame = t.rx.localFrame ∧
              ∀ j, j < 16 → t.lanes.held.getD j (0, 0) = if j ∈ before then pair (((committed t.rx.localFrame).mix j).pass input) else (0, 0)) ∧
      ∀ (n : Byte) (r : List Byte) (cfg : Settings) (clamped : Bool) (before : List Nat) (k : Nat) (after : List Nat), c.kind = 0x07 →
        c.payload = n :: 0 :: r → r.length = 25 → n.toNat ≤ 15 → takeSettings r = .ok (cfg, clamped) → s.intake.power = .run → point = .mix k →
        order = before ++ k :: after →
        ∃ t, exec i s = .next t ∧ t.intake.power = .run ∧ t.intake.executing = none ∧ (point ≠ .lane → t.intake.holding = none) ∧
          (let input : PassInput := { store := t.store, coeff := t.fade.coeff, frame := t.rx.localFrame }
          ∀ j, j < 16 →
            (let old := (committed t.rx.localFrame).mix j
            let passed := if j = n.toNat ∧ j ∉ before then (old.replaceSettings cfg).pass input else old.pass input
            t.table.mix j = (if j = n.toNat ∧ j ∈ before then passed.replaceSettings cfg else passed) ∧ t.lanes.held.getD j (0, 0) = pair passed)))

/-! ### The mix pass -/

/-- R83: a ramp steps toward its target and never past it, and reaches it in as many passes as the distance takes. -/
def Obligations.RampRule : Prop :=
  ∀ x t e : Nat,
    ramp x t e = (if x < t then min t (x + e) else if t < x then max t (x - e) else x) ∧
      min x t ≤ ramp x t e ∧ ramp x t e ≤ max x t ∧
      ∀ n, 1 ≤ e → ((fun y => ramp y t e)^[n] x = t ↔ max x t - min x t ≤ n * e)

/-- R91: the three rounding modes as maps of the exact quotient, and the properties the output stage relies on. -/
def Obligations.RoundingModes : Prop :=
  ∀ (mode : Rounding) (n : Int) (d : Nat), 0 < d →
    (let q : ℚ := (n : ℚ) / (d : ℚ)
    let r := roundQuotient mode n d
    (mode = .floor → r = ⌊q⌋) ∧ (mode = .towardZero → r = if 0 ≤ q then ⌊q⌋ else ⌈q⌉) ∧
      (mode = .nearestEven → |(r : ℚ) - q| ≤ 1 / 2 ∧ (|(r : ℚ) - q| = 1 / 2 → Even r)) ∧
      (∀ k : Int, q = (k : ℚ) → r = k) ∧ (∀ a b : Int, (a : ℚ) ≤ q → q ≤ (b : ℚ) → a ≤ r ∧ r ≤ b) ∧ |(r : ℚ) - q| < 1)

/-- The ramp stage and retire completion of a pass, enabled or disabled (R38, R44, R84, R86): each entry's currents step toward its effective targets
at E, and the RETIRING entries at 0 on both sides leave. One mix's action works that mix alone, and the pool takes back what leaves (R35, R80). -/
def Obligations.PassMovesEntries : Prop :=
  (∀ (m : Mix) (input : PassInput),
      let target := fun (e : Entry) (g : Nat) =>
        if e.state = .retiring ∨ e.mute = true ∨ (e.group.any fun k => m.cfg.groupMutes.getLsbD k) = true then 0 else g
      (m.pass input).list =
        (m.list.map fun e => { e with cL := ramp e.cL (target e e.gL) m.cfg.ramp, cR := ramp e.cR (target e e.gR) m.cfg.ramp }).filter
          fun e => decide (e.state = .live ∨ 0 < e.cL ∨ 0 < e.cR)) ∧
    ∀ (t : MixTable) (k : Nat) (input : PassInput), k < t.mixes.length →
      (t.passMix k input).free + (t.passMix k input).entries = t.free + t.entries ∧
        ∀ j, (t.passMix k input).mix j = if j = k then (t.mix k).pass input else t.mix j

/-- The talk detector and the ramps of mc and d in a pass (R67, R72 to R74, R81, R85): the detector runs first, in an enabled mix with a talk source;
mc goes toward m or, in a disabled mix, 0; d goes toward D while ENGAGED and 4096 while IDLE, at the attack step down and the release step up. -/
def Obligations.PassDetectsTalkAndDucks : Prop :=
  ∀ (m : Mix) (input : PassInput),
    let u := m.pass input
    (u.hold, u.engaged) =
        (match m.cfg.talk with
        | none => (m.hold, m.engaged)
        | some k =>
          let x := input.store.source k
          if m.cfg.enabled = false then (m.hold, m.engaged)
          else if x.age = 0 ∧ m.cfg.threshold ≤ x.sample.natAbs then (m.cfg.holdTime, true)
          else (m.hold - 1, decide (1 < m.hold))) ∧
      u.mc = ramp m.mc (if m.cfg.enabled then m.cfg.master else 0) m.cfg.ramp ∧
      u.duck =
        (let target := if u.engaged then m.cfg.depth else 4096
        if target < m.duck then max target (m.duck - m.cfg.attack) else if m.duck < target then min target (m.duck + m.cfg.release) else m.duck) ∧
      u.cfg = m.cfg

/-- The bus sums and the scaling of an enabled mix's pass (R87, R88, R90): every entry's product is weighted by d, the talk entry's by 4096, over the
list that retire completion leaves; V = S × mc × f, mc after its ramp, is rounded after division by 2^48. The first pass after the
enable transition makes every stage with r at 0 and publishes 0 (R102), and only that one: the model's choice between R90 and R102 (log 27). What the pass hands on is seen in a capture it takes. -/
def Obligations.PassSumsAndScales : Prop :=
  ∀ (m : Mix) (input : PassInput),
    let p := m.prepare input.store
    let f := p.findings input
    let sum := fun (current : Entry → Nat) =>
      (p.list.map fun e => (input.store.source e.source).sample * (current e : Int) * (if m.cfg.talk = some e.source then 4096 else (p.duck : Int))).sum
    f.sL = sum Entry.cL ∧ f.sR = sum Entry.cR ∧
      f.rL = (if m.justEnabled = true then 0 else roundQuotient m.cfg.rounding (f.sL * p.mc * input.coeff) (2 ^ 48)) ∧
      f.rR = (if m.justEnabled = true then 0 else roundQuotient m.cfg.rounding (f.sR * p.mc * input.coeff) (2 ^ 48)) ∧
      (m.cfg.enabled = true → m.justEnabled = true → (m.pass input).yL = 0 ∧ (m.pass input).yR = 0) ∧ (m.pass input).justEnabled = false ∧
      (m.cfg.enabled = true → (m.pass input).list = p.list ∧ (m.pass input).mc = p.mc ∧ (m.pass input).duck = p.duck)

/-- The limiter (R93, R94): Lcap is the largest gain of at most 4096 that brings the louder side to the ceiling; Lg attacks to it at once, never below
1, or releases by Rl up to it; an enabled mix's Lg is what the stage leaves, a disabled one's 4096. -/
def Obligations.LimiterHoldsPeak : Prop :=
  (∀ (c : Nat) (a b : Int),
      let peak := max a.natAbs b.natAbs
      let cap := limiterCap c a b
      cap ≤ 4096 ∧ peak * cap ≤ c * 4096 ∧ ∀ g, g ≤ 4096 → peak * g ≤ c * 4096 → g ≤ cap) ∧
    ∀ (m : Mix) (input : PassInput),
      let f := (m.prepare input.store).findings input
      let cap := limiterCap m.cfg.ceiling f.rL f.rR
      (m.pass input).lg =
          (if m.cfg.enabled = false then 4096 else if cap < m.lg then max 1 cap else min (m.lg + m.cfg.limRelease) cap) ∧
        (m.sound → 1 ≤ (m.pass input).lg ∧ (m.pass input).lg ≤ 4096 ∧ (m.cfg.enabled = true → 1 ≤ cap → (m.pass input).lg ≤ cap))

/-- R98: what a pass publishes lies within the ceiling, and a disabled mix publishes 0; the clamp changes a value only where the limiter met Lcap = 0.
-/
def Obligations.OutputsWithinCeiling : Prop :=
  ∀ (m : Mix) (input : PassInput), m.sound →
    (let u := m.pass input
    let f := (m.prepare input.store).findings input
    u.yL ≤ m.cfg.ceiling ∧ -(m.cfg.ceiling : Int) ≤ u.yL ∧ u.yR ≤ m.cfg.ceiling ∧ -(m.cfg.ceiling : Int) ≤ u.yR ∧ m.cfg.ceiling ≤ 8388607 ∧
      (m.cfg.enabled = false → u.yL = 0 ∧ u.yR = 0) ∧
      (m.cfg.enabled = true → 1 ≤ limiterCap m.cfg.ceiling f.rL f.rR →
        f.flags.clamp = false ∧ u.yL = roundQuotient m.cfg.rounding (f.rL * u.lg) 4096 ∧ u.yR = roundQuotient m.cfg.rounding (f.rR * u.lg) 4096) ∧
      (m.cfg.enabled = true → limiterCap m.cfg.ceiling f.rL f.rR = 0 →
        (let y := fun (r : Int) => roundQuotient m.cfg.rounding r 4096
        u.lg = 1 ∧ m.cfg.ceiling * 4096 < max f.rL.natAbs f.rR.natAbs ∧
          (∀ r, m.cfg.ceiling * 4096 < r.natAbs → m.cfg.ceiling ≤ (y r).natAbs) ∧
          u.yL = max (-(m.cfg.ceiling : Int)) (min m.cfg.ceiling (y f.rL)) ∧ u.yR = max (-(m.cfg.ceiling : Int)) (min m.cfg.ceiling (y f.rR)) ∧
          (f.flags.clamp = true ↔ m.cfg.ceiling < (y f.rL).natAbs ∨ m.cfg.ceiling < (y f.rR).natAbs))))

/-- The flags of a pass and the capture (R89, R95, R99, R106, R107, R109 to R112): the current set is what the pass found, empty for a disabled mix;
the accrued set takes it in; a capture is taken from an EMPTY record where the enabled finding is not empty, and a HELD one is kept. -/
def Obligations.PassReportsFlags : Prop :=
  ∀ (m : Mix) (input : PassInput),
    let p := m.prepare input.store
    let f := p.findings input
    let u := m.pass input
    let found := f.flags
    (f.flags.headroom = true ↔ f.sL < -(2 : Int) ^ 47 ∨ (2 : Int) ^ 47 ≤ f.sL ∨ f.sR < -(2 : Int) ^ 47 ∨ (2 : Int) ^ 47 ≤ f.sR) ∧
      (f.flags.stale = true ↔ ∃ e ∈ p.list, (0 < e.cL ∨ 0 < e.cR) ∧ 0 < (input.store.source e.source).age) ∧
      (f.flags.limit = true ↔ f.lgAfter < 4096) ∧
      (m.cfg.enabled = true → u.current = found ∧
        u.accrued =
          { headroom := m.accrued.headroom || found.headroom, stale := m.accrued.stale || found.stale, limit := m.accrued.limit || found.limit
            clamp := m.accrued.clamp || found.clamp } ∧
        u.capture =
          if m.capture = none ∧ (found.headroom && m.cfg.enables.headroom || found.stale && m.cfg.enables.stale || found.limit && m.cfg.enables.limit ||
              found.clamp && m.cfg.enables.clamp) = true then
            some
              { frame := input.frame, flags := found
                stage := if (found.limit && m.cfg.enables.limit || found.clamp && m.cfg.enables.clamp) = true then .output else .bus
                sL := f.sL, sR := f.sR, rL := f.rL, rR := f.rR, lgBefore := m.lg, lgAfter := u.lg, yL := u.yL, yR := u.yR }
          else m.capture) ∧
      (m.cfg.enabled = false → u.current = ⟨false, false, false, false⟩ ∧ u.accrued = m.accrued ∧ u.capture = m.capture)

/-- TALK_HOLD_EXPIRY (R72, R73): outside QUIET, with the counter of an enabled mix at 1 and no talk detected, the counter becomes 0 and the duck state IDLE,
and nothing else changes. The row is one run of the detector, which a pass makes by itself (log 4); in QUIET, of a disabled mix, without talk source, at
another count or with talk detected it changes nothing (log 3). COMMIT_FIRE (R125, R127, R129): where the test is met, every record is applied in order,
the queue emptied, the slot disarmed, the report written and COMMIT_DONE raised, in one action. The row is the stage that every delivery makes (log 4),
and changes nothing where the test is not met (log 3). POWER_QUIET_COMPLETE (R140, R146, R167): with the fade SHUT under QUIESCING, the power state
becomes QUIET, every held pair 0, the positions of the lane frame that are not begun carry 0 (how many are begun is open within what earlier moments of
the period and the delivery it owes fix, log 26), the reply DONE joins the queue in its place and the executing slot becomes empty. The row is the
action that the delivery makes by itself (log 4); where the condition does not hold it changes nothing (log 3). -/
def Obligations.StageRowsAct : Prop :=
  (∀ (s : State) (k : Nat), s.resetHeld = false →
      exec (.talkHoldExpiry k) s =
        .next
          (let m := s.table.mix k
          let ends := match m.cfg.talk with
            | some x =>
              decide
                (s.intake.power ≠ .quiet ∧ m.cfg.enabled = true ∧ m.hold = 1 ∧
                  ¬((s.store.source x).age = 0 ∧ m.cfg.threshold ≤ (s.store.source x).sample.natAbs))
            | none => false
          if ends = true then s.withTable { s.table with mixes := s.table.mixes.set k { m with hold := 0, engaged := false } } else s)) ∧
  (∀ s : State, s.resetHeld = false →
      (s.firesAt s.rx.localFrame = false → exec .commitFire s = .next s) ∧
        ∀ trigger request, s.firesAt s.rx.localFrame = true → s.staging.slot = .armed trigger request →
          exec .commitFire s =
            .next
              (let r := s.table.applyEdits s.staging.queue 1 ⟨0, 0, none⟩
              { s with
                table := r.1
                staging :=
                  { queue := [], slot := .disarmed
                    report := some
                      { frameFired := s.rx.localFrame, request := request, applied := r.2.applied, skipped := r.2.skipped, firstSkipped := r.2.first } }
                events :=
                  { summary := s.events.summary ||| 0x10
                    mask := s.events.mask
                    latch := s.events.latch || (!s.events.summary.getLsbD 4 && s.events.mask.getLsbD 4) } })) ∧
  (∀ s : State, s.resetHeld = false →
      (¬(s.intake.power = .quiescing ∧ s.fade.state = .shut) → exec .powerQuietComplete s = .next s) ∧
        (s.intake.power = .quiescing → s.fade.state = .shut →
          ∃ begun, s.begunAtLeast ≤ begun ∧ begun ≤ s.begunAtMost ∧ begun ≤ 8 ∧
            exec .powerQuietComplete s =
              .next
                { s with
                  freeIdx := s.freeIdx + 1
                  begun := begun
                  intake := { s.intake with power := .quiet, executing := none }
                  lanes :=
                    { s.lanes with
                      held := List.replicate 16 (0, 0)
                      frame := s.lanes.frame.map fun values => values.zipIdx.map fun x => if x.2 % 8 < begun then x.1 else 0 }
                  replies :=
                    match s.intake.executing with
                    | some c =>
                      { messages := s.replies.messages ++
                          [{ isNotice := false, octets := replyTo c s.lane.unit { result := .done, clamped := false, item := none, data := [0, 2] } }]
                        reserved := s.replies.reserved - 1 }
                    | none => s.replies }))

/-! ### Lists, the pool and the commit -/

/-- Set entry (R34, R39 to R41): the entry of the source gets the values, LIVE, its currents as they were or 0 where it is new, and is the only one
that changes; the list stays in order; a new entry is taken from the pool, and with none free the set fails and is the only outcome that does. Retire
entry and clear mix (R37, R42, R43): a LIVE entry becomes RETIRING with every other field as it is, and no entry leaves; the pool is untouched. -/
def Obligations.SetAndRetireOnList : Prop :=
  (∀ (t : MixTable) (k : Nat) (v : EntryValues), k < t.mixes.length → listSound (t.mix k).list → v.source ≤ 63 → v.gL ≤ 32767 → v.gR ≤ 32767 →
      (∀ g, v.group = some g → g ≤ 7) →
      match t.setEntry k v with
      | none => t.free = 0 ∧ entryFor (t.mix k).list v.source = none
      | some (t', kind) =>
        listSound (t'.mix k).list ∧
          (let old := entryFor (t.mix k).list v.source
          entryFor (t'.mix k).list v.source =
              some
                { source := v.source, gL := v.gL, gR := v.gR, group := v.group, mute := v.mute, state := .live, cL := (old.map (·.cL)).getD 0
                  cR := (old.map (·.cR)).getD 0 } ∧
            kind = (match old with
              | none => .created
              | some e => if e.state = .live then .replaced else .revived) ∧
            t'.free + (if old = none then 1 else 0) = t.free ∧
            (t'.mix k).list.length = (t.mix k).list.length + (if old = none then 1 else 0)) ∧
          (∀ x, x ≠ v.source → entryFor (t'.mix k).list x = entryFor (t.mix k).list x) ∧ (∀ j, j ≠ k → t'.mix j = t.mix j)) ∧
  ((∀ (t : MixTable) (k source : Nat), k < t.mixes.length → listSound (t.mix k).list →
        (let r := t.retireEntry k source
        (r.1.mix k).list = (t.mix k).list.map (fun e => if e.source = source then { e with state := .retiring } else e) ∧
          r.2 =
            (match entryFor (t.mix k).list source with
            | none => .absent
            | some e => if e.state = .live then .retired else .already) ∧
          r.1.free = t.free ∧ ∀ j, j ≠ k → r.1.mix j = t.mix j)) ∧
      ∀ (t : MixTable) (k : Nat), k < t.mixes.length →
        (t.clearMix k).mix k = { t.mix k with list := (t.mix k).list.map fun e => { e with state := .retiring } } ∧ (t.clearMix k).free = t.free ∧
          ∀ j, j ≠ k → (t.clearMix k).mix j = t.mix j)

/-- The counts of a firing (R127 to R129): applied and skipped add up to the queue; the first skipped is the position, from 1, of the record that the
tables left by the records before it could not take; and a record that cannot be applied is a SET_ENTRY that needs an entry while none is free. -/
def Obligations.FiringCountsRecords : Prop :=
  ∀ (t : MixTable) (queue : List StagedEdit),
    (let r := t.applyEdits queue 1 ⟨0, 0, none⟩
    r.2.applied + r.2.skipped = queue.length ∧
      (∀ p, r.2.first = some p ↔
        ∃ before e after, queue = before ++ e :: after ∧ p = before.length + 1 ∧ (t.applyEdits before 1 ⟨0, 0, none⟩).2.skipped = 0 ∧
          (t.applyEdits before 1 ⟨0, 0, none⟩).1.applyEdit e = none) ∧
      (r.2.skipped = 0 ↔ r.2.first = none)) ∧
    ∀ e, t.applyEdit e = none ↔
      t.free = 0 ∧ ∃ k source gL gR group mute, e = .setEntry k source gL gR group mute ∧ entryFor (t.mix k).list source = none

/-! ### ENUMERATE -/

/-- ENUMERATE (R149, R152 to R155): a message being received is spoiled first; with a good check the unit takes n from 1 to 32 and forwards n + 1, or
becomes unassigned and forwards the message as it is; the forwarded message is admitted or dropped; with a bad check it is counted and dropped. -/
def Obligations.EnumerateNumbersUnit : Prop :=
  ∀ (s : State) (src tag n : Byte) (check : BitVec 16), s.resetHeld = false →
    (let v := s.afterSpoil
    let header : List Byte := [0xFF, src, 0x82, tag, 1]
    let good := messageCheck (header ++ [n]) = check
    let taken := 1 ≤ n.toNat ∧ n.toNat ≤ 32
    let counted := fun (f : LinkCounters → LinkCounters) (e : Event) (u : State) =>
      (u.withRx { u.rx with counters := f u.rx.counters }).withEvents (u.events.raise e)
    let numbered := v.withLane { v.lane with unit := if taken then some n.toNat else none }
    let n' := if taken then octet (n.toNat + 1) else n
    exec (.enumerate src tag n check) s =
      .next
        (if good then
          if reservedFrames v.lane.hold + 1 ≤ 64 then
            numbered.withLane
              { numbered.lane with
                hold := v.lane.hold ++
                  [{ total := 1, frames := [header ++ [n'] ++ be 2 (messageCheck (header ++ [n'])).toNat], emitted := 0, spoiled := false }] }
          else counted (fun c => { c with laneDrops := rise c.laneDrops }) .laneDrop numbered
        else counted (fun c => { c with messageCheckErrors := rise c.messageCheckErrors }) .checkError v))

/-! ### The frame event -/

/-- The frame begun at the frame event of a period whose delivery is made (R14, R16 to R18, R137 to R139): number, DAMAGED and slots of the frame held
or generated, with the cue in RUN taken from the driver's held pair (log 15); its check over what is sent; the 32 routed values of the lane frame, or 0
in QUIET (R140); the bit clocks of the one that ends, by the length of its period where the phase was adopted (log 21); and the next period,
with its own plan (log 7), the first position of its lane frame begun (log 26). -/
def Obligations.FrameEventBeginsFrames : Prop :=
  ∀ s : State, s.eventComes → s.tb.owed = false →
    ∃ t e, exec .frameEvent s = .next t ∧ t.tx = { s.tx with emitted := some e, heldFrame := none, passRan := false } ∧
      e.number =
          (match s.tx.heldFrame with
          | some h => if h.cls = .good ∨ h.cls = .marked then h.number else s.rx.localFrame
          | none => s.rx.localFrame) ∧
      e.damaged =
          (match s.tx.heldFrame with
          | some h => decide (h.cls ≠ .good)
          | none => true) ∧
      e.slots =
          (let own := (s.tx.heldFrame.map (·.slots)).getD (List.replicate 64 0)
          match s.tx.cueMix with
          | some k =>
            if s.intake.power = .run ∧ s.tx.passRan = true then
              (own.set s.tx.cueLeft (s.lanes.held.getD k (0, 0)).1).set s.tx.cueRight (s.lanes.held.getD k (0, 0)).2
            else own
          | none => own) ∧
      e.check = frameCheck (coveredOctets e.number e.damaged e.kind e.slots e.lane) ∧
      t.lanes =
          { s.lanes with
            frame :=
              some
                (s.lanes.routes.map fun r =>
                  if s.intake.power = .quiet then 0
                  else match r with
                  | .silent => 0
                  | .mix k .left => (s.lanes.held.getD k (0, 0)).1
                  | .mix k .right => (s.lanes.held.getD k (0, 0)).2)
            lastClocks := if s.tb.adopted then (s.tb.periodEnd - s.tb.periodStart) / 8 else 256 } ∧
      t.tb =
          { periodStart := s.tb.periodEnd, periodEnd := s.tb.periodEnd + 2048, due := false, adopted := false, owed := true, releaseEvent := false } ∧
      t.rx = s.rx ∧ t.store = s.store ∧ t.fade = s.fade ∧ t.table = s.table ∧ t.staging = s.staging ∧ t.intake = s.intake ∧ t.events = s.events ∧
      t.pending = s.pending ∧ t.plans = s.plans.tail ∧ t.begun = 1

/-- The Lane Arbiter at a frame event (R152, R153, R156, R157): the message in emission goes on, or ends in an ABORT where it was spoiled; at a
message boundary the two sides take turns by the arbiter memory; IDLE where nothing waits. -/
def Obligations.FrameEventArbitrates : Prop :=
  ∀ s : State, s.eventComes → s.tb.owed = false →
    ∃ t e, exec .frameEvent s = .next t ∧ t.tx.emitted = some e ∧
      (let zeros : List Byte := List.replicate 8 0
      let l := s.lane
      let messages := s.replies.messages
      (∀ frames sent, l.emission = .own frames sent → e.kind = .cont ∧ e.lane = frames.getD sent zeros ∧ t.replies = s.replies ∧
          t.lane = { l with emission := if sent + 1 < frames.length then .own frames (sent + 1) else .none }) ∧
        (∀ m rest, l.emission = .pass → l.hold = m :: rest → m.spoiled = true → e.kind = .abort ∧ e.lane = zeros ∧ t.replies = s.replies ∧
          t.lane = { l with hold := rest, emission := .none }) ∧
        (∀ m rest, l.emission = .pass → l.hold = m :: rest → m.spoiled = false → e.kind = .cont ∧ e.lane = m.frames.getD m.emitted zeros ∧
          t.replies = s.replies ∧
          t.lane =
            if m.emitted + 1 < m.total then { l with hold := { m with emitted := m.emitted + 1 } :: rest, emission := .pass }
            else { l with hold := rest, emission := .none }) ∧
        (l.emission = .none → l.hold = [] → messages = [] → e.kind = .idle ∧ e.lane = zeros ∧ t.replies = s.replies ∧ t.lane = l) ∧
        (∀ m rest, l.emission = .none → l.hold = m :: rest → (messages = [] ∨ l.memory = .own) → e.kind = .first ∧
          e.lane = m.frames.getD m.emitted zeros ∧ t.replies = s.replies ∧
          t.lane =
            if m.emitted + 1 < m.total then { l with hold := { m with emitted := m.emitted + 1 } :: rest, emission := .pass, memory := .pass }
            else { l with hold := rest, emission := .none, memory := .pass }) ∧
        (∀ q rest, l.emission = .none → messages = q :: rest → (l.hold = [] ∨ l.memory = .pass) → e.kind = .first ∧
          e.lane = (laneFrames q.octets).getD 0 zeros ∧ t.replies = { s.replies with messages := rest } ∧
          t.lane = { l with emission := if 1 < (laneFrames q.octets).length then .own (laneFrames q.octets) 1 else .none, memory := .own }))

/-- A period makes one delivery (R8), and a frame that was not accepted makes none (R4, R5): a delivery step that does not come leaves the unit as it
is (log 3). The frame events of periods that still owe their delivery: the one at the release of RESET_N begins the first frames, generated and IDLE,
and ends no period (R19, R137, R144, log 10); one that ends a period makes its NONE delivery first, whatever falls inside it (R8, log 7, log 9).
In FOLLOW, from the period after an adoption of the phase on (R15), none comes before the expected position is settled (R14, log 3). -/
def Obligations.OneDeliveryPerPeriod : Prop :=
  (∀ (s : State) (line : LineBody),
      (s.tb.owed = false ∨ s.rx.accepted = none ∨ ∃ pos, s.rx.accepted = some pos ∧ s.tb.periodEnd < pos + 1664) →
        exec (.delivery line) s = .next s) ∧
    (∀ s : State, (s.tb.owed = false ∨ ∃ pos, s.rx.accepted = some pos ∧ pos + 1664 ≤ s.tb.periodEnd) →
      exec .deliveryPoint s = .next s) ∧
    (∀ s : State, s.resetHeld = false → s.tb.releaseEvent = true → s.tb.owed = true → s.tx.heldFrame = none → s.lane.hold = [] → s.replies.messages = [] →
      s.lane.emission = .none →
      ∃ t e, exec .frameEvent s = .next t ∧ t.tx.emitted = some e ∧ e.number = s.rx.localFrame ∧ e.damaged = true ∧ e.kind = .idle ∧
        e.lane = List.replicate 8 0 ∧ t.tb = { s.tb with releaseEvent := false } ∧
        t.lanes = { s.lanes with frame := some (s.lanes.routes.map fun r => if s.intake.power = .quiet then 0 else s.lanes.routed r) }) ∧
    (∀ s t : State, s.eventComes → s.noneDue → exec .deliveryPoint s = .next t → exec .frameEvent s = exec .frameEvent t) ∧
    ∀ s : State, (s.tb.releaseEvent && s.tb.owed) = false → (s.rx.sync = .locked ∨ s.rx.sync = .holdover) → s.tb.due = false →
      s.tb.adopted = false → exec .frameEvent s = .next s

/-- What the output lines carry. A lane frame (R137, R139, R140): each position's value most significant bit first, then zeros; zeros beyond the 256 clocks;
LANE_FSYNC at bit clock 0 alone. LINK_OUT (R1, R17): the sync pattern, one fixed sequence of 16 bit-times for each level before it with a coding
violation in it (its content is open, log 14), then the body, then coded zeros up to the next frame event, which may come later than 2,048 bit-times; a
period shorter than a frame cuts it (log 24). -/
def Obligations.LinesCarryFrames : Prop :=
  (∀ (s : State) (values : List Int), s.lanes.frame = some values →
    (∀ lane position bit, lane < 4 → position < 8 → bit < 32 →
        s.laneBit lane (32 * position + bit) =
          if 24 ≤ bit then false else (BitVec.ofInt 24 (values.getD (8 * lane + position) 0)).getMsbD bit) ∧
      (∀ lane clock, 256 ≤ clock → s.laneBit lane clock = false) ∧ ∀ clock, s.laneSync clock = decide (clock = 0)) ∧
    ∃ sync : Bool → List (Bool × Bool),
      (∀ before, (sync before).length = 16 ∧ LineCell.violation ∈ cellsOf before (sync before)) ∧
        ∀ (s : State) (e : EmittedFrame) (before : Bool) (n : Nat), s.tx.emitted = some e → e.slots.length = 64 → e.lane.length = 8 →
          (let level := (((sync before).map (·.2)).getLast?).getD before
          (1664 ≤ n → s.linkOut before n = sync before ++ codeBits level (bitsOf e.body ++ List.replicate (n - 1664) false)) ∧
            (n < 1664 → s.linkOut before n = (s.linkOut before 1664).take n) ∧ (s.linkOut before n).length = n)

/-! ### NOTICEs -/

/-- NOTICE_QUEUE (R173): with the latch set, no NOTICE queued and a place free, a NOTICE with its snapshot joins the end of the queue and the latch is
cleared; a held command that thereby finds no place has had to wait (log 18). While any of the three fails, the NOTICE waits (log 3). -/
def Obligations.NoticeJoinsQueue : Prop :=
  ∀ s : State, s.resetHeld = false →
    ((s.events.latch = true ∧ (∀ m ∈ s.replies.messages, m.isNotice = false) ∧ s.replies.messages.length + s.replies.reserved < 8) →
        ∃ t, exec .noticeQueue s = .next t ∧
          t.replies =
            { s.replies with
              messages := s.replies.messages ++
                [{ isNotice := true
                   octets := message 0 (octet (s.lane.unit.getD 254)) 0x81 0
                      [s.events.summary, octet (s.rx.localFrame.toNat / 256), octet s.rx.localFrame.toNat, octet s.intake.power.code, octet s.rx.sync.code] }] } ∧
          t.events = { s.events with latch := false } ∧ t.intake.executing = s.intake.executing ∧ t.intake.power = s.intake.power ∧
          t.intake.holding =
            (s.intake.holding.map fun c =>
              { c with
                waited := c.waited || s.intake.executing.isSome || decide (8 ≤ s.replies.messages.length + 1 + s.replies.reserved) }) ∧
          t = { s with replies := t.replies, events := t.events, intake := t.intake }) ∧
      (¬(s.events.latch = true ∧ (∀ m ∈ s.replies.messages, m.isNotice = false) ∧ s.replies.messages.length + s.replies.reserved < 8) →
        exec .noticeQueue s = .next s)

/-! ### Encodings -/

/-- A frame this unit emits arrives intact at the next (R1, R2, R17): coded on the line from either level and decoded, every field is as it was sent
and all three tests pass. The frame check is the model's reading of R2 (log 13); this says that sender and receiver agree. -/
def Obligations.EmittedFrameArrivesIntact : Prop :=
  ∀ (e : EmittedFrame) (level : Bool), e.slots.length = 64 → (∀ y ∈ e.slots, -8388608 ≤ y ∧ y ≤ 8388607) → e.lane.length = 8 →
    e.check = frameCheck (coveredOctets e.number e.damaged e.kind e.slots e.lane) →
    decodeBody { entry := level, cells := codeBits level (bitsOf e.body) } =
        { number := e.number, flags := octet (128 * e.damaged.toNat + e.kind.code), damaged := e.damaged, kind := e.kind, slots := e.slots, lane := e.lane, codingBad := false, checkBad := false
          trailerBad := false } ∧
      ({ entry := level, cells := codeBits level (bitsOf e.body) } : LineBody).wellFormed = true

/-- A message addressed to this unit, cut into lane frames and delivered one frame after another, reaches the Command Intake whole (R148 to R151,
R160): its KIND, SRC, TAG and payload, and nothing else of the Lane Controller is changed. The message check is the model's reading of R148 (log 12).
-/
def Obligations.MessageReachesIntake : Prop :=
  ∀ (s : State) (base : ReceivedFrame) (dest src kind tag : Byte) (payload : List Byte), payload.length ≤ 240 → s.lane.unit = some dest.toNat →
    dest.toNat ≤ 32 → s.lane.rx = .waiting → s.lane.buffer = [] →
    ((laneFrames (message dest src kind tag payload)).zipIdx.foldl
        (fun u f => u.laneFrame { base with kind := if f.2 = 0 then .first else .cont, lane := f.1 }) s) =
      s.handOver kind src tag payload

/-- Every message is of exactly one row (R162, R176, section 12.2): the row that a KIND and payload select names that KIND and takes that command, and no
other row does. -/
def Obligations.RowTakesItsKind : Prop :=
  ∀ (kind : Byte) (payload : List Byte) (c : CommandSource),
    (commandOf (rowOf kind payload c) = some (kind, c) ∧ (rowOf kind payload c).ownPayload payload = true) ∧
      ∀ i : Instr, commandOf i = some (kind, c) → i.ownPayload payload = true → i = rowOf kind payload c

/-! ### Commands: taking, waiting, generic checks -/

/-- A command row whose command cannot be taken (R160, R161): a held command waits; an arriving one enters the empty holding slot with its note, or is
dropped as an INTAKE_OVERRUN where the slot is occupied. That a row may hand over its own message is the model's choice (log 2), and so is that a row
whose command is not the held one, or with nothing held, leaves the unit as it is (log 3). -/
def Obligations.CommandsWaitOrOverrun : Prop :=
  ∀ (s : State) (i : Instr) (kind : Byte) (src : CommandSource), commandOf i = some (kind, src) → i.wellFormed = true → s.resetHeld = false →
    match src with
    | .held =>
      (s.intake.executing ≠ none ∨ 8 ≤ s.replies.messages.length + s.replies.reserved ∨ s.intake.holding = none ∨
          ∃ c, s.intake.holding = some c ∧ (c.kind ≠ kind ∨ i.ownPayload c.payload = false)) →
        exec i s = .next s
    | .arriving sender tag payload =>
      (∀ c, s.intake.holding = some c →
          exec i s =
            .next
              (s.withEvents
                { summary := s.events.summary ||| 0x20, mask := s.events.mask
                  latch := s.events.latch || (!s.events.summary.getLsbD 5 && s.events.mask.getLsbD 5) })) ∧
        (s.intake.holding = none → (s.intake.executing ≠ none ∨ 8 ≤ s.replies.messages.length + s.replies.reserved) →
          exec i s =
            .next
              (s.withIntake
                { s.intake with
                  holding := some
                    { kind := kind, src := sender, tag := tag, payload := payload, busyAtArrival := s.intake.executing.isSome, waited := true } }))

/-- The generic checks (R162): UNKNOWN_COMMAND is refused with REFUSED_KIND, and every row of the catalogue whose payload has not the length of its
kind with REFUSED_LENGTH; no block changes but for the reply. -/
def Obligations.GenericChecksRefuse : Prop :=
  (∀ (s : State) (src : CommandSource) (kind : Byte) (c : Command), s.takes src kind c → (kind.toNat = 0 ∨ 0x17 < kind.toNat) →
      exec (.unknownCommand kind src) s = .next (s.replied c { result := .refusedKind, clamped := false, item := none, data := [] })) ∧
    ∀ (s : State) (i : Instr) (src : CommandSource) (kind : Byte) (c : Command), commandOf i = some (kind, src) → s.takes src kind c →
      1 ≤ kind.toNat → kind.toNat ≤ 0x17 → i.ownPayload c.payload = true →
      (match kind.toNat with
        | 0x04 => c.payload.length ≠ 3
        | 0x05 => c.payload.length ≠ 1
        | 0x06 => c.payload.length ≠ 1
        | 0x07 => c.payload.length ≠ 27
        | 0x08 => c.payload.length ≠ 1
        | 0x09 => c.payload.length < 3 ∨ c.payload.length ≠ 3 + 6 * (c.payload.getD 2 0).toNat
        | 0x0A => c.payload.length < 3 ∨ c.payload.length ≠ 3 + (c.payload.getD 2 0).toNat
        | 0x0B => c.payload.length ≠ 2
        | 0x0C => c.payload.length ≠ 3
        | 0x0D => c.payload.length ≠ 3
        | 0x0E => c.payload.length ≠ 32
        | 0x10 => c.payload.length ≠ 3
        | 0x11 => c.payload.length ≠ 3
        | 0x14 => c.payload.length ≠ 1
        | 0x15 => c.payload.length ≠ 3
        | 0x16 => c.payload.length ≠ 1
        | _ => c.payload.length ≠ 0) →
      exec i s = .next (s.replied c { result := .refusedLength, clamped := false, item := none, data := [] })

/-! ### Commands on the unit -/

/-- R164: IDENTIFY's 13 octets, and nothing changed. STATUS_READ and STATUS_PEEK (R165, R174): the same 28 octets, taken after STATUS_READ has cleared
the latch and withdrawn an unsent NOTICE; STATUS_PEEK changes nothing. -/
def Obligations.IdentifyAndStatusAnswer : Prop :=
  (∀ (s : State) (src : CommandSource) (c : Command), s.takes src 0x01 c → c.payload = [] →
      exec (.identify src) s =
        .next
          (s.replied c
            { result := .done, clamped := false, item := none
              data :=
                [0x49, 0x53, 0x16, 0x04, 0x01, octet (s.lane.unit.getD 254), 16, 2, 0, 128, 32, octet (s.table.free / 256), octet s.table.free] })) ∧
  (∀ (s : State) (src : CommandSource) (c : Command), c.payload = [] →
      (let status := fun (u : State) =>
        ({ result := .done, clamped := false, item := none
           data :=
            [octet u.intake.power.code, octet u.rx.sync.code, octet u.fade.state.code, octet (u.fade.coeff / 256), octet u.fade.coeff,
              octet c.busyAtArrival.toNat, octet c.waited.toNat, octet (u.rx.localFrame.toNat / 256), octet u.rx.localFrame.toNat] ++ u.staging.slot.octets ++
              reportOctets u.staging.report ++
              [octet u.staging.queue.length, octet u.replies.messages.length, octet (reservedFrames u.lane.hold), octet (u.table.free / 256),
                octet u.table.free, u.events.summary, u.events.mask] } : Answer)
      let read : State :=
        { s with
          events := { s.events with latch := false }
          replies := { s.replies with messages := s.replies.messages.filter (!·.isNotice) } }
      (s.takes src 0x02 c → exec (.statusRead src) s = .next (read.replied c (status read))) ∧
        (s.takes src 0x03 c → exec (.statusPeek src) s = .next (s.replied c (status s)))))

/-- UNIT_SETUP (R27, R172): the mask as sent, the fade-in step clamped into 1 to 4096; the latch is set where the mask newly enables a set summary bit
(log 17). EVENT_ACK (R171): the echoed bits of the summary are cleared and no others; mask, latch and queue stay. -/
def Obligations.UnitSetupAndEventAck : Prop :=
  (∀ (s : State) (src : CommandSource) (c : Command) (mask a b : Byte), s.takes src 0x04 c → c.payload = [mask, a, b] →
      (let step := max 1 (min 4096 (word2 a b))
      exec (.unitSetup src) s =
        .next
          (State.replied
            { s with
              fade := { s.fade with step := step }
              events :=
                { summary := s.events.summary, mask := mask
                  latch := s.events.latch || (List.range 8).any fun k => mask.getLsbD k && !s.events.mask.getLsbD k && s.events.summary.getLsbD k } }
            c
            { result := .done, clamped := decide (word2 a b = 0 ∨ 4096 < word2 a b), item := none
              data := [s.events.mask, mask, octet (step / 256), octet step] }))) ∧
  (∀ (s : State) (src : CommandSource) (c : Command) (echo : Byte), s.takes src 0x05 c → c.payload = [echo] →
      ∃ after : Mask8, (∀ k, after.getLsbD k = (s.events.summary.getLsbD k && !echo.getLsbD k)) ∧
        exec (.eventAck src) s =
          .next
            (State.replied { s with events := { s.events with summary := after } } c
              { result := .done, clamped := false, item := none, data := [s.events.summary, after] }))

/-- LINK_COUNTERS (R12): the eight counters in the order of the table, cleared by option YES; another option is refused. -/
def Obligations.LinkCountersReadAndClear : Prop :=
  ∀ (s : State) (src : CommandSource) (c : Command) (option : Byte), s.takes src 0x06 c → c.payload = [option] →
    (let k := s.rx.counters
    let values :=
      [k.codingViolations, k.frameCheckErrors, k.trailerErrors, k.inheritedDamage, k.missedSyncs, k.laneFramingErrors, k.laneDrops, k.messageCheckErrors]
    let answer : Answer := { result := .done, clamped := false, item := none, data := values.flatMap fun n => [octet (n / 256), octet n] }
    exec (.linkCounters src) s =
      .next
        (if option.toNat = 0 then s.replied c answer
        else if option.toNat = 1 then State.replied { s with rx := { s.rx with counters := ⟨0, 0, 0, 0, 0, 0, 0, 0⟩ } } c answer
        else s.replied c { result := .refusedValue, clamped := false, item := none, data := [] }))

/-! ### Records on the lane -/

/-- What a reply and the records in it are, octet by octet (R163, R177, sections 12.2 to 12.4): the header addressed to the command's SRC from the unit
number in force, KIND 0x80 and the command's TAG, the four common fields and the kind data; a settings record; a commit slot and a commit report; a
capture record. The message check is the model's reading of R148 (log 12). -/
def Obligations.ReplyAndRecordOctets : Prop :=
  let two := fun (n : Nat) => ([octet (n / 256), octet n] : List Byte)
  let three := fun (n : Nat) => ([octet (n / 65536), octet (n / 256), octet n] : List Byte)
  let signed := fun (k : Nat) (x : Int) => ((List.range k).reverse.map fun i => octet (x / 256 ^ i % 256).toNat : List Byte)
  let bits := fun (f : Flags) => octet (f.headroom.toNat + 2 * f.stale.toNat + 4 * f.limit.toNat + 8 * f.clamp.toNat)
  (∀ (c : Command) (unit : Option Nat) (a : Answer),
      replyTo c unit a =
        (let m : List Byte :=
          [c.src, octet (unit.getD 254), 0x80, c.tag, octet (4 + a.data.length), c.kind,
              match a.result with
              | .done => 0x00
              | .doneLate => 0x01
              | .refusedKind => 0x10
              | .refusedLength => 0x11
              | .refusedValue => 0x12
              | .refusedMix => 0x14
              | .refusedPool => 0x15
              | .refusedStage => 0x16
              | .refusedArmed => 0x17
              | .refusedNotArmed => 0x18,
              if a.clamped then 1 else 0, octet (a.item.getD 255)] ++
            a.data
        m ++ two (messageCheck m).toNat)) ∧
    (∀ r : Settings,
      r.octets =
        [if r.enabled then 1 else 0] ++ two r.master ++ two r.ramp ++ three r.ceiling ++ two r.limRelease ++
              [match r.rounding with
                | .nearestEven => 0
                | .towardZero => 1
                | .floor => 2,
                r.groupMutes, octet (r.talk.getD 255)] ++
            three r.threshold ++
          two r.holdTime ++ two r.depth ++ two r.attack ++ two r.release ++ [bits r.enables]) ∧
    (∀ s : CommitSlot,
      s.octets =
        match s with
        | .disarmed => [0, 0, 0]
        | .armed .nextDelivery _ => [1, 0, 0]
        | .armed (.frame n) _ => 2 :: two n.toNat) ∧
    (∀ r : Option CommitReport,
      reportOctets r =
        match r with
        | none => [0, 0, 0, 0, 0, 0, 0, 0, 0]
        | some r =>
          [1] ++ two r.frameFired.toNat ++
              (match r.request with
              | .next => [0, 0, 0]
              | .atFrame n late => (if late then 2 else 1) :: two n.toNat) ++
            [octet r.applied, octet r.skipped, octet (r.firstSkipped.getD 0)]) ∧
    ∀ x : Option Capture,
      captureOctets x =
        match x with
        | none => List.replicate 41 0
        | some c =>
          [1] ++ two c.frame.toNat ++ [bits c.flags, if c.stage = .output then 1 else 0] ++ signed 8 c.sL ++ signed 8 c.sR ++ signed 5 c.rL ++ signed 5 c.rR ++
              two c.lgBefore ++ two c.lgAfter ++ signed 3 c.yL ++ signed 3 c.yR

/-! ### Commands on mix records -/

/-- R61, R62, R176: the settings record field by field: each value as sent or clamped, the clamped indicator, and the first refused field. -/
def Obligations.SettingsTaken : Prop :=
  ∀ en m1 m0 e1 e0 c2 c1 c0 r1 r0 mode mask talk t2 t1 t0 h1 h0 d1 d0 a1 a0 l1 l0 fl : Byte,
    takeSettings [en, m1, m0, e1, e0, c2, c1, c0, r1, r0, mode, mask, talk, t2, t1, t0, h1, h0, d1, d0, a1, a0, l1, l0, fl] =
      if 2 < mode.toNat then .error 5
      else if 63 < talk.toNat ∧ talk.toNat ≠ 255 then .error 7
      else
        .ok
          ({ enabled := decide (en.toNat ≠ 0), master := min 32767 (word2 m1 m0), ramp := max 1 (min 32767 (word2 e1 e0))
             ceiling := max 256 (min 8388607 (word3 c2 c1 c0)), limRelease := max 1 (min 4096 (word2 r1 r0))
             rounding := if mode.toNat = 0 then .nearestEven else if mode.toNat = 1 then .towardZero else .floor, groupMutes := mask
             talk := if talk.toNat = 255 then none else some talk.toNat, threshold := min 8388607 (word3 t2 t1 t0), holdTime := word2 h1 h0
             depth := min 4096 (word2 d1 d0), attack := max 1 (min 4096 (word2 a1 a0)), release := max 1 (min 4096 (word2 l1 l0))
             enables := ⟨fl.getLsbD 0, fl.getLsbD 1, fl.getLsbD 2, fl.getLsbD 3⟩ },
            decide
              (32767 < word2 m1 m0 ∨ word2 e1 e0 = 0 ∨ 32767 < word2 e1 e0 ∨ word3 c2 c1 c0 < 256 ∨ 8388607 < word3 c2 c1 c0 ∨ word2 r1 r0 = 0 ∨
                4096 < word2 r1 r0 ∨ 8388607 < word3 t2 t1 t0 ∨ 4096 < word2 d1 d0 ∨ word2 a1 a0 = 0 ∨ 4096 < word2 a1 a0 ∨ word2 l1 l0 = 0 ∨
                4096 < word2 l1 l0))

/-- MIX_WRITE IMMEDIATE (R62, R63, R65, R68, R69, R75): the checks in order; an accepted record replaces the whole record, a disable clears mc, Lg,
hold and duck state, a changed talk source clears hold and duck state, and nothing else of the running state moves; the pass after an enable is marked as
the first (R102, log 27). GROUP_MUTE IMMEDIATE (R71): the
mask replaced, no other field and no running state; the masks before and after.
Their STAGED forms refuse a mix or a field as the IMMEDIATE ones do, and append nothing (R120). -/
def Obligations.MixWriteAndGroupMuteAct : Prop :=
  (∀ (s : State) (src : CommandSource) (c : Command) (k mode : Byte) (r : List Byte), s.takes src 0x07 c → c.payload = k :: mode :: r → r.length = 25 →
      mode.toNat ≠ 1 →
      exec (.mixWrite src) s =
        .next
          (if 15 < k.toNat then s.replied c { result := .refusedMix, clamped := false, item := none, data := [] }
          else if mode.toNat ≠ 0 then s.replied c { result := .refusedValue, clamped := false, item := none, data := [] }
          else
            match takeSettings r with
            | .error index => s.replied c { result := .refusedValue, clamped := false, item := some index, data := [] }
            | .ok (cfg, clamped) =>
              let m := s.table.mix k.toNat
              let off := m.cfg.enabled && !cfg.enabled
              let quiet := off || decide (m.cfg.talk ≠ cfg.talk)
              let m' : Mix :=
                { m with
                  cfg := cfg, mc := if off then 0 else m.mc, lg := if off then 4096 else m.lg, hold := if quiet then 0 else m.hold
                  engaged := if quiet then false else m.engaged
                  justEnabled := cfg.enabled && (!m.cfg.enabled || m.justEnabled) }
              State.replied { s with table := { s.table with mixes := s.table.mixes.set k.toNat m' } } c
                { result := .done, clamped := clamped, item := none, data := cfg.octets })) ∧
  (∀ (s : State) (src : CommandSource) (c : Command) (k mode mask : Byte), s.takes src 0x0D c → c.payload = [k, mode, mask] → mode.toNat ≠ 1 →
      exec (.groupMute src) s =
        .next
          (if 15 < k.toNat then s.replied c { result := .refusedMix, clamped := false, item := none, data := [] }
          else if mode.toNat ≠ 0 then s.replied c { result := .refusedValue, clamped := false, item := none, data := [] }
          else
            let m := s.table.mix k.toNat
            State.replied
              { s with table := { s.table with mixes := s.table.mixes.set k.toNat { m with cfg := { m.cfg with groupMutes := mask } } } } c
              { result := .done, clamped := false, item := none, data := [m.cfg.groupMutes, mask] })) ∧
  (∀ (s : State) (src : CommandSource) (c : Command) (k : Byte) (r : List Byte), s.takes src 0x07 c → c.payload = k :: 1 :: r → r.length = 25 →
      (15 < k.toNat → exec (.mixWriteStaged src) s = .next (s.replied c { result := .refusedMix, clamped := false, item := none, data := [] })) ∧
        ∀ index, k.toNat ≤ 15 → takeSettings r = .error index →
          exec (.mixWriteStaged src) s = .next (s.replied c { result := .refusedValue, clamped := false, item := some index, data := [] })) ∧
  ∀ (s : State) (src : CommandSource) (c : Command) (k mask : Byte), s.takes src 0x0D c → c.payload = [k, 1, mask] → 15 < k.toNat →
    exec (.groupMuteStaged src) s = .next (s.replied c { result := .refusedMix, clamped := false, item := none, data := [] })

/-- MIX_READ (R66, R177): the record and the running state, 41 octets, and nothing changed. ENTRY_READ (R54, R55): the stretch from start, at most 20
entries, in list order, and nothing changed. -/
def Obligations.MixReadAndEntryReadAnswer : Prop :=
  (∀ (s : State) (src : CommandSource) (c : Command) (k : Byte), s.takes src 0x08 c → c.payload = [k] →
      exec (.mixRead src) s =
        .next
          (s.replied c
            (if 15 < k.toNat then { result := .refusedMix, clamped := false, item := none, data := [] }
            else
              let m := s.table.mix k.toNat
              { result := .done, clamped := false, item := none
                data :=
                  m.cfg.octets ++
                    [octet (m.mc / 256), octet m.mc, octet (m.duck / 256), octet m.duck, octet (m.hold / 256), octet m.hold, octet m.engaged.toNat,
                      octet (m.lg / 256), octet m.lg, octet m.list.length] ++
                    beInt 3 m.yL ++ beInt 3 m.yR }))) ∧
  (∀ (s : State) (src : CommandSource) (c : Command) (k start count : Byte), s.takes src 0x0C c → c.payload = [k, start, count] →
      exec (.entryRead src) s =
        .next
          (s.replied c
            (if 15 < k.toNat then { result := .refusedMix, clamped := false, item := none, data := [0, start, 0] }
            else
              let l := (s.table.mix k.toNat).list
              let wanted := if count.toNat = 0 ∨ 20 < count.toNat then 20 else count.toNat
              { result := .done, clamped := false, item := none
                data :=
                  [octet l.length, start, octet (min wanted (l.length - start.toNat))] ++
                    ((l.drop start.toNat).take wanted).flatMap fun e =>
                      [octet e.source, octet (e.group.getD 15 + (if e.mute then 16 else 0) + (if e.state = .retiring then 32 else 0)), octet (e.gL / 256),
                        octet e.gL, octet (e.gR / 256), octet e.gR, octet (e.cL / 256), octet e.cL, octet (e.cR / 256), octet e.cR] })))

/-! ### Commands on lists -/

/-- An ENTRY_WRITE IMMEDIATE whose records are good (R46 to R50): refused whole where its distinct absent sources exceed the free count, otherwise
every record set in order. An accepted one takes as many entries as its pool check counted, and its counts add up (R48, R49). -/
def Obligations.EntryWriteActs : Prop :=
  (∀ (s : State) (src : CommandSource) (c : Command) (k : Byte) (ws : List WireRecord), s.takes src 0x09 c → k.toNat ≤ 15 → ws.length ≤ 32 →
    (∀ w ∈ ws, w.valid) → c.payload = k :: 0 :: octet ws.length :: ws.flatMap WireRecord.octets →
    (let l := (s.table.mix k.toNat).list
    let needed := ((ws.map (·.source.toNat)).filter fun x => (entryFor l x).isNone).dedup.length
    exec (.entryWrite src) s =
      .next
        (if s.table.free < needed then
          s.replied c
            { result := .refusedPool, clamped := false, item := none
              data := [octet needed, 0, 0, octet l.length, octet (s.table.free / 256), octet s.table.free] }
        else
          let r := s.table.setEntries k.toNat (ws.map (·.values)) { created := 0, revived := 0, replaced := 0 }
          State.replied { s with table := r.1 } c
            { result := .done, clamped := ws.any (·.clamped), item := none
              data :=
                [octet r.2.created, octet r.2.revived, octet r.2.replaced, octet (r.1.mix k.toNat).list.length, octet (r.1.free / 256),
                  octet r.1.free] }))) ∧
  ∀ (t : MixTable) (k : Nat) (vs : List EntryValues), k < t.mixes.length →
    (let needed := ((vs.map (·.source)).filter fun x => (entryFor (t.mix k).list x).isNone).dedup.length
    needed ≤ t.free →
      (let r := t.setEntries k vs { created := 0, revived := 0, replaced := 0 }
      r.2.created = needed ∧ r.2.created + r.2.revived + r.2.replaced = vs.length ∧ r.1.free + needed = t.free ∧
        (r.1.mix k).list.length = (t.mix k).list.length + needed))

/-- The checks of ENTRY_WRITE in both modes (R46, R50, R121): mix, mode, count, and the first bad record, whose position is the item index; nothing
changes. The checks of ENTRY_REMOVE and MIX_CLEAR in both modes (R51 to R53): mix, mode, count, and the first bad source, whose position is the item
index; nothing changes. -/
def Obligations.ListCommandsRefuse : Prop :=
  (∀ (s : State) (src : CommandSource) (i : Instr) (c : Command) (k mode : Byte) (ws : List WireRecord), s.takes src 0x09 c → ws.length ≤ 39 →
      c.payload = k :: mode :: octet ws.length :: ws.flatMap WireRecord.octets →
      i = (if mode.toNat = 1 then .entryWriteStaged src else .entryWrite src) →
      (let refused := fun (r : Result) (item : Option Nat) (length : Nat) =>
        Host.Outcome.next (φ := Fault) (ρ := Refusal)
          (s.replied c
            { result := r, clamped := false, item := item, data := [0, 0, 0, octet length, octet (s.table.free / 256), octet s.table.free] })
      let length := (s.table.mix k.toNat).list.length
      (15 < k.toNat → exec i s = refused .refusedMix none 0) ∧
        (k.toNat ≤ 15 → 1 < mode.toNat → exec i s = refused .refusedValue none length) ∧
        (k.toNat ≤ 15 → mode.toNat ≤ 1 → 32 < ws.length → exec i s = refused .refusedValue none length) ∧
        ∀ before w after, k.toNat ≤ 15 → mode.toNat ≤ 1 → ws.length ≤ 32 → ws = before ++ w :: after → (∀ x ∈ before, x.valid) → ¬w.valid →
          exec i s = refused .refusedValue (some before.length) length)) ∧
  (∀ (s : State) (src : CommandSource) (c : Command) (k mode : Byte),
      (let length := octet (if 15 < k.toNat then 0 else (s.table.mix k.toNat).list.length)
      let refused := fun (r : Result) (item : Option Nat) (counts : List Byte) =>
        Host.Outcome.next (φ := Fault) (ρ := Refusal)
          (s.replied c { result := r, clamped := false, item := item, data := counts ++ [length, octet (s.table.free / 256), octet s.table.free] })
      (∀ (i : Instr) (sources : List Byte), s.takes src 0x0A c → sources.length ≤ 237 → c.payload = k :: mode :: octet sources.length :: sources →
          i = (if mode.toNat = 1 then .entryRemoveStaged src else .entryRemove src) →
          (15 < k.toNat → exec i s = refused .refusedMix none [0, 0, 0]) ∧
            (k.toNat ≤ 15 → (1 < mode.toNat ∨ sources = [] ∨ 32 < sources.length) → exec i s = refused .refusedValue none [0, 0, 0]) ∧
            ∀ before x after, k.toNat ≤ 15 → mode.toNat ≤ 1 → sources.length ≤ 32 → sources = before ++ x :: after → (∀ y ∈ before, y.toNat ≤ 63) →
              63 < x.toNat → exec i s = refused .refusedValue (some before.length) [0, 0, 0]) ∧
        ∀ i : Instr, s.takes src 0x0B c → c.payload = [k, mode] → i = (if mode.toNat = 1 then .mixClearStaged src else .mixClear src) →
          (15 < k.toNat → exec i s = refused .refusedMix none [0, 0]) ∧
            (k.toNat ≤ 15 → 1 < mode.toNat → exec i s = refused .refusedValue none [0, 0])))

/-- ENTRY_REMOVE and MIX_CLEAR IMMEDIATE (R42, R43, R51 to R53): accepted, each source or the whole list is retired, counted, and no entry leaves. -/
def Obligations.EntryRemoveAndMixClearAct : Prop :=
  ∀ (s : State) (src : CommandSource) (c : Command) (k : Byte), k.toNat ≤ 15 →
    (∀ sources : List Byte, s.takes src 0x0A c → 1 ≤ sources.length → sources.length ≤ 32 → (∀ x ∈ sources, x.toNat ≤ 63) →
        c.payload = k :: 0 :: octet sources.length :: sources →
        exec (.entryRemove src) s =
          .next
            (let r := s.table.retireEntries k.toNat (sources.map (·.toNat)) { retired := 0, already := 0, absent := 0 }
            State.replied { s with table := r.1 } c
              { result := .done, clamped := false, item := none
                data :=
                  [octet r.2.retired, octet r.2.already, octet r.2.absent, octet (r.1.mix k.toNat).list.length, octet (r.1.free / 256),
                    octet r.1.free] })) ∧
      (s.takes src 0x0B c → c.payload = [k, 0] →
        exec (.mixClear src) s =
          .next
            (let m := s.table.mix k.toNat
            let live := (m.list.filter fun e => e.state == .live).length
            let m' : Mix := { m with list := m.list.map fun e => { e with state := .retiring } }
            State.replied { s with table := { s.table with mixes := s.table.mixes.set k.toNat m' } } c
              { result := .done, clamped := false, item := none
                data :=
                  [octet live, octet (m.list.length - live), octet ((s.table.mixes.set k.toNat m').getD k.toNat Mix.reset).list.length,
                    octet (s.table.free / 256), octet s.table.free] }))

/-! ### STAGED commands -/

/-- The five STAGED commands (R119 to R121): with their checks passed, every record joins the tail of the queue in order, or, where they are more than
128 minus the staging count, none does; no list, record or slot changes. -/
def Obligations.StagedCommandsAppend : Prop :=
  ∀ (s : State) (src : CommandSource) (c : Command) (k : Byte), k.toNat ≤ 15 →
    (let staged := fun (edits : List StagedEdit) (clamped : Bool) (extra : List Byte) =>
      Host.Outcome.next (φ := Fault) (ρ := Refusal)
        (if edits.length ≤ 128 - s.staging.queue.length then
          State.replied { s with staging := { s.staging with queue := s.staging.queue ++ edits } } c
            { result := .done, clamped := clamped, item := none
              data := [octet edits.length, octet (s.staging.queue.length + edits.length)] ++ extra }
        else
          s.replied c { result := .refusedStage, clamped := false, item := none, data := [octet edits.length, octet s.staging.queue.length] })
    (∀ ws : List WireRecord, s.takes src 0x09 c → ws.length ≤ 32 → (∀ w ∈ ws, w.valid) →
        c.payload = k :: 1 :: octet ws.length :: ws.flatMap WireRecord.octets →
        exec (.entryWriteStaged src) s =
          staged (ws.map fun w => .setEntry k.toNat w.values.source w.values.gL w.values.gR w.values.group w.values.mute) (ws.any (·.clamped)) []) ∧
      (∀ sources : List Byte, s.takes src 0x0A c → 1 ≤ sources.length → sources.length ≤ 32 → (∀ x ∈ sources, x.toNat ≤ 63) →
        c.payload = k :: 1 :: octet sources.length :: sources →
        exec (.entryRemoveStaged src) s = staged (sources.map fun x => .retireEntry k.toNat x.toNat) false []) ∧
      (s.takes src 0x0B c → c.payload = [k, 1] → exec (.mixClearStaged src) s = staged [.clearMix k.toNat] false []) ∧
      (∀ (r : List Byte) (cfg : Settings) (clamped : Bool), s.takes src 0x07 c → r.length = 25 → c.payload = k :: 1 :: r →
        takeSettings r = .ok (cfg, clamped) → exec (.mixWriteStaged src) s = staged [.setMix k.toNat cfg] clamped cfg.octets) ∧
      ∀ mask : Byte, s.takes src 0x0D c → c.payload = [k, 1, mask] →
        exec (.groupMuteStaged src) s = staged [.setGroupMutes k.toNat mask] false [mask])

/-! ### Commands on routes, cue, slot and flags -/

/-- R143: ROUTE_READ returns the 32 routes as they stand, in index order, and changes nothing; taken after a ROUTE_WRITE it shows the new table, which
the lanes carry from the next frame event, or 0 in QUIET (R140). -/
def Obligations.RouteReadAnswers : Prop :=
  (∀ (s : State) (src : CommandSource) (c : Command), s.takes src 0x0F c → c.payload = [] →
      exec (.routeRead src) s = .next (s.replied c { result := .done, clamped := false, item := none, data := s.lanes.routes.map Route.octet })) ∧
    ∀ (s t : State) (src src' : CommandSource) (c c' : Command), s.takes src 0x0E c → c.payload.length = 32 →
      (∀ b ∈ c.payload, b.toNat = 255 ∨ (b.toNat < 64 ∧ b.toNat % 32 < 16)) → exec (.routeWrite src) s = .next t →
      (t.takes src' 0x0F c' → c'.payload = [] →
          exec (.routeRead src') t = .next (t.replied c' { result := .done, clamped := false, item := none, data := c.payload })) ∧
        (t.eventComes → t.tb.owed = false → ∃ u, exec .frameEvent t = .next u ∧
          u.lanes.frame =
            some
              (c.payload.map fun b =>
                if t.intake.power = .quiet ∨ b.toNat = 255 then 0
                else if b.toNat < 32 then (t.lanes.held.getD (b.toNat % 32) (0, 0)).1 else (t.lanes.held.getD (b.toNat % 32) (0, 0)).2))

/-- ROUTE_WRITE (R142, R176): the whole table of valid codes, or the index of the first invalid code and nothing changed. The held pairs and the lane
frame in progress stay. -/
def Obligations.RouteWriteActs : Prop :=
  ∀ (s : State) (src : CommandSource) (c : Command), s.takes src 0x0E c → c.payload.length = 32 →
    (let good := fun (b : Byte) => decide (b.toNat = 255 ∨ (b.toNat < 64 ∧ b.toNat % 32 < 16))
    (c.payload.all good = true →
        exec (.routeWrite src) s =
          .next
            (State.replied
              { s with
                lanes :=
                  { s.lanes with
                    routes := c.payload.map fun b =>
                      if b.toNat = 255 then .silent else .mix (b.toNat % 32) (if b.toNat < 32 then .left else .right) } }
              c { result := .done, clamped := false, item := none, data := c.payload })) ∧
      ∀ before b after, c.payload = before ++ b :: after → before.all good = true → good b = false →
        exec (.routeWrite src) s = .next (s.replied c { result := .refusedValue, clamped := false, item := some before.length, data := [] }))

/-- CUE_SELECT (R145, R176): the checks in order; an accepted one replaces the whole selection; the held pairs and the frame being emitted stay. -/
def Obligations.CueSelectActs : Prop :=
  ∀ (s : State) (src : CommandSource) (c : Command) (k l r : Byte), s.takes src 0x10 c → c.payload = [k, l, r] →
    exec (.cueSelect src) s =
      .next
        (if 15 < k.toNat ∧ k.toNat ≠ 255 then s.replied c { result := .refusedMix, clamped := false, item := none, data := [] }
        else if 63 < l.toNat ∨ 63 < r.toNat ∨ l = r then s.replied c { result := .refusedValue, clamped := false, item := none, data := [] }
        else
          State.replied
            { s with
              tx := { s.tx with cueMix := if k.toNat = 255 then none else some k.toNat, cueLeft := l.toNat, cueRight := r.toNat } }
            c
            { result := .done, clamped := false, item := none
              data := [octet (s.tx.cueMix.getD 255), octet s.tx.cueLeft, octet s.tx.cueRight, k, l, r] })

/-- COMMIT (R123, R124, R126): request kind, then the slot, are checked; NEXT arms for the next delivery, AT_FRAME N for N when N is 1 to 32,767
ahead, and late, for the next delivery, otherwise. The reply echoes the request's octets as sent (log 16). -/
def Obligations.CommitArms : Prop :=
  ∀ (s : State) (src : CommandSource) (c : Command) (request a b : Byte), s.takes src 0x11 c → c.payload = [request, a, b] →
    (let n : FrameNo := BitVec.ofNat 16 (word2 a b)
    let distance := (n - s.rx.localFrame).toNat
    let refused := fun (r : Result) =>
      Host.Outcome.next (φ := Fault) (ρ := Refusal)
        (s.replied c { result := r, clamped := false, item := none, data := s.staging.slot.octets ++ [octet s.staging.queue.length] })
    let armed := fun (result : Result) (distance : Nat) (trigger : CommitTrigger) (r : CommitRequest) =>
      Host.Outcome.next (φ := Fault) (ρ := Refusal)
        (State.replied { s with staging := { s.staging with slot := .armed trigger r } } c
          { result := result, clamped := false, item := none
            data :=
              [request, a, b, octet (distance / 256), octet distance, octet (s.rx.localFrame.toNat / 256), octet s.rx.localFrame.toNat,
                octet s.staging.queue.length] })
    (request.toNat ≠ 1 →
        exec (.commitAtFrame src) s =
          if 1 < request.toNat then refused .refusedValue
          else if s.staging.slot ≠ .disarmed then refused .refusedArmed
          else if 1 ≤ distance ∧ distance ≤ 32767 then armed .done distance (.frame n) (.atFrame n false)
          else armed .doneLate distance .nextDelivery (.atFrame n true)) ∧
      (request.toNat = 1 →
        exec (.commitNext src) s = if s.staging.slot ≠ .disarmed then refused .refusedArmed else armed .done 0 .nextDelivery .next))

/-- CANCEL disarms an armed commit and keeps the staged records; with the slot DISARMED it is refused and changes nothing (R131). DISCARD removes every
record and leaves the slot as it is; the reply gives the records discarded and the slot (R122). -/
def Obligations.CancelAndDiscardAct : Prop :=
  (∀ (s : State) (src : CommandSource) (c : Command), s.takes src 0x12 c → c.payload = [] →
    exec (.cancel src) s =
      .next
        (if s.staging.slot = .disarmed then s.replied c { result := .refusedNotArmed, clamped := false, item := none, data := [] }
        else
          State.replied { s with staging := { s.staging with slot := .disarmed } } c
            { result := .done, clamped := false, item := none, data := s.staging.slot.octets ++ [octet s.staging.queue.length] })) ∧
    ∀ (s : State) (src : CommandSource) (c : Command), s.takes src 0x13 c → c.payload = [] →
      exec (.discard src) s =
        .next
          (State.replied { s with staging := { s.staging with queue := [] } } c
            { result := .done, clamped := false, item := none, data := [octet s.staging.queue.length] ++ s.staging.slot.octets })

/-- FLAGS_READ and FLAGS_CLEAR (R113 to R115, R177): the flags, the mask and the capture read, nothing changed; the echoed accrued flags cleared and
no others, the capture released by YES and returned. -/
def Obligations.FlagsReadAndClear : Prop :=
  ∀ (s : State) (src : CommandSource) (c : Command) (k echo option : Byte),
    (let m := s.table.mix k.toNat
    let kept : Flags :=
      { headroom := m.accrued.headroom && !echo.getLsbD 0, stale := m.accrued.stale && !echo.getLsbD 1, limit := m.accrued.limit && !echo.getLsbD 2
        clamp := m.accrued.clamp && !echo.getLsbD 3 }
    let left := if option.toNat = 1 then none else m.capture
    let kind := fun (x : Option Capture) => if x = none then (0 : Byte) else 1
    (s.takes src 0x14 c → c.payload = [k] →
        exec (.flagsRead src) s =
          .next
            (s.replied c
              (if 15 < k.toNat then { result := .refusedMix, clamped := false, item := none, data := [] }
              else
                { result := .done, clamped := false, item := none
                  data := [m.current.octet, m.accrued.octet, m.cfg.enables.octet] ++ captureOctets m.capture }))) ∧
      (s.takes src 0x15 c → c.payload = [k, echo, option] →
        exec (.flagsClear src) s =
          .next
            (if 15 < k.toNat then s.replied c { result := .refusedMix, clamped := false, item := none, data := [] }
            else if 1 < option.toNat then s.replied c { result := .refusedValue, clamped := false, item := none, data := [] }
            else
              State.replied
                { s with table := { s.table with mixes := s.table.mixes.set k.toNat { m with accrued := kept, capture := left } } } c
                { result := .done, clamped := false, item := none
                  data :=
                    [m.accrued.octet, kept.octet, kind m.capture, kind left] ++ captureOctets (if option.toNat = 1 then m.capture else none) })))

/-! ### POWER and UNIT_RESET -/

/-- POWER (R28, R166, R167): QUIET in RUN starts the close and stays in the executing slot with its place reserved, or, with the fade SHUT, is QUIET
at once, with the held pairs and the positions of the lane frame not begun 0 (R140; how many are begun is open within what earlier moments of the
period and the delivery it owes fix, log 26); RUN in QUIET is RUN; the other requests change nothing; another value is refused. A POWER is never taken in QUIESCING. -/
def Obligations.PowerActs : Prop :=
  ∀ (s : State) (src : CommandSource) (c : Command) (request : Byte), s.takes src 0x16 c → c.payload = [request] → s.intake.power ≠ .quiescing →
    (let answer := fun (x y : Byte) => ({ result := .done, clamped := false, item := none, data := [x, y] } : Answer)
    (request.toNat = 1 → ∃ begun, s.begunAtLeast ≤ begun ∧ begun ≤ s.begunAtMost ∧ begun ≤ 8 ∧
        exec (.powerQuiet src) s =
          .next
            (if s.intake.power = .quiet then s.replied c (answer 2 2)
            else if s.fade.state = .shut then
              State.replied
                { s with
                  freeIdx := s.freeIdx + 1
                  begun := begun
                  intake := { s.intake with power := .quiet }
                  lanes :=
                    { s.lanes with
                      held := List.replicate 16 (0, 0)
                      frame := s.lanes.frame.map fun values => values.zipIdx.map fun x => if x.2 % 8 < begun then x.1 else 0 } }
                c (answer 0 2)
            else
              { s with
                intake := { holding := none, executing := some c, power := .quiescing }
                fade := { s.fade with state := .closing }
                replies := { s.replies with reserved := s.replies.reserved + 1 } })) ∧
      (request.toNat ≠ 1 →
        exec (.powerRun src) s =
          .next
            (if request.toNat ≠ 0 then s.replied c { result := .refusedValue, clamped := false, item := none, data := [] }
            else if s.intake.power = .quiet then State.replied { s with intake := { s.intake with power := .run } } c (answer 2 0)
            else s.replied c (answer 0 0))))

/-- UNIT_RESET (R11, R19, R23, R29, R57, R77, R117, R135, R144, R158, R169, R175): everything R169 lists returns to its default and everything it
keeps stays; the reply carries the unit number and is composed after it. -/
def Obligations.UnitResetReturnsDefaults : Prop :=
  ∀ (s : State) (src : CommandSource) (c : Command), s.takes src 0x17 c → c.payload = [] →
    exec (.unitReset src) s =
      .next
        (State.replied
          { s with
            rx := { s.rx with counters := ⟨0, 0, 0, 0, 0, 0, 0, 0⟩ }
            tx := { s.tx with cueMix := none, cueLeft := 62, cueRight := 63 }
            store := { s.store with bad := 0, good := 0 }
            fade := { state := .shut, coeff := 0, step := 1 }
            table := State.reset.table
            staging := { queue := [], slot := .disarmed, report := none }
            lanes := { s.lanes with routes := State.reset.lanes.routes }
            replies := { s.replies with messages := s.replies.messages.filter (!·.isNotice) }
            intake := { s.intake with power := .run }
            events := { summary := 0, mask := 0, latch := false } }
          c { result := .done, clamped := false, item := none, data := [octet (s.lane.unit.getD 254)] })

/-! ### Invariants of every step -/

/-- Every step keeps the sync state, its counts and the reference in agreement (R4 to R7), and the counters within 16 bits (R11). Every step keeps the
Source Store's samples in 24 bits, all ages equal and at most 255, B and G within 16 bits and one of them 0 (R20 to R22, R26). -/
def Obligations.LinkAndSourcesStaySound : Prop :=
  (∀ s t : State, s.rx.sound → s.rx.counters.sound → step s = .next t → t.rx.sound ∧ t.rx.counters.sound) ∧
  (∀ s t : State, s.store.sound → step s = .next t → t.store.sound)

/-- Every step keeps the lists in ascending order without duplicates, every field in its range, the pool's 512 entries all accounted for, the running
state of disabled mixes at rest, and at most 128 staged records that no firing can find out of range (R34 to R36, R60, R64, R67, R119). -/
def Obligations.TablesStaySound : Prop :=
  ∀ s t : State, s.table.sound → s.staging.sound → step s = .next t → t.table.sound ∧ t.staging.sound

/-- Every step keeps f in agreement with the fade state, QUIET with SHUT, QUIESCING with a closing fade and an occupied executing slot, and the Reply
Queue within its 8 places with at most one NOTICE (R24, R28, R157, R161, R166, R167). -/
def Obligations.PowerAndRepliesStaySound : Prop :=
  ∀ s t : State, s.fade.sound → s.powerSound → s.repliesSound → step s = .next t → t.fade.sound ∧ t.powerSound ∧ t.repliesSound

/-- Every step keeps the hold buffer's reserved count within 64 frames, the unit number within 1 to 32, and the receive buffer within 247 octets
(R148, R152, R155). -/
def Obligations.LaneStaysSound : Prop :=
  ∀ s t : State, s.lane.sound → step s = .next t → t.lane.sound

/-- Every step keeps 32 valid routes, 16 held pairs of valid samples, a lane frame of 32 valid samples, and a cue selection with two different slots
(R98, R139, R141, R145). -/
def Obligations.OutputsStaySound : Prop :=
  ∀ s t : State, s.table.sound → s.staging.sound → s.lanes.sound → s.tx.cueSound → step s = .next t → t.lanes.sound ∧ t.tx.cueSound
end

