-- ==== Sys2Proof/Laws/Operands.lean ====
section
/-!
SUPPORT. What the operand forms of Machine/Operands.lean take from the octets of a payload: entry wire records, sources and routes, good ones and the first bad one.
-/

namespace Sys2Proof.Machine

/-! ### Octets -/

@[simp] theorem be_zero (n : Nat) : be 0 n = [] := rfl

theorem be_two (n : Nat) : be 2 n = [octet (n / 256), octet n] := by simp [be]

theorem be_length (k n : Nat) : (be k n).length = k := by
  induction k with
  | zero => rfl
  | succ k ih => simp [be, ih]

theorem octet_toNat {n : Nat} (h : n < 256) : (octet n).toNat = n := by simp [octet, Nat.mod_eq_of_lt h]

theorem octet_of_toNat (b : Byte) : octet b.toNat = b := by simp [octet]

/-! ### Clamped values -/

theorem clampInto_eq {lo hi : Nat} (h : lo ≤ hi) (n : Nat) : clampInto lo hi n = (max lo (min hi n), decide (n < lo ∨ hi < n)) := by
  unfold clampInto
  split
  · simp only [Prod.mk.injEq]
    exact ⟨by omega, by simp; omega⟩
  · split
    · simp only [Prod.mk.injEq]
      exact ⟨by omega, by simp; omega⟩
    · simp only [Prod.mk.injEq]
      exact ⟨by omega, by simp; omega⟩

/-! ### Entry wire records (R46, R47) -/

theorem WireRecord.octets_length (w : WireRecord) : w.octets.length = 6 := rfl

theorem WireRecord.octets_flatMap_length (ws : List WireRecord) : (ws.flatMap WireRecord.octets).length = 6 * ws.length := by
  induction ws with
  | nil => rfl
  | cons w ws ih => simp [ih, WireRecord.octets_length]; omega

theorem groupOf_eq (n : Nat) (h : n < 16) :
    groupOf n = if n ≤ 7 then some (some n) else if n = 15 then some none else none := by
  unfold groupOf
  split
  · simp [show n ≤ 7 by omega]
  · simp [show ¬n ≤ 7 by omega]

/-- A good wire record at the front of the octets is taken at its values. -/
theorem takeEntry_valid {w : WireRecord} (h : w.valid) (rest : List Byte) : takeEntry (w.octets ++ rest) = some (w.values, w.clamped) := by
  obtain ⟨h1, h2⟩ := h
  have hg := groupOf_eq (w.attributes.toNat % 16) (by omega)
  rw [show groupOf (w.attributes.toNat % 16) =
    some (if w.attributes.toNat % 16 ≤ 7 then some (w.attributes.toNat % 16) else none) by rw [hg]; rcases h2 with h2 | h2 <;> simp [h2]] at hg
  have e1 : at16 (w.octets ++ rest) 2 = word2 w.l1 w.l0 := by simp [at16, field, fromBe, WireRecord.octets, word2]
  have e2 : at16 (w.octets ++ rest) 4 = word2 w.r1 w.r0 := by simp [at16, field, fromBe, WireRecord.octets, word2]
  have e3 : at8 (w.octets ++ rest) 0 = w.source.toNat := by simp [at8, WireRecord.octets]
  have e4 : at8 (w.octets ++ rest) 1 = w.attributes.toNat := by simp [at8, WireRecord.octets]
  have e5 : (w.octets ++ rest).getD 1 0 = w.attributes := by simp [WireRecord.octets]
  have hg' : groupOf (w.attributes.toNat % 16) =
      some (if w.attributes.toNat % 16 ≤ 7 then some (w.attributes.toNat % 16) else none) := by
    rw [groupOf_eq _ (by omega)]; rcases h2 with h2 | h2 <;> simp [h2]
  simp only [takeEntry, e1, e2, e3, e4, e5, hg', if_neg (show ¬63 < w.source.toNat by omega), takeGain, clampInto_eq (Nat.zero_le _), WireRecord.values,
    WireRecord.clamped, Config.gainMax]
  simp

/-- A wire record with a bad source or group code is bad (R46 step 4). -/
theorem takeEntry_invalid {w : WireRecord} (h : ¬w.valid) (rest : List Byte) : takeEntry (w.octets ++ rest) = none := by
  have e3 : at8 (w.octets ++ rest) 0 = w.source.toNat := by simp [at8, WireRecord.octets]
  have e4 : at8 (w.octets ++ rest) 1 = w.attributes.toNat := by simp [at8, WireRecord.octets]
  simp only [takeEntry, e3, e4]
  split
  · rfl
  · rename_i hs
    have hg : groupOf (w.attributes.toNat % 16) = none := by
      rw [groupOf_eq _ (by omega)]
      have : ¬(w.attributes.toNat % 16 ≤ 7 ∨ w.attributes.toNat % 16 = 15) := fun hh => h ⟨by omega, hh⟩
      rw [if_neg (by omega), if_neg (by omega)]
    simp [hg]

theorem drop_records (head : List Byte) (hh : head.length = 3) (before : List WireRecord) (rest : List Byte) :
    (head ++ before.flatMap WireRecord.octets ++ rest).drop (3 + 6 * before.length) = rest := by
  rw [List.append_assoc, List.drop_append, hh]
  simp only [show 3 + 6 * before.length - 3 = 6 * before.length by omega]
  rw [List.drop_of_length_le (by omega), List.drop_append, WireRecord.octets_flatMap_length]
  rw [Nat.sub_self, List.drop_of_length_le (by rw [WireRecord.octets_flatMap_length])]
  simp

/-- Good wire records are taken in order. -/
theorem takeEntries_valid (head : List Byte) (hh : head.length = 3) (ws : List WireRecord) (h : ∀ w ∈ ws, w.valid) :
    ∀ before : List WireRecord, takeEntries (head ++ before.flatMap WireRecord.octets ++ ws.flatMap WireRecord.octets) before.length ws.length =
      .ok (ws.map (·.values), ws.any (·.clamped)) := by
  induction ws with
  | nil => intro before; rfl
  | cons w ws ih =>
    intro before
    have hw := h w (by simp)
    have step := ih (fun x hx => h x (by simp [hx])) (before ++ [w])
    simp only [List.length_cons, takeEntries, drop_records head hh, List.flatMap_cons, takeEntry_valid hw]
    simp only [List.flatMap_append, List.flatMap_cons, List.flatMap_nil, List.append_nil, List.length_append, List.length_cons, List.length_nil,
      List.append_assoc, Nat.zero_add] at step ⊢
    simp [step]

/-- The first bad wire record is named by its position (R46 step 4). -/
theorem takeEntries_invalid (head : List Byte) (hh : head.length = 3) (good : List WireRecord) (h : ∀ w ∈ good, w.valid) (w : WireRecord) (hw : ¬w.valid)
    (after : List WireRecord) :
    ∀ before : List WireRecord,
      takeEntries (head ++ before.flatMap WireRecord.octets ++ (good ++ w :: after).flatMap WireRecord.octets) before.length (good ++ w :: after).length =
        .error (before.length + good.length) := by
  induction good with
  | nil =>
    intro before
    simp only [List.nil_append, List.length_cons, takeEntries, drop_records head hh, List.flatMap_cons, takeEntry_invalid hw]
    simp
  | cons x good ih =>
    intro before
    have hx := h x (by simp)
    have step := ih (fun y hy => h y (by simp [hy])) (before ++ [x])
    simp only [List.cons_append, List.length_cons, takeEntries, drop_records head hh, List.flatMap_cons, takeEntry_valid hx]
    simp only [List.flatMap_append, List.flatMap_cons, List.flatMap_nil, List.append_nil, List.length_append, List.length_cons, List.length_nil,
      List.append_assoc, Nat.zero_add] at step ⊢
    simp [step]
    omega

/-! ### Sources (R51) -/

theorem at8_sources (head : List Byte) (hh : head.length = 3) (before : List Byte) (x : Byte) (rest : List Byte) :
    at8 (head ++ before ++ x :: rest) (3 + before.length) = x.toNat := by
  simp [at8, List.getD_eq_getElem?_getD, hh]

/-- Good sources are taken in order. -/
theorem takeSources_valid (head : List Byte) (hh : head.length = 3) (xs : List Byte) (h : ∀ x ∈ xs, x.toNat ≤ 63) :
    ∀ before : List Byte, takeSources (head ++ before ++ xs) before.length xs.length = .ok (xs.map (·.toNat)) := by
  induction xs with
  | nil => intro before; rfl
  | cons x xs ih =>
    intro before
    have hx := h x (by simp)
    have step := ih (fun y hy => h y (by simp [hy])) (before ++ [x])
    simp only [List.length_cons, takeSources, at8_sources head hh, if_neg (show ¬63 < x.toNat by omega)]
    simp only [List.length_append, List.length_cons, List.length_nil, List.append_assoc, Nat.zero_add, List.cons_append, List.nil_append] at step ⊢
    simp [step]

/-- The first bad source is named by its position (R51). -/
theorem takeSources_invalid (head : List Byte) (hh : head.length = 3) (good : List Byte) (h : ∀ x ∈ good, x.toNat ≤ 63) (x : Byte) (hx : 63 < x.toNat)
    (after : List Byte) :
    ∀ before : List Byte,
      takeSources (head ++ before ++ (good ++ x :: after)) before.length (good ++ x :: after).length = .error (before.length + good.length) := by
  induction good with
  | nil =>
    intro before
    simp only [List.nil_append, List.length_cons, takeSources, at8_sources head hh, hx, if_true]
    simp
  | cons y good ih =>
    intro before
    have hy := h y (by simp)
    have step := ih (fun z hz => h z (by simp [hz])) (before ++ [y])
    simp only [List.cons_append, List.length_cons, takeSources, at8_sources head hh, if_neg (show ¬63 < y.toNat by omega)]
    simp only [List.length_append, List.length_cons, List.length_nil, List.append_assoc, Nat.zero_add, List.cons_append, List.nil_append] at step ⊢
    simp [step]
    omega

/-! ### Routes (R142) -/

/-- Good route octets are taken in order, and each answers as it was sent. -/
theorem takeRoutes_valid (bs : List Byte) (h : ∀ b ∈ bs, b.toNat = 255 ∨ (b.toNat < 64 ∧ b.toNat % 32 < 16)) (index : Nat) :
    takeRoutes bs index =
      .ok (bs.map fun b => if b.toNat = 255 then .silent else .mix (b.toNat % 32) (if b.toNat < 32 then .left else .right)) := by
  induction bs generalizing index with
  | nil => rfl
  | cons b bs ih =>
    have hb := h b (by simp)
    have hr : routeOf b = some (if b.toNat = 255 then .silent else .mix (b.toNat % 32) (if b.toNat < 32 then .left else .right)) := by
      unfold routeOf
      split
      · rfl
      · rw [if_pos (by omega)]
    simp [takeRoutes, hr, ih (fun x hx => h x (by simp [hx]))]

/-- The first invalid route code is named by its index (R142). -/
theorem takeRoutes_invalid (good : List Byte) (h : ∀ b ∈ good, b.toNat = 255 ∨ (b.toNat < 64 ∧ b.toNat % 32 < 16)) (b : Byte)
    (hb : ¬(b.toNat = 255 ∨ (b.toNat < 64 ∧ b.toNat % 32 < 16))) (after : List Byte) (index : Nat) :
    takeRoutes (good ++ b :: after) index = .error (index + good.length) := by
  induction good generalizing index with
  | nil =>
    have hr : routeOf b = none := by
      unfold routeOf
      rw [if_neg (by omega), if_neg (by omega)]
    simp [takeRoutes, hr]
  | cons x good ih =>
    have hx := h x (by simp)
    have hr : ∃ r, routeOf x = some r := by
      unfold routeOf
      split
      · exact ⟨_, rfl⟩
      · rw [if_pos (by omega)]; exact ⟨_, rfl⟩
    obtain ⟨r, hr⟩ := hr
    simp [takeRoutes, hr, ih (fun y hy => h y (by simp [hy]))]
    omega

/-- A good route octet is the octet of its route (section 12.3). -/
theorem route_octet (b : Byte) (h : b.toNat = 255 ∨ (b.toNat < 64 ∧ b.toNat % 32 < 16)) :
    Route.octet (if b.toNat = 255 then .silent else .mix (b.toNat % 32) (if b.toNat < 32 then .left else .right)) = b := by
  split
  · rename_i h
    simp only [Route.octet]
    exact BitVec.eq_of_toNat_eq (by simp [h])
  · rename_i h
    split
    · simp only [Route.octet]
      rw [Nat.mod_eq_of_lt (by omega), octet_of_toNat]
    · simp only [Route.octet]
      rw [show 32 + b.toNat % 32 = b.toNat by omega, octet_of_toNat]

end Sys2Proof.Machine
end

