-- ==== Sys2Proof/Laws/Bytes.lean ====
section
/-!
SUPPORT. Round trips of octets, bits, fields and the line code (Machine/Bytes.lean), and of messages cut into lane frames (Machine/Ops.lean).
-/

namespace Sys2Proof.Machine

/-! ### Fields -/

theorem fromBe_append_single (l : List Byte) (b : Byte) : fromBe (l ++ [b]) = fromBe l * 256 + b.toNat := by simp [fromBe]

theorem fromBe_foldl (l : List Byte) (a : Nat) : l.foldl (fun a b => a * 256 + b.toNat) a = a * 256 ^ l.length + fromBe l := by
  induction l generalizing a with
  | nil => simp [fromBe]
  | cons b l ih =>
    simp only [fromBe, List.foldl_cons, List.length_cons]
    rw [ih, ih (0 * 256 + b.toNat)]
    ring

theorem fromBe_cons (b : Byte) (l : List Byte) : fromBe (b :: l) = b.toNat * 256 ^ l.length + fromBe l := by
  simp only [fromBe, List.foldl_cons]
  rw [fromBe_foldl]
  simp [fromBe]

/-- A field reads back as the number it was written from, cut to its octets (12). -/
theorem fromBe_be (k n : Nat) : fromBe (be k n) = n % 256 ^ k := by
  induction k with
  | zero => simp [be, fromBe, Nat.mod_one]
  | succ k ih =>
    simp only [be]
    rw [fromBe_cons, ih, be_length]
    have ho : (octet (n / 256 ^ k)).toNat = n / 256 ^ k % 256 := by simp [octet]
    rw [ho, show (256 : Nat) ^ (k + 1) = 256 ^ k * 256 from pow_succ 256 k, Nat.mod_mul (x := n), Nat.mul_comm, Nat.add_comm]

/-- A sample of 24 bits reads back from its three octets (section 12.1). -/
theorem sampleOf_beInt {y : Int} (h1 : -8388608 ≤ y) (h2 : y ≤ 8388607) : sampleOf (fromBe (beInt 3 y)) = y := by
  simp only [beInt, fromBe_be]
  have e : (y % ((256 ^ 3 : Nat) : Int)).toNat % 256 ^ 3 = (y % 16777216).toNat := by
    norm_num
    omega
  rw [e]
  unfold sampleOf
  split <;> omega

theorem samplesOf_flatMap (slots : List Int) (h : ∀ y ∈ slots, -8388608 ≤ y ∧ y ≤ 8388607) : samplesOf (slots.flatMap (beInt 3)) = slots := by
  induction slots with
  | nil => rfl
  | cons y slots ih =>
    have hy := h y (by simp)
    have three : ∃ a b c, beInt 3 y = [a, b, c] := ⟨_, _, _, rfl⟩
    obtain ⟨a, b, c, hb⟩ := three
    have hs := sampleOf_beInt hy.1 hy.2
    rw [hb] at hs
    simp only [List.flatMap_cons, hb, List.cons_append, List.nil_append, samplesOf, hs, ih fun z hz => h z (by simp [hz])]

/-- A field is below 256 to its number of octets. -/
theorem fromBe_lt (l : List Byte) : fromBe l < 256 ^ l.length := by
  induction l with
  | nil => simp [fromBe]
  | cons b l ih =>
    rw [fromBe_cons, List.length_cons, pow_succ]
    have hb : b.toNat ≤ 255 := by omega
    nlinarith [Nat.pow_pos (n := l.length) (show 0 < 256 by omega)]

/-- A sample read from three octets has 24 bits (section 12.1). -/
theorem sampleOf_bounds {n : Nat} (h : n < 16777216) : -8388608 ≤ sampleOf n ∧ sampleOf n ≤ 8388607 := by
  unfold sampleOf
  split <;> omega

/-- Every sample read from octets has 24 bits. -/
theorem samplesOf_bounds (l : List Byte) : ∀ y ∈ samplesOf l, -8388608 ≤ y ∧ y ≤ 8388607 := by
  induction l using samplesOf.induct with
  | case1 a b c rest ih =>
    intro y hy
    rcases List.mem_cons.mp hy with rfl | hy
    · refine sampleOf_bounds (Nat.lt_of_lt_of_eq (fromBe_lt [a, b, c]) ?_)
      norm_num
    · exact ih y hy
  | case2 l h =>
    intro y hy
    rw [samplesOf.eq_2 l h] at hy
    simp at hy

theorem at16_le (p : List Byte) (offset : Nat) : at16 p offset ≤ 65535 := by
  have h := fromBe_lt ((p.drop offset).take 2)
  have hl : ((p.drop offset).take 2).length ≤ 2 := by simp
  have hp : 256 ^ ((p.drop offset).take 2).length ≤ 256 ^ 2 := Nat.pow_le_pow_right (by omega) hl
  simp only [at16, field]
  omega

/-! ### Bits -/

theorem octet_of_octetBits (b : Byte) : octet (natOfBits (octetBits b)) = b := by
  apply BitVec.eq_of_getLsbD_eq
  intro i hi
  have key : ∀ x : Fin 256, octet (natOfBits (octetBits (BitVec.ofFin x))) = BitVec.ofFin x := by decide +kernel
  rw [show octet (natOfBits (octetBits b)) = b from key b.toFin]

/-- Octets sent most significant bit first come back as they were (12). -/
theorem octetsOf_bitsOf (l : List Byte) : octetsOf (bitsOf l) = l := by
  induction l with
  | nil => rfl
  | cons b l ih =>
    have hb := octet_of_octetBits b
    simp only [bitsOf, List.flatMap_cons, octetBits, List.cons_append, List.nil_append, octetsOf] at ih hb ⊢
    rw [ih, hb]

theorem bitsOf_length (l : List Byte) : (bitsOf l).length = 8 * l.length := by
  induction l with
  | nil => rfl
  | cons b l ih =>
    simp only [bitsOf, List.flatMap_cons, List.length_append, List.length_cons] at ih ⊢
    rw [ih]
    simp [octetBits]
    omega

/-! ### The line code (R1) -/

theorem codeBits_length (before : Bool) (bits : List Bool) : (codeBits before bits).length = bits.length := by
  induction bits generalizing before with
  | nil => rfl
  | cons b bits ih => simp [codeBits, ih]

/-- Bits coded on the line are read back as they were, with no coding violation, whatever the level before them. -/
theorem cellsOf_codeBits (before : Bool) (bits : List Bool) :
    cellsOf before (codeBits before bits) = bits.map fun b => if b then LineCell.one else LineCell.zero := by
  induction bits generalizing before with
  | nil => rfl
  | cons b bits ih =>
    simp only [codeBits, cellsOf, List.map_cons]
    rw [ih]
    cases before <;> cases b <;> rfl

theorem map_bit_cells (bits : List Bool) : (bits.map fun b => if b then LineCell.one else LineCell.zero).map LineCell.bit = bits := by
  rw [List.map_map]
  refine (List.map_congr_left fun b _ => ?_).trans (List.map_id _)
  cases b <;> rfl

theorem no_violation (bits : List Bool) : ((bits.map fun b => if b then LineCell.one else LineCell.zero).any (· == .violation)) = false := by
  rw [List.any_eq_false]
  intro c hc
  obtain ⟨b, -, rfl⟩ := List.mem_map.mp hc
  cases b <;> decide

theorem violate_length (n : Nat) (before : Bool) (cells : List (Bool × Bool)) : (Config.violate n before cells).length = cells.length := by
  induction cells generalizing n before with
  | nil => cases n <;> rfl
  | cons c cells ih => cases n <;> simp [Config.violate, ih]

/-- The cell that is made to begin without a transition is a coding violation (R1). -/
theorem cellsOf_violate {n : Nat} (before : Bool) {cells : List (Bool × Bool)} (h : n < cells.length) :
    (cellsOf before (Config.violate n before cells))[n]? = some .violation := by
  induction cells generalizing n before with
  | nil => simp at h
  | cons c cells ih =>
    cases n with
    | zero => simp [Config.violate, cellsOf, cellOf]
    | succ n => simpa [Config.violate, cellsOf] using ih c.2 (by simpa using h)

/-- The sync pattern occupies 16 bit-times and holds a coding violation (R1). -/
theorem syncPattern_shape (before : Bool) :
    (Config.syncPattern before).length = 16 ∧ LineCell.violation ∈ cellsOf before (Config.syncPattern before) := by
  refine ⟨by simp [Config.syncPattern, violate_length], ?_⟩
  have h : (Config.syncViolation : Nat) < (Config.syncCells before).toList.length := by simp
  exact List.mem_of_getElem? (cellsOf_violate before h)

/-- The flags octet gives back DAMAGED and the LANE kind (section 12.1). -/
theorem flagsOctet_fields (damaged : Bool) (kind : LaneKind) :
    (flagsOctet damaged kind).getLsbD 7 = damaged ∧ LaneKind.ofFlags (flagsOctet damaged kind) = kind := by
  cases damaged <;> cases kind <;> decide

/-- A whole body of coded bits decodes from the octets it was coded from (R1). -/
theorem decodeBody_coded (before : Bool) {o : List Byte} (h : o.length = 206) :
    decodeBody { entry := before, cells := codeBits before (bitsOf o) } = decodeOctets o false := by
  have hl : (codeBits before (bitsOf o)).length = 1648 := by rw [codeBits_length, bitsOf_length, h]
  have hc : bodyCells { entry := before, cells := codeBits before (bitsOf o) } = (bitsOf o).map fun b => if b then LineCell.one else LineCell.zero := by
    simp only [bodyCells, hl, cellsOf_codeBits]
    rw [show Config.bodyCells - 1648 = 0 from rfl, List.replicate_zero, List.append_nil]
    exact List.take_of_length_le (by rw [List.length_map, bitsOf_length, h])
  simp only [decodeBody, hc, map_bit_cells, no_violation, octetsOf_bitsOf]

theorem flatMap_beInt_length (slots : List Int) : (slots.flatMap (beInt 3)).length = 3 * slots.length := by
  induction slots with
  | nil => rfl
  | cons y l ih =>
    simp only [List.flatMap_cons, List.length_append, ih, beInt, be_length, List.length_cons]
    omega

theorem coveredOctets_length {slots : List Int} {lane : List Byte} (hs : slots.length = 64) (hl : lane.length = 8) (number : FrameNo) (damaged : Bool)
    (kind : LaneKind) : (coveredOctets number damaged kind slots lane).length = 203 := by
  simp only [coveredOctets, List.length_append, List.length_cons, List.length_nil, be_length, flatMap_beInt_length, hs, hl]

/-- What the three tests of R2 and the flags octet find in the body of an emitted frame. -/
theorem EmittedFrame.body_parts {e : EmittedFrame} (hs : e.slots.length = 64) (hl : e.lane.length = 8) :
    e.body.length = 206 ∧ e.body.take 203 = coveredOctets e.number e.damaged e.kind e.slots e.lane ∧
      BitVec.ofNat 16 (field e.body 203 2) = e.check ∧ e.body.getD 205 0 = 0xB4 ∧ e.body.getD 2 0 = flagsOctet e.damaged e.kind := by
  have hcov := coveredOctets_length hs hl e.number e.damaged e.kind
  have hdrop : e.body.drop 203 = be 2 e.check.toNat ++ [0xB4] := by
    rw [EmittedFrame.body, List.append_assoc, List.drop_append, hcov, List.drop_of_length_le (by omega)]
    rfl
  refine ⟨?_, ?_, ?_, ?_, ?_⟩
  · simp only [EmittedFrame.body, List.length_append, hcov, be_length, List.length_cons, List.length_nil]
  · rw [EmittedFrame.body, List.append_assoc, List.take_append_of_le_length (by omega)]
    exact List.take_of_length_le (by omega)
  · rw [field, hdrop, List.take_append_of_le_length (by simp [be_length]), List.take_of_length_le (by simp [be_length]), fromBe_be]
    apply BitVec.eq_of_toNat_eq
    have := e.check.isLt
    simp
    omega
  · have h : e.body.getD 205 0 = (e.body.drop 203).getD 2 0 := by simp [List.getD_eq_getElem?_getD, List.getElem?_drop]
    rw [h, hdrop, be_two]
    rfl
  · have h : e.body = be 2 e.number.toNat ++ ([flagsOctet e.damaged e.kind] ++ (e.slots.flatMap (beInt 3) ++ (e.lane ++ (be 2 e.check.toNat ++ [0xB4])))) := by
      simp [EmittedFrame.body, coveredOctets]
    rw [h, be_two]
    rfl

/-! ### Messages in lane frames (R148) -/

/-- The lane of an emitted frame where a receiver reads it (R1). -/
theorem EmittedFrame.body_lane {e : EmittedFrame} (hs : e.slots.length = 64) (hl : e.lane.length = 8) : (e.body.drop 195).take 8 = e.lane := by
  have hp : (be 2 e.number.toNat ++ [flagsOctet e.damaged e.kind] ++ e.slots.flatMap (beInt 3)).length = 195 := by
    simp only [List.length_append, be_length, List.length_singleton, flatMap_beInt_length, hs]
  rw [EmittedFrame.body, coveredOctets, List.append_assoc, List.append_assoc, List.drop_left' hp, List.take_left' hl]

theorem laneFrames_length (octets : List Byte) : (laneFrames octets).length = (octets.length + 7) / 8 := by simp [laneFrames]

theorem laneFrames_getElem (octets : List Byte) {i : Nat} (h : i < (laneFrames octets).length) :
    (laneFrames octets)[i] = (octets.drop (8 * i)).take 8 ++ List.replicate (8 - ((octets.drop (8 * i)).take 8).length) 0 := by
  simp [laneFrames]

/-- The frames so far, joined, begin with the octets they carry. -/
theorem laneFrames_join (octets : List Byte) (i : Nat) :
    (((laneFrames octets).take i).flatten).take octets.length = octets.take (8 * i) := by
  induction i with
  | zero => simp
  | succ i ih =>
    by_cases hi : i < (laneFrames octets).length
    · have hlen : ∀ j, j ≤ (laneFrames octets).length → (((laneFrames octets).take j).flatten).length = 8 * j := by
        intro j
        induction j with
        | zero => simp
        | succ j jh =>
          intro hj
          have hj' : j < (laneFrames octets).length := by omega
          rw [List.take_succ_eq_append_getElem hj', List.flatten_append, List.length_append, jh (by omega), laneFrames_getElem octets hj']
          simp
          omega
      rw [List.take_succ_eq_append_getElem hi, List.flatten_append, List.take_append, ih, hlen i (by omega), laneFrames_getElem octets hi]
      have h8 : 8 * i < octets.length := by rw [laneFrames_length] at hi; omega
      simp only [List.flatten_cons, List.flatten_nil, List.append_nil]
      rw [show octets.take (8 * (i + 1)) = octets.take (8 * i) ++ (octets.drop (8 * i)).take 8 by
        rw [Nat.mul_succ, List.take_add]]
      congr 1
      rw [List.take_append]
      have : (List.take 8 (List.drop (8 * i) octets)).length = min 8 (octets.length - 8 * i) := by simp
      rw [List.take_of_length_le (by omega)]
      by_cases hf : 8 ≤ octets.length - 8 * i
      · simp [this, hf]
      · rw [this, show octets.length - 8 * i - min 8 (octets.length - 8 * i) = 0 by omega]
        simp
    · have hf : (laneFrames octets).take (i + 1) = (laneFrames octets).take i := by
        rw [List.take_of_length_le (by omega), List.take_of_length_le (by omega)]
      rw [hf, ih]
      rw [laneFrames_length] at hi
      rw [List.take_of_length_le (by omega), List.take_of_length_le (by omega)]

/-- A message as this family of units sends it passes its check, and is handed over with its header's fields and its payload (R148, R151, R160). -/
theorem State.verifyLocal_message (s : State) (dest src kind tag : Byte) {payload : List Byte} (h : payload.length ≤ 240) :
    s.verifyLocal (message dest src kind tag payload) = s.handOver kind src tag payload := by
  have hm : message dest src kind tag payload =
      ([dest, src, kind, tag, octet payload.length] ++ payload) ++ be 2 (messageCheck ([dest, src, kind, tag, octet payload.length] ++ payload)).toNat := rfl
  generalize hck : messageCheck ([dest, src, kind, tag, octet payload.length] ++ payload) = check at hm
  have hlen : ((message dest src kind tag payload).getD 4 0).toNat = payload.length := by
    rw [hm]
    simp [octet]
    omega
  have hfirst : (message dest src kind tag payload).take (5 + payload.length) = [dest, src, kind, tag, octet payload.length] ++ payload := by
    rw [hm, List.take_append_of_le_length (by simp; omega)]
    exact List.take_of_length_le (by simp; omega)
  have hfield : BitVec.ofNat 16 (field (message dest src kind tag payload) (5 + payload.length) 2) = check := by
    rw [field, hm, List.drop_append, List.drop_of_length_le (by simp; omega),
      show 5 + payload.length - ([dest, src, kind, tag, octet payload.length] ++ payload).length = 0 by simp; omega, List.drop_zero, List.nil_append,
      List.take_of_length_le (by simp [be_length]), fromBe_be]
    apply BitVec.eq_of_toNat_eq
    have := check.isLt
    simp
    omega
  simp only [State.verifyLocal, hlen]
  rw [hfirst, hck, hfield, if_pos rfl]
  congr 1
  rw [hm, show List.drop 5 ([dest, src, kind, tag, octet payload.length] ++ payload ++ be 2 check.toNat) = payload ++ be 2 check.toNat by simp,
    List.take_append_of_le_length (by omega)]
  exact List.take_of_length_le (by omega)

end Sys2Proof.Machine
end

