-- ==== Sys2Proof/Laws/State.lean ====
section
/-!
SUPPORT. The small lemmas of the state's updates: every block after every update, true by rfl.
-/

namespace Sys2Proof.Machine

@[simp] theorem State.withPending_pending (s : State) (x : List Instr) : (s.withPending x).pending = x := rfl
@[simp] theorem State.withPending_plans (s : State) (x : List Instr) : (s.withPending x).plans = s.plans := rfl
@[simp] theorem State.withPending_resetHeld (s : State) (x : List Instr) : (s.withPending x).resetHeld = s.resetHeld := rfl
@[simp] theorem State.withPending_freeIdx (s : State) (x : List Instr) : (s.withPending x).freeIdx = s.freeIdx := rfl
@[simp] theorem State.withPending_begun (s : State) (x : List Instr) : (s.withPending x).begun = s.begun := rfl
@[simp] theorem State.withPending_rx (s : State) (x : List Instr) : (s.withPending x).rx = s.rx := rfl
@[simp] theorem State.withPending_tb (s : State) (x : List Instr) : (s.withPending x).tb = s.tb := rfl
@[simp] theorem State.withPending_tx (s : State) (x : List Instr) : (s.withPending x).tx = s.tx := rfl
@[simp] theorem State.withPending_store (s : State) (x : List Instr) : (s.withPending x).store = s.store := rfl
@[simp] theorem State.withPending_fade (s : State) (x : List Instr) : (s.withPending x).fade = s.fade := rfl
@[simp] theorem State.withPending_table (s : State) (x : List Instr) : (s.withPending x).table = s.table := rfl
@[simp] theorem State.withPending_staging (s : State) (x : List Instr) : (s.withPending x).staging = s.staging := rfl
@[simp] theorem State.withPending_lanes (s : State) (x : List Instr) : (s.withPending x).lanes = s.lanes := rfl
@[simp] theorem State.withPending_lane (s : State) (x : List Instr) : (s.withPending x).lane = s.lane := rfl
@[simp] theorem State.withPending_replies (s : State) (x : List Instr) : (s.withPending x).replies = s.replies := rfl
@[simp] theorem State.withPending_intake (s : State) (x : List Instr) : (s.withPending x).intake = s.intake := rfl
@[simp] theorem State.withPending_events (s : State) (x : List Instr) : (s.withPending x).events = s.events := rfl
@[simp] theorem State.withPlans_pending (s : State) (x : List ChainPlan) : (s.withPlans x).pending = s.pending := rfl
@[simp] theorem State.withPlans_plans (s : State) (x : List ChainPlan) : (s.withPlans x).plans = x := rfl
@[simp] theorem State.withPlans_resetHeld (s : State) (x : List ChainPlan) : (s.withPlans x).resetHeld = s.resetHeld := rfl
@[simp] theorem State.withPlans_freeIdx (s : State) (x : List ChainPlan) : (s.withPlans x).freeIdx = s.freeIdx := rfl
@[simp] theorem State.withPlans_begun (s : State) (x : List ChainPlan) : (s.withPlans x).begun = s.begun := rfl
@[simp] theorem State.withPlans_rx (s : State) (x : List ChainPlan) : (s.withPlans x).rx = s.rx := rfl
@[simp] theorem State.withPlans_tb (s : State) (x : List ChainPlan) : (s.withPlans x).tb = s.tb := rfl
@[simp] theorem State.withPlans_tx (s : State) (x : List ChainPlan) : (s.withPlans x).tx = s.tx := rfl
@[simp] theorem State.withPlans_store (s : State) (x : List ChainPlan) : (s.withPlans x).store = s.store := rfl
@[simp] theorem State.withPlans_fade (s : State) (x : List ChainPlan) : (s.withPlans x).fade = s.fade := rfl
@[simp] theorem State.withPlans_table (s : State) (x : List ChainPlan) : (s.withPlans x).table = s.table := rfl
@[simp] theorem State.withPlans_staging (s : State) (x : List ChainPlan) : (s.withPlans x).staging = s.staging := rfl
@[simp] theorem State.withPlans_lanes (s : State) (x : List ChainPlan) : (s.withPlans x).lanes = s.lanes := rfl
@[simp] theorem State.withPlans_lane (s : State) (x : List ChainPlan) : (s.withPlans x).lane = s.lane := rfl
@[simp] theorem State.withPlans_replies (s : State) (x : List ChainPlan) : (s.withPlans x).replies = s.replies := rfl
@[simp] theorem State.withPlans_intake (s : State) (x : List ChainPlan) : (s.withPlans x).intake = s.intake := rfl
@[simp] theorem State.withPlans_events (s : State) (x : List ChainPlan) : (s.withPlans x).events = s.events := rfl
@[simp] theorem State.withResetHeld_pending (s : State) (x : Bool) : (s.withResetHeld x).pending = s.pending := rfl
@[simp] theorem State.withResetHeld_plans (s : State) (x : Bool) : (s.withResetHeld x).plans = s.plans := rfl
@[simp] theorem State.withResetHeld_resetHeld (s : State) (x : Bool) : (s.withResetHeld x).resetHeld = x := rfl
@[simp] theorem State.withResetHeld_freeIdx (s : State) (x : Bool) : (s.withResetHeld x).freeIdx = s.freeIdx := rfl
@[simp] theorem State.withResetHeld_begun (s : State) (x : Bool) : (s.withResetHeld x).begun = s.begun := rfl
@[simp] theorem State.withResetHeld_rx (s : State) (x : Bool) : (s.withResetHeld x).rx = s.rx := rfl
@[simp] theorem State.withResetHeld_tb (s : State) (x : Bool) : (s.withResetHeld x).tb = s.tb := rfl
@[simp] theorem State.withResetHeld_tx (s : State) (x : Bool) : (s.withResetHeld x).tx = s.tx := rfl
@[simp] theorem State.withResetHeld_store (s : State) (x : Bool) : (s.withResetHeld x).store = s.store := rfl
@[simp] theorem State.withResetHeld_fade (s : State) (x : Bool) : (s.withResetHeld x).fade = s.fade := rfl
@[simp] theorem State.withResetHeld_table (s : State) (x : Bool) : (s.withResetHeld x).table = s.table := rfl
@[simp] theorem State.withResetHeld_staging (s : State) (x : Bool) : (s.withResetHeld x).staging = s.staging := rfl
@[simp] theorem State.withResetHeld_lanes (s : State) (x : Bool) : (s.withResetHeld x).lanes = s.lanes := rfl
@[simp] theorem State.withResetHeld_lane (s : State) (x : Bool) : (s.withResetHeld x).lane = s.lane := rfl
@[simp] theorem State.withResetHeld_replies (s : State) (x : Bool) : (s.withResetHeld x).replies = s.replies := rfl
@[simp] theorem State.withResetHeld_intake (s : State) (x : Bool) : (s.withResetHeld x).intake = s.intake := rfl
@[simp] theorem State.withResetHeld_events (s : State) (x : Bool) : (s.withResetHeld x).events = s.events := rfl
@[simp] theorem State.withFreeIdx_pending (s : State) (x : Nat) : (s.withFreeIdx x).pending = s.pending := rfl
@[simp] theorem State.withFreeIdx_plans (s : State) (x : Nat) : (s.withFreeIdx x).plans = s.plans := rfl
@[simp] theorem State.withFreeIdx_resetHeld (s : State) (x : Nat) : (s.withFreeIdx x).resetHeld = s.resetHeld := rfl
@[simp] theorem State.withFreeIdx_freeIdx (s : State) (x : Nat) : (s.withFreeIdx x).freeIdx = x := rfl
@[simp] theorem State.withFreeIdx_begun (s : State) (x : Nat) : (s.withFreeIdx x).begun = s.begun := rfl
@[simp] theorem State.withFreeIdx_rx (s : State) (x : Nat) : (s.withFreeIdx x).rx = s.rx := rfl
@[simp] theorem State.withFreeIdx_tb (s : State) (x : Nat) : (s.withFreeIdx x).tb = s.tb := rfl
@[simp] theorem State.withFreeIdx_tx (s : State) (x : Nat) : (s.withFreeIdx x).tx = s.tx := rfl
@[simp] theorem State.withFreeIdx_store (s : State) (x : Nat) : (s.withFreeIdx x).store = s.store := rfl
@[simp] theorem State.withFreeIdx_fade (s : State) (x : Nat) : (s.withFreeIdx x).fade = s.fade := rfl
@[simp] theorem State.withFreeIdx_table (s : State) (x : Nat) : (s.withFreeIdx x).table = s.table := rfl
@[simp] theorem State.withFreeIdx_staging (s : State) (x : Nat) : (s.withFreeIdx x).staging = s.staging := rfl
@[simp] theorem State.withFreeIdx_lanes (s : State) (x : Nat) : (s.withFreeIdx x).lanes = s.lanes := rfl
@[simp] theorem State.withFreeIdx_lane (s : State) (x : Nat) : (s.withFreeIdx x).lane = s.lane := rfl
@[simp] theorem State.withFreeIdx_replies (s : State) (x : Nat) : (s.withFreeIdx x).replies = s.replies := rfl
@[simp] theorem State.withFreeIdx_intake (s : State) (x : Nat) : (s.withFreeIdx x).intake = s.intake := rfl
@[simp] theorem State.withFreeIdx_events (s : State) (x : Nat) : (s.withFreeIdx x).events = s.events := rfl
@[simp] theorem State.withBegun_pending (s : State) (x : Nat) : (s.withBegun x).pending = s.pending := rfl
@[simp] theorem State.withBegun_plans (s : State) (x : Nat) : (s.withBegun x).plans = s.plans := rfl
@[simp] theorem State.withBegun_resetHeld (s : State) (x : Nat) : (s.withBegun x).resetHeld = s.resetHeld := rfl
@[simp] theorem State.withBegun_freeIdx (s : State) (x : Nat) : (s.withBegun x).freeIdx = s.freeIdx := rfl
@[simp] theorem State.withBegun_begun (s : State) (x : Nat) : (s.withBegun x).begun = x := rfl
@[simp] theorem State.withBegun_rx (s : State) (x : Nat) : (s.withBegun x).rx = s.rx := rfl
@[simp] theorem State.withBegun_tb (s : State) (x : Nat) : (s.withBegun x).tb = s.tb := rfl
@[simp] theorem State.withBegun_tx (s : State) (x : Nat) : (s.withBegun x).tx = s.tx := rfl
@[simp] theorem State.withBegun_store (s : State) (x : Nat) : (s.withBegun x).store = s.store := rfl
@[simp] theorem State.withBegun_fade (s : State) (x : Nat) : (s.withBegun x).fade = s.fade := rfl
@[simp] theorem State.withBegun_table (s : State) (x : Nat) : (s.withBegun x).table = s.table := rfl
@[simp] theorem State.withBegun_staging (s : State) (x : Nat) : (s.withBegun x).staging = s.staging := rfl
@[simp] theorem State.withBegun_lanes (s : State) (x : Nat) : (s.withBegun x).lanes = s.lanes := rfl
@[simp] theorem State.withBegun_lane (s : State) (x : Nat) : (s.withBegun x).lane = s.lane := rfl
@[simp] theorem State.withBegun_replies (s : State) (x : Nat) : (s.withBegun x).replies = s.replies := rfl
@[simp] theorem State.withBegun_intake (s : State) (x : Nat) : (s.withBegun x).intake = s.intake := rfl
@[simp] theorem State.withBegun_events (s : State) (x : Nat) : (s.withBegun x).events = s.events := rfl
@[simp] theorem State.withRx_pending (s : State) (x : LinkReceiver) : (s.withRx x).pending = s.pending := rfl
@[simp] theorem State.withRx_plans (s : State) (x : LinkReceiver) : (s.withRx x).plans = s.plans := rfl
@[simp] theorem State.withRx_resetHeld (s : State) (x : LinkReceiver) : (s.withRx x).resetHeld = s.resetHeld := rfl
@[simp] theorem State.withRx_freeIdx (s : State) (x : LinkReceiver) : (s.withRx x).freeIdx = s.freeIdx := rfl
@[simp] theorem State.withRx_begun (s : State) (x : LinkReceiver) : (s.withRx x).begun = s.begun := rfl
@[simp] theorem State.withRx_rx (s : State) (x : LinkReceiver) : (s.withRx x).rx = x := rfl
@[simp] theorem State.withRx_tb (s : State) (x : LinkReceiver) : (s.withRx x).tb = s.tb := rfl
@[simp] theorem State.withRx_tx (s : State) (x : LinkReceiver) : (s.withRx x).tx = s.tx := rfl
@[simp] theorem State.withRx_store (s : State) (x : LinkReceiver) : (s.withRx x).store = s.store := rfl
@[simp] theorem State.withRx_fade (s : State) (x : LinkReceiver) : (s.withRx x).fade = s.fade := rfl
@[simp] theorem State.withRx_table (s : State) (x : LinkReceiver) : (s.withRx x).table = s.table := rfl
@[simp] theorem State.withRx_staging (s : State) (x : LinkReceiver) : (s.withRx x).staging = s.staging := rfl
@[simp] theorem State.withRx_lanes (s : State) (x : LinkReceiver) : (s.withRx x).lanes = s.lanes := rfl
@[simp] theorem State.withRx_lane (s : State) (x : LinkReceiver) : (s.withRx x).lane = s.lane := rfl
@[simp] theorem State.withRx_replies (s : State) (x : LinkReceiver) : (s.withRx x).replies = s.replies := rfl
@[simp] theorem State.withRx_intake (s : State) (x : LinkReceiver) : (s.withRx x).intake = s.intake := rfl
@[simp] theorem State.withRx_events (s : State) (x : LinkReceiver) : (s.withRx x).events = s.events := rfl
@[simp] theorem State.withTb_pending (s : State) (x : Timebase) : (s.withTb x).pending = s.pending := rfl
@[simp] theorem State.withTb_plans (s : State) (x : Timebase) : (s.withTb x).plans = s.plans := rfl
@[simp] theorem State.withTb_resetHeld (s : State) (x : Timebase) : (s.withTb x).resetHeld = s.resetHeld := rfl
@[simp] theorem State.withTb_freeIdx (s : State) (x : Timebase) : (s.withTb x).freeIdx = s.freeIdx := rfl
@[simp] theorem State.withTb_begun (s : State) (x : Timebase) : (s.withTb x).begun = s.begun := rfl
@[simp] theorem State.withTb_rx (s : State) (x : Timebase) : (s.withTb x).rx = s.rx := rfl
@[simp] theorem State.withTb_tb (s : State) (x : Timebase) : (s.withTb x).tb = x := rfl
@[simp] theorem State.withTb_tx (s : State) (x : Timebase) : (s.withTb x).tx = s.tx := rfl
@[simp] theorem State.withTb_store (s : State) (x : Timebase) : (s.withTb x).store = s.store := rfl
@[simp] theorem State.withTb_fade (s : State) (x : Timebase) : (s.withTb x).fade = s.fade := rfl
@[simp] theorem State.withTb_table (s : State) (x : Timebase) : (s.withTb x).table = s.table := rfl
@[simp] theorem State.withTb_staging (s : State) (x : Timebase) : (s.withTb x).staging = s.staging := rfl
@[simp] theorem State.withTb_lanes (s : State) (x : Timebase) : (s.withTb x).lanes = s.lanes := rfl
@[simp] theorem State.withTb_lane (s : State) (x : Timebase) : (s.withTb x).lane = s.lane := rfl
@[simp] theorem State.withTb_replies (s : State) (x : Timebase) : (s.withTb x).replies = s.replies := rfl
@[simp] theorem State.withTb_intake (s : State) (x : Timebase) : (s.withTb x).intake = s.intake := rfl
@[simp] theorem State.withTb_events (s : State) (x : Timebase) : (s.withTb x).events = s.events := rfl
@[simp] theorem State.withTx_pending (s : State) (x : Transmitter) : (s.withTx x).pending = s.pending := rfl
@[simp] theorem State.withTx_plans (s : State) (x : Transmitter) : (s.withTx x).plans = s.plans := rfl
@[simp] theorem State.withTx_resetHeld (s : State) (x : Transmitter) : (s.withTx x).resetHeld = s.resetHeld := rfl
@[simp] theorem State.withTx_freeIdx (s : State) (x : Transmitter) : (s.withTx x).freeIdx = s.freeIdx := rfl
@[simp] theorem State.withTx_begun (s : State) (x : Transmitter) : (s.withTx x).begun = s.begun := rfl
@[simp] theorem State.withTx_rx (s : State) (x : Transmitter) : (s.withTx x).rx = s.rx := rfl
@[simp] theorem State.withTx_tb (s : State) (x : Transmitter) : (s.withTx x).tb = s.tb := rfl
@[simp] theorem State.withTx_tx (s : State) (x : Transmitter) : (s.withTx x).tx = x := rfl
@[simp] theorem State.withTx_store (s : State) (x : Transmitter) : (s.withTx x).store = s.store := rfl
@[simp] theorem State.withTx_fade (s : State) (x : Transmitter) : (s.withTx x).fade = s.fade := rfl
@[simp] theorem State.withTx_table (s : State) (x : Transmitter) : (s.withTx x).table = s.table := rfl
@[simp] theorem State.withTx_staging (s : State) (x : Transmitter) : (s.withTx x).staging = s.staging := rfl
@[simp] theorem State.withTx_lanes (s : State) (x : Transmitter) : (s.withTx x).lanes = s.lanes := rfl
@[simp] theorem State.withTx_lane (s : State) (x : Transmitter) : (s.withTx x).lane = s.lane := rfl
@[simp] theorem State.withTx_replies (s : State) (x : Transmitter) : (s.withTx x).replies = s.replies := rfl
@[simp] theorem State.withTx_intake (s : State) (x : Transmitter) : (s.withTx x).intake = s.intake := rfl
@[simp] theorem State.withTx_events (s : State) (x : Transmitter) : (s.withTx x).events = s.events := rfl
@[simp] theorem State.withStore_pending (s : State) (x : SourceStore) : (s.withStore x).pending = s.pending := rfl
@[simp] theorem State.withStore_plans (s : State) (x : SourceStore) : (s.withStore x).plans = s.plans := rfl
@[simp] theorem State.withStore_resetHeld (s : State) (x : SourceStore) : (s.withStore x).resetHeld = s.resetHeld := rfl
@[simp] theorem State.withStore_freeIdx (s : State) (x : SourceStore) : (s.withStore x).freeIdx = s.freeIdx := rfl
@[simp] theorem State.withStore_begun (s : State) (x : SourceStore) : (s.withStore x).begun = s.begun := rfl
@[simp] theorem State.withStore_rx (s : State) (x : SourceStore) : (s.withStore x).rx = s.rx := rfl
@[simp] theorem State.withStore_tb (s : State) (x : SourceStore) : (s.withStore x).tb = s.tb := rfl
@[simp] theorem State.withStore_tx (s : State) (x : SourceStore) : (s.withStore x).tx = s.tx := rfl
@[simp] theorem State.withStore_store (s : State) (x : SourceStore) : (s.withStore x).store = x := rfl
@[simp] theorem State.withStore_fade (s : State) (x : SourceStore) : (s.withStore x).fade = s.fade := rfl
@[simp] theorem State.withStore_table (s : State) (x : SourceStore) : (s.withStore x).table = s.table := rfl
@[simp] theorem State.withStore_staging (s : State) (x : SourceStore) : (s.withStore x).staging = s.staging := rfl
@[simp] theorem State.withStore_lanes (s : State) (x : SourceStore) : (s.withStore x).lanes = s.lanes := rfl
@[simp] theorem State.withStore_lane (s : State) (x : SourceStore) : (s.withStore x).lane = s.lane := rfl
@[simp] theorem State.withStore_replies (s : State) (x : SourceStore) : (s.withStore x).replies = s.replies := rfl
@[simp] theorem State.withStore_intake (s : State) (x : SourceStore) : (s.withStore x).intake = s.intake := rfl
@[simp] theorem State.withStore_events (s : State) (x : SourceStore) : (s.withStore x).events = s.events := rfl
@[simp] theorem State.withFade_pending (s : State) (x : Fade) : (s.withFade x).pending = s.pending := rfl
@[simp] theorem State.withFade_plans (s : State) (x : Fade) : (s.withFade x).plans = s.plans := rfl
@[simp] theorem State.withFade_resetHeld (s : State) (x : Fade) : (s.withFade x).resetHeld = s.resetHeld := rfl
@[simp] theorem State.withFade_freeIdx (s : State) (x : Fade) : (s.withFade x).freeIdx = s.freeIdx := rfl
@[simp] theorem State.withFade_begun (s : State) (x : Fade) : (s.withFade x).begun = s.begun := rfl
@[simp] theorem State.withFade_rx (s : State) (x : Fade) : (s.withFade x).rx = s.rx := rfl
@[simp] theorem State.withFade_tb (s : State) (x : Fade) : (s.withFade x).tb = s.tb := rfl
@[simp] theorem State.withFade_tx (s : State) (x : Fade) : (s.withFade x).tx = s.tx := rfl
@[simp] theorem State.withFade_store (s : State) (x : Fade) : (s.withFade x).store = s.store := rfl
@[simp] theorem State.withFade_fade (s : State) (x : Fade) : (s.withFade x).fade = x := rfl
@[simp] theorem State.withFade_table (s : State) (x : Fade) : (s.withFade x).table = s.table := rfl
@[simp] theorem State.withFade_staging (s : State) (x : Fade) : (s.withFade x).staging = s.staging := rfl
@[simp] theorem State.withFade_lanes (s : State) (x : Fade) : (s.withFade x).lanes = s.lanes := rfl
@[simp] theorem State.withFade_lane (s : State) (x : Fade) : (s.withFade x).lane = s.lane := rfl
@[simp] theorem State.withFade_replies (s : State) (x : Fade) : (s.withFade x).replies = s.replies := rfl
@[simp] theorem State.withFade_intake (s : State) (x : Fade) : (s.withFade x).intake = s.intake := rfl
@[simp] theorem State.withFade_events (s : State) (x : Fade) : (s.withFade x).events = s.events := rfl
@[simp] theorem State.withTable_pending (s : State) (x : MixTable) : (s.withTable x).pending = s.pending := rfl
@[simp] theorem State.withTable_plans (s : State) (x : MixTable) : (s.withTable x).plans = s.plans := rfl
@[simp] theorem State.withTable_resetHeld (s : State) (x : MixTable) : (s.withTable x).resetHeld = s.resetHeld := rfl
@[simp] theorem State.withTable_freeIdx (s : State) (x : MixTable) : (s.withTable x).freeIdx = s.freeIdx := rfl
@[simp] theorem State.withTable_begun (s : State) (x : MixTable) : (s.withTable x).begun = s.begun := rfl
@[simp] theorem State.withTable_rx (s : State) (x : MixTable) : (s.withTable x).rx = s.rx := rfl
@[simp] theorem State.withTable_tb (s : State) (x : MixTable) : (s.withTable x).tb = s.tb := rfl
@[simp] theorem State.withTable_tx (s : State) (x : MixTable) : (s.withTable x).tx = s.tx := rfl
@[simp] theorem State.withTable_store (s : State) (x : MixTable) : (s.withTable x).store = s.store := rfl
@[simp] theorem State.withTable_fade (s : State) (x : MixTable) : (s.withTable x).fade = s.fade := rfl
@[simp] theorem State.withTable_table (s : State) (x : MixTable) : (s.withTable x).table = x := rfl
@[simp] theorem State.withTable_staging (s : State) (x : MixTable) : (s.withTable x).staging = s.staging := rfl
@[simp] theorem State.withTable_lanes (s : State) (x : MixTable) : (s.withTable x).lanes = s.lanes := rfl
@[simp] theorem State.withTable_lane (s : State) (x : MixTable) : (s.withTable x).lane = s.lane := rfl
@[simp] theorem State.withTable_replies (s : State) (x : MixTable) : (s.withTable x).replies = s.replies := rfl
@[simp] theorem State.withTable_intake (s : State) (x : MixTable) : (s.withTable x).intake = s.intake := rfl
@[simp] theorem State.withTable_events (s : State) (x : MixTable) : (s.withTable x).events = s.events := rfl
@[simp] theorem State.withStaging_pending (s : State) (x : Staging) : (s.withStaging x).pending = s.pending := rfl
@[simp] theorem State.withStaging_plans (s : State) (x : Staging) : (s.withStaging x).plans = s.plans := rfl
@[simp] theorem State.withStaging_resetHeld (s : State) (x : Staging) : (s.withStaging x).resetHeld = s.resetHeld := rfl
@[simp] theorem State.withStaging_freeIdx (s : State) (x : Staging) : (s.withStaging x).freeIdx = s.freeIdx := rfl
@[simp] theorem State.withStaging_begun (s : State) (x : Staging) : (s.withStaging x).begun = s.begun := rfl
@[simp] theorem State.withStaging_rx (s : State) (x : Staging) : (s.withStaging x).rx = s.rx := rfl
@[simp] theorem State.withStaging_tb (s : State) (x : Staging) : (s.withStaging x).tb = s.tb := rfl
@[simp] theorem State.withStaging_tx (s : State) (x : Staging) : (s.withStaging x).tx = s.tx := rfl
@[simp] theorem State.withStaging_store (s : State) (x : Staging) : (s.withStaging x).store = s.store := rfl
@[simp] theorem State.withStaging_fade (s : State) (x : Staging) : (s.withStaging x).fade = s.fade := rfl
@[simp] theorem State.withStaging_table (s : State) (x : Staging) : (s.withStaging x).table = s.table := rfl
@[simp] theorem State.withStaging_staging (s : State) (x : Staging) : (s.withStaging x).staging = x := rfl
@[simp] theorem State.withStaging_lanes (s : State) (x : Staging) : (s.withStaging x).lanes = s.lanes := rfl
@[simp] theorem State.withStaging_lane (s : State) (x : Staging) : (s.withStaging x).lane = s.lane := rfl
@[simp] theorem State.withStaging_replies (s : State) (x : Staging) : (s.withStaging x).replies = s.replies := rfl
@[simp] theorem State.withStaging_intake (s : State) (x : Staging) : (s.withStaging x).intake = s.intake := rfl
@[simp] theorem State.withStaging_events (s : State) (x : Staging) : (s.withStaging x).events = s.events := rfl
@[simp] theorem State.withLanes_pending (s : State) (x : OutputLanes) : (s.withLanes x).pending = s.pending := rfl
@[simp] theorem State.withLanes_plans (s : State) (x : OutputLanes) : (s.withLanes x).plans = s.plans := rfl
@[simp] theorem State.withLanes_resetHeld (s : State) (x : OutputLanes) : (s.withLanes x).resetHeld = s.resetHeld := rfl
@[simp] theorem State.withLanes_freeIdx (s : State) (x : OutputLanes) : (s.withLanes x).freeIdx = s.freeIdx := rfl
@[simp] theorem State.withLanes_begun (s : State) (x : OutputLanes) : (s.withLanes x).begun = s.begun := rfl
@[simp] theorem State.withLanes_rx (s : State) (x : OutputLanes) : (s.withLanes x).rx = s.rx := rfl
@[simp] theorem State.withLanes_tb (s : State) (x : OutputLanes) : (s.withLanes x).tb = s.tb := rfl
@[simp] theorem State.withLanes_tx (s : State) (x : OutputLanes) : (s.withLanes x).tx = s.tx := rfl
@[simp] theorem State.withLanes_store (s : State) (x : OutputLanes) : (s.withLanes x).store = s.store := rfl
@[simp] theorem State.withLanes_fade (s : State) (x : OutputLanes) : (s.withLanes x).fade = s.fade := rfl
@[simp] theorem State.withLanes_table (s : State) (x : OutputLanes) : (s.withLanes x).table = s.table := rfl
@[simp] theorem State.withLanes_staging (s : State) (x : OutputLanes) : (s.withLanes x).staging = s.staging := rfl
@[simp] theorem State.withLanes_lanes (s : State) (x : OutputLanes) : (s.withLanes x).lanes = x := rfl
@[simp] theorem State.withLanes_lane (s : State) (x : OutputLanes) : (s.withLanes x).lane = s.lane := rfl
@[simp] theorem State.withLanes_replies (s : State) (x : OutputLanes) : (s.withLanes x).replies = s.replies := rfl
@[simp] theorem State.withLanes_intake (s : State) (x : OutputLanes) : (s.withLanes x).intake = s.intake := rfl
@[simp] theorem State.withLanes_events (s : State) (x : OutputLanes) : (s.withLanes x).events = s.events := rfl
@[simp] theorem State.withLane_pending (s : State) (x : LaneController) : (s.withLane x).pending = s.pending := rfl
@[simp] theorem State.withLane_plans (s : State) (x : LaneController) : (s.withLane x).plans = s.plans := rfl
@[simp] theorem State.withLane_resetHeld (s : State) (x : LaneController) : (s.withLane x).resetHeld = s.resetHeld := rfl
@[simp] theorem State.withLane_freeIdx (s : State) (x : LaneController) : (s.withLane x).freeIdx = s.freeIdx := rfl
@[simp] theorem State.withLane_begun (s : State) (x : LaneController) : (s.withLane x).begun = s.begun := rfl
@[simp] theorem State.withLane_rx (s : State) (x : LaneController) : (s.withLane x).rx = s.rx := rfl
@[simp] theorem State.withLane_tb (s : State) (x : LaneController) : (s.withLane x).tb = s.tb := rfl
@[simp] theorem State.withLane_tx (s : State) (x : LaneController) : (s.withLane x).tx = s.tx := rfl
@[simp] theorem State.withLane_store (s : State) (x : LaneController) : (s.withLane x).store = s.store := rfl
@[simp] theorem State.withLane_fade (s : State) (x : LaneController) : (s.withLane x).fade = s.fade := rfl
@[simp] theorem State.withLane_table (s : State) (x : LaneController) : (s.withLane x).table = s.table := rfl
@[simp] theorem State.withLane_staging (s : State) (x : LaneController) : (s.withLane x).staging = s.staging := rfl
@[simp] theorem State.withLane_lanes (s : State) (x : LaneController) : (s.withLane x).lanes = s.lanes := rfl
@[simp] theorem State.withLane_lane (s : State) (x : LaneController) : (s.withLane x).lane = x := rfl
@[simp] theorem State.withLane_replies (s : State) (x : LaneController) : (s.withLane x).replies = s.replies := rfl
@[simp] theorem State.withLane_intake (s : State) (x : LaneController) : (s.withLane x).intake = s.intake := rfl
@[simp] theorem State.withLane_events (s : State) (x : LaneController) : (s.withLane x).events = s.events := rfl
@[simp] theorem State.withReplies_pending (s : State) (x : ReplyQueue) : (s.withReplies x).pending = s.pending := rfl
@[simp] theorem State.withReplies_plans (s : State) (x : ReplyQueue) : (s.withReplies x).plans = s.plans := rfl
@[simp] theorem State.withReplies_resetHeld (s : State) (x : ReplyQueue) : (s.withReplies x).resetHeld = s.resetHeld := rfl
@[simp] theorem State.withReplies_freeIdx (s : State) (x : ReplyQueue) : (s.withReplies x).freeIdx = s.freeIdx := rfl
@[simp] theorem State.withReplies_begun (s : State) (x : ReplyQueue) : (s.withReplies x).begun = s.begun := rfl
@[simp] theorem State.withReplies_rx (s : State) (x : ReplyQueue) : (s.withReplies x).rx = s.rx := rfl
@[simp] theorem State.withReplies_tb (s : State) (x : ReplyQueue) : (s.withReplies x).tb = s.tb := rfl
@[simp] theorem State.withReplies_tx (s : State) (x : ReplyQueue) : (s.withReplies x).tx = s.tx := rfl
@[simp] theorem State.withReplies_store (s : State) (x : ReplyQueue) : (s.withReplies x).store = s.store := rfl
@[simp] theorem State.withReplies_fade (s : State) (x : ReplyQueue) : (s.withReplies x).fade = s.fade := rfl
@[simp] theorem State.withReplies_table (s : State) (x : ReplyQueue) : (s.withReplies x).table = s.table := rfl
@[simp] theorem State.withReplies_staging (s : State) (x : ReplyQueue) : (s.withReplies x).staging = s.staging := rfl
@[simp] theorem State.withReplies_lanes (s : State) (x : ReplyQueue) : (s.withReplies x).lanes = s.lanes := rfl
@[simp] theorem State.withReplies_lane (s : State) (x : ReplyQueue) : (s.withReplies x).lane = s.lane := rfl
@[simp] theorem State.withReplies_replies (s : State) (x : ReplyQueue) : (s.withReplies x).replies = x := rfl
@[simp] theorem State.withReplies_intake (s : State) (x : ReplyQueue) : (s.withReplies x).intake = s.intake := rfl
@[simp] theorem State.withReplies_events (s : State) (x : ReplyQueue) : (s.withReplies x).events = s.events := rfl
@[simp] theorem State.withIntake_pending (s : State) (x : Intake) : (s.withIntake x).pending = s.pending := rfl
@[simp] theorem State.withIntake_plans (s : State) (x : Intake) : (s.withIntake x).plans = s.plans := rfl
@[simp] theorem State.withIntake_resetHeld (s : State) (x : Intake) : (s.withIntake x).resetHeld = s.resetHeld := rfl
@[simp] theorem State.withIntake_freeIdx (s : State) (x : Intake) : (s.withIntake x).freeIdx = s.freeIdx := rfl
@[simp] theorem State.withIntake_begun (s : State) (x : Intake) : (s.withIntake x).begun = s.begun := rfl
@[simp] theorem State.withIntake_rx (s : State) (x : Intake) : (s.withIntake x).rx = s.rx := rfl
@[simp] theorem State.withIntake_tb (s : State) (x : Intake) : (s.withIntake x).tb = s.tb := rfl
@[simp] theorem State.withIntake_tx (s : State) (x : Intake) : (s.withIntake x).tx = s.tx := rfl
@[simp] theorem State.withIntake_store (s : State) (x : Intake) : (s.withIntake x).store = s.store := rfl
@[simp] theorem State.withIntake_fade (s : State) (x : Intake) : (s.withIntake x).fade = s.fade := rfl
@[simp] theorem State.withIntake_table (s : State) (x : Intake) : (s.withIntake x).table = s.table := rfl
@[simp] theorem State.withIntake_staging (s : State) (x : Intake) : (s.withIntake x).staging = s.staging := rfl
@[simp] theorem State.withIntake_lanes (s : State) (x : Intake) : (s.withIntake x).lanes = s.lanes := rfl
@[simp] theorem State.withIntake_lane (s : State) (x : Intake) : (s.withIntake x).lane = s.lane := rfl
@[simp] theorem State.withIntake_replies (s : State) (x : Intake) : (s.withIntake x).replies = s.replies := rfl
@[simp] theorem State.withIntake_intake (s : State) (x : Intake) : (s.withIntake x).intake = x := rfl
@[simp] theorem State.withIntake_events (s : State) (x : Intake) : (s.withIntake x).events = s.events := rfl
@[simp] theorem State.withEvents_pending (s : State) (x : EventUnit) : (s.withEvents x).pending = s.pending := rfl
@[simp] theorem State.withEvents_plans (s : State) (x : EventUnit) : (s.withEvents x).plans = s.plans := rfl
@[simp] theorem State.withEvents_resetHeld (s : State) (x : EventUnit) : (s.withEvents x).resetHeld = s.resetHeld := rfl
@[simp] theorem State.withEvents_freeIdx (s : State) (x : EventUnit) : (s.withEvents x).freeIdx = s.freeIdx := rfl
@[simp] theorem State.withEvents_begun (s : State) (x : EventUnit) : (s.withEvents x).begun = s.begun := rfl
@[simp] theorem State.withEvents_rx (s : State) (x : EventUnit) : (s.withEvents x).rx = s.rx := rfl
@[simp] theorem State.withEvents_tb (s : State) (x : EventUnit) : (s.withEvents x).tb = s.tb := rfl
@[simp] theorem State.withEvents_tx (s : State) (x : EventUnit) : (s.withEvents x).tx = s.tx := rfl
@[simp] theorem State.withEvents_store (s : State) (x : EventUnit) : (s.withEvents x).store = s.store := rfl
@[simp] theorem State.withEvents_fade (s : State) (x : EventUnit) : (s.withEvents x).fade = s.fade := rfl
@[simp] theorem State.withEvents_table (s : State) (x : EventUnit) : (s.withEvents x).table = s.table := rfl
@[simp] theorem State.withEvents_staging (s : State) (x : EventUnit) : (s.withEvents x).staging = s.staging := rfl
@[simp] theorem State.withEvents_lanes (s : State) (x : EventUnit) : (s.withEvents x).lanes = s.lanes := rfl
@[simp] theorem State.withEvents_lane (s : State) (x : EventUnit) : (s.withEvents x).lane = s.lane := rfl
@[simp] theorem State.withEvents_replies (s : State) (x : EventUnit) : (s.withEvents x).replies = s.replies := rfl
@[simp] theorem State.withEvents_intake (s : State) (x : EventUnit) : (s.withEvents x).intake = s.intake := rfl
@[simp] theorem State.withEvents_events (s : State) (x : EventUnit) : (s.withEvents x).events = x := rfl

end Sys2Proof.Machine
end

