-- ==== Sys2Proof/Laws/Ops.lean ====
section
/-!
SUPPORT. What the shared operations of Machine/Ops.lean can do: events, counters, messages, and the taking of a command.
-/

namespace Sys2Proof.Machine

/-! ### RESET_N -/

@[simp] theorem whileReleased_released {s : State} (h : s.resetHeld = false) (f : State → State) : whileReleased s f = f s := by
  simp [whileReleased, h]

@[simp] theorem whileReleased_held {s : State} (h : s.resetHeld = true) (f : State → State) : whileReleased s f = s := by
  simp [whileReleased, h]

/-- A property that holds before and that the released step keeps holds after. -/
theorem whileReleased_keeps {P : State → Prop} {s : State} {f : State → State} (hs : P s) (hf : P s → P (f s)) : P (whileReleased s f) := by
  unfold whileReleased
  split
  · exact hs
  · exact hf hs

/-! ### Counters and events -/

theorem rise_le {n : Nat} (h : n ≤ 65535) : rise n ≤ 65535 := by
  unfold rise Config.hold16
  split <;> omega

/-- The unit with an event raised differs in the Event Unit alone. -/
theorem State.raise_eq (s : State) (e : Event) : s.raise e = s.withEvents (s.events.raise e) := rfl

theorem State.raiseIf_eq (s : State) (c : Bool) (e : Event) :
    s.raiseIf c e = s.withEvents (if c then s.events.raise e else s.events) := by
  cases c <;> rfl

theorem State.count_eq (s : State) (f : LinkCounters → LinkCounters) :
    s.count f = s.withRx { s.rx with counters := f s.rx.counters } := rfl

theorem State.dropLane_eq (s : State) :
    s.dropLane = (s.withRx { s.rx with counters := { s.rx.counters with laneDrops := rise s.rx.counters.laneDrops } }).withEvents
      (s.events.raise .laneDrop) := rfl

theorem State.checkError_eq (s : State) :
    s.checkError = (s.withRx { s.rx with counters := { s.rx.counters with messageCheckErrors := rise s.rx.counters.messageCheckErrors } }).withEvents
      (s.events.raise .checkError) := rfl

/-- Raising keeps every bit that is set, and sets the event's own. -/
theorem EventUnit.raise_bit (u : EventUnit) (e : Event) (i : Nat) :
    (u.raise e).summary.getLsbD i = (u.summary.getLsbD i || i == e.bit) := by
  cases e <;> simp [EventUnit.raise, Event.set, Event.bit] <;> grind

@[simp] theorem EventUnit.raise_mask (u : EventUnit) (e : Event) : (u.raise e).mask = u.mask := rfl

/-- What raising events can do to the Event Unit (R171, R172): bits become set, the mask stays, and the latch becomes set where a bit newly set is one of the mask. -/
structure EventsGrow (u v : EventUnit) : Prop where
  mask : v.mask = u.mask
  bits : ∀ i, u.summary.getLsbD i = true → v.summary.getLsbD i = true
  latch : v.latch = (u.latch || (List.range 8).any fun i => u.mask.getLsbD i && !u.summary.getLsbD i && v.summary.getLsbD i)

theorem EventsGrow.refl (u : EventUnit) : EventsGrow u u where
  mask := rfl
  bits := fun _ h => h
  latch := by
    have h : ((List.range 8).any fun i => u.mask.getLsbD i && !u.summary.getLsbD i && u.summary.getLsbD i) = false := by
      rw [List.any_eq_false]
      intro i _
      cases u.summary.getLsbD i <;> simp
    rw [h, Bool.or_false]

theorem EventsGrow.trans {u v w : EventUnit} (h : EventsGrow u v) (g : EventsGrow v w) : EventsGrow u w where
  mask := g.mask.trans h.mask
  bits := fun i hi => g.bits i (h.bits i hi)
  latch := by
    rw [g.latch, h.latch, h.mask, Bool.or_assoc]
    congr 1
    rw [Bool.eq_iff_iff, Bool.or_eq_true, List.any_eq_true, List.any_eq_true, List.any_eq_true]
    have hb := h.bits
    have gb := g.bits
    constructor
    · rintro (⟨i, hi, e⟩ | ⟨i, hi, e⟩) <;> refine ⟨i, hi, ?_⟩ <;> specialize hb i <;> specialize gb i <;> simp only [Bool.and_eq_true] at e ⊢ <;> grind
    · rintro ⟨i, hi, e⟩
      simp only [Bool.and_eq_true] at e
      rcases hv : v.summary.getLsbD i
      · exact Or.inr ⟨i, hi, by simp only [Bool.and_eq_true]; grind⟩
      · exact Or.inl ⟨i, hi, by simp only [Bool.and_eq_true]; grind⟩

theorem EventsGrow.raise (u : EventUnit) (e : Event) : EventsGrow u (u.raise e) where
  mask := rfl
  bits := fun i h => by rw [EventUnit.raise_bit, h, Bool.true_or]
  latch := by
    have he : e.bit < 8 := by cases e <;> decide
    simp only [EventUnit.raise_bit]
    simp only [EventUnit.raise]
    congr 1
    rw [Bool.eq_iff_iff, List.any_eq_true]
    constructor
    · intro h
      refine ⟨e.bit, List.mem_range.mpr he, ?_⟩
      simp only [Bool.and_eq_true, Bool.not_eq_true', beq_self_eq_true, Bool.or_true, and_true] at h ⊢
      exact ⟨h.2, h.1⟩
    · rintro ⟨i, -, h⟩
      simp only [Bool.and_eq_true, Bool.not_eq_true', Bool.or_eq_true, beq_iff_eq] at h ⊢
      obtain ⟨⟨h1, h2⟩, h3 | rfl⟩ := h
      · rw [h2] at h3
        cases h3
      · exact ⟨h2, h1⟩

/-- Raising an event if a condition holds. -/
theorem EventsGrow.ite (u : EventUnit) (c : Prop) [Decidable c] (e : Event) : EventsGrow u (if c then u.raise e else u) := by
  split
  · exact .raise u e
  · exact .refl u

/-! ### Messages -/

theorem message_length (dest src kind tag : Byte) (payload : List Byte) : (message dest src kind tag payload).length = payload.length + 7 := by
  simp [message, be]

/-! ### The taking of a command (R161) -/

/-- A command that is taken now is begun and acted on, whether it was held or arrives. -/
theorem commandRow_takes {s : State} {src : CommandSource} {kind : Byte} {c : Command} {belongs : List Byte → Bool} (act : Action)
    (h : s.takes src kind c) (hb : belongs c.payload = true) : commandRow kind belongs act src s = s.takeCommand act c := by
  obtain ⟨h1, h2, h3, h4⟩ := h
  have hc : s.canTake = true := by simp [State.canTake, State.busy, State.hasPlace, h2, Config.replyPlaces, h3]
  cases src with
  | held =>
    obtain ⟨h5, rfl⟩ := h4
    simp [commandRow, whileReleased, h1, State.takeHeld, h5, hb, hc]
  | arriving sender tag payload =>
    obtain ⟨h5, rfl⟩ := h4
    have hb' : belongs payload = true := hb
    have hh : s.handOver kind sender tag payload = s.withIntake { s.intake with holding := some ⟨kind, sender, tag, payload, false, false⟩ } := by
      simp [State.handOver, h5, hc, State.busy, h2]
    simp [commandRow, whileReleased, h1, hb', h5, hh, State.takeHeld, State.canTake, State.busy, State.hasPlace, h2, Config.replyPlaces, h3,
      State.takeCommand, State.beginCommand]
    rfl

theorem State.takes_kind {s : State} {src : CommandSource} {kind : Byte} {c : Command} (h : s.takes src kind c) : c.kind = kind := by
  obtain ⟨-, -, -, h4⟩ := h
  cases src with
  | held => exact h4.2
  | arriving sender tag payload => exact h4.2 ▸ rfl

theorem State.takes_executing {s : State} {src : CommandSource} {kind : Byte} {c : Command} (h : s.takes src kind c) : s.intake.executing = none := h.2.1

/-- A command that changes nothing leaves the unit with its reply joined (R161, R163). -/
theorem State.completeCommand_beginCommand {s : State} (h : s.intake.executing = none) (c : Command) (a : Answer) :
    (s.beginCommand c).completeCommand c a = s.replied c a := by
  simp [State.beginCommand, State.completeCommand, State.replied, State.withIntake, State.withReplies, h]

/-- Where the checks and effects of a command answer at once, taking it leaves their state with the reply joined (R161, R163). -/
theorem State.takeCommand_answers {s t : State} {act : Action} {c : Command} {a : Answer} (h : act c (s.beginCommand c) = (t, some a)) :
    s.takeCommand act c = t.completeCommand c a := by
  simp [State.takeCommand, h]

/-- A command row whose command is taken now and answered at once. -/
theorem commandRow_answers {s t : State} {src : CommandSource} {kind : Byte} {c : Command} {belongs : List Byte → Bool} {act : Action} {a : Answer}
    (h : s.takes src kind c) (hb : belongs c.payload = true) (hact : act c (s.beginCommand c) = (t, some a)) :
    commandRow kind belongs act src s = t.completeCommand c a := by
  rw [commandRow_takes act h hb, State.takeCommand_answers hact]

/-- A command whose length is right is put to its own checks (R162). -/
theorem checkedLength_right {act : Action} {c : Command} {s : State} (h : lengthRight c.kind c.payload = true) : checkedLength act c s = act c s := by
  simp [checkedLength, h]

/-- A command whose length is wrong is refused and changes nothing (R162). -/
theorem checkedLength_wrong {act : Action} {c : Command} {s : State} (h : lengthRight c.kind c.payload = false) :
    checkedLength act c s = (s, some (.refuse .refusedLength [])) := by
  simp [checkedLength, h]

/-- A held command that cannot be taken waits (R161). -/
theorem commandRow_waits {s : State} {kind : Byte} {belongs : List Byte → Bool} (act : Action) (h : s.canTake = false) :
    commandRow kind belongs act .held s = s := by
  unfold commandRow whileReleased State.takeHeld
  split
  · rfl
  · simp only
    split <;> simp [h]

/-- An arriving command that finds the holding slot occupied is an overrun (R160). -/
theorem commandRow_overrun {s : State} {kind sender tag : Byte} {payload : List Byte} {belongs : List Byte → Bool} {held : Command} (act : Action)
    (hr : s.resetHeld = false) (hb : belongs payload = true) (h : s.intake.holding = some held) :
    commandRow kind belongs act (.arriving sender tag payload) s = s.raise .intakeOverrun := by
  simp [commandRow, whileReleased, hr, hb, h, State.handOver]

/-- A property of the state that entering the holding slot, an overrun, and taking a command keep is kept by every command row. -/
theorem commandRow_keeps {P : State → Prop} {kind : Byte} {belongs : List Byte → Bool} {act : Action} {src : CommandSource} {s : State} (hs : P s)
    (hin : ∀ u : State, P u → ∀ c, P (u.withIntake { u.intake with holding := some c })) (hov : ∀ u : State, P u → P (u.raise .intakeOverrun))
    (htake : ∀ (u : State) (c : Command), P u → u.canTake = true → u.intake.holding = some c → c.kind = kind → belongs c.payload = true →
      P (u.takeCommand act c)) : P (commandRow kind belongs act src s) := by
  have held : ∀ u, P u → P (u.takeHeld kind belongs act) := by
    intro u hu
    unfold State.takeHeld
    split
    · rename_i c hc
      split
      · rename_i hcond
        simp only [Bool.and_eq_true, beq_iff_eq] at hcond
        exact htake u c hu hcond.2 hc hcond.1.1 hcond.1.2
      · exact hu
    · exact hu
  unfold commandRow whileReleased
  split
  · exact hs
  · split
    · exact held s hs
    · rename_i sender tag payload
      dsimp only
      split
      · split
        · rename_i h
          apply held
          simp only [State.handOver, h]
          exact hin s hs _
        · rename_i h
          simp only [State.handOver, h]
          exact hov s hs
      · exact hs

/-- A property that beginning a command, acting on it and completing it keep is kept by taking it (R161). -/
theorem State.takeCommand_keeps {P : State → Prop} {act : Action} {s : State} {c : Command} (hbegin : P (s.beginCommand c))
    (hact : ∀ u, P u → P (act c u).1) (hend : ∀ u a, P u → P (u.completeCommand c a)) : P (s.takeCommand act c) := by
  have h := hact _ hbegin
  unfold State.takeCommand
  generalize act c (s.beginCommand c) = x at h
  obtain ⟨u, _ | a⟩ := x
  · exact h
  · exact hend _ _ h

/-- A property that looks at neither the slots of the intake nor the Reply Queue nor the Event Unit is kept by a command row whose checks and effects keep it. -/
theorem commandRow_keeps_blocks {P : State → Prop} {kind : Byte} {belongs : List Byte → Bool} {act : Action} {src : CommandSource} {s : State} (hs : P s)
    (hslots : ∀ (u : State) (h x : Option Command), P u → P (u.withIntake { u.intake with holding := h, executing := x }))
    (hreplies : ∀ (u : State) (r : ReplyQueue), P u → P (u.withReplies r)) (hevents : ∀ (u : State) (e : EventUnit), P u → P (u.withEvents e))
    (hact : ∀ (c : Command) (u : State), P u → P (act c u).1) : P (commandRow kind belongs act src s) := by
  refine commandRow_keeps hs (fun u hu c => ?_) (fun u hu => hevents _ _ hu) fun u c hu _ _ _ _ => ?_
  · exact hslots u (some c) u.intake.executing hu
  · refine State.takeCommand_keeps (hreplies _ _ (hslots u none (some c) hu)) (fun v hv => hact c v hv) fun v a hv => ?_
    exact hslots _ v.intake.holding none (hreplies v _ hv)

end Sys2Proof.Machine
end

