-- ==== Sys2Proof/Laws/Lists.lean ====
section
/-!
SUPPORT. What the operations on contribution lists, the pool, settings records and staged edits do (Machine/Lists.lean, Records.lean, Commit.lean), and that they keep
the tables sound.
-/

namespace Sys2Proof.Machine

/-! ### One mix of the table -/

theorem MixTable.setMix_mix {t : MixTable} {k : Nat} (h : k < t.mixes.length) (m : Mix) : (t.setMix k m).mix k = m := by
  simp [setMix, mix, List.getD_eq_getElem?_getD, h]

theorem MixTable.setMix_other (t : MixTable) {j k : Nat} (h : j ≠ k) (m : Mix) : (t.setMix k m).mix j = t.mix j := by
  simp [setMix, mix, List.getD_eq_getElem?_getD, List.getElem?_set_ne (Ne.symm h)]

@[simp] theorem MixTable.setMix_free (t : MixTable) (k : Nat) (m : Mix) : (t.setMix k m).free = t.free := rfl

@[simp] theorem MixTable.setMix_length (t : MixTable) (k : Nat) (m : Mix) : (t.setMix k m).mixes.length = t.mixes.length := by simp [setMix]

theorem MixTable.mix_mem {t : MixTable} {k : Nat} (h : k < t.mixes.length) : t.mix k ∈ t.mixes := by
  simp [mix, List.getD_eq_getElem?_getD, List.getElem?_eq_getElem h]

/-- The entries of a table with another mix k. -/
theorem MixTable.setMix_entries {t : MixTable} {k : Nat} (h : k < t.mixes.length) (m : Mix) :
    (t.setMix k m).entries + (t.mix k).list.length = t.entries + m.list.length := by
  have key : ∀ (l : List Mix) (k : Nat), k < l.length →
      ((l.set k m).map fun x => x.list.length).sum + (l.getD k Mix.reset).list.length = (l.map fun x => x.list.length).sum + m.list.length := by
    intro l
    induction l with
    | nil => intro k hk; simp at hk
    | cons x l ih =>
      intro k hk
      cases k with
      | zero => simp; omega
      | succ k =>
        have := ih k (by simpa using hk)
        simp only [List.set_cons_succ, List.map_cons, List.sum_cons, List.getD_cons_succ]
        omega
  exact key t.mixes k h

/-- A mix replaced by a sound one with as many entries keeps the table sound. -/
theorem MixTable.setMix_sound_same {t : MixTable} (h : t.sound) {k : Nat} (hk : k < t.mixes.length) {m : Mix} (hm : m.sound)
    (hf : m.list.length = (t.mix k).list.length) : (t.setMix k m).sound := by
  obtain ⟨h1, h2, h3⟩ := h
  refine ⟨by simp [h1], ?_, ?_⟩
  · intro x hx
    rcases List.mem_or_eq_of_mem_set hx with hx | rfl
    · exact h2 x hx
    · exact hm
  · have := setMix_entries hk m
    rw [setMix_free]
    omega

/-- A mix replaced by a sound one keeps the table sound where the pool pays for what the list gains. -/
theorem MixTable.setMix_sound {t : MixTable} (h : t.sound) {k : Nat} (hk : k < t.mixes.length) {m : Mix} (hm : m.sound) {free : Nat}
    (hf : free + m.list.length = t.free + (t.mix k).list.length) : MixTable.sound { t.setMix k m with free := free } := by
  obtain ⟨h1, h2, h3⟩ := h
  refine ⟨by simp [h1], ?_, ?_⟩
  · intro x hx
    rcases List.mem_or_eq_of_mem_set hx with hx | rfl
    · exact h2 x hx
    · exact hm
  · have := setMix_entries hk m
    change free + (t.setMix k m).entries = 512
    omega

/-! ### The entry of a source (R34) -/

theorem entryFor_mem {l : List Entry} {x : Nat} {e : Entry} (h : entryFor l x = some e) : e ∈ l ∧ e.source = x :=
  ⟨List.mem_of_find?_eq_some h, by simpa using List.find?_some h⟩

theorem entryFor_none {l : List Entry} {x : Nat} : entryFor l x = none ↔ ∀ e ∈ l, e.source ≠ x := by simp [entryFor]

theorem entryFor_cons (a : Entry) (l : List Entry) (x : Nat) : entryFor (a :: l) x = if a.source = x then some a else entryFor l x := by
  simp only [entryFor, List.find?_cons]
  split <;> simp_all

/-- An entry inserted is the entry of its source, where the list had none. -/
theorem entryFor_insert (e : Entry) {l : List Entry} (h : entryFor l e.source = none) : entryFor (insertEntry e l) e.source = some e := by
  induction l with
  | nil => simp [insertEntry, entryFor]
  | cons a l ih =>
    rw [entryFor_cons] at h
    split at h
    · cases h
    · rename_i ha
      unfold insertEntry
      split
      · simp [entryFor_cons]
      · rw [entryFor_cons, if_neg ha]
        exact ih h

/-- No other source's entry is changed. -/
theorem entryFor_insert_other (e : Entry) (l : List Entry) {x : Nat} (h : x ≠ e.source) : entryFor (insertEntry e l) x = entryFor l x := by
  induction l with
  | nil => simp [insertEntry, entryFor, Ne.symm h]
  | cons a l ih =>
    unfold insertEntry
    split
    · rw [entryFor_cons, if_neg (Ne.symm h)]
    · rw [entryFor_cons, entryFor_cons, ih]

theorem entryFor_update (source : Nat) (f : Entry → Entry) (hf : ∀ e, (f e).source = e.source) (l : List Entry) :
    entryFor (updateEntry source f l) source = (entryFor l source).map f := by
  induction l with
  | nil => rfl
  | cons a l ih =>
    simp only [updateEntry, List.map_cons] at ih ⊢
    rw [entryFor_cons, entryFor_cons, ih]
    by_cases h : a.source = source
    · simp [h, hf]
    · simp [h]

theorem entryFor_update_other (source : Nat) (f : Entry → Entry) (hf : ∀ e, (f e).source = e.source) (l : List Entry) {x : Nat} (h : x ≠ source) :
    entryFor (updateEntry source f l) x = entryFor l x := by
  induction l with
  | nil => rfl
  | cons a l ih =>
    simp only [updateEntry, List.map_cons] at ih ⊢
    rw [entryFor_cons, entryFor_cons, ih]
    by_cases ha : a.source = source
    · simp [ha, hf, Ne.symm h]
    · simp [ha]

theorem insertEntry_length (e : Entry) (l : List Entry) : (insertEntry e l).length = l.length + 1 := by
  induction l with
  | nil => rfl
  | cons a l ih =>
    unfold insertEntry
    split <;> simp [ih]

theorem mem_insertEntry {e x : Entry} {l : List Entry} : x ∈ insertEntry e l ↔ x = e ∨ x ∈ l := by
  induction l with
  | nil => simp [insertEntry]
  | cons a l ih =>
    unfold insertEntry
    split
    · simp
    · simp only [List.mem_cons, ih]
      tauto

@[simp] theorem updateEntry_length (source : Nat) (f : Entry → Entry) (l : List Entry) : (updateEntry source f l).length = l.length := by
  simp [updateEntry]

/-- A new entry joins in order (R34). -/
theorem listSound_insert {l : List Entry} (h : listSound l) {e : Entry} (he : e.sound) (hn : entryFor l e.source = none) : listSound (insertEntry e l) := by
  obtain ⟨ho, hs⟩ := h
  refine ⟨?_, fun x hx => ?_⟩
  · clear hs
    revert hn ho
    induction l with
    | nil => simp [insertEntry]
    | cons a l ih =>
      intro hn ho
      rw [entryFor_cons] at hn
      split at hn
      · cases hn
      · rename_i ha
        obtain ⟨h1, h2⟩ := List.pairwise_cons.mp ho
        unfold insertEntry
        split
        · rename_i hlt
          refine List.pairwise_cons.mpr ⟨fun x hx => ?_, ho⟩
          rcases List.mem_cons.mp hx with rfl | hx
          · exact hlt
          · exact Nat.lt_trans hlt (h1 x hx)
        · refine List.pairwise_cons.mpr ⟨fun x hx => ?_, ih hn h2⟩
          rcases mem_insertEntry.mp hx with rfl | hx
          · omega
          · exact h1 x hx
  · rcases mem_insertEntry.mp hx with rfl | hx
    · exact he
    · exact hs x hx

/-- A change of entries that keeps their sources and ranges keeps the list sound. -/
theorem listSound_map {l : List Entry} (h : listSound l) {f : Entry → Entry} (hf : ∀ e, (f e).source = e.source) (hs : ∀ e, e.sound → (f e).sound) :
    listSound (l.map f) := by
  refine ⟨List.pairwise_map.mpr (h.1.imp fun hab => by rwa [hf, hf]), fun x hx => ?_⟩
  obtain ⟨e, he, rfl⟩ := List.mem_map.mp hx
  exact hs e (h.2 e he)

/-- The values of a set operation are in their ranges (R36). -/
def EntryValues.sound (v : EntryValues) : Prop := v.source ≤ 63 ∧ v.gL ≤ 32767 ∧ v.gR ≤ 32767 ∧ ∀ g, v.group = some g → g ≤ 7

theorem Entry.create_sound {v : EntryValues} (h : v.sound) : (Entry.create v).sound := ⟨h.1, h.2.1, h.2.2.1, by simp [create], by simp [create], h.2.2.2⟩

theorem Entry.write_sound {e : Entry} (he : e.sound) {v : EntryValues} (h : v.sound) : (e.write v).sound :=
  ⟨he.1, h.2.1, h.2.2.1, he.2.2.2.1, he.2.2.2.2.1, h.2.2.2⟩

theorem Entry.retire_sound {e : Entry} (he : e.sound) : e.retire.sound := he

theorem listSound_update {l : List Entry} (h : listSound l) (source : Nat) {f : Entry → Entry} (hf : ∀ e, (f e).source = e.source)
    (hs : ∀ e, e.sound → (f e).sound) : listSound (updateEntry source f l) := by
  refine listSound_map h (fun e => ?_) fun e he => ?_
  · split
    · exact hf e
    · rfl
  · split
    · exact hs e he
    · exact he

/-- A mix with another list of the same soundness. -/
theorem Mix.withList_sound {m : Mix} (h : m.sound) {l : List Entry} (hl : listSound l) : Mix.sound { m with list := l } :=
  ⟨h.1, hl, h.2.2⟩

/-! ### Set, retire, clear (R39 to R43) -/

/-- What a set operation can do: the entry's values in place, a new entry from the pool, or nothing where none is free. -/
theorem MixTable.setEntry_cases (t : MixTable) (k : Nat) (v : EntryValues) :
    (∃ e, entryFor (t.mix k).list v.source = some e ∧
        t.setEntry k v =
          some (t.setMix k { t.mix k with list := updateEntry v.source (·.write v) (t.mix k).list },
            if e.state = .live then .replaced else .revived)) ∨
      (entryFor (t.mix k).list v.source = none ∧ 1 ≤ t.free ∧
        t.setEntry k v =
          some ({ t.setMix k { t.mix k with list := insertEntry (Entry.create v) (t.mix k).list } with free := t.free - 1 }, .created)) ∨
      (entryFor (t.mix k).list v.source = none ∧ t.free = 0 ∧ t.setEntry k v = none) := by
  unfold setEntry
  rcases he : entryFor (t.mix k).list v.source with _ | e
  · by_cases hf : 1 ≤ t.free
    · exact Or.inr (Or.inl ⟨rfl, hf, by simp [he, hf]⟩)
    · exact Or.inr (Or.inr ⟨rfl, by omega, by simp [he, hf]⟩)
  · refine Or.inl ⟨e, rfl, ?_⟩
    simp only [he]
    rcases e.state <;> rfl

/-- A retire changes the state of one entry at most (R42). -/
theorem MixTable.retireEntry_table (t : MixTable) (k source : Nat) :
    (t.retireEntry k source).1 = t ∨
      (t.retireEntry k source).1 = t.setMix k { t.mix k with list := updateEntry source Entry.retire (t.mix k).list } := by
  unfold retireEntry
  simp only
  split
  · split
    · exact Or.inr rfl
    · exact Or.inl rfl
  · exact Or.inl rfl

/-- The entries of a source that are RETIRING already stay as they are. -/
theorem updateEntry_retire_self {l : List Entry} (h : l.Pairwise fun a b => a.source < b.source) {source : Nat}
    (hr : ∀ e, entryFor l source = some e → e.state = .retiring) : updateEntry source Entry.retire l = l := by
  induction l with
  | nil => rfl
  | cons a l ih =>
    obtain ⟨h1, h2⟩ := List.pairwise_cons.mp h
    simp only [updateEntry, List.map_cons] at ih ⊢
    by_cases ha : a.source = source
    · have hra := hr a (by simp [entryFor_cons, ha])
      have rest : (l.map fun e => if e.source == source then Entry.retire e else e) = l := by
        refine (List.map_congr_left fun x hx => ?_).trans (List.map_id _)
        have := h1 x hx
        have hne : x.source ≠ source := by omega
        simp [hne]
      rw [rest]
      simp only [ha, beq_self_eq_true, if_true, List.cons.injEq, and_true]
      obtain ⟨_, _, _, _, _, state, _, _⟩ := a
      cases hra
      rfl
    · rw [ih h2 fun e he => hr e (by rw [entryFor_cons, if_neg ha]; exact he)]
      simp [ha]

theorem MixTable.setEntry_sound {t u : MixTable} (h : t.sound) {k : Nat} (hk : k ≤ 15) {v : EntryValues} (hv : v.sound) {kind : SetKind}
    (hset : t.setEntry k v = some (u, kind)) : u.sound := by
  have hk' : k < t.mixes.length := by rw [h.1]; omega
  have hm := h.2.1 _ (mix_mem hk')
  rcases t.setEntry_cases k v with ⟨e, -, he⟩ | ⟨hn, hf, he⟩ | ⟨-, -, he⟩
  · rw [hset] at he
    obtain ⟨rfl, -⟩ := Prod.mk.inj (Option.some.inj he)
    exact setMix_sound_same h hk' (Mix.withList_sound hm (listSound_update hm.2.1 _ (fun _ => rfl) fun x hx => Entry.write_sound hx hv)) (by simp)
  · rw [hset] at he
    obtain ⟨rfl, -⟩ := Prod.mk.inj (Option.some.inj he)
    exact setMix_sound h hk' (Mix.withList_sound hm (listSound_insert hm.2.1 (Entry.create_sound hv) hn)) (by rw [insertEntry_length]; omega)
  · rw [hset] at he
    cases he

theorem MixTable.setEntries_sound {t : MixTable} (h : t.sound) {k : Nat} (hk : k ≤ 15) (vs : List EntryValues) (hv : ∀ v ∈ vs, v.sound) (c : SetCounts) :
    (t.setEntries k vs c).1.sound := by
  induction vs generalizing t c with
  | nil => exact h
  | cons v vs ih =>
    simp only [setEntries]
    split
    · rename_i t' kind hset
      exact ih (setEntry_sound h hk (hv v (by simp)) hset) (fun x hx => hv x (by simp [hx])) _
    · exact ih h (fun x hx => hv x (by simp [hx])) _

theorem MixTable.retireEntry_sound {t : MixTable} (h : t.sound) {k : Nat} (hk : k ≤ 15) (source : Nat) : (t.retireEntry k source).1.sound := by
  have hk' : k < t.mixes.length := by rw [h.1]; omega
  have hm := h.2.1 _ (mix_mem hk')
  rcases t.retireEntry_table k source with he | he
  · rw [he]; exact h
  · rw [he]
    exact setMix_sound_same h hk' (Mix.withList_sound hm (listSound_update hm.2.1 _ (fun _ => rfl) fun _ => Entry.retire_sound)) (by simp)

theorem MixTable.retireEntries_sound {t : MixTable} (h : t.sound) {k : Nat} (hk : k ≤ 15) (sources : List Nat) (c : RetireCounts) :
    (t.retireEntries k sources c).1.sound := by
  induction sources generalizing t c with
  | nil => exact h
  | cons x rest ih => exact ih (retireEntry_sound h hk x) _

theorem MixTable.clearMix_sound {t : MixTable} (h : t.sound) {k : Nat} (hk : k ≤ 15) : (t.clearMix k).sound := by
  have hk' : k < t.mixes.length := by rw [h.1]; omega
  have hm := h.2.1 _ (mix_mem hk')
  exact setMix_sound_same h hk' (Mix.withList_sound hm (listSound_map hm.2.1 (fun _ => rfl) fun _ => Entry.retire_sound)) (by simp)

/-! ### Settings records (R63, R65, R68, R71) -/

/-- The replacement of a record and its effects on the running state, field by field. -/
theorem Mix.replaceSettings_eq (m : Mix) (cfg : Settings) :
    m.replaceSettings cfg =
      { m with
        cfg := cfg
        mc := if m.cfg.enabled && !cfg.enabled then 0 else m.mc
        lg := if m.cfg.enabled && !cfg.enabled then 4096 else m.lg
        hold := if (m.cfg.enabled && !cfg.enabled) || decide (m.cfg.talk ≠ cfg.talk) then 0 else m.hold
        engaged := if (m.cfg.enabled && !cfg.enabled) || decide (m.cfg.talk ≠ cfg.talk) then false else m.engaged
        justEnabled := cfg.enabled && (!m.cfg.enabled || m.justEnabled) } := by
  unfold replaceSettings
  by_cases ht : m.cfg.talk = cfg.talk <;> rcases he : m.cfg.enabled && !cfg.enabled <;> simp [ht, disable, talkChanged]

theorem Mix.replaceSettings_sound {m : Mix} (h : m.sound) {cfg : Settings} (hc : cfg.sound) : (m.replaceSettings cfg).sound := by
  rw [replaceSettings_eq]
  obtain ⟨h1, h2, h3, h4, h5, h6, h7, h8, h9, h10, h11⟩ := h
  refine ⟨hc, h2, ?_, h4, ?_, ?_, h7, h8, fun he => ?_, fun ht => ?_, fun hj => ?_⟩
  · simp only
    split <;> omega
  · simp only
    split <;> omega
  · simp only
    split <;> omega
  · simp only at he ⊢
    rcases hm : m.cfg.enabled
    · obtain ⟨a, b, c, d⟩ := h9 hm
      simp [a, b, c, d]
    · simp [he]
  · simp only at ht ⊢
    by_cases htm : m.cfg.talk = none
    · obtain ⟨c, d⟩ := h10 htm
      simp [c, d]
    · simp [ht, htm]
  · simp only [Bool.and_eq_true, Bool.or_eq_true, Bool.not_eq_true'] at hj ⊢
    refine ⟨hj.1, ?_⟩
    rcases hj.2 with hm | hm
    · simp [hm, (h9 hm).1]
    · simp [hj.1, (h11 hm).2]

theorem MixTable.replaceSettings_sound {t : MixTable} (h : t.sound) {k : Nat} (hk : k ≤ 15) {cfg : Settings} (hc : cfg.sound) :
    (t.replaceSettings k cfg).sound := by
  have hk' : k < t.mixes.length := by rw [h.1]; omega
  have hm := h.2.1 _ (mix_mem hk')
  exact setMix_sound_same h hk' (Mix.replaceSettings_sound hm hc) (by rw [Mix.replaceSettings_eq])

theorem MixTable.setGroupMutes_sound {t : MixTable} (h : t.sound) {k : Nat} (hk : k ≤ 15) (mask : Mask8) : (t.setGroupMutes k mask).sound := by
  have hk' : k < t.mixes.length := by rw [h.1]; omega
  have hm : (t.mix k).sound := h.2.1 _ (mix_mem hk')
  exact setMix_sound_same (m := { t.mix k with cfg := { (t.mix k).cfg with groupMutes := mask } }) h hk' hm rfl

/-! ### Staged edits (R119, R127, R128) -/

theorem MixTable.applyEdit_sound {t u : MixTable} (h : t.sound) {e : StagedEdit} (he : e.sound) (ha : t.applyEdit e = some u) : u.sound := by
  cases e with
  | setEntry k source gL gR group mute =>
    simp only [applyEdit, Option.map_eq_some_iff] at ha
    obtain ⟨⟨t', kind⟩, hset, rfl⟩ := ha
    exact setEntry_sound h he.1 (v := ⟨source, gL, gR, group, mute⟩) ⟨he.2.1, he.2.2.1, he.2.2.2.1, he.2.2.2.2⟩ hset
  | retireEntry k source =>
    cases ha
    exact retireEntry_sound h he.1 source
  | clearMix k =>
    cases ha
    exact clearMix_sound h he
  | setMix k cfg =>
    cases ha
    exact replaceSettings_sound h he.1 he.2
  | setGroupMutes k mask =>
    cases ha
    exact setGroupMutes_sound h he mask

theorem MixTable.applyEdits_sound {t : MixTable} (h : t.sound) (queue : List StagedEdit) (hq : ∀ e ∈ queue, e.sound) (position : Nat) (c : FiringCounts) :
    (t.applyEdits queue position c).1.sound := by
  induction queue generalizing t position c with
  | nil => exact h
  | cons e rest ih =>
    simp only [applyEdits]
    split
    · rename_i t' ha
      exact ih (applyEdit_sound h (hq e (by simp)) ha) (fun x hx => hq x (by simp [hx])) _ _
    · exact ih h (fun x hx => hq x (by simp [hx])) _ _

/-- A record cannot be applied only where it sets an entry that needs one of an empty pool (R128). -/
theorem MixTable.applyEdit_none (t : MixTable) (e : StagedEdit) :
    t.applyEdit e = none ↔
      t.free = 0 ∧ ∃ k source gL gR group mute, e = .setEntry k source gL gR group mute ∧ entryFor (t.mix k).list source = none := by
  cases e with
  | setEntry k source gL gR group mute =>
    simp only [applyEdit, Option.map_eq_none_iff]
    rcases t.setEntry_cases k ⟨source, gL, gR, group, mute⟩ with ⟨e, he, hs⟩ | ⟨he, hf, hs⟩ | ⟨he, hf, hs⟩
    · simp [hs, he]
    · simp [hs]
      omega
    · simp [hs, hf, he]
  | _ => simp [applyEdit]

end Sys2Proof.Machine
end

