-- ==== Sys2Proof/Laws/Commands.lean ====
section
/-!
SUPPORT. What the checks and effects of each command can do to the unit, once for each (Machine/UnitCommands.lean, MixCommands.lean, SceneCommands.lean).
-/

namespace Sys2Proof.Machine

/-! ### Values taken are sound -/

theorem clampInto_bounds {lo hi : Nat} (h : lo ≤ hi) (n : Nat) : lo ≤ (clampInto lo hi n).1 ∧ (clampInto lo hi n).1 ≤ hi := by
  rw [clampInto_eq h]
  simp only
  omega

theorem talkOf_le {n k : Nat} (h : talkOf n = some (some k)) : k ≤ 63 := by
  unfold talkOf at h
  split at h
  · simp only [Option.some.injEq] at h
    omega
  · split at h <;> simp at h

theorem groupOf_le {n k : Nat} (h : groupOf n = some (some k)) : k ≤ 7 := by
  unfold groupOf at h
  split at h
  · simp only [Option.some.injEq] at h
    omega
  · split at h <;> simp at h

/-- A record as taken is in the ranges of R60 (R61). -/
theorem takeSettings_sound {p : List Byte} {taken : Settings × Bool} (h : takeSettings p = .ok taken) : taken.1.sound := by
  unfold takeSettings at h
  split at h
  · cases h
  · split at h
    · cases h
    · rename_i talk ht
      cases h
      refine ⟨(clampInto_bounds (by decide) _).2, clampInto_bounds (by decide) _, clampInto_bounds (by decide) _, clampInto_bounds (by decide) _,
        (clampInto_bounds (by decide) _).2, at16_le _ _, (clampInto_bounds (by decide) _).2, clampInto_bounds (by decide) _,
        clampInto_bounds (by decide) _, ?_⟩
      intro k hk
      simp only at hk
      subst hk
      exact talkOf_le ht

theorem takeEntry_sound {p : List Byte} {v : EntryValues × Bool} (h : takeEntry p = some v) : v.1.sound := by
  unfold takeEntry at h
  split at h
  · cases h
  · split at h
    · cases h
    · rename_i hs _ group hg
      cases h
      refine ⟨by simp only; omega, (clampInto_bounds (by omega) _).2, (clampInto_bounds (by omega) _).2, ?_⟩
      intro g hgg
      simp only at hgg
      subst hgg
      exact groupOf_le hg

theorem takeEntries_sound {p : List Byte} {index n : Nat} {taken : List EntryValues × Bool} (h : takeEntries p index n = .ok taken) :
    ∀ v ∈ taken.1, v.sound := by
  induction n generalizing index taken with
  | zero =>
    cases h
    simp
  | succ n ih =>
    simp only [takeEntries] at h
    split at h
    · cases h
    · rename_i v hv
      split at h
      · cases h
      · rename_i rest hr
        cases h
        intro x hx
        rcases List.mem_cons.mp hx with rfl | hx
        · exact takeEntry_sound hv
        · exact ih hr x hx

theorem takeSources_sound {p : List Byte} {index n : Nat} {sources : List Nat} (h : takeSources p index n = .ok sources) : ∀ x ∈ sources, x ≤ 63 := by
  induction n generalizing index sources with
  | zero =>
    cases h
    simp
  | succ n ih =>
    simp only [takeSources] at h
    split at h
    · cases h
    · split at h
      · cases h
      · rename_i hle _ rest hr
        cases h
        intro x hx
        rcases List.mem_cons.mp hx with rfl | hx
        · omega
        · exact ih hr x hx

theorem takeRoutes_sound {bs : List Byte} {index : Nat} {routes : List Route} (h : takeRoutes bs index = .ok routes) :
    routes.length = bs.length ∧ ∀ k side, Route.mix k side ∈ routes → k ≤ 15 := by
  induction bs generalizing index routes with
  | nil =>
    cases h
    simp
  | cons b bs ih =>
    simp only [takeRoutes] at h
    split at h
    · cases h
    · rename_i r hr
      split at h
      · cases h
      · rename_i rs hrs
        cases h
        obtain ⟨h1, h2⟩ := ih hrs
        refine ⟨by simp [h1], fun k side hm => ?_⟩
        rcases List.mem_cons.mp hm with hm | hm
        · subst hm
          unfold routeOf at hr
          split at hr
          · cases hr
          · split at hr
            · cases hr
              omega
            · cases hr
        · exact h2 k side hm

/-! ### Checks -/

theorem mixAndMode_none {p : List Byte} (h : mixAndMode p = none) : at8 p 0 ≤ 15 ∧ at8 p 1 ≤ 1 := by
  unfold mixAndMode at h
  split at h
  · cases h
  · split at h
    · cases h
    · omega

theorem mixWriteChecks_ok {p : List Byte} {taken : Settings × Bool} (h : mixWriteChecks p = .ok taken) : at8 p 0 ≤ 15 ∧ taken.1.sound := by
  unfold mixWriteChecks at h
  split at h
  · cases h
  · rename_i hm
    split at h
    · cases h
    · rename_i ht
      cases h
      exact ⟨(mixAndMode_none hm).1, takeSettings_sound ht⟩

theorem entryWriteChecks_ok {s : State} {p : List Byte} {taken : List EntryValues × Bool} (h : entryWriteChecks s p = .ok taken) :
    at8 p 0 ≤ 15 ∧ ∀ v ∈ taken.1, v.sound := by
  unfold entryWriteChecks at h
  split at h
  · cases h
  · rename_i hm
    split at h
    · cases h
    · split at h
      · cases h
      · rename_i ht
        cases h
        exact ⟨(mixAndMode_none hm).1, takeEntries_sound ht⟩

theorem entryRemoveChecks_ok {s : State} {p : List Byte} {sources : List Nat} (h : entryRemoveChecks s p = .ok sources) :
    at8 p 0 ≤ 15 ∧ ∀ x ∈ sources, x ≤ 63 := by
  unfold entryRemoveChecks at h
  split at h
  · cases h
  · rename_i hm
    split at h
    · cases h
    · split at h
      · cases h
      · rename_i ht
        cases h
        exact ⟨(mixAndMode_none hm).1, takeSources_sound ht⟩

/-! ### What an action does -/

/-- An action leaves everything but what `f` says, or changes nothing (it refused, or it only reads). -/
theorem checkedLength_state {act : Command → State → State × Option Answer} {c : Command} {s : State} {P : State → Prop} (h0 : P s)
    (h : P (act c s).1) : P (checkedLength act c s).1 := by
  unfold checkedLength
  split
  · exact h
  · exact h0

theorem actIdentify_state (c : Command) (s : State) : (actIdentify c s).1 = s := checkedLength_state (P := (· = s)) rfl rfl

theorem actStatusPeek_state (c : Command) (s : State) : (actStatusPeek c s).1 = s := checkedLength_state (P := (· = s)) rfl rfl

theorem actRouteRead_state (c : Command) (s : State) : (actRouteRead c s).1 = s := checkedLength_state (P := (· = s)) rfl rfl

theorem actMixRead_state (c : Command) (s : State) : (actMixRead c s).1 = s := by
  refine checkedLength_state (P := (· = s)) rfl ?_
  split <;> rfl

theorem actEntryRead_state (c : Command) (s : State) : (actEntryRead c s).1 = s := by
  refine checkedLength_state (P := (· = s)) rfl ?_
  simp only
  split <;> rfl

theorem actFlagsRead_state (c : Command) (s : State) : (actFlagsRead c s).1 = s := by
  refine checkedLength_state (P := (· = s)) rfl ?_
  simp only
  split <;> rfl

theorem actStatusRead_state (c : Command) (s : State) : (actStatusRead c s).1 = s ∨ (actStatusRead c s).1 = s.readEvents :=
  checkedLength_state (P := fun u => u = s ∨ u = s.readEvents) (Or.inl rfl) (Or.inr rfl)

theorem actUnitSetup_state (c : Command) (s : State) :
    (actUnitSetup c s).1 = s ∨
      ∃ mask step, 1 ≤ step ∧ step ≤ 4096 ∧ (actUnitSetup c s).1 = (s.withEvents (s.events.setMask mask)).withFade { s.fade with step := step } := by
  refine checkedLength_state (P := fun u => u = s ∨ ∃ mask step, 1 ≤ step ∧ step ≤ 4096 ∧
    u = (s.withEvents (s.events.setMask mask)).withFade { s.fade with step := step }) (Or.inl rfl) (Or.inr ⟨_, _, ?_, ?_, rfl⟩)
  · exact (clampInto_bounds (by omega) _).1
  · exact (clampInto_bounds (by omega) _).2

theorem actEventAck_state (c : Command) (s : State) :
    (actEventAck c s).1 = s ∨ ∃ summary, (actEventAck c s).1 = s.withEvents { s.events with summary := summary } :=
  checkedLength_state (P := fun u => u = s ∨ ∃ summary, u = s.withEvents { s.events with summary := summary }) (Or.inl rfl) (Or.inr ⟨_, rfl⟩)

theorem actLinkCounters_state (c : Command) (s : State) :
    (actLinkCounters c s).1 = s ∨ (actLinkCounters c s).1 = s.withRx { s.rx with counters := LinkCounters.zero } := by
  refine checkedLength_state (P := fun u => u = s ∨ u = s.withRx { s.rx with counters := LinkCounters.zero }) (Or.inl rfl) ?_
  simp only
  split
  · exact Or.inl rfl
  · exact Or.inr rfl
  · exact Or.inl rfl

theorem actMixWrite_state (c : Command) (s : State) :
    (actMixWrite c s).1 = s ∨ ∃ k cfg, k ≤ 15 ∧ cfg.sound ∧ (actMixWrite c s).1 = s.withTable (s.table.replaceSettings k cfg) := by
  refine checkedLength_state (P := fun u => u = s ∨ ∃ k cfg, k ≤ 15 ∧ Settings.sound cfg ∧ u = s.withTable (s.table.replaceSettings k cfg)) (Or.inl rfl) ?_
  split
  · exact Or.inl rfl
  · rename_i taken h
    exact Or.inr ⟨_, taken.1, (mixWriteChecks_ok h).1, (mixWriteChecks_ok h).2, rfl⟩

theorem actEntryWrite_state (c : Command) (s : State) :
    (actEntryWrite c s).1 = s ∨
      ∃ k vs, k ≤ 15 ∧ (∀ v ∈ vs, EntryValues.sound v) ∧ (actEntryWrite c s).1 = s.withTable (s.table.setEntries k vs ⟨0, 0, 0⟩).1 := by
  refine checkedLength_state (P := fun u => u = s ∨ ∃ k vs, k ≤ 15 ∧ (∀ v ∈ vs, EntryValues.sound v) ∧
    u = s.withTable (s.table.setEntries k vs ⟨0, 0, 0⟩).1) (Or.inl rfl) ?_
  simp only
  split
  · exact Or.inl rfl
  · rename_i taken h
    split
    · exact Or.inl rfl
    · exact Or.inr ⟨_, taken.1, (entryWriteChecks_ok h).1, (entryWriteChecks_ok h).2, rfl⟩

theorem actEntryRemove_state (c : Command) (s : State) :
    (actEntryRemove c s).1 = s ∨ ∃ k sources, k ≤ 15 ∧ (actEntryRemove c s).1 = s.withTable (s.table.retireEntries k sources ⟨0, 0, 0⟩).1 := by
  refine checkedLength_state (P := fun u => u = s ∨ ∃ k sources, k ≤ 15 ∧ u = s.withTable (s.table.retireEntries k sources ⟨0, 0, 0⟩).1) (Or.inl rfl) ?_
  simp only
  split
  · exact Or.inl rfl
  · rename_i sources h
    exact Or.inr ⟨_, sources, (entryRemoveChecks_ok h).1, rfl⟩

theorem actMixClear_state (c : Command) (s : State) :
    (actMixClear c s).1 = s ∨ ∃ k, k ≤ 15 ∧ (actMixClear c s).1 = s.withTable (s.table.clearMix k) := by
  refine checkedLength_state (P := fun u => u = s ∨ ∃ k, k ≤ 15 ∧ u = s.withTable (s.table.clearMix k)) (Or.inl rfl) ?_
  simp only
  split
  · exact Or.inl rfl
  · rename_i h
    exact Or.inr ⟨_, (mixAndMode_none h).1, rfl⟩

theorem actGroupMute_state (c : Command) (s : State) :
    (actGroupMute c s).1 = s ∨ ∃ k mask, k ≤ 15 ∧ (actGroupMute c s).1 = s.withTable (s.table.setGroupMutes k mask) := by
  refine checkedLength_state (P := fun u => u = s ∨ ∃ k mask, k ≤ 15 ∧ u = s.withTable (s.table.setGroupMutes k mask)) (Or.inl rfl) ?_
  simp only
  split
  · exact Or.inl rfl
  · rename_i h
    exact Or.inr ⟨_, _, (mixAndMode_none h).1, rfl⟩

theorem actFlagsClear_state (c : Command) (s : State) :
    (actFlagsClear c s).1 = s ∨
      ∃ k echo release, k ≤ 15 ∧ (actFlagsClear c s).1 = s.withTable (s.table.setMix k ((s.table.mix k).clearFlags echo release)) := by
  refine checkedLength_state (P := fun u => u = s ∨ ∃ k echo release, k ≤ 15 ∧
    u = s.withTable (s.table.setMix k ((s.table.mix k).clearFlags echo release))) (Or.inl rfl) ?_
  simp only
  split
  · exact Or.inl rfl
  · split
    · exact Or.inl rfl
    · exact Or.inr ⟨_, _, _, by omega, rfl⟩

/-- Sound records joined the queue where there was room, or nothing changed (R119, R120). -/
def Staged (s u : State) : Prop :=
  u = s ∨
    ∃ edits : List StagedEdit, (∀ e ∈ edits, e.sound) ∧ s.staging.queue.length + edits.length ≤ max 128 s.staging.queue.length ∧
      u = s.withStaging { s.staging with queue := s.staging.queue ++ edits }

theorem stageEdits_state {edits : List StagedEdit} (h : ∀ e ∈ edits, e.sound) (clamped : Bool) (extra : List Byte) (s : State) :
    Staged s (stageEdits edits clamped extra s).1 := by
  unfold stageEdits
  split
  · rename_i hr
    refine Or.inr ⟨edits, h, ?_, rfl⟩
    simp only [Staging.hasRoom, decide_eq_true_eq] at hr
    simp only [Config.stagingSize] at hr
    omega
  · exact Or.inl rfl

theorem actMixWriteStaged_state (c : Command) (s : State) : Staged s (actMixWriteStaged c s).1 := by
  refine checkedLength_state (P := Staged s) (Or.inl rfl) ?_
  split
  · exact Or.inl rfl
  · rename_i taken h
    exact stageEdits_state (by simpa [StagedEdit.sound] using mixWriteChecks_ok h) _ _ s

theorem actEntryWriteStaged_state (c : Command) (s : State) : Staged s (actEntryWriteStaged c s).1 := by
  refine checkedLength_state (P := Staged s) (Or.inl rfl) ?_
  split
  · exact Or.inl rfl
  · rename_i taken h
    refine stageEdits_state (fun e he => ?_) _ _ s
    obtain ⟨v, hv, rfl⟩ := List.mem_map.mp he
    exact ⟨(entryWriteChecks_ok h).1, (entryWriteChecks_ok h).2 v hv⟩

theorem actEntryRemoveStaged_state (c : Command) (s : State) : Staged s (actEntryRemoveStaged c s).1 := by
  refine checkedLength_state (P := Staged s) (Or.inl rfl) ?_
  split
  · exact Or.inl rfl
  · rename_i sources h
    refine stageEdits_state (fun e he => ?_) _ _ s
    obtain ⟨x, hx, rfl⟩ := List.mem_map.mp he
    exact ⟨(entryRemoveChecks_ok h).1, (entryRemoveChecks_ok h).2 x hx⟩

theorem actMixClearStaged_state (c : Command) (s : State) : Staged s (actMixClearStaged c s).1 := by
  refine checkedLength_state (P := Staged s) (Or.inl rfl) ?_
  split
  · exact Or.inl rfl
  · rename_i h
    exact stageEdits_state (by simpa [StagedEdit.sound] using (mixAndMode_none h).1) _ _ s

theorem actGroupMuteStaged_state (c : Command) (s : State) : Staged s (actGroupMuteStaged c s).1 := by
  refine checkedLength_state (P := Staged s) (Or.inl rfl) ?_
  split
  · exact Or.inl rfl
  · rename_i h
    exact stageEdits_state (by simpa [StagedEdit.sound] using (mixAndMode_none h).1) _ _ s

theorem actRouteWrite_state (c : Command) (s : State) :
    (actRouteWrite c s).1 = s ∨
      ∃ routes : List Route, routes.length = c.payload.length ∧ lengthRight c.kind c.payload = true ∧ (∀ k side, Route.mix k side ∈ routes → k ≤ 15) ∧
        (actRouteWrite c s).1 = s.withLanes { s.lanes with routes := routes } := by
  unfold actRouteWrite checkedLength
  split
  · rename_i hl
    simp only
    split
    · exact Or.inl rfl
    · rename_i routes h
      exact Or.inr ⟨routes, (takeRoutes_sound h).1, hl, (takeRoutes_sound h).2, rfl⟩
  · exact Or.inl rfl

theorem actCueSelect_state (c : Command) (s : State) :
    (actCueSelect c s).1 = s ∨
      ∃ cue l r, l ≤ 63 ∧ r ≤ 63 ∧ l ≠ r ∧ (∀ k, cue = some k → k ≤ 15) ∧
        (actCueSelect c s).1 = s.withTx { s.tx with cueMix := cue, cueLeft := l, cueRight := r } := by
  refine checkedLength_state (P := fun u => u = s ∨ ∃ cue l r, l ≤ 63 ∧ r ≤ 63 ∧ l ≠ r ∧ (∀ k, cue = some k → k ≤ 15) ∧
    u = s.withTx { s.tx with cueMix := cue, cueLeft := l, cueRight := r }) (Or.inl rfl) ?_
  simp only
  split
  · exact Or.inl rfl
  · rename_i cue hc
    split
    · exact Or.inl rfl
    · refine Or.inr ⟨cue, _, _, by omega, by omega, by omega, fun k hk => ?_, rfl⟩
      subst hk
      unfold cueMixOf at hc
      split at hc
      · simp only [Option.some.injEq] at hc
        omega
      · split at hc <;> simp at hc

theorem actCommitAtFrame_state (c : Command) (s : State) :
    (actCommitAtFrame c s).1 = s ∨ ∃ slot, (actCommitAtFrame c s).1 = s.withStaging { s.staging with slot := slot } := by
  refine checkedLength_state (P := fun u => u = s ∨ ∃ slot, u = s.withStaging { s.staging with slot := slot }) (Or.inl rfl) ?_
  simp only
  split
  · split
    · exact Or.inl rfl
    · exact Or.inr ⟨_, rfl⟩
  · exact Or.inl rfl

theorem actCommitNext_state (c : Command) (s : State) :
    (actCommitNext c s).1 = s ∨ ∃ slot, (actCommitNext c s).1 = s.withStaging { s.staging with slot := slot } := by
  refine checkedLength_state (P := fun u => u = s ∨ ∃ slot, u = s.withStaging { s.staging with slot := slot }) (Or.inl rfl) ?_
  simp only
  split
  · exact Or.inl rfl
  · exact Or.inr ⟨_, rfl⟩

theorem actCancel_state (c : Command) (s : State) :
    (actCancel c s).1 = s ∨ ∃ slot, (actCancel c s).1 = s.withStaging { s.staging with slot := slot } := by
  refine checkedLength_state (P := fun u => u = s ∨ ∃ slot, u = s.withStaging { s.staging with slot := slot }) (Or.inl rfl) ?_
  simp only
  split
  · exact Or.inl rfl
  · exact Or.inr ⟨_, rfl⟩

theorem actDiscard_state (c : Command) (s : State) :
    (actDiscard c s).1 = s ∨ (actDiscard c s).1 = s.withStaging { s.staging with queue := [] } :=
  checkedLength_state (P := fun u => u = s ∨ u = s.withStaging { s.staging with queue := [] }) (Or.inl rfl) (Or.inr rfl)

/-- POWER QUIET becomes QUIET at once, starts the close and stays executing, or changes nothing (R28, R166, R167). -/
theorem actPowerQuiet_cases (c : Command) (s : State) :
    ((actPowerQuiet c s).1 = s ∧ (actPowerQuiet c s).2.isSome = true) ∨
      (s.intake.power = .run ∧ s.fade.state = .shut ∧
        (actPowerQuiet c s).1 = (s.enterQuiet s.drawBegun).withFreeIdx (s.freeIdx + 1) ∧ (actPowerQuiet c s).2.isSome = true) ∨
      (s.intake.power = .run ∧ s.fade.state ≠ .shut ∧
        (actPowerQuiet c s).1 = (s.withIntake { s.intake with power := .quiescing }).withFade s.fade.startClose ∧ (actPowerQuiet c s).2 = none) := by
  unfold actPowerQuiet checkedLength
  split
  · simp only
    split
    · rename_i hp
      split
      · rename_i hf
        exact Or.inr (Or.inl ⟨hp, hf, rfl, rfl⟩)
      · rename_i hf
        exact Or.inr (Or.inr ⟨hp, hf, rfl, rfl⟩)
    · exact Or.inl ⟨rfl, rfl⟩
    · exact Or.inl ⟨rfl, rfl⟩
  · exact Or.inl ⟨rfl, rfl⟩

theorem actPowerRun_state (c : Command) (s : State) :
    (actPowerRun c s).1 = s ∨ (s.intake.power = .quiet ∧ (actPowerRun c s).1 = s.withIntake { s.intake with power := .run }) := by
  refine checkedLength_state (P := fun u => u = s ∨ (s.intake.power = .quiet ∧ u = s.withIntake { s.intake with power := .run })) (Or.inl rfl) ?_
  simp only
  split
  · split
    · rename_i hp
      exact Or.inr ⟨hp, rfl⟩
    · exact Or.inl rfl
    · exact Or.inl rfl
  · exact Or.inl rfl

theorem actUnitReset_state (c : Command) (s : State) : (actUnitReset c s).1 = s ∨ (actUnitReset c s).1 = s.unitReset :=
  checkedLength_state (P := fun u => u = s ∨ u = s.unitReset) (Or.inl rfl) (Or.inr rfl)

/-! ### What commands keep -/

/-- A property of the unit that every change a command can make keeps. -/
structure CommandClosed (P : State → Prop) : Prop where
  slots : ∀ (u : State) (h x : Option Command), P u → P (u.withIntake { u.intake with holding := h, executing := x })
  replies : ∀ (u : State) (r : ReplyQueue), P u → P (u.withReplies r)
  events : ∀ (u : State) (e : EventUnit), P u → P (u.withEvents e)
  step : ∀ (u : State) (n : Nat), 1 ≤ n → n ≤ 4096 → P u → P (u.withFade { u.fade with step := n })
  counters : ∀ u : State, P u → P (u.withRx { u.rx with counters := LinkCounters.zero })
  settings : ∀ (u : State) (k : Nat) (cfg : Settings), k ≤ 15 → cfg.sound → P u → P (u.withTable (u.table.replaceSettings k cfg))
  sets : ∀ (u : State) (k : Nat) (vs : List EntryValues), k ≤ 15 → (∀ v ∈ vs, v.sound) → P u → P (u.withTable (u.table.setEntries k vs ⟨0, 0, 0⟩).1)
  retires : ∀ (u : State) (k : Nat) (sources : List Nat), k ≤ 15 → P u → P (u.withTable (u.table.retireEntries k sources ⟨0, 0, 0⟩).1)
  clears : ∀ (u : State) (k : Nat), k ≤ 15 → P u → P (u.withTable (u.table.clearMix k))
  mutes : ∀ (u : State) (k : Nat) (mask : Mask8), k ≤ 15 → P u → P (u.withTable (u.table.setGroupMutes k mask))
  flags : ∀ (u : State) (k : Nat) (echo : Flags) (release : Bool), k ≤ 15 → P u →
    P (u.withTable (u.table.setMix k ((u.table.mix k).clearFlags echo release)))
  staged : ∀ (u : State) (edits : List StagedEdit), (∀ e ∈ edits, e.sound) → u.staging.queue.length + edits.length ≤ max 128 u.staging.queue.length →
    P u → P (u.withStaging { u.staging with queue := u.staging.queue ++ edits })
  slot : ∀ (u : State) (slot : CommitSlot), P u → P (u.withStaging { u.staging with slot := slot })
  discards : ∀ u : State, P u → P (u.withStaging { u.staging with queue := [] })
  routes : ∀ (u : State) (routes : List Route), routes.length = 32 → (∀ k side, Route.mix k side ∈ routes → k ≤ 15) → P u →
    P (u.withLanes { u.lanes with routes := routes })
  cue : ∀ (u : State) (cue : Option Nat) (l r : Nat), l ≤ 63 → r ≤ 63 → l ≠ r → (∀ k, cue = some k → k ≤ 15) → P u →
    P (u.withTx { u.tx with cueMix := cue, cueLeft := l, cueRight := r })
  quiet : ∀ (u : State) (begun : Nat), P u → P (u.enterQuiet begun)
  freeIdx : ∀ (u : State) (n : Nat), P u → P (u.withFreeIdx n)
  closing : ∀ u : State, P u → P ((u.withIntake { u.intake with power := .quiescing }).withFade u.fade.startClose)
  run : ∀ u : State, P u → P (u.withIntake { u.intake with power := .run })
  reset : ∀ u : State, P u → P u.unitReset

/-- The checks and effects of the rows but ROUTE_WRITE's, whose length check its table needs. -/
def plainActions : List Action :=
  [actIdentify, actStatusRead, actStatusPeek, actUnitSetup, actEventAck, actLinkCounters, actMixWriteStaged, actMixWrite, actMixRead,
    actEntryWriteStaged, actEntryWrite, actEntryRemoveStaged, actEntryRemove, actMixClearStaged, actMixClear, actEntryRead, actGroupMuteStaged,
    actGroupMute, actRouteRead, actCueSelect, actCommitNext, actCommitAtFrame, actCancel, actDiscard, actFlagsRead, actFlagsClear, actPowerQuiet,
    actPowerRun, actUnitReset, actUnknown]

/-- What holds of the checks and effects of every row holds of every command's. -/
theorem actionOf_elim {Q : Action → Prop} {kind : Byte} (payload : List Byte) (h : ∀ act ∈ plainActions, Q act) (hr : kind = 0x0E → Q actRouteWrite) :
    Q (actionOf kind payload) := by
  have route : kind.toNat = 14 → Q actRouteWrite := fun hk => hr (BitVec.eq_of_toNat_eq hk)
  unfold actionOf
  repeat' split
  all_goals first | exact route (by assumption) | (refine h _ ?_; simp [plainActions])

/-- The checks and effects of a command, of whatever row, keep a property that every change a command can make keeps. -/
theorem actionOf_keeps {P : State → Prop} (h : CommandClosed P) (c : Command) {u : State} (hu : P u) : P (actionOf c.kind c.payload c u).1 := by
  have hstaged : ∀ u v : State, Staged u v → P u → P v := by
    rintro u v (rfl | ⟨edits, h1, h2, rfl⟩) hu
    · exact hu
    · exact h.staged u edits h1 h2 hu
  refine actionOf_elim (Q := fun act => P (act c u).1) c.payload (fun act ha => ?_) fun hk => ?_
  rotate_left
  · rcases actRouteWrite_state c u with e | ⟨routes, h1, h2, h3, e⟩ <;> rw [e]
    · exact hu
    · refine h.routes _ _ ?_ h3 hu
      simp only [lengthRight, hk] at h2
      rw [h1]
      simpa using h2
  simp only [plainActions, List.mem_cons, List.not_mem_nil, or_false] at ha
  rcases ha with rfl | rfl | rfl | rfl | rfl | rfl | rfl | rfl | rfl | rfl | rfl | rfl | rfl | rfl | rfl | rfl | rfl | rfl | rfl | rfl | rfl | rfl | rfl | rfl | rfl | rfl | rfl | rfl | rfl | rfl
  · rwa [actIdentify_state]
  · rcases actStatusRead_state c u with e | e <;> rw [e]
    · exact hu
    · exact h.replies _ _ (h.events _ _ hu)
  · rwa [actStatusPeek_state]
  · rcases actUnitSetup_state c u with e | ⟨mask, n, h1, h2, e⟩ <;> rw [e]
    · exact hu
    · exact h.step (u.withEvents _) n h1 h2 (h.events _ _ hu)
  · rcases actEventAck_state c u with e | ⟨summary, e⟩ <;> rw [e]
    · exact hu
    · exact h.events _ _ hu
  · rcases actLinkCounters_state c u with e | e <;> rw [e]
    · exact hu
    · exact h.counters _ hu
  · exact hstaged _ _ (actMixWriteStaged_state c u) hu
  · rcases actMixWrite_state c u with e | ⟨k, cfg, h1, h2, e⟩ <;> rw [e]
    · exact hu
    · exact h.settings _ _ _ h1 h2 hu
  · rwa [actMixRead_state]
  · exact hstaged _ _ (actEntryWriteStaged_state c u) hu
  · rcases actEntryWrite_state c u with e | ⟨k, vs, h1, h2, e⟩ <;> rw [e]
    · exact hu
    · exact h.sets _ _ _ h1 h2 hu
  · exact hstaged _ _ (actEntryRemoveStaged_state c u) hu
  · rcases actEntryRemove_state c u with e | ⟨k, sources, h1, e⟩ <;> rw [e]
    · exact hu
    · exact h.retires _ _ _ h1 hu
  · exact hstaged _ _ (actMixClearStaged_state c u) hu
  · rcases actMixClear_state c u with e | ⟨k, h1, e⟩ <;> rw [e]
    · exact hu
    · exact h.clears _ _ h1 hu
  · rwa [actEntryRead_state]
  · exact hstaged _ _ (actGroupMuteStaged_state c u) hu
  · rcases actGroupMute_state c u with e | ⟨k, mask, h1, e⟩ <;> rw [e]
    · exact hu
    · exact h.mutes _ _ _ h1 hu
  · rwa [actRouteRead_state]
  · rcases actCueSelect_state c u with e | ⟨cue, l, r, h1, h2, h3, h4, e⟩ <;> rw [e]
    · exact hu
    · exact h.cue _ _ _ _ h1 h2 h3 h4 hu
  · rcases actCommitNext_state c u with e | ⟨slot, e⟩ <;> rw [e]
    · exact hu
    · exact h.slot _ _ hu
  · rcases actCommitAtFrame_state c u with e | ⟨slot, e⟩ <;> rw [e]
    · exact hu
    · exact h.slot _ _ hu
  · rcases actCancel_state c u with e | ⟨slot, e⟩ <;> rw [e]
    · exact hu
    · exact h.slot _ _ hu
  · rcases actDiscard_state c u with e | e <;> rw [e]
    · exact hu
    · exact h.discards _ hu
  · rwa [actFlagsRead_state]
  · rcases actFlagsClear_state c u with e | ⟨k, echo, release, h1, e⟩ <;> rw [e]
    · exact hu
    · exact h.flags _ _ _ _ h1 hu
  · rcases actPowerQuiet_cases c u with ⟨e, -⟩ | ⟨-, -, e, -⟩ | ⟨-, -, e, -⟩ <;> rw [e]
    · exact hu
    · exact h.freeIdx _ _ (h.quiet _ _ hu)
    · exact h.closing _ hu
  · rcases actPowerRun_state c u with e | ⟨-, e⟩ <;> rw [e]
    · exact hu
    · exact h.run _ hu
  · rcases actUnitReset_state c u with e | e <;> rw [e]
    · exact hu
    · exact h.reset _ hu
  · exact hu

/-- A command row runs the same for two actions that agree on its own commands. -/
theorem commandRow_congr {kind : Byte} {belongs : List Byte → Bool} {act act' : Action} (h : ∀ c, c.kind = kind → belongs c.payload = true → act c = act' c)
    (src : CommandSource) (s : State) : commandRow kind belongs act src s = commandRow kind belongs act' src s := by
  have held : ∀ u : State, u.takeHeld kind belongs act = u.takeHeld kind belongs act' := by
    intro u
    unfold State.takeHeld
    split
    · split
      · rename_i c _ hc
        simp only [Bool.and_eq_true, beq_iff_eq] at hc
        simp only [State.takeCommand, h c hc.1.1 hc.1.2]
      · rfl
    · rfl
  unfold commandRow
  simp only [held]

/-- A command row runs the checks and effects of its commands (R161, R162). -/
theorem exec_command {i : Instr} {kind : Byte} {src : CommandSource} (hi : commandOf i = some (kind, src)) (s : State) :
    exec i s = .next (commandRow kind i.ownPayload (fun c => actionOf c.kind c.payload c) src s) := by
  cases i <;> simp only [commandOf, reduceCtorEq, Option.some.injEq, Prod.mk.injEq] at hi <;> obtain ⟨rfl, rfl⟩ := hi <;>
    refine congrArg Host.Outcome.next (commandRow_congr (fun c hk hb => ?_) _ _)
  case unknownCommand =>
    simp only [isCommandKind, Bool.not_eq_true', Bool.and_eq_false_iff, decide_eq_false_iff_not, not_le] at hb
    have hu : actionOf c.kind c.payload = actUnknown := by
      rw [hk]
      unfold actionOf
      repeat' split
      all_goals first | omega | rfl
    rw [hu]
  all_goals simp_all [actionOf, notStaged, notOne]

/-- The taking of a held command keeps a property that every change a command can make keeps (R161). -/
theorem taking_keeps {P : State → Prop} (h : CommandClosed P) {u : State} (hu : P u) (c : Command) :
    P (u.takeCommand (actionOf c.kind c.payload) c) := by
  refine State.takeCommand_keeps (h.replies _ _ (h.slots u none (some c) hu)) (fun v hv => actionOf_keeps h c hv) fun v a hv => ?_
  exact h.slots _ v.intake.holding none (h.replies v _ hv)

/-- A command, taken or waiting, keeps a property that every change a command can make keeps. -/
theorem exec_command_keeps {P : State → Prop} (h : CommandClosed P) {i : Instr} {x : Byte × CommandSource} (hi : commandOf i = some x) {s t : State} (hs : P s)
    (he : exec i s = .next t) : P t := by
  rw [exec_command hi] at he
  injection he with he
  subst he
  exact commandRow_keeps hs (fun u hu c => h.slots u (some c) u.intake.executing hu) (fun u hu => h.events _ _ hu) fun u c hu _ _ _ _ =>
    taking_keeps h hu c

/-- The taking of the held command inside a delivery keeps a property that every change a command can make keeps (R161). -/
theorem State.takeWaiting_keeps {P : State → Prop} (h : CommandClosed P) {s : State} (hs : P s) : P s.takeWaiting := by
  unfold State.takeWaiting
  split
  · split
    · exact taking_keeps h hs _
    · exact hs
  · exact hs

end Sys2Proof.Machine
end

