-- ==== Sys2Proof/Laws/Lane.lean ====
section
/-!
SUPPORT. What the Lane Controller's reception (Machine/LaneIn.lean) can change in a delivery, and what its hold buffer keeps.
-/

namespace Sys2Proof.Machine

/-- What the lane of a delivery leaves as it is (R147 to R155, R160): everything but the Lane Controller, the holding slot, counters 6 to 8 and the events 5 to 7 with
their latch. -/
structure LaneKeeps (s u : State) : Prop where
  pending : u.pending = s.pending
  plans : u.plans = s.plans
  resetHeld : u.resetHeld = s.resetHeld
  freeIdx : u.freeIdx = s.freeIdx
  begun : u.begun = s.begun
  rx :
    u.rx =
      { s.rx with
        counters :=
          { s.rx.counters with
            laneFramingErrors := u.rx.counters.laneFramingErrors, laneDrops := u.rx.counters.laneDrops
            messageCheckErrors := u.rx.counters.messageCheckErrors } }
  tb : u.tb = s.tb
  tx : u.tx = s.tx
  store : u.store = s.store
  fade : u.fade = s.fade
  table : u.table = s.table
  staging : u.staging = s.staging
  lanes : u.lanes = s.lanes
  replies : u.replies = s.replies
  executing : u.intake.executing = s.intake.executing
  power : u.intake.power = s.intake.power
  bits : ∀ i, i < 5 → u.events.summary.getLsbD i = s.events.summary.getLsbD i
  grows : EventsGrow s.events u.events
  holding : ∀ c, s.intake.holding = some c → u.intake.holding = some c

theorem LaneKeeps.refl (s : State) : LaneKeeps s s := by constructor <;> simp [EventsGrow.refl]

theorem LaneKeeps.trans {s u v : State} (h : LaneKeeps s u) (g : LaneKeeps u v) : LaneKeeps s v where
  pending := g.pending.trans h.pending
  plans := g.plans.trans h.plans
  resetHeld := g.resetHeld.trans h.resetHeld
  freeIdx := g.freeIdx.trans h.freeIdx
  begun := g.begun.trans h.begun
  rx := by rw [g.rx, h.rx]
  tb := g.tb.trans h.tb
  tx := g.tx.trans h.tx
  store := g.store.trans h.store
  fade := g.fade.trans h.fade
  table := g.table.trans h.table
  staging := g.staging.trans h.staging
  lanes := g.lanes.trans h.lanes
  replies := g.replies.trans h.replies
  executing := g.executing.trans h.executing
  power := g.power.trans h.power
  bits := fun i hi => (g.bits i hi).trans (h.bits i hi)
  grows := h.grows.trans g.grows
  holding := fun c hc => g.holding c (h.holding c hc)

theorem LaneKeeps.withLane (s : State) (l : LaneController) : LaneKeeps s (s.withLane l) := by constructor <;> simp [EventsGrow.refl]

theorem LaneKeeps.receive (s : State) (rx : ReceiveState) (buffer : List Byte) : LaneKeeps s (s.receive rx buffer) := .withLane s _

theorem LaneKeeps.countFraming (s : State) : LaneKeeps s s.countFraming := by
  constructor <;> simp [State.countFraming, State.count_eq, EventsGrow.refl]

theorem LaneKeeps.dropLane (s : State) : LaneKeeps s s.dropLane := by
  constructor <;> simp [State.dropLane_eq, EventUnit.raise_bit, Event.bit, EventsGrow.raise]; intros; omega

theorem LaneKeeps.checkError (s : State) : LaneKeeps s s.checkError := by
  constructor <;> simp [State.checkError_eq, EventUnit.raise_bit, Event.bit, EventsGrow.raise]; intros; omega

theorem LaneKeeps.handOver (s : State) (kind src tag : Byte) (payload : List Byte) : LaneKeeps s (s.handOver kind src tag payload) := by
  unfold State.handOver
  split
  · constructor <;> simp_all [EventsGrow.refl]
  · constructor <;> simp [State.raise_eq, EventUnit.raise_bit, Event.bit, EventsGrow.raise]; intros; omega

theorem LaneKeeps.holdForward (s : State) (total : Nat) (octets : List Byte) : LaneKeeps s (s.holdForward total octets) := by
  unfold State.holdForward
  split
  · exact .withLane s _
  · exact .dropLane s

theorem LaneKeeps.verifyLocal (s : State) (m : List Byte) : LaneKeeps s (s.verifyLocal m) := by
  unfold State.verifyLocal
  simp only
  split
  · exact .handOver s _ _ _ _
  · exact .checkError s

theorem LaneKeeps.enumerate (s : State) (octets : List Byte) : LaneKeeps s (s.enumerate octets) := by
  unfold State.enumerate
  split
  · exact .trans (.withLane s _) (.holdForward _ _ _)
  · exact .checkError s

theorem LaneKeeps.spoil (s : State) : LaneKeeps s s.spoil := by
  unfold State.spoil
  split
  · exact .refl s
  · rename_i r _
    have counted : LaneKeeps s (if r.toLocal then (s.receive .waiting []).countFraming else s.receive .waiting []) := by
      split
      · exact .trans (.receive s _ _) (.countFraming _)
      · exact .receive s _ _
    simp only
    split
    · exact .trans (.trans counted (.withLane _ _)) (.dropLane _)
    · exact counted

theorem LaneKeeps.beginMessage (s : State) (toLocal toForward : Bool) (length : Nat) (octets : List Byte) :
    LaneKeeps s (s.beginMessage toLocal toForward length octets) := by
  have held : LaneKeeps s (if toForward then s.holdForward (frameCount length) octets else s) := by
    split
    · exact .holdForward s _ _
    · exact .refl s
  unfold State.beginMessage
  simp only
  split
  · split
    · exact .trans held (.verifyLocal _ _)
    · exact held
  · exact .trans held (.receive _ _ _)

theorem LaneKeeps.laneFirst (s : State) (octets : List Byte) : LaneKeeps s (s.laneFirst octets) := by
  unfold State.laneFirst
  simp only
  split
  · exact .trans (.spoil s) (.countFraming _)
  · split
    · exact .trans (.spoil s) (.enumerate _ _)
    · exact .trans (.spoil s) (.beginMessage _ _ _ _ _)

theorem LaneKeeps.laneCont (s : State) (octets : List Byte) : LaneKeeps s (s.laneCont octets) := by
  unfold State.laneCont
  split
  · exact .countFraming s
  · rename_i r _
    have held : LaneKeeps s
        (if r.toForward && r.admitted then
          s.withLane { s.lane with hold := changeLast (fun m => { m with frames := m.frames ++ [octets] }) s.lane.hold }
        else s) := by
      split
      · exact .withLane s _
      · exact .refl s
    simp only
    split
    · exact .trans held (.receive _ _ _)
    · split
      · exact .trans (.trans held (.receive _ _ _)) (.verifyLocal _ _)
      · exact .trans held (.receive _ _ _)

theorem LaneKeeps.laneFrame (s : State) (f : ReceivedFrame) : LaneKeeps s (s.laneFrame f) := by
  unfold State.laneFrame
  split
  · exact .spoil s
  · exact .laneFirst s _
  · exact .laneCont s _
  · exact .spoil s

/-- The lane of a delivery changes the Lane Controller, the holding slot, counters 6 to 8 and events 5 to 7, and nothing else. -/
theorem LaneKeeps.laneDeliver (s : State) (cls : DeliveryClass) (frame : Option ReceivedFrame) : LaneKeeps s (s.laneDeliver cls frame) := by
  unfold State.laneDeliver
  split
  · exact .laneFrame s _
  · exact .laneFrame s _
  · exact .spoil s

/-- A spoiled message counts no message check error (R153). -/
theorem State.spoil_messageCheckErrors (s : State) : s.spoil.rx.counters.messageCheckErrors = s.rx.counters.messageCheckErrors := by
  unfold State.spoil
  split
  · rfl
  · simp only
    split <;> split <;> simp [State.dropLane_eq, State.countFraming, State.count_eq, State.receive]

/-! ### The spoil (R150, R153) -/

theorem spoilLast_eq (hold : List HoldMessage) :
    spoilLast hold = hold.dropLast ++ ((hold.getLast?.filter (·.emitted != 0)).map fun m => { m with spoiled := true }).toList := by
  induction hold with
  | nil => rfl
  | cons m rest ih =>
    cases rest with
    | nil =>
      by_cases h : m.emitted = 0 <;> simp [spoilLast, h, Option.filter]
    | cons x xs =>
      simp only [spoilLast, List.dropLast_cons_cons, List.cons_append, List.getLast?_cons_cons] at ih ⊢
      rw [ih]

/-- The spoil, field by field. -/
theorem State.spoil_eq (s : State) : s.spoil = s.afterSpoil := by
  unfold State.spoil State.afterSpoil
  rcases h : s.lane.rx with _ | ⟨_ | _, _ | _, _ | _, -, -, -⟩
  · rfl
  all_goals
    simp [State.receive, State.countFraming, State.count_eq, State.dropLane_eq, spoilLast_eq, State.withLane, State.withRx, State.withEvents]

/-! ### The hold buffer's reservation (R152, R153) -/

theorem reservedFrames_append (hold : List HoldMessage) (m : HoldMessage) :
    reservedFrames (hold ++ [m]) = reservedFrames hold + (m.total - m.emitted) := by simp [reservedFrames]

theorem reservedFrames_changeLast {f : HoldMessage → HoldMessage} (hf : ∀ m, (f m).total = m.total ∧ (f m).emitted = m.emitted) (hold : List HoldMessage) :
    reservedFrames (changeLast f hold) = reservedFrames hold := by
  induction hold with
  | nil => rfl
  | cons m rest ih =>
    cases rest with
    | nil => simp [changeLast, reservedFrames, hf m]
    | cons x xs =>
      simp only [reservedFrames, changeLast, List.map_cons, List.sum_cons] at ih ⊢
      rw [ih]

theorem reservedFrames_spoilLast (hold : List HoldMessage) : reservedFrames (spoilLast hold) ≤ reservedFrames hold := by
  induction hold with
  | nil => exact Nat.le_refl _
  | cons m rest ih =>
    cases rest with
    | nil =>
      simp only [spoilLast]
      split <;> simp [reservedFrames]
    | cons x xs =>
      simp only [reservedFrames, spoilLast, List.map_cons, List.sum_cons] at ih ⊢
      omega

/-! ### Soundness of the Lane Controller -/

theorem State.receive_sound {s : State} (h : s.lane.sound) {rx : ReceiveState} {buffer : List Byte} (hb : buffer.length ≤ 247)
    (hr : ∀ r, rx = .receiving r → r.octets ≤ 247) : (s.receive rx buffer).lane.sound := ⟨h.1, h.2.1, hb, hr⟩

theorem State.waiting_sound {s : State} (h : s.lane.sound) : (s.receive .waiting []).lane.sound :=
  receive_sound h (by simp) (by simp)

@[simp] theorem State.countFraming_lane (s : State) : s.countFraming.lane = s.lane := rfl
@[simp] theorem State.dropLane_lane (s : State) : s.dropLane.lane = s.lane := rfl
@[simp] theorem State.checkError_lane (s : State) : s.checkError.lane = s.lane := rfl

@[simp] theorem State.handOver_lane (s : State) (kind src tag : Byte) (payload : List Byte) : (s.handOver kind src tag payload).lane = s.lane := by
  unfold State.handOver
  split <;> rfl

@[simp] theorem State.verifyLocal_lane (s : State) (m : List Byte) : (s.verifyLocal m).lane = s.lane := by
  unfold State.verifyLocal
  simp only
  split
  · exact State.handOver_lane s _ _ _ _
  · rfl

theorem State.admit_sound {s : State} (h : s.lane.sound) (total : Nat) (octets : List Byte) : (s.holdForward total octets).lane.sound := by
  unfold State.holdForward
  split
  · rename_i ha
    refine ⟨?_, h.2⟩
    simp only [State.admits, decide_eq_true_eq] at ha
    simp only [Config.holdFrames] at ha
    simp only [State.withLane_lane, reservedFrames_append]
    omega
  · exact h

theorem State.spoil_sound {s : State} (h : s.lane.sound) : s.spoil.lane.sound := by
  unfold State.spoil
  split
  · exact h
  · rename_i r _
    have hw := waiting_sound h
    have hc : (if r.toLocal then (s.receive .waiting []).countFraming else s.receive .waiting []).lane.sound := by
      split
      · exact hw
      · exact hw
    simp only
    split
    · refine ⟨?_, hc.2⟩
      exact Nat.le_trans (reservedFrames_spoilLast _) hc.1
    · exact hc

theorem enumeratedUnit_bounds {n : Byte} {k : Nat} (h : enumeratedUnit n = some k) : 1 ≤ k ∧ k ≤ 32 := by
  unfold enumeratedUnit at h
  split at h
  · cases h
    assumption
  · cases h

theorem State.enumerate_sound {s : State} (h : s.lane.sound) (octets : List Byte) : (s.enumerate octets).lane.sound := by
  unfold State.enumerate
  split
  · refine admit_sound ?_ _ _
    exact ⟨h.1, fun n hn => enumeratedUnit_bounds hn, h.2.2⟩
  · exact h

theorem State.beginMessage_sound {s : State} (h : s.lane.sound) (toLocal toForward : Bool) {length : Nat} (hl : length ≤ 240) (octets : List Byte) :
    (s.beginMessage toLocal toForward length octets).lane.sound := by
  have held : (if toForward then s.holdForward (frameCount length) octets else s).lane.sound := by
    split
    · exact admit_sound h _ _
    · exact h
  unfold State.beginMessage
  simp only
  split
  · split
    · rw [verifyLocal_lane]
      exact held
    · exact held
  · refine receive_sound held ?_ ?_
    · split
      · simp
        omega
      · simp
    · intro r hr
      cases hr
      simp only
      omega

theorem State.laneFirst_sound {s : State} (h : s.lane.sound) (octets : List Byte) : (s.laneFirst octets).lane.sound := by
  unfold State.laneFirst
  simp only
  split
  · exact spoil_sound h
  · split
    · exact enumerate_sound (spoil_sound h) _
    · exact beginMessage_sound (spoil_sound h) _ _ (by omega) _

theorem State.laneCont_sound {s : State} (h : s.lane.sound) (octets : List Byte) : (s.laneCont octets).lane.sound := by
  unfold State.laneCont
  split
  · exact h
  · rename_i r hr
    have hr' := h.2.2.2 r hr
    have held :
        (if r.toForward && r.admitted then
          s.withLane { s.lane with hold := changeLast (fun m => { m with frames := m.frames ++ [octets] }) s.lane.hold }
        else s).lane.sound := by
      split
      · refine ⟨?_, h.2⟩
        simp only [State.withLane_lane]
        rw [reservedFrames_changeLast (f := fun m => { m with frames := m.frames ++ [octets] }) fun m => ⟨rfl, rfl⟩]
        exact h.1
      · exact h
    have hb : (if r.toLocal then (s.lane.buffer ++ octets).take r.octets else []).length ≤ 247 := by
      split
      · simp
        omega
      · simp
    simp only
    split
    · exact receive_sound held hb (fun r' hr'' => by cases hr''; exact hr')
    · split
      · rw [verifyLocal_lane]
        exact waiting_sound held
      · exact waiting_sound held

/-- The lane of a delivery keeps the Lane Controller sound. -/
theorem State.laneDeliver_sound {s : State} (h : s.lane.sound) (cls : DeliveryClass) (frame : Option ReceivedFrame) : (s.laneDeliver cls frame).lane.sound := by
  have frameSound : ∀ f : ReceivedFrame, (s.laneFrame f).lane.sound := by
    intro f
    unfold State.laneFrame
    split
    · exact spoil_sound h
    · exact laneFirst_sound h _
    · exact laneCont_sound h _
    · exact spoil_sound h
  unfold State.laneDeliver
  split
  · exact frameSound _
  · exact frameSound _
  · exact spoil_sound h

/-! ### Counters -/

theorem State.count_sound {s : State} {f : LinkCounters → LinkCounters} (h : (f s.rx.counters).sound) : (s.count f).rx.counters.sound := h

theorem State.countFraming_sound {s : State} (h : s.rx.counters.sound) : s.countFraming.rx.counters.sound :=
  ⟨h.1, h.2.1, h.2.2.1, h.2.2.2.1, h.2.2.2.2.1, rise_le h.2.2.2.2.2.1, h.2.2.2.2.2.2.1, h.2.2.2.2.2.2.2⟩

theorem State.dropLane_sound {s : State} (h : s.rx.counters.sound) : s.dropLane.rx.counters.sound :=
  ⟨h.1, h.2.1, h.2.2.1, h.2.2.2.1, h.2.2.2.2.1, h.2.2.2.2.2.1, rise_le h.2.2.2.2.2.2.1, h.2.2.2.2.2.2.2⟩

theorem State.checkError_sound {s : State} (h : s.rx.counters.sound) : s.checkError.rx.counters.sound :=
  ⟨h.1, h.2.1, h.2.2.1, h.2.2.2.1, h.2.2.2.2.1, h.2.2.2.2.2.1, h.2.2.2.2.2.2.1, rise_le h.2.2.2.2.2.2.2⟩

@[simp] theorem State.handOver_rx (s : State) (kind src tag : Byte) (payload : List Byte) : (s.handOver kind src tag payload).rx = s.rx := by
  unfold State.handOver
  split <;> rfl

theorem State.admit_counters {s : State} (h : s.rx.counters.sound) (total : Nat) (octets : List Byte) : (s.holdForward total octets).rx.counters.sound := by
  unfold State.holdForward
  split
  · exact h
  · exact dropLane_sound h

theorem State.verifyLocal_counters {s : State} (h : s.rx.counters.sound) (m : List Byte) : (s.verifyLocal m).rx.counters.sound := by
  unfold State.verifyLocal
  simp only
  split
  · rw [handOver_rx]
    exact h
  · exact checkError_sound h

theorem State.spoil_counters {s : State} (h : s.rx.counters.sound) : s.spoil.rx.counters.sound := by
  unfold State.spoil
  split
  · exact h
  · rename_i r _
    have hc : (if r.toLocal then (s.receive .waiting []).countFraming else s.receive .waiting []).rx.counters.sound := by
      split
      · exact countFraming_sound h
      · exact h
    simp only
    split
    · exact dropLane_sound hc
    · exact hc

theorem State.enumerate_counters {s : State} (h : s.rx.counters.sound) (octets : List Byte) : (s.enumerate octets).rx.counters.sound := by
  unfold State.enumerate
  split
  · refine admit_counters ?_ _ _
    exact h
  · exact checkError_sound h

theorem State.beginMessage_counters {s : State} (h : s.rx.counters.sound) (toLocal toForward : Bool) (length : Nat) (octets : List Byte) :
    (s.beginMessage toLocal toForward length octets).rx.counters.sound := by
  have held : (if toForward then s.holdForward (frameCount length) octets else s).rx.counters.sound := by
    split
    · exact admit_counters h _ _
    · exact h
  unfold State.beginMessage
  simp only
  split
  · split
    · exact verifyLocal_counters held _
    · exact held
  · exact held

theorem State.laneFirst_counters {s : State} (h : s.rx.counters.sound) (octets : List Byte) : (s.laneFirst octets).rx.counters.sound := by
  unfold State.laneFirst
  simp only
  split
  · exact countFraming_sound (spoil_counters h)
  · split
    · exact enumerate_counters (spoil_counters h) _
    · exact beginMessage_counters (spoil_counters h) _ _ _ _

theorem State.laneCont_counters {s : State} (h : s.rx.counters.sound) (octets : List Byte) : (s.laneCont octets).rx.counters.sound := by
  unfold State.laneCont
  split
  · exact countFraming_sound h
  · rename_i r _
    have held :
        (if r.toForward && r.admitted then
          s.withLane { s.lane with hold := changeLast (fun m => { m with frames := m.frames ++ [octets] }) s.lane.hold }
        else s).rx.counters.sound := by
      split <;> exact h
    simp only
    split
    · exact held
    · split
      · refine verifyLocal_counters ?_ _
        exact held
      · exact held

/-- The lane of a delivery keeps the counters within 16 bits (R11). -/
theorem State.laneDeliver_counters {s : State} (h : s.rx.counters.sound) (cls : DeliveryClass) (frame : Option ReceivedFrame) :
    (s.laneDeliver cls frame).rx.counters.sound := by
  have frameSound : ∀ f : ReceivedFrame, (s.laneFrame f).rx.counters.sound := by
    intro f
    unfold State.laneFrame
    split
    · exact spoil_counters h
    · exact laneFirst_counters h _
    · exact laneCont_counters h _
    · exact spoil_counters h
  unfold State.laneDeliver
  split
  · exact frameSound _
  · exact frameSound _
  · exact spoil_counters h

end Sys2Proof.Machine
end

