-- ==== Sys2Proof/Laws/Sources.lean ====
section
/-!
SUPPORT. What the Source Store and Fade Control (Machine/Sources.lean) do at a delivery, and that they stay sound.
-/

namespace Sys2Proof.Machine

theorem rise_eq {n : Nat} (h : n ≤ 65535) : rise n = min 65535 (n + 1) := by
  unfold rise
  split <;> simp only [Config.hold16] at * <;> omega

/-! ### The Source Store (R20 to R22) -/

theorem SourceStore.source_mem {st : SourceStore} (k : Nat) (h : k < st.sources.length) : st.source k ∈ st.sources := by
  simp [SourceStore.source, List.getD_eq_getElem?_getD, List.getElem?_eq_getElem h]

/-- What a source of a sound store reads as, for any number. -/
theorem SourceStore.source_sound {st : SourceStore} (h : st.sound) (k : Nat) : -8388608 ≤ (st.source k).sample ∧ (st.source k).sample ≤ 8388607 := by
  by_cases hk : k < st.sources.length
  · exact h.2.1 _ (source_mem k hk)
  · simp [SourceStore.source, List.getD_eq_getElem?_getD, List.getElem?_eq_none (by omega : st.sources.length ≤ k)]

theorem SourceStore.takeGood_sound {st : SourceStore} (h : st.sound) {slots : List Int} (hs : ∀ y ∈ slots, -8388608 ≤ y ∧ y ≤ 8388607) :
    (st.takeGood slots).sound := by
  obtain ⟨-, -, -, hb, hg, -⟩ := h
  refine ⟨by simp [takeGood], ?_, ⟨0, by omega, by simp [takeGood]⟩, by simp [takeGood], rise_le hg, Or.inl rfl⟩
  intro x hx
  simp only [takeGood, List.mem_map] at hx
  obtain ⟨k, -, rfl⟩ := hx
  rw [List.getD_eq_getElem?_getD]
  rcases hk : slots[k]? with _ | y
  · simp
  · exact hs y (List.mem_of_getElem? hk)

theorem SourceStore.holdBad_sound {st : SourceStore} (h : st.sound) : st.holdBad.sound := by
  obtain ⟨hl, hs, ⟨age, ha, hall⟩, hb, -, -⟩ := h
  refine ⟨by simp [holdBad, hl], ?_, ⟨if age < 255 then age + 1 else age, by split <;> omega, ?_⟩, rise_le hb, by simp [holdBad], Or.inr rfl⟩
  · intro x hx
    simp only [holdBad, List.mem_map] at hx
    obtain ⟨y, hy, rfl⟩ := hx
    exact hs y hy
  · intro x hx
    simp only [holdBad, List.mem_map] at hx
    obtain ⟨y, hy, rfl⟩ := hx
    simp only [hall y hy]

/-- A delivery keeps the Source Store sound. -/
theorem SourceStore.apply_sound {st : SourceStore} (h : st.sound) (cls : DeliveryClass) {slots : List Int}
    (hs : ∀ y ∈ slots, -8388608 ≤ y ∧ y ≤ 8388607) : (st.apply cls slots).sound := by
  cases cls
  · exact takeGood_sound h hs
  · exact holdBad_sound h
  · exact holdBad_sound h
  · exact holdBad_sound h

/-! ### Fade Control (R24 to R28) -/

/-- One step of the fade, by its state (R24, R26). -/
theorem Fade.next_eq {fd : Fade} (h : fd.sound) (bad good : Nat) (power : PowerState) :
    ((fd.next bad good power).state, (fd.next bad good power).coeff) =
      (let opens : FadeState × Nat := (if 4096 ≤ fd.coeff + fd.step then .opened else .opening, min 4096 (fd.coeff + fd.step))
      let closes : FadeState × Nat := (if fd.coeff ≤ 128 then .shut else .closing, fd.coeff - 128)
      match fd.state with
      | .opened => if 8 ≤ bad then (.closing, 3968) else (.opened, 4096)
      | .closing => if 16 ≤ good ∧ power = .run then opens else closes
      | .shut => if 16 ≤ good ∧ power = .run then opens else (.shut, 0)
      | .opening => if 8 ≤ bad then closes else opens) := by
  have opens : ∀ c s : Nat, (Fade.endTest .opening (min 4096 (c + s)), min 4096 (c + s)) =
      ((if 4096 ≤ c + s then .opened else .opening, min 4096 (c + s)) : FadeState × Nat) := by
    intro c s
    simp only [Fade.endTest, show min 4096 (c + s) = 4096 ↔ 4096 ≤ c + s by omega]
  have closes : ∀ c : Nat, (Fade.endTest .closing (c - 128), c - 128) = ((if c ≤ 128 then .shut else .closing, c - 128) : FadeState × Nat) := by
    intro c
    simp only [Fade.endTest, show c - 128 = 0 ↔ c ≤ 128 by omega]
  obtain ⟨-, hc⟩ := h
  rcases hs : fd.state with _ | _ | _ | _ <;> simp only [hs] at hc <;> simp only [Fade.next, hs, Fade.test]
  · split
    · rw [hc]
      exact closes 4096
    · rfl
  · split
    · exact opens _ _
    · exact closes _
  · split
    · exact opens _ _
    · rfl
  · split
    · exact closes _
    · exact opens _ _

theorem Fade.next_step (fd : Fade) (bad good : Nat) (power : PowerState) : (fd.next bad good power).step = fd.step := rfl

/-- The coefficient agrees with the fade state (R24). -/
def Fade.agrees (p : FadeState × Nat) : Prop :=
  match p.1 with
  | .opened => p.2 = 4096
  | .closing => 1 ≤ p.2 ∧ p.2 ≤ 4096
  | .shut => p.2 = 0
  | .opening => 1 ≤ p.2 ∧ p.2 ≤ 4095

theorem Fade.sound_iff (fd : Fade) : fd.sound ↔ (1 ≤ fd.step ∧ fd.step ≤ 4096) ∧ Fade.agrees (fd.state, fd.coeff) := Iff.rfl

/-- A step keeps the fade sound. -/
theorem Fade.next_sound {fd : Fade} (h : fd.sound) (bad good : Nat) (power : PowerState) : (fd.next bad good power).sound := by
  have opens : ∀ c : Nat, 1 ≤ fd.step → Fade.agrees (if 4096 ≤ c + fd.step then .opened else .opening, min 4096 (c + fd.step)) := by
    intro c h1
    split <;> simp only [agrees] <;> omega
  have closes : ∀ c : Nat, c ≤ 4096 → Fade.agrees (if c ≤ 128 then .shut else .closing, c - 128) := by
    intro c h1
    split <;> simp only [agrees] <;> omega
  rw [sound_iff, next_eq h, next_step]
  obtain ⟨hstep, hc⟩ := h
  refine ⟨hstep, ?_⟩
  rcases hs : fd.state with _ | _ | _ | _ <;> simp only [hs] at hc ⊢ <;> split
  · simp [agrees]
  · rfl
  · exact opens _ hstep.1
  · exact closes _ hc.2
  · exact opens _ hstep.1
  · rfl
  · exact closes _ (by omega)
  · exact opens _ hstep.1

/-- The step enters SHUT from another state exactly where it takes CLOSING into SHUT (R25). -/
theorem Fade.shuts_iff {fd : Fade} (h : fd.sound) (bad good : Nat) (power : PowerState) :
    fd.shuts bad good power = true ↔ fd.state ≠ .shut ∧ (fd.next bad good power).state = .shut := by
  have e := congrArg Prod.fst (next_eq h bad good power)
  simp only at e
  simp only [shuts, Bool.and_eq_true, beq_iff_eq]
  refine ⟨fun ⟨h1, h2⟩ => ⟨fun hs => ?_, h2⟩, fun ⟨h1, h2⟩ => ⟨?_, h2⟩⟩
  · rw [hs] at h1
    simp only [test] at h1
    split at h1 <;> cases h1
  · rw [e] at h2
    rcases hs : fd.state with _ | _ | _ | _ <;> simp only [hs, test] at h2 ⊢
    · split at h2 <;> cases h2
    · split
      · rename_i hr
        rw [if_pos hr] at h2
        split at h2 <;> cases h2
      · rfl
    · exact absurd hs h1
    · split
      · rfl
      · rename_i hb
        rw [if_neg hb] at h2
        split at h2 <;> cases h2

/-- The report to the Command Intake is the step into SHUT under QUIESCING (R28). -/
theorem State.reportsShut_iff {s : State} (h : s.fade.sound) :
    s.reportsShut = true ↔
      s.intake.power = .quiescing ∧ s.fade.state ≠ .shut ∧ (s.fade.next s.store.bad s.store.good s.intake.power).state = .shut := by
  simp only [State.reportsShut, Bool.and_eq_true, Fade.shuts_iff h, beq_iff_eq]
  tauto

/-- A closing fade keeps closing while the power state is not RUN, and is SHUT once f is at most the fade-out step (R25, R26). -/
theorem Fade.next_closing {fd : Fade} (hs : fd.state = .closing) (bad good : Nat) {power : PowerState} (hp : power ≠ .run) :
    fd.next bad good power = { fd with state := if fd.coeff ≤ 128 then .shut else .closing, coeff := fd.coeff - 128 } := by
  have e : fd.coeff - 128 = 0 ↔ fd.coeff ≤ 128 := by omega
  have t : Fade.test fd.state bad good power = .closing := by simp [hs, Fade.test, hp]
  unfold Fade.next
  simp only [t]
  show ({ fd with state := if fd.coeff - 128 = 0 then .shut else .closing, coeff := fd.coeff - 128 } : Fade) = _
  simp only [e]

end Sys2Proof.Machine
end

