-- ==== Sys2Proof/Laws/MixPass.lean ====
section
/-!
SUPPORT. What the operations of the mix pass (Machine/MixPass.lean) compute: ramps, rounding, the limiter, the clamp, and what a pass leaves in a mix.
-/

namespace Sys2Proof.Machine

/-! ### Ramps (R83) -/

theorem ramp_le (x target step : Nat) : ramp x target step ≤ max x target := by
  unfold ramp
  split
  · omega
  · split <;> omega

theorem le_ramp (x target step : Nat) : min x target ≤ ramp x target step := by
  unfold ramp
  split
  · omega
  · split <;> omega

/-- A step closes the distance by the step, or all of it. -/
theorem ramp_distance (x target step : Nat) :
    max (ramp x target step) target - min (ramp x target step) target = (max x target - min x target) - step := by
  unfold ramp
  split
  · omega
  · split <;> omega

/-- A ramp keeps to its side of the target. -/
theorem ramp_at_target {target step : Nat} : ramp target target step = target := by simp [ramp]

/-! ### Rounding (R91) -/

/-- A lower integer bound of the quotient is one of the rounded value. -/
theorem le_roundQuotient (mode : Rounding) {n : Int} {d : Nat} (hd : 0 < d) {a : Int} (h : a * d ≤ n) : a ≤ roundQuotient mode n d := by
  have hd' : (0 : Int) < d := by exact_mod_cast hd
  have hq : a ≤ n / (d : Int) := (Int.le_ediv_iff_mul_le hd').mpr h
  cases mode
  · simp only [roundQuotient]
    split
    · exact hq
    · split
      · omega
      · split <;> omega
  · simp only [roundQuotient]
    rw [Int.tdiv_eq_ediv]
    split
    · simpa using hq
    · have := Int.sign_eq_one_of_pos hd'
      omega
  · exact hq

/-- An upper integer bound of the quotient is one of the rounded value. -/
theorem roundQuotient_le (mode : Rounding) {n : Int} {d : Nat} (hd : 0 < d) {b : Int} (h : n ≤ b * d) : roundQuotient mode n d ≤ b := by
  have hd' : (0 : Int) < d := by exact_mod_cast hd
  have hq : n / (d : Int) ≤ b := by
    have := Int.ediv_le_ediv hd' h
    rwa [Int.mul_ediv_cancel _ (by omega)] at this
  have hmod := Int.emod_add_mul_ediv n d
  have hnn := Int.emod_nonneg n (by omega : (d : Int) ≠ 0)
  have top : n / (d : Int) = b → n % (d : Int) = 0 := by
    intro e
    rw [e] at hmod
    have : (d : Int) * b = b * d := Int.mul_comm _ _
    omega
  cases mode
  · simp only [roundQuotient]
    split
    · exact hq
    · rename_i h1
      have hb : n / (d : Int) ≠ b := fun e => h1 (by rw [top e]; omega)
      split
      · omega
      · split <;> omega
  · simp only [roundQuotient]
    rw [Int.tdiv_eq_ediv]
    split
    · simpa using hq
    · rename_i h1
      have hs := Int.sign_eq_one_of_pos hd'
      have hb : n / (d : Int) ≠ b := by
        intro e
        apply h1
        right
        exact Int.dvd_of_emod_eq_zero (top e)
      omega
  · exact hq

/-- An integer quotient is itself in every mode. -/
theorem roundQuotient_exact (mode : Rounding) (k : Int) {d : Nat} (hd : 0 < d) : roundQuotient mode (k * d) d = k :=
  Int.le_antisymm (roundQuotient_le mode hd (Int.le_refl _)) (le_roundQuotient mode hd (Int.le_refl _))

/-! ### The limiter and the clamp (R93, R94, R97) -/

theorem limiterCap_le (ceiling : Nat) (rL rR : Int) : limiterCap ceiling rL rR ≤ 4096 := by
  simp only [limiterCap]
  split <;> omega

/-- Lcap brings the louder side to the ceiling or below. -/
theorem limiterCap_holds (ceiling : Nat) (rL rR : Int) : max rL.natAbs rR.natAbs * limiterCap ceiling rL rR ≤ ceiling * 4096 := by
  simp only [limiterCap]
  split
  · rename_i h
    simp [h]
  · refine Nat.le_trans (Nat.mul_le_mul_left _ (Nat.min_le_right _ _)) ?_
    rw [Nat.mul_comm]
    exact Nat.div_mul_le_self _ _

/-- No larger gain of at most 4096 does. -/
theorem limiterCap_largest (ceiling : Nat) (rL rR : Int) {g : Nat} (hg : g ≤ 4096) (h : max rL.natAbs rR.natAbs * g ≤ ceiling * 4096) :
    g ≤ limiterCap ceiling rL rR := by
  simp only [limiterCap]
  split
  · exact hg
  · rename_i h0
    refine Nat.le_min.mpr ⟨hg, (Nat.le_div_iff_mul_le (by omega)).mpr ?_⟩
    rwa [Nat.mul_comm]

theorem limiterGain_bounds {lg : Nat} (cap release : Nat) (h : 1 ≤ lg ∧ lg ≤ 4096) (hc : cap ≤ 4096) :
    1 ≤ limiterGain lg cap release ∧ limiterGain lg cap release ≤ 4096 := by
  unfold limiterGain
  split <;> omega

/-- While Lcap is 1 or more, the gain after the stage is at most Lcap. -/
theorem limiterGain_le {lg cap : Nat} (release : Nat) (hc : 1 ≤ cap) : limiterGain lg cap release ≤ cap := by
  unfold limiterGain
  split <;> omega

theorem clampTo_bounds (ceiling : Nat) (y : Int) : -(ceiling : Int) ≤ clampTo ceiling y ∧ clampTo ceiling y ≤ ceiling := by
  unfold clampTo
  split
  · omega
  · split <;> omega

theorem clampTo_within {ceiling : Nat} {y : Int} (h1 : -(ceiling : Int) ≤ y) (h2 : y ≤ ceiling) : clampTo ceiling y = y := by
  unfold clampTo
  rw [if_neg (by omega), if_neg (by omega)]

/-! ### What a pass leaves in a mix -/

theorem Mix.detectRun_eq (m : Mix) (st : SourceStore) (k : Nat) :
    m.detectRun st k =
      { m with
        hold := if talkDetected st k m.cfg.threshold then m.cfg.holdTime else m.hold - 1
        engaged := if talkDetected st k m.cfg.threshold then true else decide (1 < m.hold) } := by
  unfold Mix.detectRun
  split
  · simp
  · split
    · simp only [Mix.mk.injEq, true_and, and_true]
      simp only [decide_eq_decide]
      omega
    · have : m.hold = 0 := by omega
      simp [this]

/-- The detector changes the hold counter and the duck state alone (R73). -/
theorem Mix.detect_keeps (m : Mix) (st : SourceStore) : m.detect st = { m with hold := (m.detect st).hold, engaged := (m.detect st).engaged } := by
  unfold Mix.detect
  split
  · split
    · rw [detectRun_eq]
    · rfl
  · rfl

@[simp] theorem Mix.detect_cfg (m : Mix) (st : SourceStore) : (m.detect st).cfg = m.cfg := by rw [detect_keeps]
@[simp] theorem Mix.detect_list (m : Mix) (st : SourceStore) : (m.detect st).list = m.list := by rw [detect_keeps]
@[simp] theorem Mix.detect_mc (m : Mix) (st : SourceStore) : (m.detect st).mc = m.mc := by rw [detect_keeps]
@[simp] theorem Mix.detect_duck (m : Mix) (st : SourceStore) : (m.detect st).duck = m.duck := by rw [detect_keeps]
@[simp] theorem Mix.detect_lg (m : Mix) (st : SourceStore) : (m.detect st).lg = m.lg := by rw [detect_keeps]
@[simp] theorem Mix.detect_capture (m : Mix) (st : SourceStore) : (m.detect st).capture = m.capture := by rw [detect_keeps]
@[simp] theorem Mix.detect_current (m : Mix) (st : SourceStore) : (m.detect st).current = m.current := by rw [detect_keeps]
@[simp] theorem Mix.detect_justEnabled (m : Mix) (st : SourceStore) : (m.detect st).justEnabled = m.justEnabled := by rw [detect_keeps]
@[simp] theorem Mix.detect_accrued (m : Mix) (st : SourceStore) : (m.detect st).accrued = m.accrued := by rw [detect_keeps]

@[simp] theorem Mix.prepare_cfg (m : Mix) (st : SourceStore) : (m.prepare st).cfg = m.cfg := by simp [prepare, complete, rampStage]
@[simp] theorem Mix.prepare_lg (m : Mix) (st : SourceStore) : (m.prepare st).lg = m.lg := by simp [prepare, complete, rampStage]
@[simp] theorem Mix.prepare_capture (m : Mix) (st : SourceStore) : (m.prepare st).capture = m.capture := by simp [prepare, complete, rampStage]
@[simp] theorem Mix.prepare_justEnabled (m : Mix) (st : SourceStore) : (m.prepare st).justEnabled = m.justEnabled := by
  simp [prepare, complete, rampStage]
@[simp] theorem Mix.prepare_accrued (m : Mix) (st : SourceStore) : (m.prepare st).accrued = m.accrued := by simp [prepare, complete, rampStage]
@[simp] theorem Mix.prepare_hold (m : Mix) (st : SourceStore) : (m.prepare st).hold = (m.detect st).hold := rfl
@[simp] theorem Mix.prepare_engaged (m : Mix) (st : SourceStore) : (m.prepare st).engaged = (m.detect st).engaged := rfl

/-- The list after ramps and retire completion (R84, R44). -/
theorem Mix.prepare_list (m : Mix) (st : SourceStore) :
    (m.prepare st).list = (m.list.map (·.ramped m.cfg.groupMutes m.cfg.ramp)).filter (!·.completes) := by
  simp [prepare, complete, rampStage]

theorem Mix.prepare_mc (m : Mix) (st : SourceStore) : (m.prepare st).mc = ramp m.mc (if m.cfg.enabled then m.cfg.master else 0) m.cfg.ramp := by
  simp [prepare, complete, rampStage]

/-- The duck current ramps toward the target of the duck state that the detector has just settled (R74, R81). -/
theorem Mix.prepare_duck (m : Mix) (st : SourceStore) : (m.prepare st).duck = (m.detect st).duckRamped := rfl

/-- An enabled mix's pass (R81, R100, R101). -/
theorem Mix.pass_enabled {m : Mix} (h : m.cfg.enabled = true) (input : PassInput) :
    m.pass input =
      { (m.prepare input.store).report ((m.prepare input.store).findings input) input.frame with
        lg := ((m.prepare input.store).findings input).lgAfter, yL := ((m.prepare input.store).findings input).yL
        yR := ((m.prepare input.store).findings input).yR, justEnabled := false } := by
  simp [pass, h]

/-- A disabled mix's pass (R102). -/
theorem Mix.pass_disabled {m : Mix} (h : m.cfg.enabled = false) (input : PassInput) :
    m.pass input = { m.prepare input.store with current := Flags.none, lg := 4096, yL := 0, yR := 0, justEnabled := false } := by
  simp [pass, h, reportNone]

@[simp] theorem Mix.pass_cfg (m : Mix) (input : PassInput) : (m.pass input).cfg = m.cfg := by
  unfold pass
  simp only
  split <;> simp [report, reportNone]

@[simp] theorem Mix.pass_list (m : Mix) (input : PassInput) : (m.pass input).list = (m.prepare input.store).list := by
  unfold pass
  simp only
  split <;> simp [report, reportNone]

@[simp] theorem Mix.pass_mc (m : Mix) (input : PassInput) : (m.pass input).mc = (m.prepare input.store).mc := by
  unfold pass
  simp only
  split <;> simp [report, reportNone]

@[simp] theorem Mix.pass_justEnabled (m : Mix) (input : PassInput) : (m.pass input).justEnabled = false := by
  unfold pass
  simp only
  split <;> simp

@[simp] theorem Mix.pass_duck (m : Mix) (input : PassInput) : (m.pass input).duck = (m.prepare input.store).duck := by
  unfold pass
  simp only
  split <;> simp [report, reportNone]

@[simp] theorem Mix.pass_hold (m : Mix) (input : PassInput) : (m.pass input).hold = (m.detect input.store).hold := by
  unfold pass
  simp only
  split <;> simp [report, reportNone]

@[simp] theorem Mix.pass_engaged (m : Mix) (input : PassInput) : (m.pass input).engaged = (m.detect input.store).engaged := by
  unfold pass
  simp only
  split <;> simp [report, reportNone]

/-- No pass adds an entry. -/
theorem Mix.pass_length_le (m : Mix) (input : PassInput) : (m.pass input).list.length ≤ m.list.length := by
  rw [pass_list, prepare_list]
  exact (List.length_filter_le _ _).trans (by simp)

/-! ### Soundness -/

theorem Entry.ramped_sound {e : Entry} (h : e.sound) (mutes : Mask8) (step : Nat) : (e.ramped mutes step).sound := by
  obtain ⟨h1, h2, h3, h4, h5, h6⟩ := h
  have t : ∀ g, g ≤ 32767 → e.target mutes g ≤ 32767 := by
    intro g hg
    unfold target
    split <;> omega
  have hl := ramp_le e.cL (e.target mutes e.gL) step
  have hr := ramp_le e.cR (e.target mutes e.gR) step
  have tl := t _ h2
  have tr := t _ h3
  exact ⟨h1, h2, h3, by simp only [ramped]; omega, by simp only [ramped]; omega, h6⟩

theorem listSound_ramped {l : List Entry} (h : listSound l) (mutes : Mask8) (step : Nat) (p : Entry → Bool) :
    listSound ((l.map (·.ramped mutes step)).filter p) := by
  obtain ⟨ho, hs⟩ := h
  refine ⟨List.Pairwise.filter _ (List.pairwise_map.mpr ho), ?_⟩
  intro e he
  obtain ⟨x, hx, rfl⟩ := List.mem_map.mp (List.mem_of_mem_filter he)
  exact Entry.ramped_sound (hs x hx) _ _

/-- The detector keeps a mix sound. -/
theorem Mix.detect_sound {m : Mix} (h : m.sound) (st : SourceStore) : (m.detect st).sound := by
  have hk := m.detect_keeps st
  obtain ⟨h1, h2, h3, h4, h5, h6, h7, h8, h9, h10, h11⟩ := h
  have hhold : (m.detect st).hold ≤ 65535 := by
    unfold Mix.detect
    split
    · split
      · rw [detectRun_eq]
        simp only
        have := h1.2.2.2.2.2.1
        split <;> omega
      · exact h5
    · exact h5
  rw [hk]
  refine ⟨h1, h2, h3, h4, hhold, h6, h7, h8, fun he => ?_, fun ht => ?_, h11⟩
  · obtain ⟨a, b, c, d⟩ := h9 he
    refine ⟨a, b, ?_⟩
    unfold Mix.detect
    split
    · rw [if_neg (by simp only at he; simp [he])]
      exact ⟨c, d⟩
    · exact ⟨c, d⟩
  · have ht' : m.cfg.talk = none := ht
    unfold Mix.detect
    simp only [ht']
    exact h10 ht

/-- A pass keeps a mix sound (R60, R64, R67, R98). -/
theorem Mix.pass_sound {m : Mix} (h : m.sound) (input : PassInput) : (m.pass input).sound := by
  have hd := m.detect_sound h input.store
  obtain ⟨h1, h2, h3, h4, h5, h6, h7, h8, h9, h10, -⟩ := h
  obtain ⟨-, -, -, -, d5, -, -, -, d9, d10, -⟩ := hd
  obtain ⟨c1, c2, ⟨c3, c3'⟩, c4, c5, c6, c7, c8, c9, c10⟩ := h1
  have hlist : listSound (m.pass input).list := by
    rw [pass_list, prepare_list]
    exact listSound_ramped h2 _ _ _
  have hmc : (m.pass input).mc ≤ 32767 := by
    rw [pass_mc, prepare_mc]
    have := ramp_le m.mc (if m.cfg.enabled then m.cfg.master else 0) m.cfg.ramp
    have ht : (if m.cfg.enabled then m.cfg.master else 0) ≤ 32767 := by split <;> omega
    omega
  have hduck : (m.pass input).duck ≤ 4096 := by
    rw [pass_duck, prepare_duck]
    have h := ramp_le (m.detect input.store).duck (m.detect input.store).duckTarget
      (if (m.detect input.store).duckTarget < (m.detect input.store).duck then (m.detect input.store).cfg.attack else (m.detect input.store).cfg.release)
    have ht : (m.detect input.store).duckTarget ≤ 4096 := by
      unfold duckTarget
      split
      · simpa using c7
      · exact Nat.le_refl _
    change (m.detect input.store).duckRamped ≤ _ at h
    rw [detect_duck] at h
    omega
  refine ⟨by rw [pass_cfg]; exact ⟨c1, c2, ⟨c3, c3'⟩, c4, c5, c6, c7, c8, c9, c10⟩, hlist, hmc, hduck, by rw [pass_hold]; exact d5, ?_, ?_, ?_, ?_, ?_, by simp⟩
  · by_cases he : m.cfg.enabled = true
    · rw [pass_enabled he]
      simp only [findings, prepare_cfg, prepare_lg]
      exact limiterGain_bounds _ _ h6 (limiterCap_le _ _ _)
    · rw [pass_disabled (by simpa using he)]
      exact ⟨by simp, by simp⟩
  · by_cases he : m.cfg.enabled = true
    · rw [pass_enabled he]
      simp only [findings, prepare_cfg]
      have := clampTo_bounds m.cfg.ceiling
      constructor
      · refine Int.le_trans ?_ (this _).1
        omega
      · refine Int.le_trans (this _).2 ?_
        omega
    · rw [pass_disabled (by simpa using he)]
      exact ⟨by simp, by simp⟩
  · by_cases he : m.cfg.enabled = true
    · rw [pass_enabled he]
      simp only [findings, prepare_cfg]
      have := clampTo_bounds m.cfg.ceiling
      constructor
      · refine Int.le_trans ?_ (this _).1
        omega
      · refine Int.le_trans (this _).2 ?_
        omega
    · rw [pass_disabled (by simpa using he)]
      exact ⟨by simp, by simp⟩
  · intro he
    rw [pass_cfg] at he
    obtain ⟨e1, -, -, -⟩ := h9 he
    obtain ⟨-, -, e3, e4⟩ := d9 (by simpa using he)
    refine ⟨?_, by rw [pass_disabled he], by rw [pass_hold]; exact e3, by rw [pass_engaged]; exact e4⟩
    rw [pass_mc, prepare_mc, he, e1]
    rfl
  · intro ht
    rw [pass_cfg] at ht
    rw [pass_hold, pass_engaged]
    exact d10 (by simpa using ht)

/-! ### One mix's action on the tables -/

theorem MixTable.passMix_eq (t : MixTable) (k : Nat) (input : PassInput) :
    t.passMix k input = { t.setMix k ((t.mix k).pass input) with free := t.free + (t.mix k).passReturns input } := rfl

@[simp] theorem MixTable.passMix_length (t : MixTable) (k : Nat) (input : PassInput) : (t.passMix k input).mixes.length = t.mixes.length := setMix_length _ _ _

/-- One mix's action is its pass, and no other mix's (R80). -/
theorem MixTable.passMix_mix {t : MixTable} {k : Nat} (hk : k < t.mixes.length) (input : PassInput) (j : Nat) :
    (t.passMix k input).mix j = if j = k then (t.mix k).pass input else t.mix j := by
  change (t.setMix k ((t.mix k).pass input)).mix j = _
  split
  · rename_i h
    rw [h, setMix_mix hk]
  · rename_i h
    rw [setMix_other t h]

/-- One mix's action returns to the pool exactly the entries that leave its list (R35, R44). -/
theorem MixTable.passMix_balance {t : MixTable} {k : Nat} (hk : k < t.mixes.length) (input : PassInput) :
    (t.passMix k input).free + (t.passMix k input).entries = t.free + t.entries := by
  have hle := (t.mix k).pass_length_le input
  have he := setMix_entries hk ((t.mix k).pass input)
  change t.free + ((t.mix k).list.length - ((t.mix k).pass input).list.length) + (t.setMix k ((t.mix k).pass input)).entries = _
  omega

/-- One mix's action keeps the tables sound. -/
theorem MixTable.passMix_sound {t : MixTable} (h : t.sound) {k : Nat} (hk : k < 16) (input : PassInput) : (t.passMix k input).sound := by
  have hk' : k < t.mixes.length := by rw [h.1]; exact hk
  refine setMix_sound h hk' (Mix.pass_sound (h.2.1 _ (mix_mem hk')) input) ?_
  have hle := (t.mix k).pass_length_le input
  simp only [Mix.passReturns]
  omega

end Sys2Proof.Machine
end

