-- ==== Sys2Proof/Laws/Delivery.lean ====
section
/-!
SUPPORT. What each stage of a delivery can do (R9, R31), and what a whole delivery leaves in each block.
-/

namespace Sys2Proof.Machine

/-! ### The stages -/

/-- The first stage changes the Link Receiver, notes the delivery's moment, and raises at most LINK_LOCKED or LINK_LOST (R9 to R11, R13). -/
theorem State.settleLink_eq (s : State) (cls : DeliveryClass) (frame : Option ReceivedFrame) :
    s.settleLink cls frame =
      ((s.withRx
          { s.rx with
            localFrame := nextFrameNumber s.rx.localFrame cls frame
            counters := s.rx.counters.atDelivery cls frame s.rx.missed
            accepted := if frame.isSome then none else s.rx.accepted
            lockedDue := if frame.isSome then false else s.rx.lockedDue
            missed := if frame.isSome then s.rx.missed else false
            lostDue := if frame.isSome then s.rx.lostDue else false }).withBegun (s.begunAtDelivery frame.isSome)).withEvents
        (if frame.isSome && s.rx.lockedDue then s.events.raise .linkLocked
        else if !frame.isSome && s.rx.lostDue then s.events.raise .linkLost else s.events) := by
  unfold State.settleLink
  simp only [State.raiseIf_eq]
  generalize s.begunAtDelivery _ = begun
  rcases frame.isSome <;> rcases s.rx.lockedDue <;> rcases s.rx.lostDue <;> rfl

/-- The firing replaces the table and the whole block, and raises COMMIT_DONE (R127 to R129). -/
theorem State.fire_eq (s : State) (request : CommitRequest) :
    s.fire request =
      ((s.withTable (s.table.applyEdits s.staging.queue 1 ⟨0, 0, none⟩).1).withStaging
          { queue := [], slot := .disarmed
            report := some
              { frameFired := s.rx.localFrame, request := request, applied := (s.table.applyEdits s.staging.queue 1 ⟨0, 0, none⟩).2.applied
                skipped := (s.table.applyEdits s.staging.queue 1 ⟨0, 0, none⟩).2.skipped
                firstSkipped := (s.table.applyEdits s.staging.queue 1 ⟨0, 0, none⟩).2.first } }).withEvents (s.events.raise .commitDone) := rfl

/-- The commit stage fires the request of an armed slot whose test is met, and otherwise does nothing (R125). -/
theorem State.commitStage_eq (s : State) :
    s.commitStage =
      match s.staging.slot with
      | .disarmed => s
      | .armed _ request => if s.firesAt s.rx.localFrame then s.fire request else s := by
  unfold State.commitStage State.firesAt
  rcases s.staging.slot with _ | ⟨_ | n, request⟩ <;> simp [CommitTrigger.reached, frameReached]

theorem State.commitStage_idle {s : State} (h : s.firesAt s.rx.localFrame = false) : s.commitStage = s := by
  rw [State.commitStage_eq]
  split
  · rfl
  · simp [h]

theorem State.commitStage_fires {s : State} {trigger : CommitTrigger} {request : CommitRequest} (h : s.firesAt s.rx.localFrame = true)
    (hs : s.staging.slot = .armed trigger request) : s.commitStage = s.fire request := by
  rw [State.commitStage_eq, hs]
  simp [h]

/-- The fade's step changes the fade, and raises at most LINK_SILENT (R24, R25). -/
theorem State.fadeStep_eq (s : State) :
    s.fadeStep =
      (s.withFade (s.fade.next s.store.bad s.store.good s.intake.power)).withEvents
        (if s.fade.shuts s.store.bad s.store.good s.intake.power && s.intake.power == .run then s.events.raise .linkSilent else s.events) := by
  unfold State.fadeStep
  rw [State.raiseIf_eq]
  rfl

/-- A draw keeps within what the steps before it fix, and a lane frame has 8 positions (R137, log 26). -/
theorem State.drawBegun_bounds (s : State) : s.begunAtLeast ≤ s.drawBegun ∧ s.drawBegun ≤ s.begunAtMost ∧ s.begunAtMost ≤ 8 := by
  unfold State.drawBegun State.begunAtMost State.begunAtLeast begunAfter
  omega

/-- POWER QUIET's completion with its command in the executing slot (R140, R167). -/
theorem State.completeQuiet_eq {s : State} {c : Command} (h : s.intake.executing = some c) (begun : Nat) :
    s.completeQuiet begun =
      (((s.withIntake { s.intake with power := .quiet, executing := none }).withLanes (s.lanes.quiet begun)).withBegun begun).withReplies
        { messages := s.replies.messages ++ [{ isNotice := false, octets := replyTo c s.lane.unit (powerAnswer .run .quiet) }]
          reserved := s.replies.reserved - 1 } := by
  simp [State.completeQuiet, h, State.enterQuiet, State.completeCommand, State.withIntake, State.withLanes, State.withReplies, State.withBegun]

/-! ### The pass (R80, R101, R109) -/

/-- One mix's action changes its mix, the pool and its held pair, and raises at most MIX_FAULT. -/
theorem State.mixAction_eq (s : State) (input : PassInput) (k : Nat) :
    s.mixAction input k =
      ((s.withTable (s.table.passMix k input)).withLanes
          { s.lanes with held := s.lanes.held.set k (((s.table.mix k).pass input).yL, ((s.table.mix k).pass input).yR) }).withEvents
        (if (s.table.mix k).passCaptures input then s.events.raise .mixFault else s.events) := by
  unfold State.mixAction
  simp only [State.raiseIf_eq]
  rfl

/-- The mixes of `l`, worked one after another with nothing falling between them. -/
def State.passAll (s : State) (input : PassInput) (l : List Nat) : State := l.foldl (fun u k => u.mixAction input k) s

/-- What working the mixes of `l` leaves: each of them as its own pass leaves it, whatever their order (R80), and its pair held (R101); MIX_FAULT for a capture taken
(R109); nothing else. -/
structure Passed (s u : State) (input : PassInput) (l : List Nat) : Prop where
  eq : u = ((s.withTable u.table).withLanes { s.lanes with held := u.lanes.held }).withEvents u.events
  length : u.table.mixes.length = s.table.mixes.length
  mix : ∀ j, u.table.mix j = if j ∈ l then (s.table.mix j).pass input else s.table.mix j
  heldLength : u.lanes.held.length = s.lanes.held.length
  held : ∀ j, j < s.lanes.held.length →
    u.lanes.held.getD j (0, 0) = if j ∈ l then (((s.table.mix j).pass input).yL, ((s.table.mix j).pass input).yR) else s.lanes.held.getD j (0, 0)
  balance : u.table.free + u.table.entries = s.table.free + s.table.entries
  bits : ∀ i, u.events.summary.getLsbD i = (s.events.summary.getLsbD i || (i == 3 && l.any fun k => (s.table.mix k).passCaptures input))
  grows : EventsGrow s.events u.events

theorem Passed.nil (s : State) (input : PassInput) : Passed s s input [] := by constructor <;> simp [EventsGrow.refl]; rfl

theorem Passed.one {s : State} {k : Nat} (hk : k < s.table.mixes.length) (input : PassInput) : Passed s (s.mixAction input k) input [k] := by
  rw [State.mixAction_eq]
  constructor
  · rfl
  · simp
  · intro j
    simp only [State.withEvents_table, State.withLanes_table, State.withTable_table, MixTable.passMix_mix hk, List.mem_singleton]
    split
    · rename_i h
      rw [h]
    · rfl
  · simp
  · intro j hj
    simp only [State.withEvents_lanes, State.withLanes_lanes, List.getD_eq_getElem?_getD, List.getElem?_set, List.mem_singleton]
    by_cases h : j = k
    · subst h
      simp [hj]
    · rw [if_neg (fun e => h e.symm), if_neg h]
  · simp [MixTable.passMix_balance hk]
  · intro i
    simp only [State.withEvents_events, List.any_cons, List.any_nil, Bool.or_false]
    split <;> simp_all [EventUnit.raise_bit, Event.bit]
  · simp only [State.withEvents_events]
    exact .ite _ _ _

theorem Passed.trans {s u v : State} {input : PassInput} {k : Nat} {l : List Nat} (h : Passed s u input [k]) (g : Passed u v input l) (hk : k ∉ l) :
    Passed s v input (k :: l) where
  eq := by
    rw [g.eq, h.eq]
    rfl
  length := g.length.trans h.length
  mix := fun j => by
    rw [g.mix, h.mix]
    by_cases hj : j = k
    · subst hj
      simp [hk]
    · simp [hj]
  heldLength := g.heldLength.trans h.heldLength
  held := fun j hj => by
    rw [g.held j (by rw [h.heldLength]; exact hj), h.held j hj, h.mix]
    by_cases e : j = k
    · subst e
      simp [hk]
    · simp [e]
  balance := g.balance.trans h.balance
  bits := fun i => by
    have hl : (l.any fun x => (u.table.mix x).passCaptures input) = l.any fun x => (s.table.mix x).passCaptures input := by
      rw [Bool.eq_iff_iff, List.any_eq_true, List.any_eq_true]
      refine exists_congr fun x => and_congr_right fun hx => ?_
      rw [h.mix, if_neg (by rw [List.mem_singleton]; rintro rfl; exact hk hx)]
    rw [g.bits, h.bits, hl]
    simp only [List.any_cons, List.any_nil, Bool.or_false]
    cases s.events.summary.getLsbD i <;> cases i == 3 <;> simp
  grows := h.grows.trans g.grows

theorem Passed.all {l : List Nat} (hn : l.Nodup) {s : State} (hl : ∀ k ∈ l, k < s.table.mixes.length) (input : PassInput) :
    Passed s (s.passAll input l) input l := by
  induction l generalizing s with
  | nil => exact .nil s input
  | cons k l ih =>
    have h1 : Passed s (s.mixAction input k) input [k] := .one (hl k (by simp)) input
    rw [List.nodup_cons] at hn
    exact .trans h1 (ih hn.2 fun x hx => by rw [h1.length]; exact hl x (by simp [hx])) hn.1

/-- Working every mix once leaves each as its pass does, and the pairs of all (R80, R101). -/
theorem Passed.whole {s u : State} {input : PassInput} {l : List Nat} (h : Passed s u input l) (hl : l.Perm (List.range 16))
    (hm : s.table.mixes.length = 16) (hh : s.lanes.held.length = 16) :
    u.table.mixes = s.table.mixes.map (·.pass input) ∧ u.lanes.held = u.table.mixes.map (fun m => (m.yL, m.yR)) ∧
      (l.any fun k => (s.table.mix k).passCaptures input) = s.table.mixes.any (·.passCaptures input) := by
  have mem : ∀ j, j ∈ l ↔ j < 16 := fun j => by rw [hl.mem_iff, List.mem_range]
  have at16 : ∀ (t : MixTable) (j : Nat) (hj : j < t.mixes.length), t.mix j = t.mixes[j] := fun t j hj => by
    simp [MixTable.mix, List.getD_eq_getElem?_getD, hj]
  have e1 : u.table.mixes = s.table.mixes.map (·.pass input) := by
    refine List.ext_getElem (by simp [h.length]) fun j hj hj' => ?_
    have hs : j < s.table.mixes.length := by simpa using hj'
    have := h.mix j
    rw [if_pos ((mem j).mpr (by omega)), at16 _ _ hj, at16 _ _ hs] at this
    simpa using this
  refine ⟨e1, ?_, ?_⟩
  · rw [e1]
    refine List.ext_getElem (by simp [h.heldLength, hm, hh]) fun j hj hj' => ?_
    have hs : j < 16 := by simpa [hm] using hj'
    have := h.held j (by omega)
    rw [if_pos ((mem j).mpr hs), at16 _ _ (by omega)] at this
    simpa [List.getD_eq_getElem?_getD, hj] using this
  · rw [Bool.eq_iff_iff, List.any_eq_true, List.any_eq_true]
    constructor
    · rintro ⟨k, hk, hc⟩
      rw [mem] at hk
      rw [at16 _ _ (by omega)] at hc
      exact ⟨_, List.getElem_mem _, hc⟩
    · rintro ⟨m, hm', hc⟩
      obtain ⟨k, hk, rfl⟩ := List.getElem_of_mem hm'
      exact ⟨k, (mem k).mpr (by omega), by rw [at16 _ _ hk]; exact hc⟩

/-! ### A chain with nothing falling inside it (log 7) -/

theorem mixOrder_perm (plan : ChainPlan) : (mixOrder plan).Perm (List.range 16) := by
  unfold mixOrder
  split
  · rename_i h
    exact List.isPerm_iff.mp h
  · exact List.Perm.refl _

theorem mixOrder_nodup (plan : ChainPlan) : (mixOrder plan).Nodup := (mixOrder_perm plan).nodup_iff.mpr List.nodup_range

theorem mixOrder_lt {plan : ChainPlan} {k : Nat} (h : k ∈ mixOrder plan) : k < 16 := by
  rw [(mixOrder_perm plan).mem_iff, List.mem_range] at h
  exact h

theorem mixOrder_eq {plan : ChainPlan} (h : plan.order.Perm (List.range 16)) : mixOrder plan = plan.order := by
  unfold mixOrder
  rw [if_pos (List.isPerm_iff.mpr h)]

@[simp] theorem State.fallsAt_none {plan : ChainPlan} (h : plan.falls = []) (s : State) (point : ChainPoint) : s.fallsAt plan point = s := by
  simp [State.fallsAt, h]

/-- The one action of a plan falls at its own point, and at no other. -/
theorem State.fallsAt_one (s : State) (order : List Nat) (point at_ : ChainPoint) (action : StandingAction) :
    s.fallsAt { order := order, falls := [(point, action)] } at_ = if point = at_ then s.standing action else s := by
  by_cases h : point = at_ <;> simp [State.fallsAt, h]

/-- The mixes of a pass, worked up to one of them and then from it on. -/
theorem State.passMixes_append (plan : ChainPlan) (input : PassInput) (l r : List Nat) (s : State) :
    s.passMixes plan input (l ++ r) = (s.passMixes plan input l).passMixes plan input r := by
  induction l generalizing s with
  | nil => rfl
  | cons k l ih => exact ih _

/-- Mixes before which nothing falls are worked one after another. -/
theorem State.passMixes_clear {plan : ChainPlan} {l : List Nat} (h : ∀ k ∈ l, ∀ u : State, u.fallsAt plan (.mix k) = u) (s : State) (input : PassInput) :
    s.passMixes plan input l = s.passAll input l := by
  induction l generalizing s with
  | nil => rfl
  | cons k l ih =>
    rw [State.passMixes, h k (by simp), ih fun x hx => h x (by simp [hx])]
    rfl

theorem State.startPass_runs {s : State} (h : s.intake.power ≠ .quiet) {plan : ChainPlan} (hp : plan.falls = []) :
    s.startPass plan = (s.withTx { s.tx with passRan := true }).passAll s.passInput (mixOrder plan) := by
  unfold State.startPass
  split
  · rename_i hq
    exact absurd hq h
  · exact State.passMixes_clear (fun k _ u => State.fallsAt_none hp u _) _ _

theorem State.startPass_quiet {s : State} (h : s.intake.power = .quiet) (plan : ChainPlan) : s.startPass plan = s := by
  simp [State.startPass, h]

/-! ### What fade and pass leave (R31 stages 3 and 4) -/

/-- What the fade's step, the pass and the completion of POWER QUIET leave as it is. -/
structure PassKeeps (s u : State) : Prop where
  pending : u.pending = s.pending
  plans : u.plans = s.plans
  resetHeld : u.resetHeld = s.resetHeld
  rx : u.rx = s.rx
  tb : u.tb = s.tb
  store : u.store = s.store
  staging : u.staging = s.staging
  lane : u.lane = s.lane
  holding : u.intake.holding = s.intake.holding
  routes : u.lanes.routes = s.lanes.routes
  lastClocks : u.lanes.lastClocks = s.lanes.lastClocks
  heldFrame : u.tx.heldFrame = s.tx.heldFrame
  emitted : u.tx.emitted = s.tx.emitted
  cueMix : u.tx.cueMix = s.tx.cueMix
  cueLeft : u.tx.cueLeft = s.tx.cueLeft
  cueRight : u.tx.cueRight = s.tx.cueRight
  bits : ∀ i, i ≠ 2 → i ≠ 3 → u.events.summary.getLsbD i = s.events.summary.getLsbD i
  grows : EventsGrow s.events u.events

theorem PassKeeps.refl (s : State) : PassKeeps s s := by constructor <;> simp [EventsGrow.refl]

theorem PassKeeps.trans {s u v : State} (h : PassKeeps s u) (g : PassKeeps u v) : PassKeeps s v where
  pending := g.pending.trans h.pending
  plans := g.plans.trans h.plans
  resetHeld := g.resetHeld.trans h.resetHeld
  rx := g.rx.trans h.rx
  tb := g.tb.trans h.tb
  store := g.store.trans h.store
  staging := g.staging.trans h.staging
  lane := g.lane.trans h.lane
  holding := g.holding.trans h.holding
  routes := g.routes.trans h.routes
  lastClocks := g.lastClocks.trans h.lastClocks
  heldFrame := g.heldFrame.trans h.heldFrame
  emitted := g.emitted.trans h.emitted
  cueMix := g.cueMix.trans h.cueMix
  cueLeft := g.cueLeft.trans h.cueLeft
  cueRight := g.cueRight.trans h.cueRight
  bits := fun i h2 h3 => (g.bits i h2 h3).trans (h.bits i h2 h3)
  grows := h.grows.trans g.grows

theorem PassKeeps.fadeStep (s : State) : PassKeeps s s.fadeStep := by
  rw [State.fadeStep_eq]
  constructor <;> simp
  · intro i h2 _
    split <;> simp [EventUnit.raise_bit, Event.bit, h2]
  · exact .ite _ _ _

theorem PassKeeps.mixAction (s : State) (input : PassInput) (k : Nat) : PassKeeps s (s.mixAction input k) := by
  rw [State.mixAction_eq]
  constructor <;> simp
  · intro i _ h3
    split <;> simp [EventUnit.raise_bit, Event.bit, h3]
  · exact .ite _ _ _

theorem PassKeeps.passAll (s : State) (input : PassInput) (l : List Nat) : PassKeeps s (s.passAll input l) := by
  induction l generalizing s with
  | nil => exact .refl s
  | cons k l ih => exact .trans (.mixAction s input k) (ih _)

theorem PassKeeps.startPass {plan : ChainPlan} (hp : plan.falls = []) (s : State) : PassKeeps s (s.startPass plan) := by
  by_cases h : s.intake.power = .quiet
  · rw [State.startPass_quiet h]
    exact .refl s
  · rw [State.startPass_runs h hp]
    refine .trans (u := s.withTx { s.tx with passRan := true }) ?_ (.passAll _ _ _)
    constructor <;> simp [EventsGrow.refl]

theorem PassKeeps.completeQuiet (s : State) (begun : Nat) : PassKeeps s (s.completeQuiet begun) := by
  unfold State.completeQuiet
  split <;> constructor <;> simp [State.enterQuiet, State.completeCommand, OutputLanes.quiet, EventsGrow.refl]

theorem PassKeeps.withFreeIdx (s : State) (n : Nat) : PassKeeps s (s.withFreeIdx n) := by constructor <;> simp [EventsGrow.refl]

theorem PassKeeps.fadeAndPass {plan : ChainPlan} (hp : plan.falls = []) (s : State) (begun : Nat) : PassKeeps s (s.fadeAndPass plan begun) := by
  unfold State.fadeAndPass
  simp only [State.fallsAt_none hp]
  split
  · split
    · exact .trans (.trans (.trans (.fadeStep s) (.withFreeIdx _ _)) (.completeQuiet _ _)) (.startPass hp _)
    · exact .trans (.trans (.trans (.fadeStep s) (.withFreeIdx _ _)) (.startPass hp _)) (.completeQuiet _ _)
  · exact .trans (.fadeStep s) (.startPass hp _)

/-- One mix's action raises no LINK_SILENT. -/
theorem State.mixAction_bit2 (s : State) (input : PassInput) (k : Nat) :
    (s.mixAction input k).events.summary.getLsbD 2 = s.events.summary.getLsbD 2 := by
  rw [State.mixAction_eq]
  simp only [State.withEvents_events]
  split
  · rw [EventUnit.raise_bit, show (2 == Event.mixFault.bit) = false from rfl, Bool.or_false]
  · rfl

/-- What a pass leaves besides (R80): the fade, the intake, the Reply Queue, the lane frame and the choices drawn. -/
theorem State.passAll_keeps (s : State) (input : PassInput) (l : List Nat) :
    (s.passAll input l).fade = s.fade ∧ (s.passAll input l).intake = s.intake ∧ (s.passAll input l).replies = s.replies ∧
      (s.passAll input l).lanes.frame = s.lanes.frame ∧ (s.passAll input l).freeIdx = s.freeIdx ∧ (s.passAll input l).tx = s.tx ∧
      (s.passAll input l).events.summary.getLsbD 2 = s.events.summary.getLsbD 2 := by
  induction l generalizing s with
  | nil => exact ⟨rfl, rfl, rfl, rfl, rfl, rfl, rfl⟩
  | cons k l ih =>
    have one : ∀ u : State, u = s.mixAction input k →
        u.fade = s.fade ∧ u.intake = s.intake ∧ u.replies = s.replies ∧ u.lanes.frame = s.lanes.frame ∧ u.freeIdx = s.freeIdx ∧ u.tx = s.tx := by
      rintro u rfl
      rw [State.mixAction_eq]
      exact ⟨rfl, rfl, rfl, rfl, rfl, rfl⟩
    obtain ⟨o1, o2, o3, o4, o5, o6⟩ := one _ rfl
    obtain ⟨h1, h2, h3, h4, h5, h6, h7⟩ := ih (s.mixAction input k)
    exact ⟨h1.trans o1, h2.trans o2, h3.trans o3, h4.trans o4, h5.trans o5, h6.trans o6, h7.trans (State.mixAction_bit2 s input k)⟩

theorem State.startPass_keeps {plan : ChainPlan} (hp : plan.falls = []) (s : State) :
    (s.startPass plan).fade = s.fade ∧ (s.startPass plan).intake = s.intake ∧ (s.startPass plan).replies = s.replies ∧
      (s.startPass plan).lanes.frame = s.lanes.frame ∧ (s.startPass plan).freeIdx = s.freeIdx ∧
      (s.startPass plan).events.summary.getLsbD 2 = s.events.summary.getLsbD 2 := by
  by_cases h : s.intake.power = .quiet
  · rw [State.startPass_quiet h]
    exact ⟨rfl, rfl, rfl, rfl, rfl, rfl⟩
  · rw [State.startPass_runs h hp]
    obtain ⟨h1, h2, h3, h4, h5, -, h7⟩ := State.passAll_keeps (s.withTx { s.tx with passRan := true }) s.passInput (mixOrder plan)
    exact ⟨h1, h2, h3, h4, h5, h7⟩

theorem State.completeQuiet_keeps (s : State) (begun : Nat) :
    (s.completeQuiet begun).fade = s.fade ∧ (s.completeQuiet begun).table = s.table ∧ (s.completeQuiet begun).lanes = s.lanes.quiet begun ∧
      (s.completeQuiet begun).events = s.events ∧ (s.completeQuiet begun).tx = s.tx ∧ (s.completeQuiet begun).freeIdx = s.freeIdx ∧
      (s.completeQuiet begun).intake.power = .quiet := by
  unfold State.completeQuiet
  split <;> simp [State.enterQuiet, State.completeCommand]

/-- The fade makes its one step (R24). -/
theorem State.fadeAndPass_fade {plan : ChainPlan} (hp : plan.falls = []) (s : State) (begun : Nat) :
    (s.fadeAndPass plan begun).fade = s.fade.next s.store.bad s.store.good s.intake.power := by
  unfold State.fadeAndPass
  simp only [State.fallsAt_none hp]
  split
  · split <;> simp [(State.startPass_keeps hp _).1, (State.completeQuiet_keeps _ _).1, State.fadeStep_eq]
  · simp [(State.startPass_keeps hp _).1, State.fadeStep_eq]

/-- LINK_SILENT is raised by the fade's step into SHUT in RUN, and by nothing else (R25). -/
theorem State.fadeAndPass_bit2 {plan : ChainPlan} (hp : plan.falls = []) (s : State) (begun : Nat) :
    (s.fadeAndPass plan begun).events.summary.getLsbD 2 =
      (s.events.summary.getLsbD 2 || (s.fade.shuts s.store.bad s.store.good s.intake.power && s.intake.power == .run)) := by
  have step : s.fadeStep.events.summary.getLsbD 2 =
      (s.events.summary.getLsbD 2 || (s.fade.shuts s.store.bad s.store.good s.intake.power && s.intake.power == .run)) := by
    rw [State.fadeStep_eq]
    rcases hc : s.fade.shuts s.store.bad s.store.good s.intake.power && s.intake.power == .run <;> simp [EventUnit.raise_bit, Event.bit]
  unfold State.fadeAndPass
  simp only [State.fallsAt_none hp]
  split
  · split
    · rw [(State.startPass_keeps hp _).2.2.2.2.2, (State.completeQuiet_keeps _ _).2.2.2.1, State.withFreeIdx_events, step]
    · rw [(State.completeQuiet_keeps _ _).2.2.2.1, (State.startPass_keeps hp _).2.2.2.2.2, State.withFreeIdx_events, step]
  · rw [(State.startPass_keeps hp _).2.2.2.2.2, step]

/-- The power state after fade and pass: QUIET at the report of SHUT, otherwise as it was (R32, R167). -/
theorem State.fadeAndPass_power {plan : ChainPlan} (hp : plan.falls = []) (s : State) (begun : Nat) :
    (s.fadeAndPass plan begun).intake.power = if s.reportsShut then .quiet else s.intake.power := by
  unfold State.fadeAndPass
  simp only [State.fallsAt_none hp]
  split
  · split <;> simp [(State.startPass_keeps hp _).2.1, (State.completeQuiet_keeps _ _).2.2.2.2.2.2]
  · simp [(State.startPass_keeps hp _).2.1, State.fadeStep_eq]

/-- Without the report of SHUT: the fade's step, then the pass. -/
theorem State.fadeAndPass_runs {plan : ChainPlan} (hp : plan.falls = []) {s : State} (h : s.reportsShut = false) (begun : Nat) :
    s.fadeAndPass plan begun = s.fadeStep.startPass plan := by
  unfold State.fadeAndPass
  simp [State.fallsAt_none hp, h]

/-! ### The whole delivery -/

/-- The unit as a delivery's fade and pass find it (R31 stages 1 and 2). -/
def State.settled (s : State) (cls : DeliveryClass) (frame : Option ReceivedFrame) : State :=
  (((s.settleLink cls frame).laneDeliver cls frame).commitStage).applySources cls frame

theorem State.deliver_eq {plan : ChainPlan} (hp : plan.falls = []) (s : State) (cls : DeliveryClass) (frame : Option ReceivedFrame) :
    s.deliver plan cls frame = ((s.settled cls frame).fadeAndPass plan (s.begunAtDelivery frame.isSome)).holdDelivered cls frame := by
  unfold State.deliver State.settleDelivery State.settled
  simp only [State.fallsAt_none hp]

theorem State.commitStage_keeps (s : State) :
    s.commitStage.rx = s.rx ∧ s.commitStage.store = s.store ∧ s.commitStage.fade = s.fade ∧ s.commitStage.tb = s.tb ∧ s.commitStage.tx = s.tx ∧
      s.commitStage.lane = s.lane ∧ s.commitStage.lanes = s.lanes ∧ s.commitStage.replies = s.replies ∧ s.commitStage.intake = s.intake ∧
      s.commitStage.pending = s.pending ∧ s.commitStage.resetHeld = s.resetHeld ∧ s.commitStage.freeIdx = s.freeIdx ∧
      (∀ i, i ≠ 4 → s.commitStage.events.summary.getLsbD i = s.events.summary.getLsbD i) ∧ EventsGrow s.events s.commitStage.events := by
  rw [State.commitStage_eq]
  split
  · simp [EventsGrow.refl]
  · split
    · simp only [State.fire_eq]
      simp [EventUnit.raise_bit, Event.bit, EventsGrow.raise]
      intro i h h4
      exact absurd h4 h
    · simp [EventsGrow.refl]

/-- What the stages before the fade leave as it is. -/
theorem State.settled_keeps (s : State) (cls : DeliveryClass) (frame : Option ReceivedFrame) :
    (s.settled cls frame).replies = s.replies ∧ (s.settled cls frame).fade = s.fade ∧ (s.settled cls frame).lanes = s.lanes ∧
      (s.settled cls frame).tx = s.tx ∧ (s.settled cls frame).intake.power = s.intake.power ∧
      (s.settled cls frame).intake.executing = s.intake.executing ∧ (s.settled cls frame).freeIdx = s.freeIdx ∧
      (s.settled cls frame).pending = s.pending ∧ (s.settled cls frame).resetHeld = s.resetHeld := by
  obtain ⟨-, -, c3, -, c5, -, c7, c8, c9, c10, c11, c12, -⟩ := State.commitStage_keeps ((s.settleLink cls frame).laneDeliver cls frame)
  have l := LaneKeeps.laneDeliver (s.settleLink cls frame) cls frame
  simp only [State.settled, State.applySources, State.withStore_replies, State.withStore_fade, State.withStore_lanes, State.withStore_tx,
    State.withStore_intake, State.withStore_freeIdx, State.withStore_pending, State.withStore_resetHeld, c3, c5, c7, c8, c9, c10, c11, c12, l.replies, l.fade,
    l.lanes, l.tx, l.power, l.executing, l.freeIdx, l.pending, l.resetHeld]
  simp [State.settleLink_eq]

theorem State.startPass_begun {plan : ChainPlan} (hp : plan.falls = []) (s : State) : (s.startPass plan).begun = s.begun := by
  have all : ∀ (l : List Nat) (u : State) (input : PassInput), (u.passAll input l).begun = u.begun := by
    intro l
    induction l with
    | nil => exact fun _ _ => rfl
    | cons k l ih => exact fun u input => (ih _ _).trans (show (u.mixAction input k).begun = u.begun by rw [State.mixAction_eq]; rfl)
  by_cases h : s.intake.power = .quiet
  · rw [State.startPass_quiet h]
  · rw [State.startPass_runs h hp, all]
    rfl

/-- A delivery in which nothing falls notes how many positions of the lane frame have begun at its moment (R8, R137). -/
theorem State.deliver_begun {plan : ChainPlan} (hp : plan.falls = []) (s : State) (cls : DeliveryClass) (frame : Option ReceivedFrame) :
    (s.deliver plan cls frame).begun = s.begunAtDelivery frame.isSome := by
  have hs : (s.settled cls frame).begun = s.begunAtDelivery frame.isSome := by
    have hc : ∀ u : State, u.commitStage.begun = u.begun := by
      intro u
      rw [State.commitStage_eq]
      split
      · rfl
      · split
        · rw [State.fire_eq]; rfl
        · rfl
    simp only [State.settled, State.applySources, State.withStore_begun, hc, (LaneKeeps.laneDeliver _ cls frame).begun]
    rw [State.settleLink_eq]
    rfl
  have hf : ∀ u : State, u.fadeStep.begun = u.begun := by
    intro u
    rw [State.fadeStep_eq]
    rfl
  have hq : ∀ (u : State) (begun : Nat), (u.completeQuiet begun).begun = begun := by
    intro u begun
    unfold State.completeQuiet
    split <;> rfl
  rw [State.deliver_eq hp]
  show (State.fadeAndPass _ plan _).begun = _
  unfold State.fadeAndPass
  simp only [State.fallsAt_none hp]
  split
  · split <;> simp [State.startPass_begun hp, hq]
  · rw [State.startPass_begun hp, hf, hs]

/-- The local frame number, counters 1 to 5 and the marks of the sync state, as the first stage settles them; counters 6 to 8 are the lane's. -/
theorem State.deliver_rx {plan : ChainPlan} (hp : plan.falls = []) (s : State) (cls : DeliveryClass) (frame : Option ReceivedFrame) :
    (s.deliver plan cls frame).rx =
      { s.rx with
        localFrame := nextFrameNumber s.rx.localFrame cls frame
        counters :=
          { s.rx.counters.atDelivery cls frame s.rx.missed with
            laneFramingErrors := (s.deliver plan cls frame).rx.counters.laneFramingErrors
            laneDrops := (s.deliver plan cls frame).rx.counters.laneDrops
            messageCheckErrors := (s.deliver plan cls frame).rx.counters.messageCheckErrors }
        accepted := if frame.isSome then none else s.rx.accepted
        lockedDue := if frame.isSome then false else s.rx.lockedDue
        missed := if frame.isSome then s.rx.missed else false
        lostDue := if frame.isSome then s.rx.lostDue else false } := by
  have h : (s.deliver plan cls frame).rx = ((s.settleLink cls frame).laneDeliver cls frame).rx := by
    rw [State.deliver_eq hp]
    simp [State.holdDelivered, (PassKeeps.fadeAndPass hp _ _).rx, State.settled, State.applySources, (State.commitStage_keeps _).1]
  rw [h, (LaneKeeps.laneDeliver _ cls frame).rx]
  simp [State.settleLink_eq]

/-- The period's delivery is made (R8). -/
theorem State.deliver_tb {plan : ChainPlan} (hp : plan.falls = []) (s : State) (cls : DeliveryClass) (frame : Option ReceivedFrame) : (s.deliver plan cls frame).tb = { s.tb with owed := false } := by
  rw [State.deliver_eq hp]
  simp [State.holdDelivered, (PassKeeps.fadeAndPass hp _ _).tb, State.settled, State.applySources, (State.commitStage_keeps _).2.2.2.1,
    (LaneKeeps.laneDeliver _ cls frame).tb, State.settleLink_eq]

/-- The Source Store after a delivery (R21, R22). -/
theorem State.deliver_store {plan : ChainPlan} (hp : plan.falls = []) (s : State) (cls : DeliveryClass) (frame : Option ReceivedFrame) :
    (s.deliver plan cls frame).store = s.store.apply cls ((frame.map (·.slots)).getD []) := by
  rw [State.deliver_eq hp]
  simp [State.holdDelivered, (PassKeeps.fadeAndPass hp _ _).store, State.settled, State.applySources, (State.commitStage_keeps _).2.1,
    (LaneKeeps.laneDeliver _ cls frame).store, State.settleLink_eq]

/-- The fade after a delivery (R24): one step over the counts the delivery left. -/
theorem State.deliver_fade {plan : ChainPlan} (hp : plan.falls = []) (s : State) (cls : DeliveryClass) (frame : Option ReceivedFrame) :
    (s.deliver plan cls frame).fade = s.fade.next (s.deliver plan cls frame).store.bad (s.deliver plan cls frame).store.good s.intake.power := by
  rw [State.deliver_store hp, State.deliver_eq hp]
  simp [State.holdDelivered, State.fadeAndPass_fade hp, State.settled, State.applySources, (State.commitStage_keeps _).2.1, (State.commitStage_keeps _).2.2.1,
    (State.commitStage_keeps _).2.2.2.2.2.2.2.2.1, (LaneKeeps.laneDeliver _ cls frame).store, (LaneKeeps.laneDeliver _ cls frame).fade,
    (LaneKeeps.laneDeliver _ cls frame).power, State.settleLink_eq]

/-- The frame held for the Link Transmitter (R9). -/
theorem State.deliver_heldFrame {plan : ChainPlan} (hp : plan.falls = []) (s : State) (cls : DeliveryClass) (frame : Option ReceivedFrame) :
    (s.deliver plan cls frame).tx.heldFrame = frame.map fun f => { cls := cls, number := f.number, flags := f.flags, slots := f.slots } := by
  rw [State.deliver_eq hp]
  simp [State.holdDelivered]

/-- What the commit stage of a delivery finds: the tables and the block of before, and the local frame number of the delivery (R31, R132). -/
theorem State.commitStage_finds {plan : ChainPlan} (hp : plan.falls = []) (s : State) (cls : DeliveryClass) (frame : Option ReceivedFrame) :
    ((s.settleLink cls frame).laneDeliver cls frame).table = s.table ∧ ((s.settleLink cls frame).laneDeliver cls frame).staging = s.staging ∧
      ((s.settleLink cls frame).laneDeliver cls frame).rx.localFrame = (s.deliver plan cls frame).rx.localFrame := by
  refine ⟨?_, ?_, ?_⟩
  · simp [(LaneKeeps.laneDeliver _ cls frame).table, State.settleLink_eq]
  · simp [(LaneKeeps.laneDeliver _ cls frame).staging, State.settleLink_eq]
  · rw [State.deliver_eq hp]
    simp [State.holdDelivered, (PassKeeps.fadeAndPass hp _ _).rx, State.settled, State.applySources, (State.commitStage_keeps _).1]

/-- What a delivery raises (R13, R25, R109, R127, R150 to R153, R160) and what the latch becomes (R172). -/
theorem State.deliver_grows {plan : ChainPlan} (hp : plan.falls = []) (s : State) (cls : DeliveryClass) (frame : Option ReceivedFrame) :
    EventsGrow s.events (s.deliver plan cls frame).events := by
  have link : EventsGrow s.events (s.settleLink cls frame).events := by
    rw [State.settleLink_eq]
    simp only [State.withEvents_events]
    split
    · exact .raise _ _
    · exact .ite _ _ _
  have h := ((link.trans (LaneKeeps.laneDeliver _ cls frame).grows).trans (State.commitStage_keeps _).2.2.2.2.2.2.2.2.2.2.2.2.2).trans
    (PassKeeps.fadeAndPass hp (s.settled cls frame) (s.begunAtDelivery frame.isSome)).grows
  rw [State.deliver_eq hp]
  exact h

/-- LINK_LOCKED and LINK_LOST are raised by the first stage and by nothing else (R13). -/
theorem State.deliver_bits {plan : ChainPlan} (hp : plan.falls = []) (s : State) (cls : DeliveryClass) (frame : Option ReceivedFrame) :
    (s.deliver plan cls frame).events.summary.getLsbD 0 = (s.events.summary.getLsbD 0 || frame.isSome && s.rx.lockedDue) ∧
      (s.deliver plan cls frame).events.summary.getLsbD 1 = (s.events.summary.getLsbD 1 || !frame.isSome && s.rx.lostDue) := by
  have h : ∀ i, i ≤ 1 → (s.deliver plan cls frame).events.summary.getLsbD i = (s.settleLink cls frame).events.summary.getLsbD i := by
    intro i hi
    rw [State.deliver_eq hp]
    simp only [State.holdDelivered, State.withTb_events, State.withTx_events]
    rw [(PassKeeps.fadeAndPass hp _ _).bits i (by omega) (by omega)]
    simp only [State.settled, State.applySources, State.withStore_events]
    rw [(State.commitStage_keeps _).2.2.2.2.2.2.2.2.2.2.2.2.1 i (by omega), (LaneKeeps.laneDeliver _ cls frame).bits i (by omega)]
  rw [h 0 (by omega), h 1 (by omega), State.settleLink_eq]
  have b1 : ∀ e : Event, (s.events.raise e).summary.getLsbD 0 = (s.events.summary.getLsbD 0 || 0 == e.bit) := fun e => EventUnit.raise_bit _ e 0
  have b2 : ∀ e : Event, (s.events.raise e).summary.getLsbD 1 = (s.events.summary.getLsbD 1 || 1 == e.bit) := fun e => EventUnit.raise_bit _ e 1
  simp only [State.withEvents_events]
  rcases frame.isSome <;> rcases s.rx.lockedDue <;> rcases s.rx.lostDue <;>
    simp only [Bool.and_true, Bool.and_false, Bool.not_true, Bool.not_false, Bool.false_eq_true, if_true, if_false, b1, b2, Event.bit, beq_self_eq_true,
      Bool.or_true, Bool.or_false] <;> simp

/-! ### When a delivery comes -/

/-- The frame that a delivery step delivers. -/
def frameOf : Instr → Option ReceivedFrame
  | .delivery line => some (decodeBody line)
  | _ => none

/-- The class that a delivery step delivers (R2, R8). -/
def classOf : Instr → DeliveryClass
  | .delivery line => (decodeBody line).cls
  | _ => .nothing

theorem exec_frameEnds {s : State} (h : s.frameEnds) (line : LineBody) :
    exec (.delivery line) s = .next (s.deliver s.plan (decodeBody line).cls (some (decodeBody line))) := by
  obtain ⟨hr, ho, pos, hp, hle⟩ := h
  have hf : s.frameInPeriod = true := by simpa [State.frameInPeriod, hp] using hle
  simp [exec, execDelivery, hr, State.deliverFrame, ho, hf]

theorem exec_noneDue {s : State} (h : s.noneDue) : exec .deliveryPoint s = .next (s.deliver s.plan .nothing none) := by
  obtain ⟨hr, ho, hp⟩ := h
  have hf : s.frameInPeriod = false := by
    unfold State.frameInPeriod
    split
    · rename_i pos hpos
      simpa using hp pos hpos
    · rfl
  simp [exec, execDeliveryPoint, hr, State.deliverNone, ho, hf]

/-- A delivery step whose delivery comes makes it (R8). -/
theorem exec_delivers {s : State} {i : Instr} {cls : DeliveryClass} (h : s.delivers i cls) :
    exec i s = .next (s.deliver s.plan cls (frameOf i)) ∧ s.plan.falls = [] ∧ cls = classOf i := by
  unfold State.delivers at h
  split at h
  · obtain ⟨h, hp, rfl⟩ := h
    exact ⟨exec_frameEnds h _, hp, rfl⟩
  · obtain ⟨h, hp, rfl⟩ := h
    exact ⟨exec_noneDue h, hp, rfl⟩
  · exact h.elim

/-- A delivery step inside which one action falls (log 7). -/
theorem exec_deliversWith {s : State} {i : Instr} {cls : DeliveryClass} {order : List Nat} {point : ChainPoint} {action : StandingAction}
    (h : s.deliversWith i cls order point action) :
    exec i s = .next (s.deliver { order := order, falls := [(point, action)] } cls (frameOf i)) ∧ cls = classOf i := by
  obtain ⟨-, -, hp, h⟩ := h
  rw [← hp]
  split at h
  · obtain ⟨h, rfl⟩ := h
    exact ⟨exec_frameEnds h _, rfl⟩
  · obtain ⟨h, rfl⟩ := h
    exact ⟨exec_noneDue h, rfl⟩
  · exact h.elim

end Sys2Proof.Machine
end

