-- ==== Sys2Proof/Laws/Link.lean ====
section
/-!
SUPPORT. What finding or missing a sync (Machine/Link.lean) can change: the Link Receiver and the Frame Timebase.
-/

namespace Sys2Proof.Machine

/-- The window is 4 bit-times either side of the expected position (R3). -/
theorem LinkReceiver.inWindow_iff (r : LinkReceiver) (pos : Nat) : r.inWindow pos = true ↔ pos ≤ r.expected + 4 ∧ r.expected ≤ pos + 4 := by
  simp [LinkReceiver.inWindow]

/-! ### Moments noted (log 26) -/

@[simp] theorem State.note_pending (s : State) (pos : Nat) : (s.note pos).pending = s.pending := rfl
@[simp] theorem State.note_plans (s : State) (pos : Nat) : (s.note pos).plans = s.plans := rfl
@[simp] theorem State.note_resetHeld (s : State) (pos : Nat) : (s.note pos).resetHeld = s.resetHeld := rfl
@[simp] theorem State.note_freeIdx (s : State) (pos : Nat) : (s.note pos).freeIdx = s.freeIdx := rfl
@[simp] theorem State.note_rx (s : State) (pos : Nat) : (s.note pos).rx = s.rx := rfl
@[simp] theorem State.note_tb (s : State) (pos : Nat) : (s.note pos).tb = s.tb := rfl
@[simp] theorem State.note_tx (s : State) (pos : Nat) : (s.note pos).tx = s.tx := rfl
@[simp] theorem State.note_store (s : State) (pos : Nat) : (s.note pos).store = s.store := rfl
@[simp] theorem State.note_fade (s : State) (pos : Nat) : (s.note pos).fade = s.fade := rfl
@[simp] theorem State.note_table (s : State) (pos : Nat) : (s.note pos).table = s.table := rfl
@[simp] theorem State.note_staging (s : State) (pos : Nat) : (s.note pos).staging = s.staging := rfl
@[simp] theorem State.note_lanes (s : State) (pos : Nat) : (s.note pos).lanes = s.lanes := rfl
@[simp] theorem State.note_lane (s : State) (pos : Nat) : (s.note pos).lane = s.lane := rfl
@[simp] theorem State.note_replies (s : State) (pos : Nat) : (s.note pos).replies = s.replies := rfl
@[simp] theorem State.note_intake (s : State) (pos : Nat) : (s.note pos).intake = s.intake := rfl
@[simp] theorem State.note_events (s : State) (pos : Nat) : (s.note pos).events = s.events := rfl
@[simp] theorem State.note_begun (s : State) (pos : Nat) : (s.note pos).begun = max (min 8 s.begun) (s.begunAt pos) := rfl

/-! ### Syncs found and missing -/

theorem State.lock_eq (s : State) (pos : Nat) : s.lock pos = (s.withRx (s.lock pos).rx).withTb (s.lock pos).tb := rfl

theorem State.keepLock_eq (s : State) (pos : Nat) : s.keepLock pos = (s.withRx (s.keepLock pos).rx).withTb (s.keepLock pos).tb := rfl

theorem State.lose_eq (s : State) : s.lose = ((s.withRx s.lose.rx).withTb s.lose.tb).withBegun s.lose.begun := rfl

theorem State.miss_eq (s : State) (count : Nat) :
    s.miss count = ((s.withRx (s.miss count).rx).withTb (s.miss count).tb).withBegun (s.miss count).begun := rfl

/-- A sync taken changes the Link Receiver and the timebase, and nothing else (R3 to R7, R14, R15). -/
theorem State.takeSync_eq (s : State) (pos : Nat) : s.takeSync pos = (s.withRx (s.takeSync pos).rx).withTb (s.takeSync pos).tb := by
  unfold State.takeSync
  split
  · rfl
  · split
    · split
      · rfl
      · exact State.lock_eq s pos
    · rfl
  · split
    · exact State.keepLock_eq s pos
    · rfl
  · split
    · exact State.keepLock_eq s pos
    · rfl

/-- A sync found changes the Link Receiver and the timebase, notes its moment, and does nothing else (R3 to R7, R14, R15). -/
theorem State.syncFound_eq (s : State) (pos : Nat) :
    s.syncFound pos = ((s.withRx (s.syncFound pos).rx).withTb (s.syncFound pos).tb).withBegun (max (min 8 s.begun) (s.begunAt pos)) := by
  have h := State.takeSync_eq (s.note pos) pos
  unfold State.syncFound
  rw [h]
  rfl

/-- A sync missing changes the Link Receiver and the timebase, notes the moment its window closes, and does nothing else (R3, R5 to R7, R14). -/
theorem State.syncMissing_eq (s : State) :
    s.syncMissing = ((s.withRx s.syncMissing.rx).withTb s.syncMissing.tb).withBegun s.syncMissing.begun := by
  unfold State.syncMissing
  split
  · rfl
  · rfl
  · exact State.miss_eq s 1
  · split
    · exact State.miss_eq s _
    · exact State.lose_eq s

end Sys2Proof.Machine
end

