-- ==== Sys2Proof/Laws/PerInstr.lean ====
section
/-!
SUPPORT. Per row of the table: a message of the row's KIND and payload is that row and no other, and a row that is no command is no message's row.
-/

namespace Sys2Proof.Laws.RowOfMessage

/-- The row that a message of this row's KIND and of a payload of this row is, is this row (section 12.2); a row that is no command is the row of no message. -/
def Statement (i : Instr) : Prop :=
  (∀ kind payload c, commandOf i = some (kind, c) → i.ownPayload payload = true → rowOf kind payload c = i) ∧
    (commandOf i = none → ∀ kind payload c, rowOf kind payload c ≠ i)

/-- A message's row is a command. -/
theorem commandOf_rowOf (kind : Byte) (payload : List Byte) (c : CommandSource) : (commandOf (rowOf kind payload c)).isSome = true := by
  unfold rowOf
  repeat' split
  all_goals rfl

/-- A row that is no command keeps the statement. -/
theorem of_none {i : Instr} (h : commandOf i = none) : Statement i := by
  refine ⟨fun kind payload c hc => ?_, fun _ kind payload c hr => ?_⟩
  · rw [h] at hc
    cases hc
  · have hs := commandOf_rowOf kind payload c
    rw [hr, h] at hs
    cases hs

/-- A command row keeps the statement where its own messages are its row. -/
theorem of_some {i : Instr} {x : Byte} {y : CommandSource} (h : commandOf i = some (x, y)) (hr : ∀ payload, i.ownPayload payload = true → rowOf x payload y = i) :
    Statement i := by
  refine ⟨fun kind payload c hc hp => ?_, fun hn => ?_⟩
  · rw [h] at hc
    cases hc
    exact hr payload hp
  · rw [h] at hn
    cases hn

theorem powerOn : Statement .powerOn := of_none rfl

theorem resetAssert : Statement .resetAssert := of_none rfl

theorem syncFound (pos : Nat) : Statement (.syncFound pos) := of_none rfl

theorem syncMissing : Statement .syncMissing := of_none rfl

theorem linkLocked (pos : Nat) : Statement (.linkLocked pos) := of_none rfl

theorem linkLost : Statement .linkLost := of_none rfl

theorem delivery (line : LineBody) : Statement (.delivery line) := of_none rfl

theorem deliveryPoint : Statement .deliveryPoint := of_none rfl

theorem commitFire : Statement .commitFire := of_none rfl

theorem powerQuietComplete : Statement .powerQuietComplete := of_none rfl

theorem talkHoldExpiry (mix : Nat) : Statement (.talkHoldExpiry mix) := of_none rfl

theorem enumerate (src tag n : Byte) (check : BitVec 16) : Statement (.enumerate src tag n check) := of_none rfl

theorem frameEvent : Statement .frameEvent := of_none rfl

theorem noticeQueue : Statement .noticeQueue := of_none rfl

theorem identify (c : CommandSource) : Statement (.identify c) := of_some rfl fun _ _ => rfl

theorem statusRead (c : CommandSource) : Statement (.statusRead c) := of_some rfl fun _ _ => rfl

theorem statusPeek (c : CommandSource) : Statement (.statusPeek c) := of_some rfl fun _ _ => rfl

theorem unitSetup (c : CommandSource) : Statement (.unitSetup c) := of_some rfl fun _ _ => rfl

theorem eventAck (c : CommandSource) : Statement (.eventAck c) := of_some rfl fun _ _ => rfl

theorem linkCounters (c : CommandSource) : Statement (.linkCounters c) := of_some rfl fun _ _ => rfl

theorem mixWrite (c : CommandSource) : Statement (.mixWrite c) := of_some rfl fun payload hp => by simp_all [Instr.ownPayload, rowOf]

theorem mixWriteStaged (c : CommandSource) : Statement (.mixWriteStaged c) := of_some rfl fun payload hp => by simp_all [Instr.ownPayload, rowOf]

theorem mixRead (c : CommandSource) : Statement (.mixRead c) := of_some rfl fun _ _ => rfl

theorem entryWrite (c : CommandSource) : Statement (.entryWrite c) := of_some rfl fun payload hp => by simp_all [Instr.ownPayload, rowOf]

theorem entryWriteStaged (c : CommandSource) : Statement (.entryWriteStaged c) := of_some rfl fun payload hp => by simp_all [Instr.ownPayload, rowOf]

theorem entryRemove (c : CommandSource) : Statement (.entryRemove c) := of_some rfl fun payload hp => by simp_all [Instr.ownPayload, rowOf]

theorem entryRemoveStaged (c : CommandSource) : Statement (.entryRemoveStaged c) := of_some rfl fun payload hp => by simp_all [Instr.ownPayload, rowOf]

theorem mixClear (c : CommandSource) : Statement (.mixClear c) := of_some rfl fun payload hp => by simp_all [Instr.ownPayload, rowOf]

theorem mixClearStaged (c : CommandSource) : Statement (.mixClearStaged c) := of_some rfl fun payload hp => by simp_all [Instr.ownPayload, rowOf]

theorem entryRead (c : CommandSource) : Statement (.entryRead c) := of_some rfl fun _ _ => rfl

theorem groupMute (c : CommandSource) : Statement (.groupMute c) := of_some rfl fun payload hp => by simp_all [Instr.ownPayload, rowOf]

theorem groupMuteStaged (c : CommandSource) : Statement (.groupMuteStaged c) := of_some rfl fun payload hp => by simp_all [Instr.ownPayload, rowOf]

theorem routeWrite (c : CommandSource) : Statement (.routeWrite c) := of_some rfl fun _ _ => rfl

theorem routeRead (c : CommandSource) : Statement (.routeRead c) := of_some rfl fun _ _ => rfl

theorem cueSelect (c : CommandSource) : Statement (.cueSelect c) := of_some rfl fun _ _ => rfl

theorem commitAtFrame (c : CommandSource) : Statement (.commitAtFrame c) := of_some rfl fun payload hp => by simp_all [Instr.ownPayload, rowOf]

theorem commitNext (c : CommandSource) : Statement (.commitNext c) := of_some rfl fun payload hp => by simp_all [Instr.ownPayload, rowOf]

theorem cancel (c : CommandSource) : Statement (.cancel c) := of_some rfl fun _ _ => rfl

theorem discard (c : CommandSource) : Statement (.discard c) := of_some rfl fun _ _ => rfl

theorem flagsRead (c : CommandSource) : Statement (.flagsRead c) := of_some rfl fun _ _ => rfl

theorem flagsClear (c : CommandSource) : Statement (.flagsClear c) := of_some rfl fun _ _ => rfl

theorem powerQuiet (c : CommandSource) : Statement (.powerQuiet c) := of_some rfl fun payload hp => by simp_all [Instr.ownPayload, rowOf]

theorem powerRun (c : CommandSource) : Statement (.powerRun c) := of_some rfl fun payload hp => by simp_all [Instr.ownPayload, rowOf]

theorem unitReset (c : CommandSource) : Statement (.unitReset c) := of_some rfl fun _ _ => rfl

/-- UNKNOWN_COMMAND's KIND is none of the catalogue (R162). -/
theorem unknownCommand (kind : Byte) (c : CommandSource) : Statement (.unknownCommand kind c) := by
  refine of_some rfl fun payload hp => ?_
  simp only [Instr.ownPayload, isCommandKind, Bool.not_eq_true', Bool.and_eq_false_iff, decide_eq_false_iff_not, not_le] at hp
  unfold rowOf
  split <;> first | omega | rfl

end Sys2Proof.Laws.RowOfMessage
end

