-- ==== Sys2Proof/Laws/Transmit.lean ====
section
/-!
SUPPORT. What the Lane Arbiter and the frame event (Machine/Transmit.lean) can change.
-/

namespace Sys2Proof.Machine

/-- The arbiter changes the Lane Controller and the Reply Queue, and nothing else (R156). -/
theorem State.arbitrate_eq (s : State) :
    s.arbitrate.1 = (s.withLane s.arbitrate.1.lane).withReplies s.arbitrate.1.replies := by
  unfold State.arbitrate
  split
  · rfl
  · split <;> rfl
  · unfold State.arbitrateIdle
    split
    · rfl
    · rfl
    · rfl
    · split <;> rfl

/-- The frames begun at a frame event (R16 to R18, R139): the arbiter's choice, the emitted frame and the lane frame. -/
theorem State.beginFrames_eq (s : State) :
    s.beginFrames =
      ((((s.withLane s.arbitrate.1.lane).withReplies s.arbitrate.1.replies).withTx
          { s.tx with emitted := some (s.frameBegun s.arbitrate.2.1 s.arbitrate.2.2), heldFrame := none, passRan := false }).withLanes
        (s.lanes.beginFrame s.intake.power)).withBegun 1 := by
  unfold State.beginFrames
  simp only
  rw [State.arbitrate_eq s]
  rfl

/-- The frame event of a period whose delivery is made (R14). -/
theorem State.endPeriod_eq {s : State} (h : s.tb.owed = false) :
    s.endPeriod =
      ((s.beginFrames.withLanes { s.lanes.beginFrame s.intake.power with lastClocks := s.tb.laneClocks }).withTb s.tb.nextPeriod).withPlans s.plans.tail := by
  unfold State.endPeriod
  simp only [h, Bool.false_eq_true, if_false]
  rw [State.beginFrames_eq]
  rfl

/-- A frame event that ends a period (R14). -/
theorem exec_frameEvent {s : State} (h : s.eventComes) : exec .frameEvent s = .next s.endPeriod := by
  obtain ⟨hr, hrel, hd⟩ := h
  have he : s.eventDue = true := by
    unfold State.eventDue State.follow
    rcases hd with hd | hd | hd | hd <;> simp [hd]
  simp [exec, execFrameEvent, hr, State.frameEvent, hrel, he]

/-- The reserved count never grows as a frame is emitted, and one reservation is released (R152). -/
theorem reservedFrames_advanceHead (hold : List HoldMessage) : reservedFrames (advanceHead hold) ≤ reservedFrames hold := by
  cases hold with
  | nil => exact Nat.le_refl _
  | cons m rest =>
    simp only [advanceHead]
    split
    · simp [reservedFrames]
      omega
    · simp [reservedFrames]

end Sys2Proof.Machine
end

