-- ==== Sys2Proof/Laws/Steps.lean ====
section
/-!
SUPPORT. One induction for every invariant: a property that each change of the unit keeps is kept by every step.
-/

namespace Sys2Proof.Machine

/-! ### What falls and what passes inside a delivery -/

/-- A property that every change from the fade's step to the completion of POWER QUIET keeps: what falls (R161, R173), and the pass (R80). -/
structure PassClosed (P : State → Prop) : Prop where
  take : ∀ u : State, P u → P u.takeWaiting
  notice : ∀ u : State, u.events.latch = true → u.noticeQueued = false → u.hasPlace = true → P u → P u.queueNotice
  ran : ∀ u : State, P u → P (u.withTx { u.tx with passRan := true })
  mix : ∀ (u : State) (input : PassInput) (k : Nat), k < 16 → P u → P (u.mixAction input k)

theorem State.offerNotice_keeps {P : State → Prop}
    (h : ∀ u : State, u.events.latch = true → u.noticeQueued = false → u.hasPlace = true → P u → P u.queueNotice) {s : State} (hs : P s) :
    P s.offerNotice := by
  unfold State.offerNotice
  split
  · rename_i hn
    exact h s hn.1 hn.2.1 hn.2.2 hs
  · exact hs

theorem State.fallsAt_keeps {P : State → Prop} (h : PassClosed P) {s : State} (hs : P s) (plan : ChainPlan) (point : ChainPoint) :
    P (s.fallsAt plan point) := by
  have all : ∀ (l : List (ChainPoint × StandingAction)) (u : State), P u → P (l.foldl (fun v fall => v.standing fall.2) u) := by
    intro l
    induction l with
    | nil => exact fun _ hu => hu
    | cons x l ih =>
      intro u hu
      obtain ⟨_, _ | _⟩ := x
      · exact ih _ (h.take u hu)
      · exact ih _ (State.offerNotice_keeps h.notice hu)
  exact all _ s hs

theorem State.passMixes_keeps {P : State → Prop} (h : PassClosed P) (plan : ChainPlan) (input : PassInput) {l : List Nat} (hl : ∀ k ∈ l, k < 16) {s : State}
    (hs : P s) : P (s.passMixes plan input l) := by
  induction l generalizing s with
  | nil => exact hs
  | cons k l ih => exact ih (fun x hx => hl x (by simp [hx])) (h.mix _ input k (hl k (by simp)) (State.fallsAt_keeps h hs plan _))

theorem State.startPass_closed {P : State → Prop} (h : PassClosed P) (plan : ChainPlan) {s : State} (hs : P s) : P (s.startPass plan) := by
  unfold State.startPass
  split
  · exact hs
  · exact State.passMixes_keeps h plan _ (fun k hk => mixOrder_lt hk) (h.ran s hs)

/-! ### The whole delivery -/

/-- A property that every change inside a delivery keeps (R9, R31). -/
structure DeliveryClosed (P : State → Prop) : Prop extends PassClosed P where
  link : ∀ (u : State) (cls : DeliveryClass) (frame : Option ReceivedFrame), P u → P (u.settleLink cls frame)
  lane : ∀ (u : State) (cls : DeliveryClass) (frame : Option ReceivedFrame), P u → P (u.laneDeliver cls frame)
  commit : ∀ u : State, P u → P u.commitStage
  sources : ∀ (u : State) (cls : DeliveryClass) (frame : Option ReceivedFrame), (∀ f, frame = some f → ∃ line, f = decodeBody line) → P u →
    P (u.applySources cls frame)
  fade : ∀ u : State, u.reportsShut = false → P u → P u.fadeStep
  shut : ∀ (u : State) (n : Nat), u.reportsShut = true → P u →
    ∃ Q : State → Prop, PassClosed Q ∧ Q (u.fadeStep.withFreeIdx n) ∧ ∀ (v : State) (begun : Nat), Q v → P (v.completeQuiet begun)
  held : ∀ (u : State) (cls : DeliveryClass) (frame : Option ReceivedFrame), P u → P (u.holdDelivered cls frame)

/-- A property that the fade's step and the completion of POWER QUIET keep wherever they come needs no other for the pass between them. -/
theorem DeliveryClosed.shut_of {P : State → Prop} (hf : ∀ u : State, P u → P u.fadeStep) (hi : ∀ (u : State) (n : Nat), P u → P (u.withFreeIdx n))
    (hc : ∀ (u : State) (begun : Nat), P u → P (u.completeQuiet begun)) (hp : PassClosed P) (u : State) (n : Nat) (hu : P u) :
    ∃ Q : State → Prop, PassClosed Q ∧ Q (u.fadeStep.withFreeIdx n) ∧ ∀ (v : State) (begun : Nat), Q v → P (v.completeQuiet begun) :=
  ⟨P, hp, hi _ _ (hf _ hu), hc⟩

theorem State.fadeAndPass_keeps {P : State → Prop} (h : DeliveryClosed P) (plan : ChainPlan) (begun : Nat) {s : State} (hs : P s) :
    P (s.fadeAndPass plan begun) := by
  unfold State.fadeAndPass
  simp only
  split
  · rename_i hshut
    obtain ⟨Q, hq, h0, hc⟩ := h.shut s (s.freeIdx + 1) hshut hs
    split
    · exact State.startPass_closed h.toPassClosed plan (State.fallsAt_keeps h.toPassClosed (hc _ _ h0) plan _)
    · exact hc _ _ (State.startPass_closed hq plan (State.fallsAt_keeps hq h0 plan _))
  · rename_i hshut
    exact State.startPass_closed h.toPassClosed plan (State.fallsAt_keeps h.toPassClosed (h.fade s (by simpa using hshut) hs) plan _)

/-- A delivery, whatever falls inside it, keeps a property that every change of it keeps (R9, R31). -/
theorem State.deliver_keeps {P : State → Prop} (h : DeliveryClosed P) (plan : ChainPlan) (cls : DeliveryClass) {frame : Option ReceivedFrame}
    (hf : ∀ f, frame = some f → ∃ line, f = decodeBody line) {s : State} (hs : P s) : P (s.deliver plan cls frame) := by
  have hp := h.toPassClosed
  refine h.held _ cls frame (State.fadeAndPass_keeps h plan _ (h.sources _ cls frame hf ?_))
  refine State.fallsAt_keeps hp (h.commit _ (State.fallsAt_keeps hp (h.lane _ cls frame ?_) plan _)) plan _
  exact State.fallsAt_keeps hp (h.link _ cls frame hs) plan _

/-- The waiting steps and plans, RESET_N, the sync state and the period, but for whether its delivery is made. -/
def State.period (s : State) : List Instr × List ChainPlan × Bool × SyncState × Timebase :=
  (s.pending, s.plans, s.resetHeld, s.rx.sync, { s.tb with owed := false })

theorem period_commands (p : List Instr × List ChainPlan × Bool × SyncState × Timebase) : CommandClosed (fun u => u.period = p) where
  slots _ _ _ h := h
  replies _ _ h := h
  events _ _ h := h
  step _ _ _ _ h := h
  counters _ h := h
  settings _ _ _ _ _ h := h
  sets _ _ _ _ _ h := h
  retires _ _ _ _ h := h
  clears _ _ _ h := h
  mutes _ _ _ _ h := h
  flags _ _ _ _ _ h := h
  staged _ _ _ _ h := h
  slot _ _ h := h
  discards _ h := h
  routes _ _ _ _ h := h
  cue _ _ _ _ _ _ _ _ h := h
  quiet _ _ h := h
  freeIdx _ _ h := h
  closing _ h := h
  run _ h := h
  reset _ h := h

theorem PassKeeps.period {s u : State} (h : PassKeeps s u) : u.period = s.period := by
  simp only [State.period, h.pending, h.plans, h.resetHeld, h.rx, h.tb]

theorem LaneKeeps.period {s u : State} (h : LaneKeeps s u) : u.period = s.period := by
  simp only [State.period, h.pending, h.plans, h.resetHeld, h.tb]
  rw [h.rx]

theorem period_pass (p : List Instr × List ChainPlan × Bool × SyncState × Timebase) : PassClosed (fun u => u.period = p) where
  take _ h := State.takeWaiting_keeps (period_commands p) h
  notice u _ _ _ h := by
    unfold State.queueNotice State.noteWait
    split <;> exact h
  ran _ h := h
  mix u input k _ h := (PassKeeps.mixAction u input k).period.trans h

theorem period_delivery (p : List Instr × List ChainPlan × Bool × SyncState × Timebase) : DeliveryClosed (fun u => u.period = p) where
  toPassClosed := period_pass p
  link u cls frame h := by rw [State.settleLink_eq]; exact h
  lane u cls frame h := (LaneKeeps.laneDeliver u cls frame).period.trans h
  commit u h := by
    rw [State.commitStage_eq]
    split
    · exact h
    · split
      · rw [State.fire_eq]; exact h
      · exact h
  sources _ _ _ _ h := h
  fade u _ h := (PassKeeps.fadeStep u).period.trans h
  shut u n _ h := DeliveryClosed.shut_of (fun u h => (PassKeeps.fadeStep u).period.trans h) (fun _ _ h => h)
    (fun u begun h => (PassKeeps.completeQuiet u begun).period.trans h) (period_pass p) u n h
  held _ _ _ h := h

/-- Whatever falls inside it, a delivery makes the period's own and leaves the rest of it, the waiting steps and the plans as they are (R8, log 7). -/
theorem State.deliver_period (s : State) (plan : ChainPlan) (cls : DeliveryClass) {frame : Option ReceivedFrame}
    (hf : ∀ f, frame = some f → ∃ line, f = decodeBody line) :
    (s.deliver plan cls frame).period = s.period ∧ (s.deliver plan cls frame).tb.owed = false :=
  ⟨State.deliver_keeps (period_delivery s.period) plan cls hf rfl, rfl⟩

/-- The frame event of a period that still owes its delivery delivers NONE first (R8, log 9). -/
theorem State.endPeriod_owed {s : State} (h : s.tb.owed = true) : s.endPeriod = (s.deliver s.plan .nothing none).endPeriod := by
  rw [State.endPeriod_eq (State.deliver_period s s.plan .nothing (by simp)).2]
  unfold State.endPeriod
  simp only [h, if_true]
  rw [State.beginFrames_eq]
  rfl

/-! ### Every change of a step -/

/-- A property of the unit that every change a step can make keeps. Where it is `CommandClosed`, `exec_command_keeps` and `State.takeWaiting_keeps` give `command` and
`take`. -/
structure StepClosed (P : State → Prop) : Prop extends DeliveryClosed P where
  command : ∀ {i : Instr} {x : Byte × CommandSource} {s t : State}, commandOf i = some x → P s → exec i s = .next t → P t
  pending : ∀ (u : State) (queue : List Instr), P u → P (u.withPending queue)
  plans : ∀ (u : State) (plans : List ChainPlan), P u → P (u.withPlans plans)
  powerOn : ∀ u : State, P u → P (((State.reset.withPending u.pending).withPlans u.plans).withFreeIdx u.freeIdx)
  hold : ∀ u : State, P u → P (((u.withResetHeld true).withTx { u.tx with emitted := none }).withLanes { u.lanes with frame := none })
  syncFound : ∀ (u : State) (pos : Nat), P u → P (u.syncFound pos)
  syncMissing : ∀ u : State, P u → P u.syncMissing
  lock : ∀ (u : State) (pos : Nat), u.rx.sync = .confirm → P u → P ((u.note pos).lock pos)
  lose : ∀ u : State, u.rx.sync = .holdover → P u → P u.lose
  complete : ∀ (u : State) (begun n : Nat), u.intake.power = .quiescing → u.fade.state = .shut → P u → P ((u.completeQuiet begun).withFreeIdx n)
  expire : ∀ (u : State) (k : Nat), (u.table.mix k).holdExpires u.store = true → P u → P (u.withTable (u.table.setMix k ((u.table.mix k).detect u.store)))
  enumerate : ∀ (u : State) (src tag n : Byte) (check : BitVec 16), P u → P (u.laneFirst (enumerateOctets src tag n check))
  begins : ∀ u : State, P u → P u.beginFrames
  period : ∀ (u : State) (tb : Timebase), P u → P (u.withTb tb)
  clocks : ∀ (u : State) (n : Nat), P u → P (u.withLanes { u.lanes with lastClocks := n })

theorem State.endPeriod_keeps {P : State → Prop} (h : StepClosed P) {s : State} (hs : P s) : P s.endPeriod := by
  have settle : ∀ u : State, u.tb.owed = false → P u → P u.endPeriod := by
    intro u ho hu
    rw [State.endPeriod_eq ho]
    have e : u.lanes.beginFrame u.intake.power = u.beginFrames.lanes := by rw [State.beginFrames_eq]; rfl
    rw [e]
    exact h.plans _ _ (h.period _ _ (h.clocks _ _ (h.begins _ hu)))
  by_cases ho : s.tb.owed = true
  · rw [State.endPeriod_owed ho]
    exact settle _ (State.deliver_period _ _ _ (by simp)).2 (State.deliver_keeps h.toDeliveryClosed _ _ (by simp) hs)
  · exact settle _ (by simpa using ho) hs

/-- A row, run alone, keeps a property that every change keeps. -/
theorem exec_keeps {P : State → Prop} (h : StepClosed P) {i : Instr} {s t : State} (hs : P s) (he : exec i s = .next t) : P t := by
  rcases hc : commandOf i with _ | x
  · have row : ∀ f : State → State, (P s → P (f s)) → P (whileReleased s f) := fun f hf => whileReleased_keeps hs hf
    cases i <;> simp only [commandOf, reduceCtorEq] at hc <;> simp only [exec] at he <;> injection he with he <;> subst he
    case powerOn => exact h.powerOn s hs
    case resetAssert => exact h.hold s hs
    all_goals refine row _ fun hs => ?_
    case syncFound pos => exact h.syncFound s pos hs
    case syncMissing => exact h.syncMissing s hs
    case linkLocked pos =>
      split
      · rename_i hl
        exact h.lock s pos hl.1 hs
      · exact hs
    case linkLost =>
      split
      · rename_i hl
        exact h.lose s hl.1 hs
      · exact hs
    case delivery line =>
      simp only [State.deliverFrame]
      split
      · exact State.deliver_keeps h.toDeliveryClosed _ _ (fun f hf => ⟨line, by simpa using hf.symm⟩) hs
      · exact hs
    case deliveryPoint =>
      simp only [State.deliverNone]
      split
      · exact State.deliver_keeps h.toDeliveryClosed _ _ (by simp) hs
      · exact hs
    case commitFire => exact h.commit s hs
    case powerQuietComplete =>
      split
      · rename_i hq
        exact h.complete s _ _ hq.1 hq.2 hs
      · exact hs
    case talkHoldExpiry k =>
      split
      · rename_i hx
        exact h.expire s k hx.2 hs
      · exact hs
    case enumerate src tag n check => exact h.enumerate s src tag n check hs
    case frameEvent =>
      unfold State.frameEvent
      split
      · exact h.period _ _ (h.begins _ hs)
      · split
        · exact State.endPeriod_keeps h hs
        · exact hs
    case noticeQueue => exact State.offerNotice_keeps h.notice hs
  · exact h.command hc hs he

/-- Every step keeps a property that every change keeps. -/
theorem step_keeps {P : State → Prop} (h : StepClosed P) {s t : State} (hs : P s) (he : step s = .next t) : P t := by
  unfold step at he
  split at he
  · injection he with he
    subst he
    exact hs
  · exact exec_keeps h (h.pending _ _ hs) he

end Sys2Proof.Machine
end

