-- ==== Sys2Proof/Tests/Slice0.lean ====
section
/-!
SUPPORT. Tests: the well-formedness checks, the spec's worked cases, one step of each row, and for each statement with hypotheses a state that meets them.
-/

namespace Sys2Proof.Tests

-- One test after another: each kernel evaluation waits for the environment before it, and waiting in parallel would take a thread for each.
set_option Elab.async false

open Sys2Proof.Machine

/-! ### WellFormed: each check refuses -/

theorem test_wf_body_too_short : (Instr.delivery { entry := false, cells := List.replicate 1647 (true, true) }).wellFormed = false := by decide +kernel
theorem test_wf_body_right : (Instr.delivery { entry := false, cells := List.replicate 1648 (true, true) }).wellFormed = true := by decide +kernel
/-- A plan whose order is none of the 16 mixes is taken in rising order (log 7). -/
theorem test_mix_order : mixOrder { order := List.range 15, falls := [] } = List.range 16 ∧
    mixOrder { order := 15 :: List.range 15 ++ [15], falls := [] } = List.range 16 ∧
    mixOrder { order := (List.range 16).reverse, falls := [(.mix 3, .take)] } = (List.range 16).reverse := by decide +kernel
theorem test_wf_no_mix_16 : (Instr.talkHoldExpiry 16).wellFormed = false := by decide
theorem test_wf_payload_too_long : (Instr.identify (.arriving 0 1 (List.replicate 241 0))).wellFormed = false := by decide +kernel
theorem test_wf_staged_payload_of_immediate_row : (Instr.mixClear (.arriving 0 1 [2, 1])).wellFormed = false := by decide
theorem test_wf_immediate_payload_of_staged_row : (Instr.mixClearStaged (.arriving 0 1 [2, 0])).wellFormed = false := by decide
theorem test_wf_next_payload_of_at_frame_row : (Instr.commitAtFrame (.arriving 0 1 [1, 0, 0])).wellFormed = false := by decide
theorem test_wf_run_payload_of_quiet_row : (Instr.powerQuiet (.arriving 0 1 [0])).wellFormed = false := by decide
theorem test_wf_unknown_of_a_known_kind : (Instr.unknownCommand 0x17 .held).wellFormed = false ∧ (Instr.unknownCommand 0x01 (.arriving 0 1 [])).wellFormed = false := by
  decide
theorem test_wf_unknown : (Instr.unknownCommand 0x18 .held).wellFormed = true ∧ (Instr.unknownCommand 0x00 (.arriving 0 1 [])).wellFormed = true := by decide

/-! ### Helpers -/

/-- The state a step answers. -/
def after (o : Host.Outcome State Fault Refusal) : State :=
  match o with
  | .next t => t
  | _ => State.reset

/-- A command from the controller with TAG 7. -/
def sent (kind : Byte) (payload : List Byte) : Command :=
  { kind := kind, src := 0, tag := 7, payload := payload, busyAtArrival := false, waited := false }

/-- The unit with a command waiting in the holding slot. -/
def ready (s : State) (kind : Byte) (payload : List Byte) : State := { s with intake := { s.intake with holding := some (sent kind payload) } }

/-- The held command is ready to be taken. -/
theorem ready_takes {s : State} (h1 : s.resetHeld = false) (h2 : s.intake.executing = none) (h3 : s.replies.messages.length + s.replies.reserved < 8)
    (kind : Byte) (payload : List Byte) : (ready s kind payload).takes .held kind (sent kind payload) := ⟨h1, h2, h3, rfl, rfl⟩

/-- After power-on every command is ready to be taken, waiting or arriving. -/
theorem reset_takes (kind : Byte) (payload : List Byte) : (ready State.reset kind payload).takes .held kind (sent kind payload) :=
  ready_takes rfl rfl (by decide) kind payload

/-- The payload of the newest message of the Reply Queue. -/
def replyPayload (s : State) : List Byte := ((s.replies.messages.getLast?.map (·.octets)).getD []).drop 5 |>.dropLast |>.dropLast

/-- What a held command's row answers: the payload of its reply. -/
def answer (i : Instr) (s : State) : List Byte := replyPayload (after (exec i s))

/-- The unit with mix 2 as the worked sequences leave it: sources 12 (LIVE) and 40 (RETIRING), enabled or not. -/
def listed (enabled : Bool) : State :=
  { State.reset with
    table :=
      { mixes :=
          State.reset.table.mixes.set 2
            { Mix.reset with
              cfg := { Settings.default with enabled := enabled }
              list :=
                [{ source := 12, gL := 4096, gR := 4096, group := some 1, mute := false, state := .live, cL := 64, cR := 128 },
                  { source := 40, gL := 300, gR := 400, group := none, mute := true, state := .retiring, cL := 0, cR := 5 }] }
        free := 510 } }

/-! ### The checks of a message and a frame -/

/-- The register of R148 before DEST is complemented, over nine octets and two of zero: the published check of CRC-16/XMODEM, whose parameters R148 gives. -/
theorem test_message_check_register :
    (bitsOf [0x31, 0x32, 0x33, 0x34, 0x35, 0x36, 0x37, 0x38, 0x39, 0, 0]).foldl (crcLow 0x1021) 0 = 0x31C3 := by decide +kernel

/-- DEST enters the message check complemented (R148): 0x31 is the complement of 0xCE. -/
theorem test_message_check_complements_dest : messageCheck [0xCE, 0x32, 0x33, 0x34, 0x35, 0x36, 0x37, 0x38, 0x39] = 0x31C3 := by decide +kernel

/-- The register of R2 over nine octets: the published check of CRC-16/CMS, whose parameters R2 gives. -/
theorem test_frame_check_register : frameCheck [0x31, 0x32, 0x33, 0x34, 0x35, 0x36, 0x37, 0x38, 0x39] = 0xAEE7 := by decide +kernel

/-- A frame as an upstream unit sends it, number 1,002, every slot 500. -/
def sentFrame (damaged : Bool) (kind : LaneKind) (lane : List Byte) : EmittedFrame :=
  { number := 1002, damaged := damaged, kind := kind, slots := List.replicate 64 500, lane := lane
    check := frameCheck (coveredOctets 1002 damaged kind (List.replicate 64 500) lane) }

/-- Its body on the line, from a low level. -/
def lineOf (e : EmittedFrame) : LineBody := { entry := false, cells := codeBits false (bitsOf e.body) }

/-- The line of an intact frame with an idle lane. -/
def goodLine : LineBody := lineOf (sentFrame false .idle (List.replicate 8 0))

/-- A sent frame passes the three tests of R2, and its flags octet tells MARKED from GOOD. -/
theorem test_sent_frame (damaged : Bool) (kind : LaneKind) (lane : List Byte) (h : lane.length = 8) :
    (decodeBody (lineOf (sentFrame damaged kind lane))).cls = if damaged then .marked else .good := by
  obtain ⟨h1, h2, h3, h4, h5⟩ := EmittedFrame.body_parts (e := sentFrame damaged kind lane) (by simp [sentFrame]) h
  rw [lineOf, decodeBody_coded false h1]
  simp only [decodeOctets, ReceivedFrame.cls, h2, h3, h4, h5, (flagsOctet_fields _ _).1]
  cases damaged <;> simp [sentFrame]

theorem test_good_frame : (decodeBody goodLine).cls = .good := test_sent_frame false .idle _ rfl

/-- One cell without its opening transition spoils the frame (R1, R2). -/
theorem test_corrupt_frame : (decodeBody { goodLine with cells := goodLine.cells.set 100 (goodLine.cells.getD 99 (false, false)).swap }).codingBad = true := by
  decide +kernel

/-! ### Link (worked sequences of 1.10) -/

/-- The unit in a sync state, with counts, the next sync expected at 10,000, in the period from 8,000 that owes no more. -/
def linked (sync : SyncState) (confirm miss : Nat) : State :=
  { State.reset with
    rx := { State.reset.rx with sync := sync, confirm := confirm, miss := miss, reference := some 7952, expected := 10000 }
    tb := { periodStart := 8000, periodEnd := 10048, due := false, adopted := false, owed := false, releaseEvent := false } }

theorem test_hyp_SyncFoundActs : (linked .confirm 2 0).resetHeld = false ∧ (linked .search 0 0).resetHeld = false := ⟨rfl, rfl⟩
theorem test_hyp_SyncMissingActs : (linked .holdover 0 7).resetHeld = false ∧ (linked .search 0 0).resetHeld = false := ⟨rfl, rfl⟩
theorem test_hyp_LinkLockedAndLost : (linked .confirm 2 0).resetHeld = false ∧ (linked .holdover 0 7).resetHeld = false := ⟨rfl, rfl⟩

theorem test_sync_in_search_confirms : (after (exec (.syncFound 700) State.reset)).rx.sync = .confirm ∧ (after (exec (.syncFound 700) State.reset)).rx.expected = 2748 := by
  decide

/-- The window is 4 bit-times either side (R3). -/
theorem test_sync_window :
    (after (exec (.syncFound 10004) (linked .confirm 1 0))).rx.confirm = 2 ∧ (after (exec (.syncFound 9996) (linked .confirm 1 0))).rx.confirm = 2 ∧
      (after (exec (.syncFound 10005) (linked .confirm 1 0))).rx = (linked .confirm 1 0).rx ∧
      (after (exec (.syncFound 9995) (linked .locked 0 0))).rx = (linked .locked 0 0).rx := by
  decide

/-- R15 at its boundary: a sync 1,024 bit-times into the period shortens it, one bit-time sooner lengthens it; LOCKED either way (R5). -/
theorem test_phase_adopted :
    (after (exec (.syncFound 10000) { linked .confirm 2 0 with tb := { (linked .confirm 2 0).tb with periodStart := 8976 } })).tb.periodEnd = 10000 ∧
      (after (exec (.syncFound 10000) { linked .confirm 2 0 with tb := { (linked .confirm 2 0).tb with periodStart := 8977 } })).tb.periodEnd = 12048 ∧
      (after (exec (.syncFound 10000) (linked .confirm 2 0))).rx.sync = .locked := by
  decide

/-- The period lengthened by R15 ends 2,048 bit-times after the third sync (at 10,000, in a period from 9,500) whatever the fourth does; the fourth, found 3
bit-times late, ends no second period, and the fifth ends the one that began at 12,048. -/
theorem test_lengthened_period :
    let locked := after (exec (.linkLocked 10000) { linked .confirm 2 0 with tb := { (linked .confirm 2 0).tb with periodStart := 9500 } })
    let next := after (exec .frameEvent locked)
    (after (exec (.syncFound 12047) locked)).tb.periodEnd = 12048 ∧ locked.follow = false ∧ next.tb.periodStart = 12048 ∧
      (after (exec (.syncFound 12051) next)).tb = next.tb ∧
      (after (exec (.syncFound 14099) (after (exec (.syncFound 12051) next)))).tb.periodEnd = 14099 ∧ (after (exec .syncMissing next)).tb = next.tb := by
  decide +kernel

/-- The window that closes with no sync (R5 to R7): the sixth miss counts on, the eighth loses the link. -/
theorem test_sync_missing :
    (after (exec .syncMissing (linked .confirm 2 0))).rx.sync = .search ∧ (after (exec .syncMissing (linked .locked 0 0))).rx.miss = 1 ∧
      (after (exec .syncMissing (linked .holdover 0 6))).rx.miss = 7 ∧ (after (exec .syncMissing (linked .holdover 0 7))).rx.sync = .search ∧
      (after (exec .syncMissing (linked .holdover 0 6))).tb.periodEnd = 10004 := by
  decide

theorem test_link_locked : (after (exec (.linkLocked 10004) (linked .confirm 2 0))).rx.sync = .locked ∧
    after (exec (.linkLocked 10004) (linked .confirm 1 0)) = linked .confirm 1 0 := by
  decide

theorem test_link_lost : (after (exec .linkLost (linked .holdover 0 7))).rx.sync = .search ∧
    after (exec .linkLost (linked .holdover 0 6)) = linked .holdover 0 6 := by
  decide

/-- The unit LOCKED with an accepted frame whose sync came at this position, in the period 0 to 2,048 that owes its delivery. -/
def accepting (pos : Nat) : State :=
  { State.reset with
    rx := { State.reset.rx with sync := .locked, reference := some pos, expected := pos + 2048, accepted := some pos, localFrame := 2, lockedDue := true }
    tb := { periodStart := 0, periodEnd := 2048, due := false, adopted := true, owed := true, releaseEvent := false } }

/-- A frame ends its trailer 1,664 bit-times after its sync (R8): at 384 within the period, at 385 beyond it. -/
theorem test_hyp_frameEnds : (accepting 384).frameEnds ∧ (accepting 385).noneDue :=
  ⟨⟨rfl, rfl, 384, rfl, by decide⟩, rfl, rfl, fun pos h => by cases h; decide⟩

theorem test_hyp_noneDue : State.reset.noneDue := ⟨rfl, rfl, fun pos h => by cases h⟩

theorem test_hyp_DeliveriesSettleLink : (accepting 384).frameEnds ∧ (accepting 384).rx.counters.sound ∧ (accepting 384).plan.falls = [] ∧
    State.reset.plan.falls = [] ∧ State.reset.noneDue ∧ State.reset.rx.counters.sound ∧ (accepting 385).noneDue ∧ (accepting 385).plan.falls = [] ∧ (accepting 385).rx.counters.sound := by
  refine ⟨test_hyp_frameEnds.1, ?_, rfl, rfl, test_hyp_noneDue, ?_, test_hyp_frameEnds.2, rfl, ?_⟩ <;> simp [LinkCounters.sound, accepting, State.reset, LinkCounters.zero]

/-- Deliveries of every class come. -/
theorem test_hyp_delivers : (accepting 384).delivers (.delivery goodLine) .good ∧ State.reset.delivers .deliveryPoint .nothing ∧
    (accepting 384).delivers (.delivery (lineOf (sentFrame true .idle (List.replicate 8 0)))) .marked :=
  ⟨⟨test_hyp_frameEnds.1, rfl, test_good_frame.symm⟩, ⟨test_hyp_noneDue, rfl, rfl⟩, ⟨test_hyp_frameEnds.1, rfl, (test_sent_frame true .idle _ rfl).symm⟩⟩

/-- The frame 1,002 as decoded. -/
def goodFrame : ReceivedFrame :=
  { number := 1002, flags := 0, damaged := false, kind := .idle, slots := List.replicate 64 500, lane := List.replicate 8 0, codingBad := false, checkBad := false
    trailerBad := false }

/-- Period 3 of the acquisition (1.10): the number jumps to that of the frame, and LINK_LOCKED is raised. -/
theorem test_acquisition : ((accepting 384).deliver .whole .good (some goodFrame)).rx.localFrame = 1002 ∧
    ((accepting 384).deliver .whole .good (some goodFrame)).events.summary = 1 := by decide +kernel

/-- Period 1 of the acquisition: NONE in SEARCH advances the number, counts nothing, and ages every source. -/
theorem test_none_in_search : (after (exec .deliveryPoint State.reset)).rx.localFrame = 1 ∧ (after (exec .deliveryPoint State.reset)).rx.counters = LinkCounters.zero ∧
    (after (exec .deliveryPoint State.reset)).store.bad = 1 := by decide +kernel

/-- A missed sync is counted at its NONE delivery, and the eighth raises LINK_LOST (R11, R13). -/
theorem test_none_after_missing :
    (after (exec .deliveryPoint { (after (exec .syncMissing (linked .holdover 0 7))) with tb := State.reset.tb })).rx.counters.missedSyncs = 1 ∧
      (after (exec .deliveryPoint { (after (exec .syncMissing (linked .holdover 0 7))) with tb := State.reset.tb })).events.summary = 2 := by decide +kernel

/-! ### The lane of a delivery (9.7) -/

/-- The line of an intact frame with this lane. -/
def laneLine (kind : LaneKind) (lane : List Byte) : LineBody := lineOf (sentFrame false kind lane)

/-- What the Link Receiver decodes of such a line: validity, kind and lane. -/
def decodedLane (line : LineBody) : Bool × LaneKind × List Byte :=
  (!((decodeBody line).codingBad || (decodeBody line).checkBad || (decodeBody line).trailerBad), (decodeBody line).kind, (decodeBody line).lane)

/-- The lane of an ENUMERATE carrying 2, with this check. -/
def enumerateLane (check : BitVec 16) : List Byte := [255, 0, 0x82, 1, 1, 2] ++ be 2 check.toNat

/-- The unit in the middle of a message of two frames for it and for the next unit. -/
def receiving (received expected : Nat) : State :=
  { accepting 384 with
    lane :=
      { State.reset.lane with
        rx := .receiving { toLocal := true, toForward := true, admitted := true, octets := 16, expected := expected, received := received }
        buffer := List.replicate 8 9, hold := [{ total := expected, frames := [List.replicate 8 9], emitted := 0, spoiled := false }] } }

/-- A unit without and one with a message being received, and a line for each clause: a corrupt one, IDLE and ABORT, LENGTH 241 and 240, ENUMERATE, CONT. -/
theorem test_hyp_DeliveryHandsLane : State.reset.noneDue ∧ State.reset.plan.falls = [] ∧ (accepting 384).frameEnds ∧ (accepting 384).plan.falls = [] ∧
    (receiving 1 2).frameEnds ∧ (receiving 1 2).plan.falls = [] ∧ (receiving 1 3).frameEnds ∧ (accepting 384).lane.rx = .waiting ∧
    (receiving 1 2).lane.rx = .receiving { toLocal := true, toForward := true, admitted := true, octets := 16, expected := 2, received := 1 } ∧
    (decodedLane { laneLine .idle (List.replicate 8 0) with cells := [] }).1 = false :=
  ⟨test_hyp_noneDue, rfl, test_hyp_frameEnds.1, rfl, ⟨rfl, rfl, 384, rfl, by decide⟩, rfl, ⟨rfl, rfl, 384, rfl, by decide⟩, rfl, rfl, by decide +kernel⟩

/-- The lane of a sent frame is decoded as it was sent, from a body that passes the three tests. -/
theorem decodedLane_sent (kind : LaneKind) {lane : List Byte} (h : lane.length = 8) : decodedLane (laneLine kind lane) = (true, kind, lane) := by
  obtain ⟨h1, h2, h3, h4, h5⟩ := EmittedFrame.body_parts (e := sentFrame false kind lane) (by simp [sentFrame]) h
  have hl : ((sentFrame false kind lane).body.drop 195).take 8 = lane := EmittedFrame.body_lane (by simp [sentFrame]) h
  simp only [decodedLane, laneLine, lineOf, decodeBody_coded false h1]
  simp only [decodeOctets, h2, h3, h4, h5, hl, (flagsOctet_fields _ _).2]
  simp [sentFrame]

theorem test_hyp_DeliveryHandsLane_lines : decodedLane (laneLine .idle (List.replicate 8 0)) = (true, .idle, List.replicate 8 0) ∧
    decodedLane (laneLine .abort (List.replicate 8 0)) = (true, .abort, List.replicate 8 0) ∧
    decodedLane (laneLine .cont (List.replicate 8 9)) = (true, .cont, List.replicate 8 9) ∧
    decodedLane (laneLine .first [32, 0, 2, 7, 241, 0, 0, 0]) = (true, .first, [32, 0, 2, 7, 241, 0, 0, 0]) ∧
    decodedLane (laneLine .first [32, 0, 2, 7, 240, 0, 0, 0]) = (true, .first, [32, 0, 2, 7, 240, 0, 0, 0]) ∧
    decodedLane (laneLine .first (enumerateLane 0xA55A)) = (true, .first, enumerateLane 0xA55A) ∧
    enumerateLane 0xA55A = [0xFF, 0, 0x82, 1, 1, 2, 0xA5, 0x5A] :=
  ⟨decodedLane_sent _ rfl, decodedLane_sent _ rfl, decodedLane_sent _ rfl, decodedLane_sent _ rfl, decodedLane_sent _ rfl, decodedLane_sent _ rfl, by decide⟩

/-- No second delivery in a period, and none of a frame that ends later (R8); frame events of periods that owe their delivery: at the release, at a NONE, and one
that waits in FOLLOW. -/
theorem test_hyp_OneDeliveryPerPeriod : (linked .locked 0 0).tb.owed = false ∧ State.reset.rx.accepted = none ∧
    ((accepting 385).rx.accepted = some 385 ∧ (accepting 385).tb.periodEnd < 385 + 1664) ∧
    ((accepting 384).rx.accepted = some 384 ∧ 384 + 1664 ≤ (accepting 384).tb.periodEnd) ∧
    (State.reset.resetHeld = false ∧ State.reset.tb.releaseEvent = true ∧ State.reset.tb.owed = true ∧ State.reset.tx.heldFrame = none ∧
      State.reset.lane.hold = [] ∧ State.reset.replies.messages = [] ∧ State.reset.lane.emission = .none) ∧
    (∃ s : State, s.eventComes ∧ s.noneDue ∧ ∃ t, exec .deliveryPoint s = .next t) ∧
    ((linked .holdover 0 1).tb.due = false ∧ (linked .holdover 0 1).tb.adopted = false ∧ (linked .holdover 0 1).rx.sync = .holdover ∧
      ((linked .holdover 0 1).tb.releaseEvent && (linked .holdover 0 1).tb.owed) = false) :=
  ⟨rfl, rfl, ⟨rfl, by decide⟩, ⟨rfl, by decide⟩, ⟨rfl, rfl, rfl, rfl, rfl, rfl, rfl⟩,
    ⟨{ State.reset with tb := { State.reset.tb with releaseEvent := false } }, ⟨rfl, rfl, Or.inr (Or.inr (Or.inl rfl))⟩, ⟨rfl, rfl, fun pos h => by cases h⟩, _, rfl⟩, rfl,
    rfl, rfl, rfl⟩

/-! ### Sources and the fade (worked sequences of 2.4) -/

/-- A fade and the counts its step reads: state and f after the step. -/
def faded (state : FadeState) (coeff step bad good : Nat) (power : PowerState) : FadeState × Nat :=
  ((Fade.next { state := state, coeff := coeff, step := step } bad good power).state, (Fade.next { state := state, coeff := coeff, step := step } bad good power).coeff)

/-- Bad deliveries 7, 8, 38 and 39 of the pulled cable. -/
theorem test_fade_out : faded .opened 4096 64 7 0 .run = (.opened, 4096) ∧ faded .opened 4096 64 8 0 .run = (.closing, 3968) ∧
    faded .closing 256 64 38 0 .run = (.closing, 128) ∧ faded .closing 128 64 39 0 .run = (.shut, 0) := by decide

/-- Good deliveries 15, 16, 17 and 79 of its return, and good 16 and 71 of the recovery during the close. -/
theorem test_fade_in : faded .shut 0 64 0 15 .run = (.shut, 0) ∧ faded .shut 0 64 0 16 .run = (.opening, 64) ∧ faded .opening 64 64 0 17 .run = (.opening, 128) ∧
    faded .opening 4032 64 0 79 .run = (.opened, 4096) ∧ faded .closing 512 64 0 16 .run = (.opening, 576) ∧ faded .opening 4032 64 0 71 .run = (.opened, 4096) := by
  decide

/-- In QUIESCING and QUIET the fade does not open (R26). -/
theorem test_fade_stays : faded .closing 512 64 0 100 .quiescing = (.closing, 384) ∧ faded .shut 0 64 0 100 .quiet = (.shut, 0) := by decide

/-- A GOOD delivery gives the 64 samples at age 0; a bad one holds and ages them, at most to 255 (R21, R22). -/
theorem test_source_store : ((SourceStore.apply State.reset.store .good (List.replicate 64 500)).source 63) = { sample := 500, age := 0 } ∧
    ((SourceStore.apply (SourceStore.apply State.reset.store .good (List.replicate 64 500)) .corrupt []).source 0) = { sample := 500, age := 1 } ∧
    ((SourceStore.apply State.reset.store .nothing []).source 0).age = 255 := by decide +kernel

theorem store_sound : State.reset.store.sound := by simp [SourceStore.sound, State.reset]

theorem test_hyp_DeliveryUpdatesSources : (accepting 384).delivers (.delivery goodLine) .good ∧ (accepting 384).store.sound ∧
    State.reset.delivers .deliveryPoint .nothing ∧ State.reset.store.sound := ⟨test_hyp_delivers.1, store_sound, test_hyp_delivers.2.1, store_sound⟩

/-- The unit with a fade closing, in QUIESCING, its POWER QUIET executing, at f 128: the last step of a quieting (2.4). -/
def quieting : State :=
  { State.reset with
    fade := { state := .closing, coeff := 128, step := 1 }
    replies := { messages := [], reserved := 1 }
    intake := { holding := none, executing := some (sent 0x16 [1]), power := .quiescing } }

theorem quieting_delivers : quieting.delivers .deliveryPoint .nothing := ⟨⟨rfl, rfl, fun pos h => by cases h⟩, rfl, rfl⟩

theorem test_hyp_QuietCompletesAtShut : quieting.delivers .deliveryPoint .nothing ∧ quieting.intake.power = .quiescing ∧
    quieting.intake.executing = some (sent 0x16 [1]) ∧ quieting.fade.state = .closing ∧ quieting.fade.coeff ≤ 128 ∧ quieting.table.mixes.length = 16 ∧
    quieting.lanes.held.length = 16 := ⟨quieting_delivers, rfl, rfl, rfl, by decide, rfl, rfl⟩

theorem test_hyp_DeliveryStepsFade : quieting.delivers .deliveryPoint .nothing ∧ quieting.fade.sound ∧
    State.reset.delivers .deliveryPoint .nothing ∧ State.reset.fade.sound := by
  refine ⟨quieting_delivers, ?_, test_hyp_delivers.2.1, ?_⟩ <;> simp [Fade.sound, quieting, State.reset]

/-- The unit in QUIET, with a command waiting. -/
def resting (kind : Byte) (payload : List Byte) : State := ready { State.reset with intake := { State.reset.intake with power := .quiet } } kind payload

/-- The unit with this slot armed. -/
def armed (n : FrameNo) : State := { State.reset with staging := { Staging.reset with slot := .armed (.frame n) (.atFrame n false) } }

/-- A delivery of each power state, one at which an armed commit fires and one at which none does. -/
theorem test_hyp_DeliveryCommitsAndPasses :
    (quieting.delivers .deliveryPoint .nothing ∧ quieting.table.mixes.length = 16 ∧ quieting.lanes.held.length = 16) ∧
    ((resting 0x16 [0]).delivers .deliveryPoint .nothing ∧ (resting 0x16 [0]).table.mixes.length = 16 ∧ (resting 0x16 [0]).lanes.held.length = 16 ∧
      (resting 0x16 [0]).intake.power = .quiet) ∧
    ((armed 1).delivers .deliveryPoint .nothing ∧ (armed 1).intake.power = .run ∧ (armed 1).table.mixes.length = 16 ∧ (armed 1).lanes.held.length = 16) ∧
    (after (exec .deliveryPoint (armed 1))).rx.localFrame = 1 ∧ (armed 1).firesAt 1 = true ∧
    (armed 2).delivers .deliveryPoint .nothing ∧ (armed 2).firesAt 1 = false :=
  have h : ∀ s : State, s.resetHeld = false → s.tb.owed = true → s.rx.accepted = none → s.plans = [] → s.delivers .deliveryPoint .nothing := fun s h1 h2 h3 h4 =>
    ⟨⟨h1, h2, fun pos h => by rw [h3] at h; cases h⟩, by rw [State.plan, h4]; rfl, rfl⟩
  ⟨⟨quieting_delivers, rfl, rfl⟩, ⟨h _ rfl rfl rfl rfl, rfl, rfl, rfl⟩, ⟨h _ rfl rfl rfl rfl, rfl, rfl, rfl⟩, by decide +kernel, by decide,
    h _ rfl rfl rfl rfl, by decide⟩

/-! ### What falls inside a delivery (2.4, 3.1, 5.1) -/

/-- The unit with the taking of the held command planned for this point of its next delivery's chain, the mixes in falling order. -/
def planned (s : State) (point : ChainPoint) : State := s.withPlans [{ order := (List.range 16).reverse, falls := [(point, .take)] }]

theorem planned_delivers {s : State} (h1 : s.resetHeld = false) (h2 : s.tb.owed = true) (h3 : s.rx.accepted = none) {point : ChainPoint}
    (hp : ∀ k, point = .mix k → k < 16) : (planned s point).deliversWith .deliveryPoint .nothing (List.range 16).reverse point .take :=
  ⟨by decide, hp, rfl, ⟨h1, h2, fun pos h => by rw [show (planned s point).rx.accepted = none from h3] at h; cases h⟩, rfl⟩

/-- The settings record of 4.7 as sent: E 0, C 9,000,000, talk source 60, LIMIT and CLAMP enabled. -/
def record4 : List Byte := [1, 0x10, 0, 0, 0, 0x89, 0x54, 0x40, 0, 4, 0, 0, 60, 0x10, 0, 0, 0x25, 0x80, 4, 0, 1, 0, 0, 8, 0x0C]

/-- A held and an empty holding slot; POWER RUN in QUIET at the first and the last point before the pass; UNIT_RESET in RUN before the lane, and before the first
and the last mix worked; MIX_WRITE of mix 15 before mix 0, worked last. -/
theorem test_hyp_CommandsFallInsideDelivery :
    ((resting 0x16 [0]).resetHeld = false ∧ (resting 0x16 [0]).intake.holding = some (sent 0x16 [0]) ∧ State.reset.intake.holding = none) ∧
    ((planned (resting 0x16 [0]) .lane).deliversWith .deliveryPoint .nothing (List.range 16).reverse .lane .take ∧
      (planned (resting 0x16 [0]) .read).deliversWith .deliveryPoint .nothing (List.range 16).reverse .read .take ∧ (resting 0x16 [0]).intake.executing = none ∧
      (resting 0x16 [0]).replies.messages.length + (resting 0x16 [0]).replies.reserved < 8 ∧ (resting 0x16 [0]).intake.power = .quiet ∧
      (resting 0x16 [0]).fade.state = .shut ∧ (resting 0x16 [0]).fade.coeff = 0) ∧
    ((planned (ready State.reset 0x17 []) .lane).deliversWith .deliveryPoint .nothing (List.range 16).reverse .lane .take ∧
      (planned (ready State.reset 0x17 []) (.mix 15)).deliversWith .deliveryPoint .nothing (List.range 16).reverse (.mix 15) .take ∧
      (List.range 16).reverse = [] ++ 15 :: (List.range 15).reverse ∧ (ready State.reset 0x17 []).intake.power = .run) ∧
    ((planned (ready State.reset 0x07 (15 :: 0 :: record4)) (.mix 0)).deliversWith .deliveryPoint .nothing (List.range 16).reverse (.mix 0) .take ∧
      (List.range 16).reverse = (List.range' 1 15).reverse ++ 0 :: [] ∧ record4.length = 25 ∧ (15 : Byte).toNat ≤ 15 ∧
      ∃ cfg clamped, takeSettings record4 = .ok (cfg, clamped)) := by
  have h : ∀ kind payload point, (∀ k, point = .mix k → k < 16) →
      (planned (resting kind payload) point).deliversWith .deliveryPoint .nothing (List.range 16).reverse point .take ∧
        (planned (ready State.reset kind payload) point).deliversWith .deliveryPoint .nothing (List.range 16).reverse point .take := fun _ _ _ hp =>
    ⟨planned_delivers rfl rfl rfl hp, planned_delivers rfl rfl rfl hp⟩
  exact ⟨⟨rfl, rfl, rfl⟩, ⟨(h _ _ .lane (by simp)).1, (h _ _ .read (by simp)).1, rfl, by decide, rfl, rfl, rfl⟩,
    ⟨(h _ _ .lane (by simp)).2, (h _ _ (.mix 15) (by simp)).2, by decide, rfl⟩, ⟨(h _ _ (.mix 0) (by simp)).2, by decide, rfl, by decide, _, _, rfl⟩⟩

/-- The first case of 2.4: POWER RUN between stage 3 and the read finds the fade SHUT at G 16 and the pass runs; before stage 3 the fade opens. -/
theorem test_run_inside_delivery :
    (after (exec .deliveryPoint (planned { resting 0x16 [0] with store := { State.reset.store with good := 20 } } .read))).tx.passRan = true ∧
      (after (exec .deliveryPoint (planned (resting 0x16 [0]) .read))).intake.power = .run ∧ (after (exec .deliveryPoint (resting 0x16 [0]))).tx.passRan = false := by
  decide +kernel

/-! ### The mix pass (worked cases of 5.9 to 5.11, 6.6) -/

/-- An entry at its targets. -/
def steady (source l r : Nat) : Entry :=
  { source := source, gL := l, gR := r, group := none, mute := false, state := .live, cL := l, cR := r }

/-- The mix of case A, with LIMIT and CLAMP enabled (6.6). -/
def mixA (mode : Rounding) : Mix :=
  { Mix.reset with
    cfg :=
      { Settings.default with
        enabled := true, master := 5000, ceiling := 4000000, rounding := mode, talk := some 60, enables := ⟨false, false, true, true⟩ }
    list := [steady 3 6144 4096, steady 10 2048 6144, steady 60 4096 4096]
    mc := 5000, duck := 1024, hold := 100, engaged := true }

/-- The sources of case A, at this age. -/
def storeA (age : Nat) : SourceStore :=
  { sources :=
      (((List.replicate 64 { sample := 0, age := age }).set 3 { sample := 2000000, age := age }).set 10 { sample := -1500000, age := age }).set 60
        { sample := 3000000, age := age }
    bad := 0, good := 100 }

/-- What the pass of case A reads. -/
def inputA : PassInput := { store := storeA 0, coeff := 4096, frame := 12000 }

theorem test_caseA_outputs : ((mixA .nearestEven).pass inputA).yL = 3999453 ∧ ((mixA .nearestEven).pass inputA).yR = 3297794 ∧
    ((mixA .nearestEven).pass inputA).lg = 3767 ∧ ((mixA .nearestEven).pass inputA).hold = 9600 := by decide +kernel

/-- The first pass after an enable transition publishes 0 and moves mc to E (R85, R102, log 27); the second scales by 2 E (R90):
2,000,000 × 6,144 × 4096 × 128 × 4096 / 2^48. -/
theorem test_first_pass_after_enable :
    let off : Mix :=
      { mixA .floor with
        cfg := { (mixA .floor).cfg with talk := none, enabled := false }, list := [steady 3 6144 0], mc := 0, duck := 4096, engaged := false }
    let first := (off.replaceSettings { off.cfg with enabled := true }).pass inputA
    first.yL = 0 ∧ first.mc = 64 ∧ first.yR = 0 ∧ (first.pass inputA).yL = 93750 ∧ (first.pass inputA).mc = 128 := by
  decide +kernel

/-- UNIT_RESET between mixes of a pass (R57): case A in mixes 0 and 5, the reset before mix 3; mix 0 publishes its outputs, mix 5 publishes 0. -/
theorem test_reset_inside_pass :
    ((after
            (exec .deliveryPoint
              (ready
                { State.reset with
                  plans := [{ order := List.range 16, falls := [(.mix 3, .take)] }]
                  store := storeA 0
                  fade := { state := .opened, coeff := 4096, step := 1 }
                  table := { mixes := (State.reset.table.mixes.set 0 (mixA .nearestEven)).set 5 (mixA .nearestEven), free := 506 } }
                0x17 []))).lanes.held.map fun p => decide (p = (0, 0))).take 6 = [false, true, true, true, true, true] := by decide +kernel

theorem test_caseA_other_roundings : ((mixA .floor).pass inputA).yL = 3999452 ∧ ((mixA .towardZero).pass inputA).yL = 3999452 ∧
    ((mixA .floor).pass inputA).yR = 3297794 := by decide +kernel

/-- The capture of case A (6.6). -/
theorem test_caseA_capture : ((mixA .nearestEven).pass inputA).capture =
    some
      { frame := 12000, flags := ⟨false, false, true, false⟩, stage := .output, sL := 59768832000000, sR := 49283072000000, rL := 4348755, rR := 3585815
        lgBefore := 4096, lgAfter := 3767, yL := 3999453, yR := 3297794 } := by decide +kernel

/-- The next pass, on a damaged frame: every source stale. -/
theorem test_caseA_next_pass : (((mixA .nearestEven).pass inputA).pass { inputA with store := storeA 1, frame := 12001 }).hold = 9599 ∧
    (((mixA .nearestEven).pass inputA).pass { inputA with store := storeA 1, frame := 12001 }).current = ⟨false, true, true, false⟩ ∧
    (((mixA .nearestEven).pass inputA).pass { inputA with store := storeA 1, frame := 12001 }).yL = 3999453 := by decide +kernel

/-- Case B: the limiter at its limit, and the clamp. -/
theorem test_caseB : limiterCap 256 17179869184 0 = 0 ∧ limiterGain 4096 0 4 = 1 ∧ roundQuotient .nearestEven (17179869184 * 1) 4096 = 4194304 ∧
    clampTo 256 4194304 = 256 ∧ clampTo 256 (-4194304) = -256 := by decide

/-- The limiter releasing after case A. -/
theorem test_limiter_release : limiterGain 3767 4096 4 = 3771 ∧ limiterGain 4095 4096 4 = 4096 ∧ limiterGain 3799 3800 4 = 3800 := by decide

/-- Ramps of 5.11. -/
theorem test_ramps : ramp 0 4096 64 = 64 ∧ ramp 4032 4096 64 = 4096 ∧ ramp 1024 1000 64 = 1000 ∧ ramp 64 0 64 = 0 ∧ ramp 8 8 64 = 8 := by decide

/-- Quotients halfway and below 0, in the three modes (R91). -/
theorem test_rounding : roundQuotient .nearestEven 5 2 = 2 ∧ roundQuotient .nearestEven 7 2 = 4 ∧ roundQuotient .nearestEven (-5) 2 = -2 ∧
    roundQuotient .towardZero (-5) 2 = -2 ∧ roundQuotient .floor (-5) 2 = -3 ∧ roundQuotient .floor 5 2 = 2 := by decide

/-- A mix with a full ceiling driven far out of range, whose limiter finds Lcap 0. -/
def mixB : Mix :=
  { Mix.reset with
    cfg := { Settings.default with enabled := true, master := 32767, ceiling := 256 }
    list := (List.range 64).map fun k => steady k 32767 32767
    mc := 32767 }

/-- Every source at the largest sample. -/
def inputB : PassInput := { store := { sources := List.replicate 64 { sample := 8388607, age := 0 }, bad := 0, good := 1 }, coeff := 4096, frame := 0 }

theorem test_mixB_clamps : (mixB.pass inputB).yL = 256 ∧ (mixB.pass inputB).lg = 1 ∧ (mixB.pass inputB).current = ⟨true, false, true, true⟩ := by decide +kernel

theorem mixA_sound (mode : Rounding) : (mixA mode).sound := by
  simp [Mix.sound, mixA, Mix.reset, Settings.sound, Settings.default, listSound, steady, Entry.sound]

theorem mixB_sound : mixB.sound := by
  refine ⟨by simp [Settings.sound, mixB, Settings.default], ⟨by decide +kernel, ?_⟩, by decide, by decide, by decide, by decide, by decide, by decide, by simp [mixB], by decide⟩
  intro e he
  obtain ⟨k, hk, rfl⟩ := List.mem_map.mp he
  have := List.mem_range.mp hk
  simp only [Entry.sound, steady]
  exact ⟨by omega, by omega, by omega, by omega, by omega, by simp⟩

/-- Enabled mixes with Lcap 1 and above and with Lcap 0, and a disabled one. -/
theorem test_hyp_OutputsWithinCeiling : (mixA .nearestEven).sound ∧ (mixA .nearestEven).cfg.enabled = true ∧
    limiterCap (mixA .nearestEven).cfg.ceiling (((mixA .nearestEven).prepare inputA.store).findings inputA).rL
      (((mixA .nearestEven).prepare inputA.store).findings inputA).rR = 3767 ∧ mixB.sound ∧ mixB.cfg.enabled = true ∧
    limiterCap mixB.cfg.ceiling ((mixB.prepare inputB.store).findings inputB).rL ((mixB.prepare inputB.store).findings inputB).rR = 0 ∧
    Mix.reset.cfg.enabled = false :=
  ⟨mixA_sound _, rfl, by decide +kernel, mixB_sound, rfl, by decide +kernel, rfl⟩

/-- Gains at the edge of what brings the peak to the ceiling. -/
theorem test_hyp_LimiterHoldsPeak : 3767 ≤ 4096 ∧ max (4348755 : Int).natAbs (3585815 : Int).natAbs * 3767 ≤ 4000000 * 4096 ∧ (mixA .nearestEven).sound :=
  ⟨by decide, by decide, mixA_sound _⟩

theorem test_hyp_PassSumsAndScales : (mixA .nearestEven).cfg.enabled = true ∧
    (Mix.reset.replaceSettings (mixA .nearestEven).cfg).cfg.enabled = true ∧ (Mix.reset.replaceSettings (mixA .nearestEven).cfg).justEnabled = true := by decide

/-- A pass that takes a capture, one that finds a HELD record, and a disabled mix. -/
theorem test_hyp_PassReportsFlags : (mixA .nearestEven).cfg.enabled = true ∧ (mixA .nearestEven).capture = none ∧
    ((mixA .nearestEven).pass inputA).capture ≠ none ∧ Mix.reset.cfg.enabled = false := by decide +kernel

/-- The talk detector: at T it loads H; one below it counts down; the count reaches 0 and the duck state IDLE (4.7). -/
theorem test_talk_detector :
    ((mixA .nearestEven).detect { storeA 0 with sources := List.replicate 64 { sample := -1048576, age := 0 } }).hold = 9600 ∧
    ((mixA .nearestEven).detect { storeA 0 with sources := List.replicate 64 { sample := 1048575, age := 0 } }).hold = 99 ∧
    ({ mixA .nearestEven with hold := 1 }.detect (storeA 1)).engaged = false := by decide +kernel

theorem test_hyp_RampRule : 1 ≤ 64 ∧ (fun y => ramp y 1000 64)^[17] 2048 = 1000 ∧ (fun y => ramp y 1000 64)^[16] 2048 ≠ 1000 := by decide

theorem test_hyp_RoundingModes : 0 < 4096 ∧ roundQuotient .nearestEven 16381760085 4096 = 3999453 ∧ roundQuotient .nearestEven 3616 4096 = 1 := by decide

/-! ### Lists, the pool and the commit (3.7, 7.8) -/

theorem listed_sound (enabled : Bool) : listSound ((listed enabled).table.mix 2).list := by
  simp [listSound, listed, MixTable.mix, State.reset, MixTable.reset, Entry.sound]

/-- Values for source 12, LIVE in mix 2. -/
def newValues (source : Nat) : EntryValues := { source := source, gL := 5000, gR := 32767, group := some 7, mute := false }

theorem test_hyp_SetAndRetireOnList : 2 < (listed true).table.mixes.length ∧ listSound ((listed true).table.mix 2).list ∧ (newValues 63).source ≤ 63 ∧
    (newValues 63).gL ≤ 32767 ∧ (newValues 63).gR ≤ 32767 ∧ (∀ g, (newValues 63).group = some g → g ≤ 7) :=
  ⟨by decide, listed_sound _, by decide, by decide, by decide, by simp [newValues]⟩

theorem test_hyp_PassMovesEntries : 2 < (listed true).table.mixes.length ∧ 15 < (listed true).table.mixes.length := by decide

/-- Created, replaced, revived from its currents, and no entry free (R39 to R41). -/
theorem test_set_entry :
    (((listed true).table.setEntry 2 (newValues 3)).map fun r => (((r.1.mix 2).list.map (·.source)), r.1.free)) = some ([3, 12, 40], 509) ∧
      (((listed true).table.setEntry 2 (newValues 12)).map fun r => r.2) = some .replaced ∧
      (((listed true).table.setEntry 2 (newValues 40)).map fun r => ((r.1.mix 2).list.map (·.cR))) = some [128, 5] ∧
      ({ (listed true).table with free := 0 }.setEntry 2 (newValues 3)) = none := by decide +kernel

/-- The worked ENTRY_WRITE of 3.7: sources 12, 3, 40 and 12 again need three entries of an empty mix. -/
theorem test_building_a_mix :
    ((State.reset.table.setEntries 2 [newValues 12, newValues 3, newValues 40, newValues 12] ⟨0, 0, 0⟩).2, (State.reset.table.setEntries 2
      [newValues 12, newValues 3, newValues 40, newValues 12] ⟨0, 0, 0⟩).1.free) = ({ created := 3, revived := 0, replaced := 1 }, 509) := by decide +kernel

/-- A scene larger than the pool (7.8): free count 2, position 3 skipped. -/
theorem test_scene_larger_than_pool :
    (({ (listed true).table with free := 2 }.applyEdits
        [.setEntry 4 9 1 1 none false, .setEntry 4 10 1 1 none false, .setEntry 5 9 1 1 none false, .retireEntry 2 12, .setEntry 4 9 2 2 none false] 1
        ⟨0, 0, none⟩).2) = { applied := 4, skipped := 1, first := some 3 } := by decide +kernel

/-- The hold of a mix about to expire, and an armed commit whose frame is reached. -/
def expiring : State :=
  { State.reset with
    rx := { State.reset.rx with localFrame := 40500 }
    table := { State.reset.table with mixes := State.reset.table.mixes.set 15 { mixA .nearestEven with hold := 1 } }
    staging := { queue := [.clearMix 2], slot := .armed (.frame 40500) (.atFrame 40500 false), report := none } }

theorem test_hyp_StageRowsAct : expiring.resetHeld = false ∧ expiring.firesAt expiring.rx.localFrame = true ∧
    expiring.staging.slot = .armed (.frame 40500) (.atFrame 40500 false) ∧ State.reset.resetHeld = false ∧
    State.reset.firesAt State.reset.rx.localFrame = false ∧ ¬(State.reset.intake.power = .quiescing ∧ State.reset.fade.state = .shut) ∧
    ({ quieting with fade := { quieting.fade with state := .shut } } : State).resetHeld = false ∧
    ({ quieting with fade := { quieting.fade with state := .shut } } : State).intake.power = .quiescing ∧
    ({ quieting with fade := { quieting.fade with state := .shut } } : State).fade.state = .shut := by decide +kernel

theorem test_talk_hold_expiry : ((after (exec (.talkHoldExpiry 15) expiring)).table.mix 15).engaged = false ∧
    after (exec (.talkHoldExpiry 14) expiring) = expiring ∧
    after (exec (.talkHoldExpiry 15) { expiring with intake := { expiring.intake with power := .quiet } }) =
      { expiring with intake := { expiring.intake with power := .quiet } } := by decide +kernel

theorem test_commit_fire : (after (exec .commitFire expiring)).staging.report =
      some { frameFired := 40500, request := .atFrame 40500 false, applied := 1, skipped := 0, firstSkipped := none } ∧
    (after (exec .commitFire expiring)).events.summary = 0x10 := by decide +kernel

/-- The commit waits for its frame and fires past it, across a relock (7.8). -/
theorem test_commit_test : ({ State.reset with staging := expiring.staging } : State).firesAt 40499 = false ∧
    ({ State.reset with staging := expiring.staging } : State).firesAt 40501 = true := by decide

theorem test_power_quiet_complete :
    (after (exec .powerQuietComplete { quieting with fade := { quieting.fade with state := .shut, coeff := 0 } })).intake.power = .quiet ∧
      replyPayload (after (exec .powerQuietComplete { quieting with fade := { quieting.fade with state := .shut, coeff := 0 } })) = [0x16, 0, 0, 255, 0, 2] := by
  decide +kernel

/-! ### ENUMERATE, the arbiter, the frame event and the lanes (8.5, 9.7) -/

theorem test_hyp_EnumerateNumbersUnit : State.reset.resetHeld = false ∧ (receiving 1 2).resetHeld = false := ⟨rfl, rfl⟩

/-- An ENUMERATE arriving inside a message spoils it first (R149): counters 6 and 7, LANE_DROP, and only its own message is held to go on. -/
theorem test_enumerate_spoils :
    (after (exec (.enumerate 0 1 2 (messageCheck [255, 0, 0x82, 1, 1, 2])) (receiving 1 2))).rx.counters = ⟨0, 0, 0, 0, 0, 1, 1, 0⟩ ∧
      (after (exec (.enumerate 0 1 2 (messageCheck [255, 0, 0x82, 1, 1, 2])) (receiving 1 2))).events.summary = 0x80 ∧
      ((after (exec (.enumerate 0 1 2 (messageCheck [255, 0, 0x82, 1, 1, 2])) (receiving 1 2))).lane.hold.map (·.total)) = [1] := by decide +kernel

/-- Unit B of a ring of three takes 2 and forwards 3; n = 33 leaves it unassigned (R154). -/
theorem test_enumerate :
    (after (exec (.enumerate 0 1 2 (messageCheck [255, 0, 0x82, 1, 1, 2])) State.reset)).lane.unit = some 2 ∧
      ((after (exec (.enumerate 0 1 2 (messageCheck [255, 0, 0x82, 1, 1, 2])) State.reset)).lane.hold.map fun m => (m.frames.map fun f => f.getD 5 0)) =
        [[3]] ∧
      (after (exec (.enumerate 0 1 33 (messageCheck [255, 0, 0x82, 1, 1, 33])) State.reset)).lane.unit = none := by decide +kernel

theorem test_enumerate_bad_check :
    (after (exec (.enumerate 0 1 2 (messageCheck [255, 0, 0x82, 1, 1, 2] + 1)) State.reset)).rx.counters.messageCheckErrors = 1 ∧
      (after (exec (.enumerate 0 1 2 (messageCheck [255, 0, 0x82, 1, 1, 2] + 1)) State.reset)).events.summary = 0x40 := by decide +kernel

/-- Two octets frames of a message, and a message of the hold buffer with one of two frames emitted. -/
def passing (spoiled : Bool) (emitted : Nat) : HoldMessage :=
  { total := 2, frames := [List.replicate 8 1, List.replicate 8 2], emitted := emitted, spoiled := spoiled }

/-- A queued reply of nine octets, two lane frames. -/
def queued : QueuedMessage := { isNotice := false, octets := List.replicate 9 5 }

/-- The unit at a frame event whose delivery is made, with this emission, hold buffer, Reply Queue and arbiter memory. -/
def atEvent (emission : Emission) (hold : List HoldMessage) (messages : List QueuedMessage) (memory : ArbiterMemory) : State :=
  { linked .locked 0 0 with
    tb := { periodStart := 8000, periodEnd := 10048, due := true, adopted := false, owed := false, releaseEvent := false }
    lane := { State.reset.lane with emission := emission, hold := hold, memory := memory }
    replies := { messages := messages, reserved := 0 } }

theorem atEvent_comes (emission : Emission) (hold : List HoldMessage) (messages : List QueuedMessage) (memory : ArbiterMemory) :
    (atEvent emission hold messages memory).eventComes ∧ (atEvent emission hold messages memory).tb.owed = false := ⟨⟨rfl, rfl, Or.inl rfl⟩, rfl⟩

theorem test_hyp_FrameEventBeginsFrames : (atEvent .none [] [] .own).eventComes ∧ (atEvent .none [] [] .own).tb.owed = false ∧
    (∃ s : State, s.eventComes ∧ s.tb.owed = false ∧ s.tb.due = false ∧ s.rx.sync = .locked) :=
  ⟨(atEvent_comes _ _ _ _).1, rfl,
    { linked .locked 0 0 with tb := { (linked .locked 0 0).tb with adopted := true } }, ⟨rfl, rfl, Or.inr (Or.inl rfl)⟩, rfl, rfl, rfl⟩

/-- A state for each clause of the arbiter. -/
theorem test_hyp_FrameEventArbitrates :
    (∃ s : State, s.eventComes ∧ s.tb.owed = false ∧ s.lane.emission = .own [[1], [2]] 1) ∧
      (∃ s : State, s.eventComes ∧ s.tb.owed = false ∧ s.lane.emission = .pass ∧ s.lane.hold = [passing true 1] ∧ (passing true 1).spoiled = true) ∧
      (∃ s : State, s.eventComes ∧ s.tb.owed = false ∧ s.lane.emission = .pass ∧ s.lane.hold = [passing false 1] ∧ (passing false 1).spoiled = false) ∧
      (∃ s : State, s.eventComes ∧ s.tb.owed = false ∧ s.lane.emission = .none ∧ s.lane.hold = [] ∧ s.replies.messages = []) ∧
      (∃ s : State, s.eventComes ∧ s.tb.owed = false ∧ s.lane.emission = .none ∧ s.lane.hold = [passing false 0] ∧ s.lane.memory = .own) ∧
      (∃ s : State, s.eventComes ∧ s.tb.owed = false ∧ s.lane.emission = .none ∧ s.replies.messages = [queued] ∧ s.lane.memory = .pass) :=
  ⟨⟨atEvent (.own [[1], [2]] 1) [] [] .own, (atEvent_comes _ _ _ _).1, rfl, rfl⟩,
    ⟨atEvent .pass [passing true 1] [] .pass, (atEvent_comes _ _ _ _).1, rfl, rfl, rfl, rfl⟩,
    ⟨atEvent .pass [passing false 1] [] .pass, (atEvent_comes _ _ _ _).1, rfl, rfl, rfl, rfl⟩,
    ⟨atEvent .none [] [] .pass, (atEvent_comes _ _ _ _).1, rfl, rfl, rfl, rfl⟩,
    ⟨atEvent .none [passing false 0] [queued] .own, (atEvent_comes _ _ _ _).1, rfl, rfl, rfl, rfl⟩,
    ⟨atEvent .none [passing false 0] [queued] .pass, (atEvent_comes _ _ _ _).1, rfl, rfl, rfl, rfl⟩⟩

/-- Periods 1 and 3 of the worked reply and spoiled message (9.7): both wait and the memory is OWN; then the spoiled message ends in an ABORT. -/
theorem test_arbiter_turns :
    ((atEvent .none [passing false 0] [queued] .own).arbitrate.2.1 = .first ∧ (atEvent .none [passing false 0] [queued] .own).arbitrate.2.2 = List.replicate 8 1 ∧
      (atEvent .none [passing false 0] [queued] .own).arbitrate.1.lane.memory = .pass) ∧
    (atEvent .pass [passing true 1] [queued] .pass).arbitrate.2.1 = .abort ∧ (atEvent .pass [passing true 1] [queued] .pass).arbitrate.1.lane.hold = [] ∧
    (atEvent .none [] [queued] .pass).arbitrate.1.replies.messages = [] := by decide

/-- Default routes carry mix 4l + p / 2 (R141); a route is read at the frame event (R139). -/
theorem test_lane_frame : ((after (exec .frameEvent { atEvent .none [] [] .own with lanes := { State.reset.lanes with held := (List.range 16).map fun k => ((k : Int), -(k : Int)) } })).lanes.frame.map
      fun v => (v.getD 12 0, v.getD 13 0, v.getD 30 0)) = some (6, -6, 15) := by decide +kernel

/-- The frame forwarded keeps its number, and a generated one carries the local frame number and DAMAGED (R16, R17). -/
theorem test_frames_emitted : (atEvent .none [] [] .own).emitDamaged = true ∧
    ({ atEvent .none [] [] .own with tx := { State.reset.tx with heldFrame := some { cls := .good, number := 77, flags := 0, slots := [] } } } : State).emitNumber = 77 ∧
    ({ atEvent .none [] [] .own with tx := { State.reset.tx with heldFrame := some { cls := .good, number := 77, flags := 0, slots := [] } } } : State).emitDamaged = false := by
  decide

/-- The cue of 8.5: mix 4's pair in slots 62 and 63. -/
theorem test_cue_written :
    ({ State.reset with
        tx := { State.reset.tx with cueMix := some 4, passRan := true }
        lanes := { State.reset.lanes with held := State.reset.lanes.held.set 4 (120000, 118000) } } : State).emitSlots.drop 61 = [0, 120000, 118000] := by
  decide +kernel

/-- The unit sending a lane frame with the values 1 and -1 first. -/
def sending (power : PowerState) : State :=
  { State.reset with lanes := { State.reset.lanes with frame := some ([1, -1] ++ List.replicate 30 0) }, intake := { State.reset.intake with power := power } }

/-- The unit emitting a frame. -/
def emitting : State := { State.reset with tx := { State.reset.tx with emitted := some (sentFrame false .idle (List.replicate 8 0)) } }

/-- Each boundary of a position's clocks; a period longer than, as long as and shorter than the frame. -/
theorem test_hyp_LinesCarryFrames : (sending .run).lanes.frame = some ([1, -1] ++ List.replicate 30 0) ∧ (3 < 4 ∧ 7 < 8 ∧ 31 < 32 ∧ 256 ≤ 256) ∧
    emitting.tx.emitted = some (sentFrame false .idle (List.replicate 8 0)) ∧ (sentFrame false .idle (List.replicate 8 0)).slots.length = 64 ∧
    (sentFrame false .idle (List.replicate 8 0)).lane.length = 8 ∧ 1664 ≤ 3071 ∧ 1664 ≤ 1664 ∧ 1663 < 1664 :=
  ⟨rfl, by decide, rfl, List.length_replicate, rfl, by decide, by decide, by decide⟩

/-- Sample 1 in position 0 is bit 23 alone; -1 in position 1 is all ones for 24 clocks; at QUIET the position begun goes on and the
others carry 0 (R137, R140). -/
theorem test_lane_bits : (List.range 24).map ((sending .run).laneBit 0) = List.replicate 23 false ++ [true] ∧ (sending .run).laneBit 0 32 = true ∧
    (sending .run).laneBit 0 55 = true ∧ (sending .run).laneBit 0 56 = false ∧ ((sending .run).lanes.quiet 1).frame.map (·.take 2) = some [1, 0] := by
  decide +kernel

/-- Before the delivery point at 1,664 at most 7 positions have begun, and after it at least 7 and at most 8 (R8, R137); at a second sync at 700, at least 3. -/
theorem test_positions_begun : State.reset.begunAtMost = 7 ∧ (after (exec .deliveryPoint State.reset)).begunAtLeast = 7 ∧
    (after (exec .deliveryPoint State.reset)).begunAtMost = 8 ∧ (after (exec (.syncFound 700) State.reset)).begunAtLeast = 3 := by decide +kernel

/-- A window that closes in CONFIRM at 1,900, and a sync out of its window there, show position 7 begun, and no later draw takes it back (R140, log 26). -/
theorem test_moment_noted :
    let confirm := { linked .confirm 1 0 with begun := 7, rx := { (linked .confirm 1 0).rx with expected := 9896 } }
    (after (exec .syncMissing confirm)).begunAtLeast = 8 ∧ (after (exec (.syncFound 9791) confirm)).begunAtLeast = 7 ∧
      (after (exec (.syncFound 9792) confirm)).begunAtLeast = 8 ∧ (after (exec .syncMissing confirm)).begunAtMost = 8 := by
  decide +kernel

/-! ### NOTICEs, messages and encodings (11, 12) -/

/-- The unit with the latch set by COMMIT_DONE. -/
def latched (messages : List QueuedMessage) : State :=
  { State.reset with events := { summary := 0x10, mask := 0x18, latch := true }, replies := { messages := messages, reserved := 0 } }

theorem test_hyp_NoticeJoinsQueue : (latched (List.replicate 7 queued)).resetHeld = false ∧ (latched (List.replicate 7 queued)).events.latch = true ∧
    (∀ m ∈ (latched (List.replicate 7 queued)).replies.messages, m.isNotice = false) ∧
    (latched (List.replicate 7 queued)).replies.messages.length + (latched (List.replicate 7 queued)).replies.reserved < 8 := by decide

/-- No place free, or a NOTICE queued: the NOTICE waits (R173). -/
theorem test_notice_waits : after (exec .noticeQueue (latched (List.replicate 8 queued))) = latched (List.replicate 8 queued) ∧
    after (exec .noticeQueue (latched [{ queued with isNotice := true }])) = latched [{ queued with isNotice := true }] := by decide +kernel

/-- The NOTICE of section 12.5, from an unassigned unit, after a commit. -/
theorem test_notice : replyPayload (after (exec .noticeQueue (latched []))) = [0x10, 0, 0, 0, 0] ∧
    ((after (exec .noticeQueue (latched []))).replies.messages.map fun m => m.octets.take 5) = [[0, 254, 0x81, 0, 5]] ∧
    (after (exec .noticeQueue (latched []))).events.latch = false := by decide +kernel

theorem test_hyp_EmittedFrameArrivesIntact : ∃ e : EmittedFrame, e.slots.length = 64 ∧ (∀ y ∈ e.slots, -8388608 ≤ y ∧ y ≤ 8388607) ∧ e.lane.length = 8 ∧
    e.check = frameCheck (coveredOctets e.number e.damaged e.kind e.slots e.lane) :=
  ⟨sentFrame false .first (List.replicate 8 255), by simp [sentFrame], by simp [sentFrame], by simp [sentFrame], by simp only [sentFrame]⟩

/-- The unit numbered 32. -/
def unit32 : State := { State.reset with lane := { State.reset.lane with unit := some 32 } }

theorem test_hyp_MessageReachesIntake : (List.replicate 240 (0 : Byte)).length ≤ 240 ∧ unit32.lane.unit = some (32 : Byte).toNat ∧ (32 : Byte).toNat ≤ 32 ∧
    unit32.lane.rx = .waiting ∧ unit32.lane.buffer = [] := ⟨Nat.le_of_eq List.length_replicate, rfl, by decide, rfl, rfl⟩

/-- A STATUS_READ addressed to the unit, in one lane frame, reaches the holding slot; its check corrupted, it is counted (R151, R160). -/
theorem test_message_received :
    (unit32.laneFirst (message 32 0 0x02 7 [] ++ [0])).intake.holding = some (sent 0x02 []) ∧
      (unit32.laneFirst ((message 32 0 0x02 7 []).set 6 0x55 ++ [0])).rx.counters.messageCheckErrors = 1 := by decide +kernel

/-- A message to another unit is held to go on, with its frames reserved; one that does not fit is dropped (R152). -/
theorem test_pass_through : (unit32.laneFirst [5, 0, 0x0E, 7, 32, 0, 0, 0]).lane.hold.map (·.total) = [5] ∧
    (({ unit32 with lane := { unit32.lane with hold := [{ total := 60, frames := [], emitted := 0, spoiled := false }] } } : State).laneFirst
      [5, 0, 0x0E, 7, 32, 0, 0, 0]).rx.counters.laneDrops = 1 := by decide +kernel

/-! ### Commands: waiting, generic checks (10.7) -/

/-- The unit with eight replies waiting. -/
def fullQueue : State := { State.reset with replies := { messages := List.replicate 8 queued, reserved := 0 } }

/-- Each way a command cannot be taken. -/
theorem test_hyp_CommandsWaitOrOverrun :
    commandOf (.identify .held) = some (0x01, .held) ∧ (Instr.identify .held).wellFormed = true ∧ State.reset.resetHeld = false ∧
      State.reset.intake.holding = none ∧ quieting.resetHeld = false ∧ quieting.intake.executing ≠ none ∧ quieting.intake.holding = none ∧
      fullQueue.resetHeld = false ∧ 8 ≤ fullQueue.replies.messages.length + fullQueue.replies.reserved ∧
      (ready State.reset 0x02 []).resetHeld = false ∧ (ready State.reset 0x02 []).intake.holding = some (sent 0x02 []) ∧ (sent 0x02 []).kind ≠ 0x01 ∧
      commandOf (.mixClear .held) = some (0x0B, .held) ∧ (Instr.mixClear .held).wellFormed = true ∧
      (ready State.reset 0x0B [2, 1]).intake.holding = some (sent 0x0B [2, 1]) ∧ (sent 0x0B [2, 1]).kind = 0x0B ∧
      (Instr.mixClear .held).ownPayload [2, 1] = false ∧
      commandOf (.identify (.arriving 0 7 [])) = some (0x01, .arriving 0 7 []) ∧ (Instr.identify (.arriving 0 7 [])).wellFormed = true := by decide

theorem test_hyp_RowTakesItsKind : commandOf (.mixClearStaged .held) = some (0x0B, .held) ∧ (Instr.mixClearStaged .held).ownPayload [2, 1] = true ∧
    (Instr.mixClear .held).ownPayload [2, 1] = false ∧ commandOf (.unknownCommand 0x18 .held) = some (0x18, .held) := by decide

/-- STATUS_PEEK waits behind a quieting, noted BUSY; ENTRY_READ is then an overrun (10.7). -/
theorem test_commands_behind_quieting :
    (after (exec (.statusPeek (.arriving 0 12 [])) quieting)).intake.holding.map (fun c => (c.busyAtArrival, c.waited)) = some (true, true) ∧
      (after (exec (.entryRead (.arriving 0 13 [2, 0, 0])) (after (exec (.statusPeek (.arriving 0 12 [])) quieting)))).events.summary = 0x20 := by decide +kernel

theorem test_hyp_GenericChecksRefuse :
    (ready State.reset 0x18 []).takes .held 0x18 (sent 0x18 []) ∧ (ready State.reset 0x00 []).takes .held 0x00 (sent 0x00 []) ∧
      (ready State.reset 0x04 [1, 2]).takes .held 0x04 (sent 0x04 [1, 2]) ∧ commandOf (.unitSetup .held) = some (0x04, .held) ∧
      (Instr.unitSetup .held).ownPayload [1, 2] = true ∧ (ready State.reset 0x09 [2, 1]).takes .held 0x09 (sent 0x09 [2, 1]) ∧
      (Instr.entryWriteStaged .held).ownPayload [2, 1] = true ∧ (ready State.reset 0x17 [0]).takes .held 0x17 (sent 0x17 [0]) :=
  ⟨reset_takes _ _, reset_takes _ _, reset_takes _ _, rfl, rfl, reset_takes _ _, rfl, reset_takes _ _⟩

theorem test_unknown_command : answer (.unknownCommand 0x18 .held) (ready State.reset 0x18 [1]) = [0x18, 0x10, 0, 255] ∧
    answer (.unknownCommand 0x80 (.arriving 0 7 [])) State.reset = [0x80, 0x10, 0, 255] := by decide +kernel

/-- A length refused; an ENTRY_WRITE whose count does not match; the check stands before the mix check. -/
theorem test_length_refused : answer (.unitSetup .held) (ready State.reset 0x04 [1, 2]) = [0x04, 0x11, 0, 255] ∧
    answer (.entryWrite .held) (ready State.reset 0x09 [99, 0, 2, 1, 15, 0, 0, 0, 0]) = [0x09, 0x11, 0, 255] := by decide +kernel

/-! ### Commands on the unit -/

theorem test_hyp_IdentifyAndStatusAnswer : (ready State.reset 0x01 []).takes .held 0x01 (sent 0x01 []) ∧ (ready (latched []) 0x02 []).takes .held 0x02 (sent 0x02 []) ∧
    (ready (latched []) 0x03 []).takes .held 0x03 (sent 0x03 []) ∧ (sent 0x03 []).payload = [] :=
  ⟨reset_takes _ _, ready_takes rfl rfl (by decide) _ _, ready_takes rfl rfl (by decide) _ _, rfl⟩

theorem test_identify : answer (.identify .held) (ready unit32 0x01 []) =
    [0x01, 0, 0, 255, 0x49, 0x53, 0x16, 0x04, 1, 32, 16, 2, 0, 128, 32, 2, 0] := by decide +kernel

/-- The reply's header (R163): to the sender, from the unit, KIND REPLY, the command's TAG. -/
theorem test_reply_header : ((after (exec (.identify (.arriving 9 77 [])) unit32)).replies.messages.map fun m => m.octets.take 5) = [[9, 32, 0x80, 77, 17]] := by
  decide +kernel

/-- The status payload of section 12.5 of an armed unit; STATUS_READ clears the latch and withdraws a NOTICE, STATUS_PEEK does not (R174). -/
theorem test_status : answer (.statusPeek .held) (ready { expiring with events := { summary := 0x10, mask := 0x18, latch := true } } 0x03 []) =
    [0x03, 0, 0, 255, 0, 0, 2, 0, 0, 0, 0, 0x9E, 0x34, 2, 0x9E, 0x34, 0, 0, 0, 0, 0, 0, 0, 0, 0, 1, 0, 0, 2, 0, 0x10, 0x18] := by decide +kernel

theorem test_status_read : (after (exec (.statusRead .held) (ready (latched [{ queued with isNotice := true }, queued]) 0x02 []))).events.latch = false ∧
    (after (exec (.statusRead .held) (ready (latched [{ queued with isNotice := true }, queued]) 0x02 []))).replies.messages.length = 2 ∧
    (after (exec (.statusPeek .held) (ready (latched [{ queued with isNotice := true }, queued]) 0x03 []))).events.latch = true := by decide +kernel

theorem test_hyp_UnitSetupAndEventAck : (ready State.reset 0x04 [0x18, 0, 64]).takes .held 0x04 (sent 0x04 [0x18, 0, 64]) ∧
    (ready (latched []) 0x05 [0x10]).takes .held 0x05 (sent 0x05 [0x10]) := ⟨reset_takes _ _, ready_takes rfl rfl (by decide) _ _⟩

/-- A fade-in step of 0 and of 4,097 is clamped (R27); a mask that newly enables a set bit sets the latch (log 17). -/
theorem test_unit_setup : answer (.unitSetup .held) (ready State.reset 0x04 [0x18, 0, 0]) = [0x04, 0, 1, 255, 0, 0x18, 0, 1] ∧
    answer (.unitSetup .held) (ready State.reset 0x04 [0, 0x10, 1]) = [0x04, 0, 1, 255, 0, 0, 0x10, 0] ∧
    (after (exec (.unitSetup .held) (ready { State.reset with events := { summary := 0x10, mask := 0, latch := false } } 0x04 [0x10, 0, 64]))).events.latch = true := by
  decide +kernel

theorem test_event_ack : answer (.eventAck .held) (ready { State.reset with events := { summary := 0x18, mask := 0, latch := false } } 0x05 [0xF0]) =
    [0x05, 0, 0, 255, 0x18, 0x08] := by decide +kernel

theorem test_hyp_LinkCountersReadAndClear : (ready State.reset 0x06 [1]).takes .held 0x06 (sent 0x06 [1]) ∧ (ready State.reset 0x06 [2]).takes .held 0x06 (sent 0x06 [2]) :=
  ⟨reset_takes _ _, reset_takes _ _⟩

/-- The counters of 1.10 read and cleared; option 2 refused. -/
theorem test_link_counters :
    answer (.linkCounters .held) (ready { State.reset with rx := { State.reset.rx with counters := ⟨0, 1, 0, 0, 8, 0, 0, 0⟩ } } 0x06 [1]) =
        [0x06, 0, 0, 255, 0, 0, 0, 1, 0, 0, 0, 0, 0, 8, 0, 0, 0, 0, 0, 0] ∧
      (after (exec (.linkCounters .held) (ready { State.reset with rx := { State.reset.rx with counters := ⟨0, 1, 0, 0, 8, 0, 0, 0⟩ } } 0x06 [1]))).rx.counters =
        LinkCounters.zero ∧
      answer (.linkCounters .held) (ready State.reset 0x06 [2]) = [0x06, 0x12, 0, 255] := by decide +kernel

/-! ### Commands on mix records (4.7) -/

/-- As taken: E 1, C 8,388,607. -/
def record4Taken : List Byte := [1, 0x10, 0, 0, 1, 0x7F, 0xFF, 0xFF, 0, 4, 0, 0, 60, 0x10, 0, 0, 0x25, 0x80, 4, 0, 1, 0, 0, 8, 0x0C]

theorem test_hyp_MixWriteAndGroupMuteAct : (ready State.reset 0x07 (15 :: 0 :: record4)).takes .held 0x07 (sent 0x07 (15 :: 0 :: record4)) ∧
    record4.length = 25 ∧ (0 : Byte).toNat ≠ 1 ∧ (ready State.reset 0x07 (16 :: 2 :: record4)).takes .held 0x07 (sent 0x07 (16 :: 2 :: record4)) ∧
    (ready State.reset 0x0D [15, 0, 255]).takes .held 0x0D (sent 0x0D [15, 0, 255]) ∧
    (ready State.reset 0x07 (16 :: 1 :: record4)).takes .held 0x07 (sent 0x07 (16 :: 1 :: record4)) ∧ 15 < (16 : Byte).toNat ∧
    (ready State.reset 0x07 (15 :: 1 :: record4.set 10 3)).takes .held 0x07 (sent 0x07 (15 :: 1 :: record4.set 10 3)) ∧
    takeSettings (record4.set 10 3) = .error 5 ∧ takeSettings (record4.set 12 64) = .error 7 ∧ (record4.set 12 64).length = 25 ∧
    (ready State.reset 0x0D [16, 1, 255]).takes .held 0x0D (sent 0x0D [16, 1, 255]) :=
  ⟨reset_takes _ _, rfl, by decide, reset_takes _ _, reset_takes _ _, reset_takes _ _, by decide, reset_takes _ _, rfl, rfl, rfl, reset_takes _ _⟩

theorem test_mix_write : answer (.mixWrite .held) (ready State.reset 0x07 (5 :: 0 :: record4)) = [0x07, 0, 1, 255] ++ record4Taken ∧
    answer (.mixWrite .held) (ready State.reset 0x07 (5 :: 0 :: (record4.set 10 9).set 12 70)) = [0x07, 0x12, 0, 5] := by decide +kernel

/-- Mix 5 in the middle of case A. -/
def mixing : State := { State.reset with table := { State.reset.table with mixes := State.reset.table.mixes.set 5 { mixA .floor with lg := 99, yL := 7 } } }

/-- The disable transition (R68): mc 0, Lg 4096, the detector idle; the last outputs stay until a pass. -/
theorem test_disable_transition : ((after (exec (.mixWrite .held) (ready mixing 0x07 (5 :: 0 :: record4.set 0 0)))).table.mix 5).mc = 0 ∧
    ((after (exec (.mixWrite .held) (ready mixing 0x07 (5 :: 0 :: record4.set 0 0)))).table.mix 5).lg = 4096 ∧
    ((after (exec (.mixWrite .held) (ready mixing 0x07 (5 :: 0 :: record4.set 0 0)))).table.mix 5).yL = 7 := by decide +kernel

theorem test_group_mute : answer (.groupMute .held) (ready State.reset 0x0D [3, 0, 0xA5]) = [0x0D, 0, 0, 255, 0, 0xA5] ∧
    answer (.groupMute .held) (ready State.reset 0x0D [16, 0, 0xA5]) = [0x0D, 0x14, 0, 255] := by decide +kernel

theorem test_hyp_MixReadAndEntryReadAnswer : (ready (listed true) 0x08 [2]).takes .held 0x08 (sent 0x08 [2]) ∧ (ready (listed true) 0x08 [16]).takes .held 0x08 (sent 0x08 [16]) ∧
    (ready (listed true) 0x0C [2, 1, 0]).takes .held 0x0C (sent 0x0C [2, 1, 0]) :=
  ⟨ready_takes rfl rfl (by decide) _ _, ready_takes rfl rfl (by decide) _ _, ready_takes rfl rfl (by decide) _ _⟩

/-- The defaults of R60 and the running state of R77, 41 octets. -/
theorem test_mix_read : answer (.mixRead .held) (ready (listed false) 0x08 [2]) =
    [0x08, 0, 0, 255, 0, 0x10, 0, 0, 64, 0x7F, 0xFF, 0xFF, 0, 4, 0, 0, 255, 0x10, 0, 0, 0x25, 0x80, 4, 0, 1, 0, 0, 8, 0, 0, 0, 0x10, 0, 0, 0, 0, 0x10, 0, 2, 0, 0, 0,
      0, 0, 0] := by decide +kernel

/-- The second entry of the list, read as the rest from position 1; none from position 2; mix 16 refused with data (R54, 3.7). -/
theorem test_entry_read : answer (.entryRead .held) (ready (listed true) 0x0C [2, 1, 0]) = [0x0C, 0, 0, 255, 2, 1, 1, 40, 0x3F, 1, 44, 1, 0x90, 0, 0, 0, 5] ∧
    answer (.entryRead .held) (ready (listed true) 0x0C [2, 2, 0]) = [0x0C, 0, 0, 255, 2, 2, 0] ∧
    answer (.entryRead .held) (ready (listed true) 0x0C [16, 3, 0]) = [0x0C, 0x14, 0, 255, 0, 3, 0] := by decide +kernel

/-! ### Commands on lists (3.7) -/

/-- Wire records at the edges: source 63 with group 7, and source 0 with no group, muted, a gain to be clamped. -/
def edgeRecords : List WireRecord := [⟨63, 0x07, 0x10, 0, 0x10, 0⟩, ⟨0, 0x1F, 0x9C, 0x40, 8, 0⟩]

theorem test_hyp_EntryWriteActs : (ready State.reset 0x09 (15 :: 0 :: octet edgeRecords.length :: edgeRecords.flatMap WireRecord.octets)).takes .held 0x09
      (sent 0x09 (15 :: 0 :: octet edgeRecords.length :: edgeRecords.flatMap WireRecord.octets)) ∧ (15 : Byte).toNat ≤ 15 ∧ edgeRecords.length ≤ 32 ∧
    (∀ w ∈ edgeRecords, w.valid) ∧ 2 < (listed true).table.mixes.length ∧
    (([newValues 3, newValues 3, newValues 12].map (·.source)).filter fun x => (entryFor ((listed true).table.mix 2).list x).isNone).dedup.length ≤ 1 ∧
    1 ≤ (listed true).table.free :=
  ⟨reset_takes _ _, by decide, by decide, by simp [edgeRecords, WireRecord.valid], by decide, by decide +kernel, by decide⟩

/-- The worked ENTRY_WRITE of 3.7, its free count 469 less what other mixes hold here: three created, one replaced, one gain clamped. -/
theorem test_entry_write : answer (.entryWrite .held) (ready State.reset 0x09
      [2, 0, 4, 12, 1, 0x10, 0, 0x10, 0, 3, 15, 0x18, 0, 0x10, 0, 40, 2, 0x9C, 0x40, 8, 0, 12, 1, 0x13, 0x88, 0x13, 0x88]) =
    [0x09, 0, 1, 255, 3, 0, 1, 3, 1, 0xFD] := by decide +kernel

theorem test_entry_write_refusals :
    answer (.entryWrite .held) (ready { State.reset with table := { State.reset.table with free := 0 } } 0x09 [2, 0, 1, 12, 1, 0, 1, 0, 1]) =
        [0x09, 0x15, 0, 255, 1, 0, 0, 0, 0, 0] ∧
      answer (.entryWrite .held) (ready State.reset 0x09 [2, 0, 2, 12, 1, 0, 1, 0, 1, 13, 8, 0, 1, 0, 1]) = [0x09, 0x12, 0, 1, 0, 0, 0, 0, 2, 0] := by decide +kernel

/-- 33 records, and 33 sources: one more than a command may carry (R46, R51). -/
def records33 : List WireRecord := List.replicate 33 ⟨63, 7, 0, 0, 0, 0⟩
def sources33 : List Byte := List.replicate 33 63

/-- A source of 64 and a group of 8 are bad (R46); the counts are 33; mode 2; mix 16. -/
theorem test_hyp_ListCommandsRefuse :
    (ready State.reset 0x09 (15 :: 1 :: 2 :: (edgeRecords.set 1 ⟨64, 0, 0, 0, 0, 0⟩).flatMap WireRecord.octets)).takes .held 0x09
        (sent 0x09 (15 :: 1 :: 2 :: (edgeRecords.set 1 ⟨64, 0, 0, 0, 0, 0⟩).flatMap WireRecord.octets)) ∧
      edgeRecords.set 1 ⟨64, 0, 0, 0, 0, 0⟩ = [⟨63, 0x07, 0x10, 0, 0x10, 0⟩] ++ ⟨64, 0, 0, 0, 0, 0⟩ :: [] ∧
      ¬WireRecord.valid ⟨64, 0, 0, 0, 0, 0⟩ ∧ ¬WireRecord.valid ⟨0, 8, 0, 0, 0, 0⟩ ∧ WireRecord.valid ⟨63, 0x07, 0x10, 0, 0x10, 0⟩ ∧
      (ready State.reset 0x09 (15 :: 0 :: octet records33.length :: records33.flatMap WireRecord.octets)).takes .held 0x09
        (sent 0x09 (15 :: 0 :: octet records33.length :: records33.flatMap WireRecord.octets)) ∧ 32 < records33.length ∧ records33.length ≤ 39 ∧
      (ready State.reset 0x09 [16, 2, 0]).takes .held 0x09 (sent 0x09 [16, 2, 0]) ∧ (ready State.reset 0x09 [15, 2, 0]).takes .held 0x09 (sent 0x09 [15, 2, 0]) :=
  ⟨reset_takes _ _, rfl, by simp [WireRecord.valid], by simp [WireRecord.valid], by simp [WireRecord.valid], reset_takes _ _, by decide, by decide,
    reset_takes _ _, reset_takes _ _⟩

theorem test_hyp_ListCommandsRefuse_sources :
    (ready State.reset 0x0A [15, 0, 2, 63, 64]).takes .held 0x0A (sent 0x0A [15, 0, 2, 63, 64]) ∧ 63 < (64 : Byte).toNat ∧ (63 : Byte).toNat ≤ 63 ∧
      (ready State.reset 0x0A [15, 0, 0]).takes .held 0x0A (sent 0x0A [15, 0, 0]) ∧
      (ready State.reset 0x0A (15 :: 1 :: octet sources33.length :: sources33)).takes .held 0x0A (sent 0x0A (15 :: 1 :: octet sources33.length :: sources33)) ∧
      32 < sources33.length ∧ sources33.length ≤ 237 ∧ (ready State.reset 0x0A [16, 0, 0]).takes .held 0x0A (sent 0x0A [16, 0, 0]) ∧
      (ready State.reset 0x0B [16, 1]).takes .held 0x0B (sent 0x0B [16, 1]) ∧ (ready State.reset 0x0B [15, 2]).takes .held 0x0B (sent 0x0B [15, 2]) :=
  ⟨reset_takes _ _, by decide, by decide, reset_takes _ _, reset_takes _ _, by decide, by decide, reset_takes _ _, reset_takes _ _, reset_takes _ _⟩

theorem test_hyp_EntryRemoveAndMixClearAct : (ready (listed true) 0x0A [2, 0, 3, 12, 40, 63]).takes .held 0x0A (sent 0x0A [2, 0, 3, 12, 40, 63]) ∧
    (∀ x ∈ ([12, 40, 63] : List Byte), x.toNat ≤ 63) ∧ (2 : Byte).toNat ≤ 15 ∧ (ready (listed true) 0x0B [2, 0]).takes .held 0x0B (sent 0x0B [2, 0]) :=
  ⟨ready_takes rfl rfl (by decide) _ _, by decide, by decide, ready_takes rfl rfl (by decide) _ _⟩

/-- One retired, one already retiring, one absent; no entry leaves (R42, R51). -/
theorem test_entry_remove : answer (.entryRemove .held) (ready (listed true) 0x0A [2, 0, 3, 12, 40, 63]) = [0x0A, 0, 0, 255, 1, 1, 1, 2, 1, 0xFE] ∧
    answer (.entryRemove .held) (ready (listed true) 0x0A [2, 0, 2, 12, 64]) = [0x0A, 0x12, 0, 1, 0, 0, 0, 2, 1, 0xFE] := by decide +kernel

theorem test_mix_clear : answer (.mixClear .held) (ready (listed true) 0x0B [2, 0]) = [0x0B, 0, 0, 255, 1, 1, 2, 1, 0xFE] ∧
    ((after (exec (.mixClear .held) (ready (listed true) 0x0B [2, 0]))).table.mix 2).list.map (·.state) = [.retiring, .retiring] := by decide +kernel

/-! ### STAGED commands (7.8) -/

/-- The unit with this many staged records. -/
def staged (n : Nat) : State := { State.reset with staging := { Staging.reset with queue := List.replicate n (.clearMix 0) } }

theorem test_hyp_StagedCommandsAppend : (15 : Byte).toNat ≤ 15 ∧
    (ready (staged 126) 0x09 (15 :: 1 :: octet edgeRecords.length :: edgeRecords.flatMap WireRecord.octets)).takes .held 0x09
      (sent 0x09 (15 :: 1 :: octet edgeRecords.length :: edgeRecords.flatMap WireRecord.octets)) ∧ edgeRecords.length ≤ 32 ∧ (∀ w ∈ edgeRecords, w.valid) ∧
    (ready (staged 127) 0x0A [15, 1, 1, 63]).takes .held 0x0A (sent 0x0A [15, 1, 1, 63]) ∧ (ready (staged 128) 0x0B [15, 1]).takes .held 0x0B (sent 0x0B [15, 1]) ∧
    (ready (staged 0) 0x07 (15 :: 1 :: record4)).takes .held 0x07 (sent 0x07 (15 :: 1 :: record4)) ∧
    (takeSettings record4).toOption.isSome = true ∧ (ready (staged 0) 0x0D [15, 1, 255]).takes .held 0x0D (sent 0x0D [15, 1, 255]) :=
  ⟨by decide, ready_takes rfl rfl (by decide) _ _, by decide, by simp [edgeRecords, WireRecord.valid], ready_takes rfl rfl (by decide) _ _,
    ready_takes rfl rfl (by decide) _ _, ready_takes rfl rfl (by decide) _ _, by decide +kernel, ready_takes rfl rfl (by decide) _ _⟩

/-- Room in the queue (7.8): at 127, two records are refused whole and one is taken. -/
theorem test_entry_write_staged : answer (.entryWriteStaged .held) (ready (staged 127) 0x09 [2, 1, 2, 12, 1, 0, 1, 0, 1, 13, 1, 0, 1, 0, 1]) = [0x09, 0x16, 0, 255, 2, 127] ∧
    answer (.entryWriteStaged .held) (ready (staged 127) 0x09 [2, 1, 1, 12, 1, 0xFF, 0xFF, 0, 1]) = [0x09, 0, 1, 255, 1, 128] := by decide +kernel

theorem test_entry_remove_staged : (after (exec (.entryRemoveStaged .held) (ready State.reset 0x0A [2, 1, 2, 40, 12]))).staging.queue =
    [.retireEntry 2 40, .retireEntry 2 12] := by decide +kernel

theorem test_mix_clear_staged : answer (.mixClearStaged .held) (ready (staged 128) 0x0B [2, 1]) = [0x0B, 0x16, 0, 255, 1, 128] ∧
    answer (.mixClearStaged .held) (ready State.reset 0x0B [2, 1]) = [0x0B, 0, 0, 255, 1, 1] := by decide +kernel

theorem test_mix_write_staged : answer (.mixWriteStaged .held) (ready (staged 120) 0x07 (0 :: 1 :: record4)) = [0x07, 0, 1, 255, 1, 121] ++ record4Taken ∧
    (after (exec (.mixWriteStaged .held) (ready State.reset 0x07 (0 :: 1 :: record4)))).table = State.reset.table := by decide +kernel

theorem test_group_mute_staged : answer (.groupMuteStaged .held) (ready State.reset 0x0D [1, 1, 4]) = [0x0D, 0, 0, 255, 1, 1, 4] := by decide +kernel

/-! ### Commands on routes, cue, slot, flags, power (6.6, 7.8, 8.5, 10.7) -/

/-- The default route octets with these two at 30 and 31 (8.5). -/
def routeOctets (a b : Byte) : List Byte :=
  [0, 32, 1, 33, 2, 34, 3, 35, 4, 36, 5, 37, 6, 38, 7, 39, 8, 40, 9, 41, 10, 42, 11, 43, 12, 44, 13, 45, 14, 46] ++ [a, b]

/-- A ROUTE_WRITE, a ROUTE_READ arriving after it, and the frame event after that. -/
theorem test_hyp_RouteReadAnswers : (ready State.reset 0x0F []).takes .held 0x0F (sent 0x0F []) ∧ (sent 0x0F []).payload = [] ∧
    (ready (atEvent .none [] [] .own) 0x0E (routeOctets 0 255)).takes .held 0x0E (sent 0x0E (routeOctets 0 255)) ∧ (routeOctets 0 255).length = 32 ∧
    (∀ b ∈ routeOctets 0 255, b.toNat = 255 ∨ (b.toNat < 64 ∧ b.toNat % 32 < 16)) ∧
    ∃ t, exec (.routeWrite .held) (ready (atEvent .none [] [] .own) 0x0E (routeOctets 0 255)) = .next t ∧ t.takes (.arriving 0 7 []) 0x0F (sent 0x0F []) ∧
      t.eventComes ∧ t.tb.owed = false :=
  ⟨reset_takes _ _, rfl, ready_takes rfl rfl (by decide) _ _, rfl, by decide, _, rfl,
    ⟨by decide +kernel, by decide +kernel, by decide +kernel, by decide +kernel, rfl⟩, ⟨by decide +kernel, by decide +kernel, Or.inl (by decide +kernel)⟩,
    by decide +kernel⟩

theorem test_route_read : answer (.routeRead .held) (ready State.reset 0x0F []) = [0x0F, 0, 0, 255] ++ routeOctets 15 47 := by decide +kernel

theorem test_hyp_RouteWriteActs : (ready State.reset 0x0E (routeOctets 0 255)).takes .held 0x0E (sent 0x0E (routeOctets 0 255)) ∧
    (ready State.reset 0x0E (routeOctets 47 64)).takes .held 0x0E (sent 0x0E (routeOctets 47 64)) ∧ (routeOctets 47 64).length = 32 :=
  ⟨reset_takes _ _, reset_takes _ _, rfl⟩

/-- The backup transmitter's routes, and the slip at index 19 (a code naming mix 20). -/
theorem test_route_write : answer (.routeWrite .held) (ready State.reset 0x0E (routeOctets 0 32)) = [0x0E, 0, 0, 255] ++ routeOctets 0 32 ∧
    answer (.routeWrite .held) (ready State.reset 0x0E ((routeOctets 15 47).set 19 20)) = [0x0E, 0x12, 0, 19] := by decide +kernel

theorem test_hyp_CueSelectActs : (ready State.reset 0x10 [15, 63, 0]).takes .held 0x10 (sent 0x10 [15, 63, 0]) ∧
    (ready State.reset 0x10 [255, 0, 63]).takes .held 0x10 (sent 0x10 [255, 0, 63]) := ⟨reset_takes _ _, reset_takes _ _⟩

theorem test_cue_select : answer (.cueSelect .held) (ready State.reset 0x10 [4, 62, 63]) = [0x10, 0, 0, 255, 255, 62, 63, 4, 62, 63] ∧
    answer (.cueSelect .held) (ready State.reset 0x10 [16, 62, 62]) = [0x10, 0x14, 0, 255] ∧
    answer (.cueSelect .held) (ready State.reset 0x10 [4, 62, 62]) = [0x10, 0x12, 0, 255] := by decide +kernel

/-- The unit at local frame number 40,100 (7.8). -/
def at40100 : State := { State.reset with rx := { State.reset.rx with localFrame := 40100 } }

/-- AT_FRAME at distances 400, 32,767, 32,768 and 0, NEXT, and a bad request. -/
theorem test_hyp_CommitArms : (ready at40100 0x11 [0, 0x9E, 0x34]).takes .held 0x11 (sent 0x11 [0, 0x9E, 0x34]) ∧
    (ready State.reset 0x11 [0, 0x7F, 0xFF]).takes .held 0x11 (sent 0x11 [0, 0x7F, 0xFF]) ∧
    ((BitVec.ofNat 16 (word2 0x7F 0xFF) : FrameNo) - State.reset.rx.localFrame).toNat = 32767 ∧
    (ready State.reset 0x11 [0, 0x80, 0]).takes .held 0x11 (sent 0x11 [0, 0x80, 0]) ∧
    ((BitVec.ofNat 16 (word2 0x80 0) : FrameNo) - State.reset.rx.localFrame).toNat = 32768 ∧
    (ready at40100 0x11 [1, 0, 0]).takes .held 0x11 (sent 0x11 [1, 0, 0]) ∧ (ready expiring 0x11 [2, 0, 0]).takes .held 0x11 (sent 0x11 [2, 0, 0]) ∧
    (0 : Byte).toNat ≠ 1 ∧ (2 : Byte).toNat ≠ 1 ∧ (1 : Byte).toNat = 1 ∧ State.reset.staging.slot = .disarmed ∧ expiring.staging.slot ≠ .disarmed :=
  ⟨ready_takes rfl rfl (by decide) _ _, reset_takes _ _, by decide, reset_takes _ _, by decide, ready_takes rfl rfl (by decide) _ _,
    ready_takes rfl rfl (by decide) _ _, by decide, by decide, by decide, rfl, by decide⟩

/-- AT_FRAME 40,500 at 40,100: distance 400; the same number is late. -/
theorem test_commit_at_frame : answer (.commitAtFrame .held) (ready at40100 0x11 [0, 0x9E, 0x34]) = [0x11, 0, 0, 255, 0, 0x9E, 0x34, 1, 0x90, 0x9C, 0xA4, 0] ∧
    answer (.commitAtFrame .held) (ready at40100 0x11 [0, 0x9C, 0xA4]) = [0x11, 1, 0, 255, 0, 0x9C, 0xA4, 0, 0, 0x9C, 0xA4, 0] ∧
    (answer (.commitAtFrame .held) (ready State.reset 0x11 [0, 0x7F, 0xFF])).take 2 = [0x11, 0] ∧
    (answer (.commitAtFrame .held) (ready State.reset 0x11 [0, 0x80, 0])).take 2 = [0x11, 1] ∧
    answer (.commitAtFrame .held) (ready at40100 0x11 [2, 0, 0]) = [0x11, 0x12, 0, 255, 0, 0, 0, 0] := by decide +kernel

theorem test_commit_next : answer (.commitNext .held) (ready at40100 0x11 [1, 0, 9]) = [0x11, 0, 0, 255, 1, 0, 9, 0, 0, 0x9C, 0xA4, 0] ∧
    answer (.commitNext .held) (ready expiring 0x11 [1, 0, 9]) = [0x11, 0x17, 0, 255, 2, 0x9E, 0x34, 1] := by decide +kernel

theorem test_hyp_CancelAndDiscardAct : (ready expiring 0x12 []).takes .held 0x12 (sent 0x12 []) ∧ (ready State.reset 0x12 []).takes .held 0x12 (sent 0x12 []) ∧
    (ready expiring 0x13 []).takes .held 0x13 (sent 0x13 []) := ⟨ready_takes rfl rfl (by decide) _ _, reset_takes _ _, ready_takes rfl rfl (by decide) _ _⟩

theorem test_cancel : answer (.cancel .held) (ready expiring 0x12 []) = [0x12, 0, 0, 255, 2, 0x9E, 0x34, 1] ∧
    answer (.cancel .held) (ready State.reset 0x12 []) = [0x12, 0x18, 0, 255] := by decide +kernel

theorem test_discard : answer (.discard .held) (ready expiring 0x13 []) = [0x13, 0, 0, 255, 1, 2, 0x9E, 0x34] ∧
    (after (exec (.discard .held) (ready expiring 0x13 []))).staging.queue = [] := by decide +kernel

/-- The unit after the pass of case A on mix 3, and STALE accrued after the next (6.6). -/
def captured : State :=
  { State.reset with
    table :=
      { State.reset.table with
        mixes := State.reset.table.mixes.set 3 (((mixA .nearestEven).pass inputA).pass { inputA with store := storeA 1, frame := 12001 }) } }

theorem test_hyp_FlagsReadAndClear : (ready captured 0x14 [3]).takes .held 0x14 (sent 0x14 [3]) ∧ (ready captured 0x15 [3, 6, 1]).takes .held 0x15 (sent 0x15 [3, 6, 1]) ∧
    (ready captured 0x15 [16, 6, 2]).takes .held 0x15 (sent 0x15 [16, 6, 2]) :=
  ⟨ready_takes rfl rfl (by decide) _ _, ready_takes rfl rfl (by decide) _ _, ready_takes rfl rfl (by decide) _ _⟩

/-- Current and accrued LIMIT and STALE, mask LIMIT and CLAMP, the HELD capture of frame 12,000 with stage OUTPUT. -/
theorem test_flags_read : (answer (.flagsRead .held) (ready captured 0x14 [3])).take 12 = [0x14, 0, 0, 255, 6, 6, 0x0C, 1, 0x2E, 0xE0, 4, 1] ∧
    (answer (.flagsRead .held) (ready captured 0x14 [3])).length = 48 ∧
    answer (.flagsRead .held) (ready captured 0x14 [4]) = [0x14, 0, 0, 255, 0, 0, 0] ++ List.replicate 41 0 := by decide +kernel

/-- The capture record's numbers: SL 59,768,832,000,000 first, yR 3,297,794 last. -/
theorem test_flags_clear : (answer (.flagsClear .held) (ready captured 0x15 [3, 2, 1])).take 20 =
      [0x15, 0, 0, 255, 6, 4, 1, 0, 1, 0x2E, 0xE0, 4, 1, 0, 0, 0x36, 0x5C, 0x04, 0, 0] ∧
    (answer (.flagsClear .held) (ready captured 0x15 [3, 2, 1])).drop 46 = [0x32, 0x52, 0x02] ∧
    answer (.flagsClear .held) (ready captured 0x15 [3, 2, 2]) = [0x15, 0x12, 0, 255] := by decide +kernel

/-- The unit with its fade OPEN. -/
def opened : State := { State.reset with fade := { state := .opened, coeff := 4096, step := 1 } }

theorem test_hyp_PowerActs : (ready opened 0x16 [1]).takes .held 0x16 (sent 0x16 [1]) ∧ opened.intake.power ≠ .quiescing ∧
    (ready State.reset 0x16 [1]).takes .held 0x16 (sent 0x16 [1]) ∧ (ready State.reset 0x16 [0]).takes .held 0x16 (sent 0x16 [0]) ∧
    (ready State.reset 0x16 [2]).takes .held 0x16 (sent 0x16 [2]) :=
  ⟨ready_takes rfl rfl (by decide) _ _, by decide, reset_takes _ _, reset_takes _ _, reset_takes _ _⟩

/-- With the fade OPEN the command stays executing and the fade closes from 4096; with it SHUT the unit is QUIET at once (R28, R167). -/
theorem test_power_quiet : (after (exec (.powerQuiet .held) (ready opened 0x16 [1]))).intake.power = .quiescing ∧
    (after (exec (.powerQuiet .held) (ready opened 0x16 [1]))).fade = { state := .closing, coeff := 4096, step := 1 } ∧
    answer (.powerQuiet .held) (ready State.reset 0x16 [1]) = [0x16, 0, 0, 255, 0, 2] := by decide +kernel

theorem test_power_run : answer (.powerRun .held) (ready { State.reset with intake := { State.reset.intake with power := .quiet } } 0x16 [0]) = [0x16, 0, 0, 255, 2, 0] ∧
    answer (.powerRun .held) (ready State.reset 0x16 [2]) = [0x16, 0x12, 0, 255] := by decide +kernel

theorem test_hyp_UnitResetReturnsDefaults : (ready (listed true) 0x17 []).takes .held 0x17 (sent 0x17 []) := ready_takes rfl rfl (by decide) _ _

theorem test_unit_reset : answer (.unitReset .held) (ready unit32 0x17 []) = [0x17, 0, 0, 255, 32] ∧
    (after (exec (.unitReset .held) (ready (listed true) 0x17 []))).table = State.reset.table := by decide +kernel

/-! ### Resets, the step and the invariants -/

/-- The unit with RESET_N held low. -/
def held : State := State.reset.withResetHeld true

theorem test_hyp_StepRunsFront : (State.reset.withPending [.frameEvent]).pending = .frameEvent :: [] ∧ State.reset.pending = [] := ⟨rfl, rfl⟩

theorem test_hyp_ResetAssertHoldsUnit : held.resetHeld = true ∧ Instr.frameEvent ≠ .powerOn ∧ Instr.frameEvent ≠ .resetAssert ∧ State.reset.resetHeld = false := by
  decide

theorem test_reset_and_release : (after (exec .resetAssert (sending .run))).lanes.frame = none ∧ after (exec .powerOn held) = State.reset ∧
    after (exec .frameEvent held) = held := by decide +kernel

theorem test_steps_of_reset : step State.reset = .next State.reset ∧ (after (step (State.reset.withPending [.syncFound 700]))).rx.sync = .confirm ∧
    (after (step (State.reset.withPending [.syncFound 700, .frameEvent]))).pending = [.frameEvent] := ⟨rfl, by decide, by decide⟩

/-- The link and the sources of a unit LOCKED, and a step from it. -/
theorem test_hyp_LinkAndSourcesStaySound : (linked .holdover 0 7).rx.sound ∧ (linked .holdover 0 7).rx.counters.sound ∧ (linked .holdover 0 7).store.sound ∧
    ∃ t, step ((linked .holdover 0 7).withPending [.syncMissing]) = .next t :=
  ⟨by simp [LinkReceiver.sound, linked], by simp [LinkCounters.sound, linked, State.reset, LinkCounters.zero], store_sound, _, rfl⟩

theorem resetMix_sound : Mix.reset.sound := by simp [Mix.sound, Mix.reset, Settings.sound, Settings.default, listSound]

/-- Entries in a list, a record staged and armed for frame 1, and the step that applies it. -/
def scene : State :=
  { listed true with
    staging := { queue := [.clearMix 2, .setEntry 15 63 32767 0 (some 7) true], slot := .armed (.frame 1) (.atFrame 1 false), report := none } }

theorem scene_sound : scene.table.sound ∧ scene.staging.sound := by
  refine ⟨⟨by decide, ?_, by decide⟩, by simp [Staging.sound, scene, StagedEdit.sound]⟩
  intro m hm
  rcases List.mem_or_eq_of_mem_set hm with h | h
  · rw [List.eq_of_mem_replicate h]
    exact resetMix_sound
  · subst h
    simp [Mix.sound, Mix.reset, Settings.sound, Settings.default, listSound, Entry.sound]

theorem test_hyp_TablesStaySound : scene.table.sound ∧ scene.staging.sound ∧ ∃ t, step (scene.withPending [.deliveryPoint]) = .next t :=
  ⟨scene_sound.1, scene_sound.2, _, rfl⟩

/-- The unit in the last step of a quieting, and that step. -/
theorem test_hyp_PowerAndRepliesStaySound : quieting.fade.sound ∧ quieting.powerSound ∧ quieting.repliesSound ∧
    ∃ t, step (quieting.withPending [.deliveryPoint]) = .next t :=
  ⟨by simp [Fade.sound, quieting], by simp [State.powerSound, quieting], by simp [State.repliesSound, quieting], _, rfl⟩

theorem test_hyp_LaneStaysSound : unit32.lane.sound ∧ ∃ t, step (unit32.withPending [.enumerate 0 1 2 0]) = .next t :=
  ⟨by simp [LaneController.sound, unit32, State.reset, reservedFrames], _, rfl⟩

/-- The scene's unit sending a lane frame. -/
def sendingScene : State := { scene with lanes := (sending .run).lanes }

theorem test_hyp_OutputsStaySound : sendingScene.table.sound ∧ sendingScene.staging.sound ∧ sendingScene.lanes.sound ∧ sendingScene.tx.cueSound ∧
    ∃ t, step (sendingScene.withPending [.deliveryPoint]) = .next t := by
  refine ⟨scene_sound.1, scene_sound.2, ⟨by decide, ?_, by decide, ?_, ?_⟩, by simp [Transmitter.cueSound, sendingScene, scene, listed, State.reset], _, rfl⟩
  · intro k side h
    simp [sendingScene, sending, State.reset, Route.defaults] at h
    omega
  · intro p h
    simp [sendingScene, sending, State.reset] at h
    simp [h, sampleSound]
  · intro values h
    cases h
    refine ⟨rfl, fun y hy => ?_⟩
    simp at hy
    rcases hy with rfl | rfl | rfl <;> simp [sampleSound]

end Sys2Proof.Tests
end

section
/-!
PROOFS. The rounding modes of R91 over the rational quotient.
-/

namespace Sys2Proof.Machine

/-! ### Rounding over the exact quotient (R91) -/

/-- Integers that enclose the exact quotient enclose its rounded value. -/
theorem roundQuotient_between (mode : Rounding) {n : Int} {d : Nat} (hd : 0 < d) {a b : Int} (ha : (a : ℚ) ≤ (n : ℚ) / (d : ℚ))
    (hb : (n : ℚ) / (d : ℚ) ≤ (b : ℚ)) : a ≤ roundQuotient mode n d ∧ roundQuotient mode n d ≤ b := by
  have hd' : (0 : ℚ) < d := by exact_mod_cast hd
  rw [le_div_iff₀ hd'] at ha
  rw [div_le_iff₀ hd'] at hb
  exact ⟨le_roundQuotient mode hd (by exact_mod_cast ha), roundQuotient_le mode hd (by exact_mod_cast hb)⟩

/-- The floor and the ceiling of the exact quotient enclose its rounded value, so it is less than 1 away. -/
theorem roundQuotient_within_one (mode : Rounding) (n : Int) {d : Nat} (hd : 0 < d) :
    |(roundQuotient mode n d : ℚ) - (n : ℚ) / (d : ℚ)| < 1 := by
  set q : ℚ := (n : ℚ) / (d : ℚ)
  obtain ⟨hlow, hhigh⟩ := roundQuotient_between mode hd (Int.floor_le q) (Int.le_ceil q)
  have hlow' : (⌊q⌋ : ℚ) ≤ roundQuotient mode n d := by exact_mod_cast hlow
  have hhigh' : (roundQuotient mode n d : ℚ) ≤ ⌈q⌉ := by exact_mod_cast hhigh
  rw [abs_lt]
  constructor
  · linarith [Int.lt_floor_add_one q]
  · linarith [Int.ceil_lt_add_one q]

/-- FLOOR is the floor of the exact quotient. -/
theorem roundQuotient_floor (n : Int) (d : Nat) : roundQuotient .floor n d = ⌊(n : ℚ) / (d : ℚ)⌋ :=
  (Rat.floor_intCast_div_natCast n d).symm

/-- TOWARD_ZERO is the floor of a quotient of 0 or more and the ceiling of one below 0. -/
theorem roundQuotient_towardZero (n : Int) {d : Nat} (hd : 0 < d) :
    roundQuotient .towardZero n d = if 0 ≤ (n : ℚ) / (d : ℚ) then ⌊(n : ℚ) / (d : ℚ)⌋ else ⌈(n : ℚ) / (d : ℚ)⌉ := by
  have hd' : (0 : ℚ) < d := by exact_mod_cast hd
  have hsign : 0 ≤ (n : ℚ) / (d : ℚ) ↔ 0 ≤ n := by rw [le_div_iff₀ hd', zero_mul, Int.cast_nonneg_iff]
  simp only [roundQuotient, hsign]
  split
  next hn => rw [Rat.floor_intCast_div_natCast, Int.tdiv_eq_ediv_of_nonneg hn]
  next hn =>
    rw [Rat.ceil_intCast_div_natCast, ← Int.tdiv_eq_ediv_of_nonneg (by omega : 0 ≤ -n), Int.neg_tdiv, neg_neg]

/-- NEAREST_EVEN in whole numbers: twice the distance of r × d from n is at most d, and r is even where it is d. -/
theorem roundQuotient_nearestEven (n : Int) {d : Nat} (hd : 0 < d) :
    2 * |roundQuotient .nearestEven n d * d - n| ≤ d ∧ (2 * |roundQuotient .nearestEven n d * d - n| = d → Even (roundQuotient .nearestEven n d)) := by
  have hn : n % (d : Int) + d * (n / d) = n := Int.emod_add_mul_ediv n d
  have h0 : 0 ≤ n % (d : Int) := Int.emod_nonneg n (by omega)
  have h1 : n % (d : Int) < d := Int.emod_lt_of_pos n (by omega)
  have down : |n / (d : Int) * d - n| = n % (d : Int) := by
    rw [show n / (d : Int) * d - n = -(n % (d : Int)) by linarith, abs_neg, abs_of_nonneg h0]
  have up : |(n / (d : Int) + 1) * d - n| = d - n % (d : Int) := by
    rw [show (n / (d : Int) + 1) * d - n = d - n % (d : Int) by linarith, abs_of_nonneg (by omega)]
  simp only [roundQuotient]
  split
  next hless => rw [down]; omega
  next hnotless =>
    split
    next hmore => rw [up]; omega
    next hhalf =>
      split
      next heven => rw [down, Int.even_iff]; omega
      next hodd => rw [up, Int.even_iff]; omega

/-- The distance of an integer from the exact quotient, over the divisor. -/
theorem abs_sub_quotient (r n : Int) {d : Nat} (hd : 0 < d) : |(r : ℚ) - (n : ℚ) / (d : ℚ)| = ((|r * d - n| : Int) : ℚ) / d := by
  have hd' : (0 : ℚ) < d := by exact_mod_cast hd
  rw [sub_div' hd'.ne', abs_div, abs_of_pos hd']
  push_cast
  rfl

/-- NEAREST_EVEN is within one half of the exact quotient, and even where it is one half away. -/
theorem roundQuotient_nearestEven_quotient (n : Int) {d : Nat} (hd : 0 < d) :
    |(roundQuotient .nearestEven n d : ℚ) - (n : ℚ) / (d : ℚ)| ≤ 1 / 2 ∧
      (|(roundQuotient .nearestEven n d : ℚ) - (n : ℚ) / (d : ℚ)| = 1 / 2 → Even (roundQuotient .nearestEven n d)) := by
  have hd' : (0 : ℚ) < d := by exact_mod_cast hd
  obtain ⟨hnear, htie⟩ := roundQuotient_nearestEven n hd
  rw [abs_sub_quotient _ _ hd, div_le_div_iff₀ hd' two_pos, div_eq_div_iff hd'.ne' two_ne_zero, one_mul, mul_comm]
  exact ⟨by exact_mod_cast hnear, fun h => htie (by exact_mod_cast h)⟩

/-- Settles O16: FLOOR and TOWARD_ZERO by the floor and the ceiling of the quotient, NEAREST_EVEN by its remainder, the bounds of every mode by the
enclosing integers. -/
theorem roundingModes : Obligations.RoundingModes := by
  intro mode n d hd
  refine ⟨?_, ?_, ?_, fun k hk => ?_, fun a b => roundQuotient_between mode hd, roundQuotient_within_one mode n hd⟩
  · rintro rfl
    exact roundQuotient_floor n d
  · rintro rfl
    exact roundQuotient_towardZero n hd
  · rintro rfl
    exact roundQuotient_nearestEven_quotient n hd
  · obtain ⟨hlow, hhigh⟩ := roundQuotient_between mode hd hk.ge hk.le
    exact Int.le_antisymm hhigh hlow

end Sys2Proof.Machine
end

section
/-!
PROOFS. The published outputs of a pass against the ceiling (R93 to R98).
-/

namespace Sys2Proof.Machine

/-! ### Rounded magnitudes (R91) -/

/-- A magnitude of at most b × d has a rounded quotient of magnitude at most b. -/
theorem roundQuotient_natAbs_le (mode : Rounding) {n : Int} {d b : Nat} (hd : 0 < d) (h : n.natAbs ≤ b * d) : (roundQuotient mode n d).natAbs ≤ b := by
  zify at h
  obtain ⟨hlow, hhigh⟩ := abs_le.mp h
  have := le_roundQuotient mode hd (a := -b) (by linarith)
  have := roundQuotient_le mode hd hhigh
  omega

/-- A magnitude of at least b × d has a rounded quotient of magnitude at least b. -/
theorem le_natAbs_roundQuotient (mode : Rounding) {n : Int} {d b : Nat} (hd : 0 < d) (h : b * d ≤ n.natAbs) : b ≤ (roundQuotient mode n d).natAbs := by
  zify at h
  rcases le_abs.mp h with hpos | hneg
  · have := le_roundQuotient mode hd hpos
    omega
  · have := roundQuotient_le mode hd (b := -b) (n := n) (by linarith)
    omega

/-! ### The clamp and the limiter (R93, R94, R97) -/

theorem clampTo_eq_max_min (ceiling : Nat) (y : Int) : clampTo ceiling y = max (-(ceiling : Int)) (min ceiling y) := by
  unfold clampTo
  split
  · omega
  · split <;> omega

/-- The clamp changes exactly the values beyond the ceiling. -/
theorem clampTo_ne_iff (ceiling : Nat) (y : Int) : clampTo ceiling y ≠ y ↔ ceiling < y.natAbs := by
  rw [clampTo_eq_max_min]
  omega

/-- A side under a gain of at most Lcap rounds to a value within the ceiling (R93, R97). -/
theorem roundQuotient_under_limiterCap (mode : Rounding) {ceiling lg : Nat} {rL rR r : Int} (hr : r.natAbs ≤ max rL.natAbs rR.natAbs)
    (hlg : lg ≤ limiterCap ceiling rL rR) : (roundQuotient mode (r * lg) 4096).natAbs ≤ ceiling := by
  refine roundQuotient_natAbs_le mode (by decide) ?_
  calc (r * lg).natAbs = r.natAbs * lg := by rw [Int.natAbs_mul, Int.natAbs_natCast]
    _ ≤ max rL.natAbs rR.natAbs * limiterCap ceiling rL rR := Nat.mul_le_mul hr hlg
    _ ≤ ceiling * 4096 := limiterCap_holds ceiling rL rR

/-- Where Lcap is 0 the louder side is beyond 4096 times the ceiling: else a gain of 1 would hold it. -/
theorem lt_peak_of_limiterCap_eq_zero {ceiling : Nat} {rL rR : Int} (h : limiterCap ceiling rL rR = 0) :
    ceiling * 4096 < max rL.natAbs rR.natAbs := by
  by_contra hle
  have := limiterCap_largest ceiling rL rR (g := 1) (by decide) (by omega)
  omega

/-- The attack stops at 1 where Lcap is 0 (R94). -/
theorem limiterGain_zero {lg : Nat} (release : Nat) (h : 1 ≤ lg) : limiterGain lg 0 release = 1 := by
  unfold limiterGain
  rw [if_pos (by omega)]
  rfl

/-! ### What stages 8 and 9 find (R94, R97, R99) -/

theorem Mix.findings_lgAfter (m : Mix) (input : PassInput) :
    (m.findings input).lgAfter = limiterGain m.lg (limiterCap m.cfg.ceiling (m.findings input).rL (m.findings input).rR) m.cfg.limRelease := rfl

theorem Mix.findings_yL (m : Mix) (input : PassInput) :
    (m.findings input).yL = clampTo m.cfg.ceiling (roundQuotient m.cfg.rounding ((m.findings input).rL * (m.findings input).lgAfter) 4096) := rfl

theorem Mix.findings_yR (m : Mix) (input : PassInput) :
    (m.findings input).yR = clampTo m.cfg.ceiling (roundQuotient m.cfg.rounding ((m.findings input).rR * (m.findings input).lgAfter) 4096) := rfl

/-- CLAMP is found exactly where a side is beyond the ceiling before the clamp. -/
theorem Mix.findings_clamp_iff (m : Mix) (input : PassInput) :
    (m.findings input).flags.clamp = true ↔
      m.cfg.ceiling < (roundQuotient m.cfg.rounding ((m.findings input).rL * (m.findings input).lgAfter) 4096).natAbs ∨
        m.cfg.ceiling < (roundQuotient m.cfg.rounding ((m.findings input).rR * (m.findings input).lgAfter) 4096).natAbs := by
  rw [← clampTo_ne_iff, ← clampTo_ne_iff, ← bne_iff_ne, ← bne_iff_ne, ← Bool.or_eq_true]
  rfl

/-- With Lcap at 1 or more no side is beyond the ceiling before the clamp, and the clamp keeps both (R93, R97). -/
theorem Mix.findings_unclamped (m : Mix) (input : PassInput)
    (hcap : 1 ≤ limiterCap m.cfg.ceiling (m.findings input).rL (m.findings input).rR) :
    (m.findings input).flags.clamp = false ∧
      (m.findings input).yL = roundQuotient m.cfg.rounding ((m.findings input).rL * (m.findings input).lgAfter) 4096 ∧
      (m.findings input).yR = roundQuotient m.cfg.rounding ((m.findings input).rR * (m.findings input).lgAfter) 4096 := by
  have hlg : (m.findings input).lgAfter ≤ limiterCap m.cfg.ceiling (m.findings input).rL (m.findings input).rR := limiterGain_le _ hcap
  have hL := roundQuotient_under_limiterCap m.cfg.rounding (le_max_left _ _) hlg
  have hR := roundQuotient_under_limiterCap m.cfg.rounding (le_max_right _ _) hlg
  refine ⟨?_, ?_, ?_⟩
  · rw [Bool.eq_false_iff, ne_eq, findings_clamp_iff]
    omega
  · rw [findings_yL, clampTo_within] <;> omega
  · rw [findings_yR, clampTo_within] <;> omega

/-! ### What a pass publishes (R98) -/

/-- Both published values lie within the ceiling. -/
theorem Mix.pass_within_ceiling (m : Mix) (input : PassInput) :
    ((m.pass input).yL ≤ m.cfg.ceiling ∧ -(m.cfg.ceiling : Int) ≤ (m.pass input).yL) ∧
      (m.pass input).yR ≤ m.cfg.ceiling ∧ -(m.cfg.ceiling : Int) ≤ (m.pass input).yR := by
  cases he : m.cfg.enabled with
  | true =>
    simp only [pass_enabled he, findings_yL, findings_yR, prepare_cfg]
    exact ⟨(clampTo_bounds _ _).symm, (clampTo_bounds _ _).symm⟩
  | false =>
    simp only [pass_disabled he]
    omega

/-- Settles O21: the clamp bounds every published value; with Lcap at 1 or more the gain keeps both sides under it, and with Lcap at 0 the
gain is 1. -/
theorem outputsWithinCeiling : Obligations.OutputsWithinCeiling := by
  intro m input hm
  obtain ⟨hcfg, -, -, -, -, ⟨hlg, -⟩, -⟩ := hm
  obtain ⟨-, -, ⟨-, hceiling⟩, -⟩ := hcfg
  obtain ⟨⟨hLle, hLge⟩, hRle, hRge⟩ := m.pass_within_ceiling input
  refine ⟨hLle, hLge, hRle, hRge, hceiling, fun he => ?_, fun he hcap => ?_, fun he hcap => ?_⟩
  · simp [Mix.pass_disabled he]
  · have h := (m.prepare input.store).findings_unclamped input (by rwa [Mix.prepare_cfg])
    rw [Mix.prepare_cfg] at h
    simpa only [Mix.pass_enabled he] using h
  · have hone : ((m.prepare input.store).findings input).lgAfter = 1 := by
      rw [Mix.findings_lgAfter, Mix.prepare_cfg, hcap, Mix.prepare_lg, limiterGain_zero _ hlg]
    simp only [Mix.pass_enabled he, Mix.findings_yL, Mix.findings_yR, Mix.findings_clamp_iff, hone, Mix.prepare_cfg, Nat.cast_one, mul_one]
    exact ⟨trivial, lt_peak_of_limiterCap_eq_zero hcap, fun r hr => le_natAbs_roundQuotient _ (by decide) hr.le,
      clampTo_eq_max_min _ _, clampTo_eq_max_min _ _, trivial⟩

end Sys2Proof.Machine
end

section
/-!
PROOFS. The routes as ROUTE_READ answers them and as the next lane frame carries them (R139, R140, R142, R143).
-/

namespace Sys2Proof.Machine

/-! ### The route of an octet (section 12.3) -/

/-- The route that a good octet of ROUTE_WRITE names. -/
def namedRoute (b : Byte) : Route := if b.toNat = 255 then .silent else .mix (b.toNat % 32) (if b.toNat < 32 then .left else .right)

/-- A table of good octets is taken as the routes they name (R142). -/
theorem takeRoutes_eq_namedRoutes {bs : List Byte} (h : ∀ b ∈ bs, b.toNat = 255 ∨ (b.toNat < 64 ∧ b.toNat % 32 < 16)) (index : Nat) :
    takeRoutes bs index = .ok (bs.map namedRoute) :=
  takeRoutes_valid bs h index

/-- A table of good octets reads back as it was written (R143). -/
theorem map_octet_namedRoutes {bs : List Byte} (h : ∀ b ∈ bs, b.toNat = 255 ∨ (b.toNat < 64 ∧ b.toNat % 32 < 16)) :
    (bs.map namedRoute).map Route.octet = bs := by
  calc (bs.map namedRoute).map Route.octet = bs.map fun b => Route.octet (namedRoute b) := List.map_map
    _ = bs.map id := List.map_congr_left fun b hb => route_octet b (h b hb)
    _ = bs := List.map_id bs

/-- The value on the lanes of the route an octet names (R139). -/
theorem OutputLanes.routed_namedRoute (l : OutputLanes) (b : Byte) :
    l.routed (namedRoute b) =
      if b.toNat = 255 then 0
      else if b.toNat < 32 then (l.held.getD (b.toNat % 32) (0, 0)).1 else (l.held.getD (b.toNat % 32) (0, 0)).2 := by
  unfold namedRoute
  split
  case isTrue => rfl
  case isFalse => split <;> rfl

/-! ### ROUTE_READ and ROUTE_WRITE -/

@[simp] theorem State.replied_lanes (s : State) (c : Command) (a : Answer) : (s.replied c a).lanes = s.lanes := rfl

/-- A ROUTE_READ of no payload answers with the routes and changes nothing (R143). -/
theorem exec_routeRead {s : State} {src : CommandSource} {c : Command} (ht : s.takes src 0x0F c) (hp : c.payload = []) :
    exec (.routeRead src) s = .next (s.replied c (.done (s.lanes.routes.map Route.octet))) := by
  have hl : lengthRight c.kind c.payload = true := by rw [State.takes_kind ht, hp]; rfl
  have hact : actRouteRead c (s.beginCommand c) = (s.beginCommand c, some (.done (s.lanes.routes.map Route.octet))) := checkedLength_right hl
  have hrow : exec (.routeRead src) s = .next (commandRow 0x0F anyPayload actRouteRead src s) := rfl
  rw [hrow, commandRow_answers ht rfl hact, State.completeCommand_beginCommand (State.takes_executing ht)]

/-- A ROUTE_WRITE of 32 good octets replaces the table by the routes they name, and answers with them (R142). -/
theorem exec_routeWrite_good {s : State} {src : CommandSource} {c : Command} (ht : s.takes src 0x0E c) (hlen : c.payload.length = 32)
    (hgood : ∀ b ∈ c.payload, b.toNat = 255 ∨ (b.toNat < 64 ∧ b.toNat % 32 < 16)) :
    exec (.routeWrite src) s = .next ((s.withLanes { s.lanes with routes := c.payload.map namedRoute }).replied c (.done c.payload)) := by
  have hl : lengthRight c.kind c.payload = true := by rw [State.takes_kind ht]; simp [lengthRight, hlen]
  have hact : actRouteWrite c (s.beginCommand c) =
      ((s.withLanes { s.lanes with routes := c.payload.map namedRoute }).beginCommand c, some (.done c.payload)) := by
    rw [actRouteWrite, checkedLength_right hl]
    simp only [takeRoutes_eq_namedRoutes hgood, map_octet_namedRoutes hgood]
    rfl
  have hrow : exec (.routeWrite src) s = .next (commandRow 0x0E anyPayload actRouteWrite src s) := rfl
  have hfree : (s.withLanes { s.lanes with routes := c.payload.map namedRoute }).intake.executing = none := State.takes_executing ht
  rw [hrow, commandRow_answers ht rfl hact, State.completeCommand_beginCommand hfree]

/-! ### The lane frame of the next frame event -/

/-- The frame event that ends a period whose delivery is made begins a lane frame of the routed values, or of zeros in QUIET (R14, R139, R140). -/
theorem State.endPeriod_lanes_frame {s : State} (h : s.tb.owed = false) :
    s.endPeriod.lanes.frame = some (s.lanes.routes.map fun r => if s.intake.power = .quiet then 0 else s.lanes.routed r) := by
  simp only [State.endPeriod_eq h, State.withPlans_lanes, State.withTb_lanes, State.withLanes_lanes, OutputLanes.beginFrame]

/-- Settles O48: ROUTE_READ answers the table it finds; a ROUTE_WRITE leaves the routes its octets name, whose octets are those written, and the frame
event routes the held pairs by them. -/
theorem routeReadAnswers : Obligations.RouteReadAnswers := by
  refine ⟨fun s src c ht hp => exec_routeRead ht hp, ?_⟩
  intro s t src src' c c' ht hlen hgood hwrite
  have hroutes : t.lanes.routes = c.payload.map namedRoute := by
    rw [exec_routeWrite_good ht hlen hgood] at hwrite
    cases hwrite
    simp only [State.replied_lanes, State.withLanes_lanes]
  refine ⟨fun ht' hp' => ?_, fun hevent howed => ⟨t.endPeriod, exec_frameEvent hevent, ?_⟩⟩
  · rw [exec_routeRead ht' hp', hroutes, map_octet_namedRoutes hgood]
    rfl
  · rw [State.endPeriod_lanes_frame howed, hroutes, List.map_map]
    simp only [Function.comp_def, OutputLanes.routed_namedRoute, ite_or]

end Sys2Proof.Machine
end

section
/-!
PROOFS. The Link Receiver, the link counters and the Source Store stay sound at every step (R4 to R7, R11, R20 to R22).
-/

namespace Sys2Proof.Machine

/-! ### The Link Receiver and the link counters (R4 to R7, R11) -/

/-- What O56 says of the Link Receiver. -/
def State.linkSound (s : State) : Prop := s.rx.sound ∧ s.rx.counters.sound

theorem State.linkSound_of_rx {s u : State} (h : u.rx = s.rx) (hs : s.linkSound) : u.linkSound := by
  unfold State.linkSound
  rwa [h]

theorem LinkCounters.zero_sound : LinkCounters.zero.sound := by simp [LinkCounters.sound, LinkCounters.zero]

/-- Counters 1 to 5 stay within 16 bits at a delivery (R11). -/
theorem LinkCounters.atDelivery_sound {c : LinkCounters} (h : c.sound) (cls : DeliveryClass) (frame : Option ReceivedFrame) (missed : Bool) :
    (c.atDelivery cls frame missed).sound := by
  have hrise : ∀ (b : Bool) (n : Nat), n ≤ 65535 → (if b then rise n else n) ≤ 65535 := fun b n hn => by
    split
    · exact rise_le hn
    · exact hn
  obtain ⟨h1, h2, h3, h4, h5, hlane⟩ := h
  unfold LinkCounters.atDelivery
  split
  · exact ⟨hrise _ _ h1, hrise _ _ h2, hrise _ _ h3, h4, h5, hlane⟩
  · exact ⟨h1, h2, h3, rise_le h4, h5, hlane⟩
  · split
    · exact ⟨h1, h2, h3, h4, rise_le h5, hlane⟩
    · exact ⟨h1, h2, h3, h4, h5, hlane⟩
  · exact ⟨h1, h2, h3, h4, h5, hlane⟩

theorem linkSound_commands : CommandClosed State.linkSound := by
  constructor
  case counters => exact fun u h => ⟨h.1, LinkCounters.zero_sound⟩
  case reset => exact fun u h => ⟨h.1, LinkCounters.zero_sound⟩
  all_goals intros; assumption

theorem linkSound_pass : PassClosed State.linkSound where
  take _ h := State.takeWaiting_keeps linkSound_commands h
  notice u _ _ _ h := by
    unfold State.queueNotice State.noteWait
    split <;> exact h
  ran _ h := h
  mix u input k _ h := State.linkSound_of_rx (PassKeeps.mixAction u input k).rx h

theorem linkSound_delivery : DeliveryClosed State.linkSound where
  toPassClosed := linkSound_pass
  link u cls frame h := by
    rw [State.settleLink_eq]
    exact ⟨h.1, LinkCounters.atDelivery_sound h.2 cls frame _⟩
  lane u cls frame h := by
    refine ⟨?_, State.laneDeliver_counters h.2 cls frame⟩
    rw [(LaneKeeps.laneDeliver u cls frame).rx]
    exact h.1
  commit u h := State.linkSound_of_rx (State.commitStage_keeps u).1 h
  sources _ _ _ _ h := h
  fade u _ h := State.linkSound_of_rx (PassKeeps.fadeStep u).rx h
  shut u n _ h := DeliveryClosed.shut_of (fun u h => State.linkSound_of_rx (PassKeeps.fadeStep u).rx h) (fun _ _ h => h)
    (fun u begun h => State.linkSound_of_rx (PassKeeps.completeQuiet u begun).rx h) linkSound_pass u n h
  held _ _ _ h := h

theorem State.takeSync_linkSound {s : State} (h : s.linkSound) (pos : Nat) : (s.takeSync pos).linkSound := by
  obtain ⟨hr, hc⟩ := h
  unfold State.takeSync
  cases hs : s.rx.sync <;> simp only [LinkReceiver.sound, hs] at hr
  case search => exact ⟨⟨.inl rfl, hr.2.1, rfl⟩, hc⟩
  case confirm =>
    dsimp only
    split
    · split
      · refine ⟨?_, hc⟩
        simp only [LinkReceiver.sound, LinkReceiver.refer, State.withRx_rx, hs]
        exact ⟨by omega, hr.2.1, rfl⟩
      · exact ⟨⟨rfl, hr.2.1, rfl⟩, hc⟩
    · exact ⟨by simpa only [LinkReceiver.sound, hs] using hr, hc⟩
  case locked =>
    dsimp only
    split
    · exact ⟨⟨hr.1, rfl, rfl⟩, hc⟩
    · exact ⟨by simpa only [LinkReceiver.sound, hs] using hr, hc⟩
  case holdover =>
    dsimp only
    split
    · exact ⟨⟨hr.1, rfl, rfl⟩, hc⟩
    · exact ⟨by simpa only [LinkReceiver.sound, hs] using hr, hc⟩

theorem State.lose_linkSound {s : State} (h : s.linkSound) (hs : s.rx.sync = .holdover) : s.lose.linkSound := by
  obtain ⟨hr, hc⟩ := h
  simp only [LinkReceiver.sound, hs] at hr
  exact ⟨⟨hr.1, rfl, rfl⟩, hc⟩

theorem State.syncMissing_linkSound {s : State} (h : s.linkSound) : s.syncMissing.linkSound := by
  obtain ⟨hr, hc⟩ := id h
  unfold State.syncMissing
  cases hs : s.rx.sync <;> simp only [LinkReceiver.sound, hs] at hr
  case search => exact h
  case confirm => exact ⟨⟨rfl, hr.2.1, rfl⟩, hc⟩
  case locked => exact ⟨⟨hr.1, Nat.le_refl 1, Nat.le_add_left 1 6, hr.2.2⟩, hc⟩
  case holdover =>
    dsimp only
    split
    next hless => exact ⟨⟨hr.1, Nat.le_add_left 1 _, Nat.le_of_lt_succ hless, hr.2.2.2⟩, hc⟩
    next => exact State.lose_linkSound h hs

theorem linkSound_step : StepClosed State.linkSound where
  toDeliveryClosed := linkSound_delivery
  command hi h he := exec_command_keeps linkSound_commands hi h he
  pending _ _ h := h
  plans _ _ h := h
  powerOn _ _ := ⟨⟨rfl, rfl, rfl⟩, LinkCounters.zero_sound⟩
  hold _ h := h
  syncFound u pos h := State.takeSync_linkSound (s := u.note pos) h pos
  syncMissing _ h := State.syncMissing_linkSound h
  lock u pos hs h := by
    obtain ⟨hr, hc⟩ := h
    simp only [LinkReceiver.sound, hs] at hr
    exact ⟨⟨rfl, hr.2.1, rfl⟩, hc⟩
  lose _ hs h := State.lose_linkSound h hs
  complete u begun _ _ _ h := State.linkSound_of_rx (PassKeeps.completeQuiet u begun).rx h
  expire _ _ _ h := h
  enumerate u src tag n check h := by
    refine ⟨?_, State.laneFirst_counters h.2 _⟩
    rw [(LaneKeeps.laneFirst u _).rx]
    exact h.1
  begins u h := by rw [State.beginFrames_eq]; exact h
  period _ _ h := h
  clocks _ _ h := h

/-! ### The Source Store (R20 to R22) -/

/-- What O56 says of the Source Store. -/
def State.storeSound (s : State) : Prop := s.store.sound

theorem State.storeSound_of_store {s u : State} (h : u.store = s.store) (hs : s.storeSound) : u.storeSound := by
  unfold State.storeSound
  rwa [h]

theorem storeSound_commands : CommandClosed State.storeSound := by
  constructor
  case reset =>
    intro u h
    obtain ⟨hlen, hsamples, hages, -⟩ := h
    exact ⟨hlen, hsamples, hages, Nat.zero_le _, Nat.zero_le _, .inl rfl⟩
  all_goals intros; assumption

theorem storeSound_pass : PassClosed State.storeSound where
  take _ h := State.takeWaiting_keeps storeSound_commands h
  notice u _ _ _ h := by
    unfold State.queueNotice State.noteWait
    split <;> exact h
  ran _ h := h
  mix u input k _ h := State.storeSound_of_store (PassKeeps.mixAction u input k).store h

/-- The slots of a decoded frame are samples of 24 bits. -/
theorem decodeBody_slots_bounds (line : LineBody) : ∀ y ∈ (decodeBody line).slots, -8388608 ≤ y ∧ y ≤ 8388607 := samplesOf_bounds _

theorem storeSound_delivery : DeliveryClosed State.storeSound where
  toPassClosed := storeSound_pass
  link u cls frame h := by rw [State.settleLink_eq]; exact h
  lane u cls frame h := State.storeSound_of_store (LaneKeeps.laneDeliver u cls frame).store h
  commit u h := State.storeSound_of_store (State.commitStage_keeps u).2.1 h
  sources u cls frame hf h := by
    refine SourceStore.apply_sound h cls ?_
    cases frame with
    | none => simp
    | some f =>
      obtain ⟨line, rfl⟩ := hf f rfl
      exact decodeBody_slots_bounds line
  fade u _ h := State.storeSound_of_store (PassKeeps.fadeStep u).store h
  shut u n _ h := DeliveryClosed.shut_of (fun u h => State.storeSound_of_store (PassKeeps.fadeStep u).store h) (fun _ _ h => h)
    (fun u begun h => State.storeSound_of_store (PassKeeps.completeQuiet u begun).store h) storeSound_pass u n h
  held _ _ _ h := h

theorem SourceStore.reset_sound : State.reset.store.sound := by
  refine ⟨rfl, ?_, ⟨255, Nat.le_refl _, ?_⟩, Nat.zero_le _, Nat.zero_le _, .inl rfl⟩
  · intro x hx
    rw [List.eq_of_mem_replicate hx]
    decide
  · intro x hx
    rw [List.eq_of_mem_replicate hx]

theorem storeSound_step : StepClosed State.storeSound where
  toDeliveryClosed := storeSound_delivery
  command hi h he := exec_command_keeps storeSound_commands hi h he
  pending _ _ h := h
  plans _ _ h := h
  powerOn _ _ := SourceStore.reset_sound
  hold _ h := h
  syncFound u pos h := by rw [State.syncFound_eq]; exact h
  syncMissing u h := by rw [State.syncMissing_eq]; exact h
  lock _ _ _ h := h
  lose _ _ h := h
  complete u begun _ _ _ h := State.storeSound_of_store (PassKeeps.completeQuiet u begun).store h
  expire _ _ _ h := h
  enumerate u src tag n check h := State.storeSound_of_store (LaneKeeps.laneFirst u _).store h
  begins u h := by rw [State.beginFrames_eq]; exact h
  period _ _ h := h
  clocks _ _ h := h

/-- Settles O56: each change of a step keeps the Link Receiver with its counters, and each keeps the Source Store. -/
theorem linkAndSourcesStaySound : Obligations.LinkAndSourcesStaySound :=
  ⟨fun _ _ hr hc he => step_keeps linkSound_step ⟨hr, hc⟩ he, fun _ _ hs he => step_keeps storeSound_step hs he⟩

end Sys2Proof.Machine
end

section
/-!
PROOFS. The lists, the pool, the settings records and the Staging Queue stay sound at every step (R34 to R36, R60, R64, R67, R119).
-/

namespace Sys2Proof.Machine

/-- What O57 says of the tables. -/
def State.tablesSound (s : State) : Prop := s.table.sound ∧ s.staging.sound

theorem State.tablesSound_of_same {s u : State} (ht : u.table = s.table) (hq : u.staging = s.staging) (hs : s.tablesSound) : u.tablesSound := by
  unfold State.tablesSound
  rwa [ht, hq]

/-- A change of mix k that keeps its list's length, and keeps a sound mix sound, keeps the tables sound. -/
theorem MixTable.setMix_keeps_sound {t : MixTable} (h : t.sound) {k : Nat} (hk : k < 16) {f : Mix → Mix} (hf : ∀ m, m.sound → (f m).sound)
    (hl : ∀ m, (f m).list = m.list) : (t.setMix k (f (t.mix k))).sound := by
  have hlt : k < t.mixes.length := by rw [h.1]; exact hk
  exact setMix_sound_same h hlt (hf _ (h.2.1 _ (mix_mem hlt))) (by rw [hl])

theorem Mix.reset_sound : Mix.reset.sound := by simp [Mix.sound, Mix.reset, Settings.sound, Settings.default, listSound]

theorem MixTable.reset_sound : MixTable.reset.sound := by
  refine ⟨rfl, fun m hm => ?_, rfl⟩
  rw [List.eq_of_mem_replicate hm]
  exact Mix.reset_sound

theorem Staging.empty_sound {st : Staging} (h : st.queue = []) : st.sound := by simp [Staging.sound, h]

theorem State.commitStage_tablesSound {s : State} (h : s.tablesSound) : s.commitStage.tablesSound := by
  rw [State.commitStage_eq]
  split
  · exact h
  · split
    · rw [State.fire_eq]
      exact ⟨MixTable.applyEdits_sound h.1 _ h.2.2 _ _, Staging.empty_sound rfl⟩
    · exact h

theorem tablesSound_commands : CommandClosed State.tablesSound := by
  constructor
  case settings => exact fun u k cfg hk hc h => ⟨MixTable.replaceSettings_sound h.1 hk hc, h.2⟩
  case sets => exact fun u k vs hk hv h => ⟨MixTable.setEntries_sound h.1 hk vs hv _, h.2⟩
  case retires => exact fun u k sources hk h => ⟨MixTable.retireEntries_sound h.1 hk sources _, h.2⟩
  case clears => exact fun u k hk h => ⟨MixTable.clearMix_sound h.1 hk, h.2⟩
  case mutes => exact fun u k mask hk h => ⟨MixTable.setGroupMutes_sound h.1 hk mask, h.2⟩
  case flags =>
    exact fun u k echo release hk h =>
      ⟨MixTable.setMix_keeps_sound h.1 (Nat.lt_succ_of_le hk) (f := (·.clearFlags echo release)) (fun _ hm => hm) (fun _ => rfl), h.2⟩
  case staged =>
    intro u edits he hroom h
    obtain ⟨ht, hlen, hq⟩ := h
    refine ⟨ht, ?_, fun e hm => (List.mem_append.mp hm).elim (hq e) (he e)⟩
    simp only [State.withStaging_staging, List.length_append]
    omega
  case discards => exact fun u h => ⟨h.1, Staging.empty_sound rfl⟩
  case reset => exact fun u _ => ⟨MixTable.reset_sound, Staging.empty_sound rfl⟩
  all_goals intros; assumption

theorem tablesSound_pass : PassClosed State.tablesSound where
  take _ h := State.takeWaiting_keeps tablesSound_commands h
  notice u _ _ _ h := by
    unfold State.queueNotice State.noteWait
    split <;> exact h
  ran _ h := h
  mix u input k hk h := by
    rw [State.mixAction_eq]
    exact ⟨MixTable.passMix_sound h.1 hk input, h.2⟩

theorem State.fadeStep_tablesSound {s : State} (h : s.tablesSound) : s.fadeStep.tablesSound := by
  rw [State.fadeStep_eq]
  exact h

theorem State.completeQuiet_tablesSound {s : State} (h : s.tablesSound) (begun : Nat) : (s.completeQuiet begun).tablesSound :=
  State.tablesSound_of_same (State.completeQuiet_keeps s begun).2.1 (PassKeeps.completeQuiet s begun).staging h

theorem tablesSound_delivery : DeliveryClosed State.tablesSound where
  toPassClosed := tablesSound_pass
  link u cls frame h := by rw [State.settleLink_eq]; exact h
  lane u cls frame h := State.tablesSound_of_same (LaneKeeps.laneDeliver u cls frame).table (LaneKeeps.laneDeliver u cls frame).staging h
  commit _ h := State.commitStage_tablesSound h
  sources _ _ _ _ h := h
  fade _ _ h := State.fadeStep_tablesSound h
  shut u n _ h := DeliveryClosed.shut_of (fun _ h => State.fadeStep_tablesSound h) (fun _ _ h => h)
    (fun _ begun h => State.completeQuiet_tablesSound h begun) tablesSound_pass u n h
  held _ _ _ h := h

theorem tablesSound_step : StepClosed State.tablesSound where
  toDeliveryClosed := tablesSound_delivery
  command hi h he := exec_command_keeps tablesSound_commands hi h he
  pending _ _ h := h
  plans _ _ h := h
  powerOn _ _ := ⟨MixTable.reset_sound, Staging.empty_sound rfl⟩
  hold _ h := h
  syncFound u pos h := by rw [State.syncFound_eq]; exact h
  syncMissing u h := by rw [State.syncMissing_eq]; exact h
  lock _ _ _ h := h
  lose _ _ h := h
  complete _ begun _ _ _ h := State.completeQuiet_tablesSound h begun
  expire u k hx h := by
    have hk : k < u.table.mixes.length := by
      by_contra hk
      rw [MixTable.mix, List.getD_eq_default _ _ (by omega)] at hx
      simp [Mix.holdExpires, Mix.reset, Settings.default] at hx
    rw [h.1.1] at hk
    exact ⟨MixTable.setMix_keeps_sound h.1 hk (f := (·.detect u.store)) (fun _ hm => Mix.detect_sound hm _) (fun _ => Mix.detect_list _ _), h.2⟩
  enumerate u src tag n check h := State.tablesSound_of_same (LaneKeeps.laneFirst u _).table (LaneKeeps.laneFirst u _).staging h
  begins u h := by rw [State.beginFrames_eq]; exact h
  period _ _ h := h
  clocks _ _ h := h

/-- Settles O57: each change of a step keeps the 16 mixes with the pool, and the Staging Queue. -/
theorem tablesStaySound : Obligations.TablesStaySound := fun _ _ ht hq he => step_keeps tablesSound_step ⟨ht, hq⟩ he

end Sys2Proof.Machine
end

section
/-!
PROOFS. The Lane Controller stays within its limits at every step (R148, R152, R155).
-/

namespace Sys2Proof.Machine

/-- What O59 says of the Lane Controller. -/
def State.laneSound (s : State) : Prop := s.lane.sound

theorem State.laneSound_of_lane {s u : State} (h : u.lane = s.lane) (hs : s.laneSound) : u.laneSound := by
  unfold State.laneSound
  rwa [h]

theorem laneSound_commands : CommandClosed State.laneSound := by
  constructor
  all_goals intros; assumption

theorem laneSound_pass : PassClosed State.laneSound where
  take _ h := State.takeWaiting_keeps laneSound_commands h
  notice u _ _ _ h := by
    unfold State.queueNotice State.noteWait
    split <;> exact h
  ran _ h := h
  mix u input k _ h := State.laneSound_of_lane (PassKeeps.mixAction u input k).lane h

theorem laneSound_delivery : DeliveryClosed State.laneSound where
  toPassClosed := laneSound_pass
  link u cls frame h := by rw [State.settleLink_eq]; exact h
  lane _ cls frame h := State.laneDeliver_sound h cls frame
  commit u h := State.laneSound_of_lane (State.commitStage_keeps u).2.2.2.2.2.1 h
  sources _ _ _ _ h := h
  fade u _ h := State.laneSound_of_lane (PassKeeps.fadeStep u).lane h
  shut u n _ h := DeliveryClosed.shut_of (fun u h => State.laneSound_of_lane (PassKeeps.fadeStep u).lane h) (fun _ _ h => h)
    (fun u begun h => State.laneSound_of_lane (PassKeeps.completeQuiet u begun).lane h) laneSound_pass u n h
  held _ _ _ h := h

/-- A hold buffer of no larger reservation, with any emission and memory, is within the limits of the one before (R152). -/
theorem LaneController.sound_of_hold {l : LaneController} (h : l.sound) {hold : List HoldMessage} (hle : reservedFrames hold ≤ reservedFrames l.hold)
    (emission : Emission) (memory : ArbiterMemory) : LaneController.sound { l with hold := hold, emission := emission, memory := memory } :=
  ⟨hle.trans h.1, h.2⟩

theorem reservedFrames_tail (hold : List HoldMessage) : reservedFrames hold.tail ≤ reservedFrames hold := by
  cases hold <;> simp [reservedFrames]

theorem State.beginPass_sound {s : State} (h : s.lane.sound) : s.beginPass.1.lane.sound :=
  LaneController.sound_of_hold h (reservedFrames_advanceHead _) _ _

/-- The arbiter's choice keeps the Lane Controller within its limits (R152, R156). -/
theorem State.arbitrate_sound {s : State} (h : s.lane.sound) : s.arbitrate.1.lane.sound := by
  unfold State.arbitrate
  split
  case h_1 => exact h
  case h_2 =>
    split
    · exact LaneController.sound_of_hold h (reservedFrames_tail _) _ _
    · exact LaneController.sound_of_hold h (reservedFrames_advanceHead _) _ _
  case h_3 =>
    unfold State.arbitrateIdle
    split
    case h_1 => exact h
    case h_2 => exact State.beginPass_sound h
    case h_3 => exact h
    case h_4 =>
      split
      · exact State.beginPass_sound h
      · exact h

theorem LaneController.reset_sound : State.reset.lane.sound := ⟨by decide, by simp [State.reset], by decide, by simp [State.reset]⟩

theorem laneSound_step : StepClosed State.laneSound where
  toDeliveryClosed := laneSound_delivery
  command hi h he := exec_command_keeps laneSound_commands hi h he
  pending _ _ h := h
  plans _ _ h := h
  powerOn _ _ := LaneController.reset_sound
  hold _ h := h
  syncFound u pos h := by rw [State.syncFound_eq]; exact h
  syncMissing u h := by rw [State.syncMissing_eq]; exact h
  lock _ _ _ h := h
  lose _ _ h := h
  complete u begun _ _ _ h := State.laneSound_of_lane (PassKeeps.completeQuiet u begun).lane h
  expire _ _ _ h := h
  enumerate _ src tag n check h := State.laneFirst_sound h _
  begins u h := by rw [State.beginFrames_eq]; exact State.arbitrate_sound h
  period _ _ h := h
  clocks _ _ h := h

/-- Settles O59: each change of a step keeps the Lane Controller within its limits. -/
theorem laneStaysSound : Obligations.LaneStaysSound := fun _ _ h he => step_keeps laneSound_step h he

end Sys2Proof.Machine
end

section
/-!
PROOFS. The routes, the held pairs, the lane frame and the cue selection stay valid at every step (R98, R139, R141, R145).
-/

namespace Sys2Proof.Machine

/-- What O60 says of the outputs, with the tables that a pass publishes from. -/
def State.outputsSound (s : State) : Prop := s.tablesSound ∧ s.lanes.sound ∧ s.tx.cueSound

/-- A change that keeps the tables sound, the Output Lane Driver as it is and the cue selection valid keeps the outputs valid. -/
theorem State.outputsSound_of {s u : State} (ht : u.tablesSound) (hl : u.lanes = s.lanes) (hx : u.tx.cueSound) (hs : s.outputsSound) : u.outputsSound :=
  ⟨ht, by rw [hl]; exact hs.2.1, hx⟩

theorem sampleSound_zero : sampleSound 0 := by simp [sampleSound]

theorem OutputLanes.pair_sound {l : OutputLanes} (h : ∀ p ∈ l.held, sampleSound p.1 ∧ sampleSound p.2) (k : Nat) :
    sampleSound (l.pair k).1 ∧ sampleSound (l.pair k).2 := by
  unfold OutputLanes.pair
  rcases Nat.lt_or_ge k l.held.length with hk | hk
  · rw [List.getD_eq_getElem _ _ hk]
    exact h _ (List.getElem_mem hk)
  · rw [List.getD_eq_default _ _ hk]
    exact ⟨sampleSound_zero, sampleSound_zero⟩

theorem OutputLanes.routed_sound {l : OutputLanes} (h : ∀ p ∈ l.held, sampleSound p.1 ∧ sampleSound p.2) (r : Route) : sampleSound (l.routed r) := by
  unfold OutputLanes.routed
  split
  · exact sampleSound_zero
  · exact (OutputLanes.pair_sound h _).1
  · exact (OutputLanes.pair_sound h _).2

/-- The lane frame begun at a frame event carries 32 valid samples (R139, R140). -/
theorem OutputLanes.beginFrame_sound {l : OutputLanes} (h : l.sound) (power : PowerState) : (l.beginFrame power).sound := by
  obtain ⟨hroutes, hcodes, hheld, hpairs, -⟩ := h
  refine ⟨hroutes, hcodes, hheld, hpairs, ?_⟩
  rintro values ⟨⟩
  refine ⟨by rw [List.length_map, hroutes], fun y hy => ?_⟩
  obtain ⟨r, -, rfl⟩ := List.mem_map.mp hy
  split
  · exact sampleSound_zero
  · exact OutputLanes.routed_sound hpairs r

/-- A pair of valid samples published for a mix (R101). -/
theorem OutputLanes.publish_sound {l : OutputLanes} (h : l.sound) (k : Nat) {p : Int × Int} (hp : sampleSound p.1 ∧ sampleSound p.2) :
    OutputLanes.sound { l with held := l.held.set k p } := by
  obtain ⟨hroutes, hcodes, hheld, hpairs, hframe⟩ := h
  refine ⟨hroutes, hcodes, by rw [List.length_set, hheld], fun q hq => ?_, hframe⟩
  rcases List.mem_or_eq_of_mem_set hq with hq | rfl
  · exact hpairs q hq
  · exact hp

/-- The positions that QUIET silences carry 0, the others what they carried (R140). -/
theorem silenceFrom_sound (begun : Nat) {values : List Int} (h : ∀ y ∈ values, sampleSound y) : ∀ y ∈ silenceFrom begun values, sampleSound y := by
  intro y hy
  obtain ⟨⟨x, i⟩, hx, rfl⟩ := List.mem_map.mp hy
  dsimp only
  split
  · exact h x (List.fst_mem_of_mem_zipIdx hx)
  · exact sampleSound_zero

theorem silenceFrom_length (begun : Nat) (values : List Int) : (silenceFrom begun values).length = values.length := by simp [silenceFrom]

theorem OutputLanes.quiet_sound {l : OutputLanes} (h : l.sound) (begun : Nat) : (l.quiet begun).sound := by
  obtain ⟨hroutes, hcodes, hheld, hpairs, hframe⟩ := h
  refine ⟨hroutes, hcodes, rfl, fun p hp => ?_, fun values hv => ?_⟩
  · rw [List.eq_of_mem_replicate hp]
    exact ⟨sampleSound_zero, sampleSound_zero⟩
  · obtain ⟨before, hb, rfl⟩ := Option.map_eq_some_iff.mp hv
    obtain ⟨hlen, hsamples⟩ := hframe before hb
    exact ⟨by rw [silenceFrom_length, hlen], silenceFrom_sound begun hsamples⟩

theorem OutputLanes.withRoutes_sound {l : OutputLanes} (h : l.sound) {routes : List Route} (hlen : routes.length = 32)
    (hcodes : ∀ k side, Route.mix k side ∈ routes → k ≤ 15) : OutputLanes.sound { l with routes := routes } := by
  obtain ⟨-, -, hheld, hpairs, hframe⟩ := h
  exact ⟨hlen, hcodes, hheld, hpairs, hframe⟩

theorem OutputLanes.withoutFrame_sound {l : OutputLanes} (h : l.sound) : OutputLanes.sound { l with frame := none } := by
  obtain ⟨hroutes, hcodes, hheld, hpairs, -⟩ := h
  exact ⟨hroutes, hcodes, hheld, hpairs, by simp⟩

theorem Route.defaults_codes : ∀ k side, Route.mix k side ∈ Route.defaults → k ≤ 15 := by
  intro k side h
  obtain ⟨i, hi, he⟩ := List.mem_map.mp h
  injection he with hk
  have := List.mem_range.mp hi
  omega

theorem OutputLanes.reset_sound : State.reset.lanes.sound := by
  refine ⟨by decide, Route.defaults_codes, rfl, fun p hp => ?_, by simp [State.reset]⟩
  rw [List.eq_of_mem_replicate hp]
  exact ⟨sampleSound_zero, sampleSound_zero⟩

theorem Transmitter.reset_cueSound : State.reset.tx.cueSound := by simp [Transmitter.cueSound, State.reset]

theorem outputsSound_commands : CommandClosed State.outputsSound := by
  have ht := tablesSound_commands
  constructor
  case settings => exact fun u k cfg hk hc h => ⟨ht.settings u k cfg hk hc h.1, h.2⟩
  case sets => exact fun u k vs hk hv h => ⟨ht.sets u k vs hk hv h.1, h.2⟩
  case retires => exact fun u k sources hk h => ⟨ht.retires u k sources hk h.1, h.2⟩
  case clears => exact fun u k hk h => ⟨ht.clears u k hk h.1, h.2⟩
  case mutes => exact fun u k mask hk h => ⟨ht.mutes u k mask hk h.1, h.2⟩
  case flags => exact fun u k echo release hk h => ⟨ht.flags u k echo release hk h.1, h.2⟩
  case staged => exact fun u edits he hroom h => ⟨ht.staged u edits he hroom h.1, h.2⟩
  case discards => exact fun u h => ⟨ht.discards u h.1, h.2⟩
  case routes => exact fun u routes hlen hcodes h => ⟨h.1, OutputLanes.withRoutes_sound h.2.1 hlen hcodes, h.2.2⟩
  case cue => exact fun u cue l r hl hr hlr hcue h => ⟨h.1, h.2.1, hl, hr, hlr, hcue⟩
  case quiet => exact fun u begun h => ⟨h.1, OutputLanes.quiet_sound h.2.1 begun, h.2.2⟩
  case reset =>
    exact fun u h => ⟨ht.reset u h.1, OutputLanes.withRoutes_sound h.2.1 (by decide) Route.defaults_codes, Transmitter.reset_cueSound⟩
  all_goals intros; assumption

/-- What a pass publishes is valid: the pass leaves a sound mix (R98). -/
theorem Mix.pass_samples {m : Mix} (h : m.sound) (input : PassInput) : sampleSound (m.pass input).yL ∧ sampleSound (m.pass input).yR := by
  obtain ⟨-, -, -, -, -, -, hL, hR, -⟩ := Mix.pass_sound h input
  exact ⟨hL, hR⟩

theorem outputsSound_pass : PassClosed State.outputsSound where
  take _ h := State.takeWaiting_keeps outputsSound_commands h
  notice u _ _ _ h := by
    unfold State.queueNotice State.noteWait
    split <;> exact h
  ran _ h := h
  mix u input k hk h := by
    refine ⟨tablesSound_pass.mix u input k hk h.1, ?_, ?_⟩
    · rw [State.mixAction_eq]
      have hlt : k < u.table.mixes.length := by rw [h.1.1.1]; exact hk
      exact OutputLanes.publish_sound h.2.1 k (Mix.pass_samples (h.1.1.2.1 _ (MixTable.mix_mem hlt)) input)
    · rw [State.mixAction_eq]
      exact h.2.2

theorem State.fadeStep_outputsSound {s : State} (h : s.outputsSound) : s.fadeStep.outputsSound := by
  rw [State.fadeStep_eq]
  exact h

theorem State.completeQuiet_outputsSound {s : State} (h : s.outputsSound) (begun : Nat) : (s.completeQuiet begun).outputsSound := by
  obtain ⟨-, -, hlanes, -, htx, -⟩ := State.completeQuiet_keeps s begun
  refine ⟨State.completeQuiet_tablesSound h.1 begun, ?_, ?_⟩
  · rw [hlanes]
    exact OutputLanes.quiet_sound h.2.1 begun
  · rw [htx]
    exact h.2.2

theorem State.commitStage_outputsSound {s : State} (h : s.outputsSound) : s.commitStage.outputsSound := by
  obtain ⟨-, -, -, -, htx, -, hlanes, -⟩ := State.commitStage_keeps s
  exact State.outputsSound_of (State.commitStage_tablesSound h.1) hlanes (by rw [htx]; exact h.2.2) h

theorem LaneKeeps.outputsSound {s u : State} (k : LaneKeeps s u) (h : s.outputsSound) : u.outputsSound :=
  State.outputsSound_of (State.tablesSound_of_same k.table k.staging h.1) k.lanes (by rw [k.tx]; exact h.2.2) h

theorem outputsSound_delivery : DeliveryClosed State.outputsSound where
  toPassClosed := outputsSound_pass
  link u cls frame h := by rw [State.settleLink_eq]; exact h
  lane u cls frame h := (LaneKeeps.laneDeliver u cls frame).outputsSound h
  commit _ h := State.commitStage_outputsSound h
  sources _ _ _ _ h := h
  fade _ _ h := State.fadeStep_outputsSound h
  shut u n _ h := DeliveryClosed.shut_of (fun _ h => State.fadeStep_outputsSound h) (fun _ _ h => h)
    (fun _ begun h => State.completeQuiet_outputsSound h begun) outputsSound_pass u n h
  held _ _ _ h := h

theorem outputsSound_step : StepClosed State.outputsSound where
  toDeliveryClosed := outputsSound_delivery
  command hi h he := exec_command_keeps outputsSound_commands hi h he
  pending _ _ h := h
  plans _ _ h := h
  powerOn u h := ⟨tablesSound_step.powerOn u h.1, OutputLanes.reset_sound, Transmitter.reset_cueSound⟩
  hold _ h := ⟨h.1, OutputLanes.withoutFrame_sound h.2.1, h.2.2⟩
  syncFound u pos h := by rw [State.syncFound_eq]; exact h
  syncMissing u h := by rw [State.syncMissing_eq]; exact h
  lock _ _ _ h := h
  lose _ _ h := h
  complete _ begun _ _ _ h := State.completeQuiet_outputsSound h begun
  expire u k hx h := ⟨tablesSound_step.expire u k hx h.1, h.2⟩
  enumerate u src tag n check h := (LaneKeeps.laneFirst u _).outputsSound h
  begins u h := by
    rw [State.beginFrames_eq]
    exact ⟨h.1, OutputLanes.beginFrame_sound h.2.1 _, h.2.2⟩
  period _ _ h := h
  clocks _ _ h := h

/-- Settles O60: each change of a step keeps the outputs valid, the tables giving the samples that a pass publishes. -/
theorem outputsStaySound : Obligations.OutputsStaySound := fun _ _ ht hq hl hc he => (step_keeps outputsSound_step ⟨⟨ht, hq⟩, hl, hc⟩ he).2

end Sys2Proof.Machine
end

section
/-!
PROOFS. The fade, the power state, the executing slot and the Reply Queue stay in agreement at every step (R24, R28, R157, R161, R166, R167).
-/

namespace Sys2Proof.Machine

/-! ### What the invariant looks at -/

/-- What O58 says of the fade, the power state, the intake and the Reply Queue. -/
def State.controlSound (s : State) : Prop := s.fade.sound ∧ s.powerSound ∧ s.repliesSound

/-- The fade, the power state, the executing slot and the Reply Queue: all that `State.controlSound` looks at. -/
def State.control (s : State) : Fade × PowerState × Option Command × ReplyQueue := (s.fade, s.intake.power, s.intake.executing, s.replies)

theorem State.control_eq_iff {s u : State} :
    u.control = s.control ↔
      u.fade = s.fade ∧ u.intake.power = s.intake.power ∧ u.intake.executing = s.intake.executing ∧ u.replies = s.replies := by
  simp [State.control]

theorem State.controlSound_of_control {s u : State} (h : u.control = s.control) (hs : s.controlSound) : u.controlSound := by
  obtain ⟨hfade, hpower, hexec, hreplies⟩ := State.control_eq_iff.mp h
  simpa only [State.controlSound, State.powerSound, State.repliesSound, hfade, hpower, hexec, hreplies] using hs

/-- While a command acts: its slot is occupied and its one place is reserved, outside QUIESCING (R161, R166). -/
structure State.Acting (s : State) : Prop where
  fade : s.fade.sound
  quiet : s.intake.power = .quiet → s.fade.state = .shut
  notQuiescing : s.intake.power ≠ .quiescing
  executing : s.intake.executing.isSome = true
  reserved : s.replies.reserved = 1
  places : s.replies.messages.length ≤ 7
  notices : (s.replies.messages.filter (·.isNotice)).length ≤ 1

theorem State.Acting.of_control {s u : State} (h : u.control = s.control) (hs : s.Acting) : u.Acting := by
  obtain ⟨hfade, hpower, hexec, hreplies⟩ := State.control_eq_iff.mp h
  constructor
  · rw [hfade]; exact hs.fade
  · rw [hpower, hfade]; exact hs.quiet
  · rw [hpower]; exact hs.notQuiescing
  · rw [hexec]; exact hs.executing
  · rw [hreplies]; exact hs.reserved
  · rw [hreplies]; exact hs.places
  · rw [hreplies]; exact hs.notices

/-- Between its fade's step into SHUT and its completion POWER QUIET still executes (R28, R32). -/
structure State.Closed (s : State) : Prop where
  fade : s.fade.sound
  shut : s.fade.state = .shut
  power : s.intake.power = .quiescing
  executing : s.intake.executing.isSome = true
  replies : s.repliesSound

theorem State.Closed.of_control {s u : State} (h : u.control = s.control) (hs : s.Closed) : u.Closed := by
  obtain ⟨hfade, hpower, hexec, hreplies⟩ := State.control_eq_iff.mp h
  constructor
  · rw [hfade]; exact hs.fade
  · rw [hfade]; exact hs.shut
  · rw [hpower]; exact hs.power
  · rw [hexec]; exact hs.executing
  · simpa only [State.repliesSound, hexec, hreplies] using hs.replies

/-! ### The taking of a command (R161) -/

theorem State.beginCommand_acting {s : State} (h : s.controlSound) (ht : s.canTake = true) (c : Command) : (s.beginCommand c).Acting := by
  obtain ⟨hfade, ⟨hquiet, -, hexec⟩, hplaces, hreserved, hnotices⟩ := h
  simp only [State.canTake, State.busy, State.hasPlace, Bool.and_eq_true, Bool.not_eq_true', decide_eq_true_eq] at ht
  obtain ⟨hfree, hplace⟩ := ht
  rw [hfree] at hreserved hexec
  have hzero : s.replies.reserved = 0 := hreserved
  exact
    { fade := hfade, quiet := hquiet, notQuiescing := fun hp => Bool.false_ne_true (hexec.mp hp), executing := rfl
      reserved := by show s.replies.reserved + 1 = 1; omega
      places := by show s.replies.messages.length ≤ 7; have : Config.replyPlaces = 8 := rfl; omega
      notices := hnotices }

theorem State.completeCommand_controlSound {s : State} (h : s.Acting) (c : Command) (a : Answer) : (s.completeCommand c a).controlSound := by
  refine ⟨h.fade, ⟨h.quiet, fun hp => absurd hp h.notQuiescing, fun hp => absurd hp h.notQuiescing, fun he => nomatch he⟩, ?_, ?_, ?_⟩
  · have := h.places
    have := h.reserved
    simp [State.completeCommand]
    omega
  · simp [State.completeCommand, h.reserved]
  · simpa [State.completeCommand] using h.notices

/-- The answer of an action and what it looks at when it changes no control. -/
def Settles (u : State) (r : State × Option Answer) : Prop := r.2.isSome = true ∧ r.1.control = u.control

theorem checkedLength_elim {Q : State × Option Answer → Prop} {act : Command → State → State × Option Answer} {c : Command} {u : State}
    (h0 : ∀ a, Q (u, some a)) (h : Q (act c u)) : Q (checkedLength act c u) := by
  unfold checkedLength
  split
  · exact h
  · exact h0 _

theorem stageEdits_settles (edits : List StagedEdit) (clamped : Bool) (extra : List Byte) (u : State) : Settles u (stageEdits edits clamped extra u) := by
  unfold stageEdits
  split <;> exact ⟨rfl, rfl⟩

/-- The actions that reach neither the fade nor the intake nor the Reply Queue. -/
def settlingActions : List Action :=
  [actIdentify, actStatusPeek, actEventAck, actLinkCounters, actMixWriteStaged, actMixWrite, actMixRead, actEntryWriteStaged, actEntryWrite,
    actEntryRemoveStaged, actEntryRemove, actMixClearStaged, actMixClear, actEntryRead, actGroupMuteStaged, actGroupMute, actRouteRead, actRouteWrite,
    actCueSelect, actCommitNext, actCommitAtFrame, actCancel, actDiscard, actFlagsRead, actFlagsClear, actUnknown]

theorem settlingActions_settle {act : Action} (h : act ∈ settlingActions) (c : Command) (u : State) : Settles u (act c u) := by
  have same : ∀ a, Settles u (u, some a) := fun _ => ⟨rfl, rfl⟩
  simp only [settlingActions, List.mem_cons, List.not_mem_nil, or_false] at h
  rcases h with rfl | rfl | rfl | rfl | rfl | rfl | rfl | rfl | rfl | rfl | rfl | rfl | rfl | rfl | rfl | rfl | rfl | rfl | rfl | rfl | rfl | rfl | rfl | rfl | rfl | rfl
  case inr.inr.inr.inr.inr.inr.inr.inr.inr.inr.inr.inr.inr.inr.inr.inr.inr.inr.inr.inr.inr.inr.inr.inr.inr => exact same _
  all_goals
    refine checkedLength_elim same ?_
    repeat' first | split | (dsimp only; split)
  all_goals first | exact ⟨rfl, rfl⟩ | exact stageEdits_settles _ _ _ _

/-- The actions that reach one of them. -/
def reachingActions : List Action := [actStatusRead, actUnitSetup, actPowerQuiet, actPowerRun, actUnitReset]

theorem plainActions_cases {act : Action} (h : act ∈ plainActions) : act ∈ settlingActions ∨ act ∈ reachingActions := by
  simp only [plainActions, List.mem_cons, List.not_mem_nil, or_false] at h
  rcases h with rfl | rfl | rfl | rfl | rfl | rfl | rfl | rfl | rfl | rfl | rfl | rfl | rfl | rfl | rfl | rfl | rfl | rfl | rfl | rfl | rfl | rfl | rfl | rfl | rfl | rfl | rfl | rfl | rfl | rfl <;>
    simp [settlingActions, reachingActions]

/-- What an action of a command leaves: a command that still acts, with its answer, or one that stays in the executing slot, all in agreement. -/
def LeavesSound (r : State × Option Answer) : Prop := r.1.Acting ∧ r.2.isSome = true ∨ r.1.controlSound ∧ r.2 = none

theorem ReplyQueue.withoutNotice_places (q : ReplyQueue) : q.withoutNotice.messages.length ≤ q.messages.length := List.length_filter_le _ _

theorem ReplyQueue.withoutNotice_notices (q : ReplyQueue) : (q.withoutNotice.messages.filter (·.isNotice)).length = 0 := by
  simp [ReplyQueue.withoutNotice]

theorem Fade.startClose_sound {fd : Fade} (h : fd.sound) : fd.startClose.sound := by
  obtain ⟨hstep, hstate⟩ := h
  unfold Fade.startClose
  cases hs : fd.state <;> simp only [hs] at hstate ⊢
  · exact ⟨hstep, by show 1 ≤ fd.coeff ∧ fd.coeff ≤ 4096; omega⟩
  · exact ⟨hstep, by simpa only [hs] using hstate⟩
  · exact ⟨hstep, by simpa only [hs] using hstate⟩
  · exact ⟨hstep, by show 1 ≤ fd.coeff ∧ fd.coeff ≤ 4096; omega⟩

theorem Fade.startClose_state {fd : Fade} (h : fd.state ≠ .shut) : fd.startClose.state = .closing := by
  unfold Fade.startClose
  cases hs : fd.state <;> simp_all

theorem actPowerQuiet_leavesSound (c : Command) {u : State} (h : u.Acting) : LeavesSound (actPowerQuiet c u) := by
  rcases actPowerQuiet_cases c u with ⟨e, ha⟩ | ⟨-, hshut, e, ha⟩ | ⟨-, hopen, e, ha⟩
  · exact .inl ⟨by rwa [e], ha⟩
  · refine .inl ⟨?_, ha⟩
    rw [e]
    exact { fade := h.fade, quiet := fun _ => hshut, notQuiescing := nofun, executing := h.executing, reserved := h.reserved, places := h.places, notices := h.notices }
  · refine .inr ⟨?_, ha⟩
    rw [e]
    refine ⟨Fade.startClose_sound h.fade, ⟨nofun, fun _ => Fade.startClose_state hopen, fun _ => h.executing, fun _ => rfl⟩, ?_, ?_, h.notices⟩
    · have := h.places
      have := h.reserved
      show u.replies.messages.length + u.replies.reserved ≤ 8
      omega
    · show u.replies.reserved = u.intake.executing.isSome.toNat
      rw [h.reserved, h.executing]
      rfl

theorem actionOf_leavesSound (c : Command) {u : State} (h : u.Acting) : LeavesSound (actionOf c.kind c.payload c u) := by
  have settling : ∀ act ∈ settlingActions, LeavesSound (act c u) := fun act ha =>
    have hs := settlingActions_settle ha c u
    .inl ⟨h.of_control hs.2, hs.1⟩
  have answered : ∀ a, LeavesSound (u, some a) := fun _ => .inl ⟨h, rfl⟩
  have unnoticed : u.readEvents.Acting :=
    { fade := h.fade, quiet := h.quiet, notQuiescing := h.notQuiescing, executing := h.executing, reserved := h.reserved
      places := (ReplyQueue.withoutNotice_places _).trans h.places, notices := (ReplyQueue.withoutNotice_notices _).le.trans (Nat.zero_le _) }
  refine actionOf_elim (Q := fun act => LeavesSound (act c u)) c.payload (fun act ha => ?_) fun _ => settling _ (by simp [settlingActions])
  rcases plainActions_cases ha with hsettling | hreaching
  · exact settling act hsettling
  · simp only [reachingActions, List.mem_cons, List.not_mem_nil, or_false] at hreaching
    rcases hreaching with rfl | rfl | rfl | rfl | rfl
    · exact checkedLength_elim answered (.inl ⟨unnoticed, rfl⟩)
    · refine checkedLength_elim answered (.inl ⟨?_, rfl⟩)
      have hstep : 1 ≤ (takeStep (at16 c.payload 1)).1 ∧ (takeStep (at16 c.payload 1)).1 ≤ 4096 := clampInto_bounds (by decide) _
      exact { h with fade := ⟨hstep, h.fade.2⟩ }
    · exact actPowerQuiet_leavesSound c h
    · refine checkedLength_elim answered ?_
      dsimp only
      split
      · split
        · exact .inl ⟨{ h with quiet := nofun, notQuiescing := nofun }, rfl⟩
        · exact answered _
        · exact answered _
      · exact answered _
    · refine checkedLength_elim answered (.inl ⟨?_, rfl⟩)
      exact { unnoticed with fade := ⟨show 1 ≤ 1 ∧ 1 ≤ 4096 by decide, rfl⟩, quiet := nofun, notQuiescing := nofun }

theorem State.takeCommand_controlSound {s : State} (h : s.controlSound) (ht : s.canTake = true) (c : Command) :
    (s.takeCommand (actionOf c.kind c.payload) c).controlSound := by
  have hact := actionOf_leavesSound c (State.beginCommand_acting h ht c)
  unfold State.takeCommand
  rcases hr : actionOf c.kind c.payload c (s.beginCommand c) with ⟨u, _ | a⟩ <;> rw [hr] at hact
  · exact hact.elim (fun hu => nomatch hu.2) (·.1)
  · exact hact.elim (fun hu => State.completeCommand_controlSound hu.1 c a) (fun hu => nomatch hu.2)

theorem State.takeWaiting_controlSound {s : State} (h : s.controlSound) : s.takeWaiting.controlSound := by
  unfold State.takeWaiting
  split
  · split
    next ht => exact State.takeCommand_controlSound h ht _
    next => exact h
  · exact h

theorem exec_command_controlSound {i : Instr} {x : Byte × CommandSource} (hi : commandOf i = some x) {s t : State} (hs : s.controlSound)
    (he : exec i s = .next t) : t.controlSound := by
  rw [exec_command hi] at he
  injection he with he
  subst he
  exact commandRow_keeps hs (fun _ hu _ => hu) (fun _ hu => hu) fun u c hu ht _ _ _ => State.takeCommand_controlSound hu ht c

/-! ### NOTICEs, the fade's step and the completion of POWER QUIET -/

theorem State.queueNotice_control (s : State) :
    s.queueNotice.control =
      (s.fade, s.intake.power, s.intake.executing,
        { s.replies with messages := s.replies.messages ++ [{ isNotice := true, octets := s.noticeOctets }] }) := by
  unfold State.queueNotice State.noteWait
  split <;> rfl

/-- A NOTICE joins where a place is free and no other is queued (R157, R173). -/
theorem State.queueNotice_repliesSound {s : State} (hn : s.noticeQueued = false) (hp : s.hasPlace = true) (h : s.repliesSound) :
    s.queueNotice.repliesSound := by
  obtain ⟨-, hreserved, -⟩ := h
  have hc := s.queueNotice_control
  simp only [State.control, Prod.mk.injEq] at hc
  obtain ⟨-, -, hexec, hreplies⟩ := hc
  have hnone : s.replies.messages.filter (·.isNotice) = [] := by
    simpa [State.noticeQueued, List.filter_eq_nil_iff] using hn
  simp only [State.hasPlace, Config.replyPlaces, decide_eq_true_eq] at hp
  refine ⟨?_, ?_, ?_⟩
  · rw [hreplies]
    simp only [List.length_append, List.length_cons, List.length_nil]
    omega
  · rw [hreplies, hexec]
    exact hreserved
  · rw [hreplies]
    simp [hnone]

theorem State.queueNotice_controlSound {s : State} (hn : s.noticeQueued = false) (hp : s.hasPlace = true) (h : s.controlSound) :
    s.queueNotice.controlSound := by
  have hc := s.queueNotice_control
  simp only [State.control, Prod.mk.injEq] at hc
  obtain ⟨hfade, hpower, hexec, -⟩ := hc
  refine ⟨by rw [hfade]; exact h.1, ?_, State.queueNotice_repliesSound hn hp h.2.2⟩
  simpa only [State.powerSound, hfade, hpower, hexec] using h.2.1

theorem State.queueNotice_closed {s : State} (hn : s.noticeQueued = false) (hp : s.hasPlace = true) (h : s.Closed) : s.queueNotice.Closed := by
  have hc := s.queueNotice_control
  simp only [State.control, Prod.mk.injEq] at hc
  obtain ⟨hfade, hpower, hexec, -⟩ := hc
  exact
    { fade := by rw [hfade]; exact h.fade, shut := by rw [hfade]; exact h.shut, power := by rw [hpower]; exact h.power
      executing := by rw [hexec]; exact h.executing, replies := State.queueNotice_repliesSound hn hp h.replies }

theorem State.mixAction_control (s : State) (input : PassInput) (k : Nat) : (s.mixAction input k).control = s.control := by
  rw [State.mixAction_eq]
  rfl

theorem State.commitStage_control (s : State) : s.commitStage.control = s.control := by
  obtain ⟨-, -, hfade, -, -, -, -, hreplies, hintake, -⟩ := State.commitStage_keeps s
  simp only [State.control, hfade, hreplies, hintake]

theorem LaneKeeps.control {s u : State} (h : LaneKeeps s u) : u.control = s.control :=
  State.control_eq_iff.mpr ⟨h.fade, h.power, h.executing, h.replies⟩

/-- The fade's step in QUIET stays SHUT, and in QUIESCING stays CLOSING where it does not report SHUT (R26, R28). -/
theorem State.fadeStep_controlSound {s : State} (hr : s.reportsShut = false) (h : s.controlSound) : s.fadeStep.controlSound := by
  obtain ⟨hfade, ⟨hquiet, hquiescing, hexec⟩, hreplies⟩ := h
  rw [State.fadeStep_eq]
  refine ⟨Fade.next_sound hfade _ _ _, ⟨fun hp => ?_, fun hp => ?_, hexec⟩, hreplies⟩
  · have hp : s.intake.power = .quiet := hp
    show (s.fade.next s.store.bad s.store.good s.intake.power).state = .shut
    simp [Fade.next, Fade.test, hquiet hp, hp, Fade.endTest]
  · have hp : s.intake.power = .quiescing := hp
    have hclosing := hquiescing hp
    show (s.fade.next s.store.bad s.store.good s.intake.power).state = .closing
    have hnot := mt (State.reportsShut_iff hfade).mpr (by simp [hr])
    rw [Fade.next_closing hclosing _ _ (by simp [hp])] at hnot ⊢
    simp only [hp, hclosing] at hnot ⊢
    split
    next hle => simp [hle] at hnot
    next => rfl

theorem State.fadeStep_closed {s : State} (hr : s.reportsShut = true) (h : s.controlSound) : s.fadeStep.Closed := by
  obtain ⟨hfade, ⟨-, -, hexec⟩, hreplies⟩ := h
  obtain ⟨hp, -, hshut⟩ := (State.reportsShut_iff hfade).mp hr
  rw [State.fadeStep_eq]
  exact { fade := Fade.next_sound hfade _ _ _, shut := hshut, power := hp, executing := hexec.mp hp, replies := hreplies }

/-- POWER QUIET completes: its reply fills its place (R167). -/
theorem State.completeQuiet_controlSound {s : State} (h : s.Closed) (begun : Nat) : (s.completeQuiet begun).controlSound := by
  obtain ⟨hplaces, hreserved, hnotices⟩ := h.replies
  obtain ⟨c, hc⟩ := Option.isSome_iff_exists.mp h.executing
  have hone : s.replies.reserved = 1 := by rw [hreserved, h.executing]; rfl
  rw [State.completeQuiet_eq hc]
  refine ⟨h.fade, ⟨fun _ => h.shut, nofun, nofun, nofun⟩, ?_, ?_, ?_⟩
  · simp
    omega
  · simp [hone]
  · simpa using hnotices

/-- POWER QUIET in its closed stage is not joined by another command (R161). -/
theorem closed_pass : PassClosed State.Closed where
  take u h := by
    have hbusy : u.canTake = false := by simp [State.canTake, State.busy, h.executing]
    unfold State.takeWaiting
    split <;> simpa [hbusy] using h
  notice _ _ hn hp h := State.queueNotice_closed hn hp h
  ran u h := State.Closed.of_control (s := u) rfl h
  mix u input k _ h := h.of_control (State.mixAction_control u input k)

theorem controlSound_pass : PassClosed State.controlSound where
  take _ h := State.takeWaiting_controlSound h
  notice _ _ hn hp h := State.queueNotice_controlSound hn hp h
  ran _ h := h
  mix u input k _ h := State.controlSound_of_control (State.mixAction_control u input k) h

theorem controlSound_delivery : DeliveryClosed State.controlSound where
  toPassClosed := controlSound_pass
  link u cls frame h := by rw [State.settleLink_eq]; exact h
  lane u cls frame h := State.controlSound_of_control (LaneKeeps.laneDeliver u cls frame).control h
  commit u h := State.controlSound_of_control u.commitStage_control h
  sources _ _ _ _ h := h
  fade _ hr h := State.fadeStep_controlSound hr h
  shut u n hr h := ⟨State.Closed, closed_pass, State.Closed.of_control (s := u.fadeStep) rfl (State.fadeStep_closed hr h), fun _ begun hv => State.completeQuiet_controlSound hv begun⟩
  held _ _ _ h := h

/-! ### The frame event -/

/-- The arbiter leaves the Reply Queue as it is, or takes its oldest message out (R156, R157). -/
theorem State.arbitrate_replies (s : State) :
    s.arbitrate.1.replies = s.replies ∨ ∃ m, s.replies.messages = m :: s.arbitrate.1.replies.messages ∧ s.arbitrate.1.replies.reserved = s.replies.reserved := by
  unfold State.arbitrate
  split
  case h_1 => exact .inl rfl
  case h_2 => split <;> exact .inl rfl
  case h_3 =>
    unfold State.arbitrateIdle
    split
    case h_1 => exact .inl rfl
    case h_2 => exact .inl rfl
    case h_3 m rest _ hm => exact .inr ⟨m, hm, rfl⟩
    case h_4 m rest _ hm =>
      split
      · exact .inl rfl
      · exact .inr ⟨m, hm, rfl⟩

theorem State.beginFrames_controlSound {s : State} (h : s.controlSound) : s.beginFrames.controlSound := by
  obtain ⟨hfade, hpower, hplaces, hreserved, hnotices⟩ := h
  rw [State.beginFrames_eq]
  refine ⟨hfade, hpower, ?_⟩
  show s.arbitrate.1.replies.messages.length + s.arbitrate.1.replies.reserved ≤ 8 ∧
    s.arbitrate.1.replies.reserved = s.intake.executing.isSome.toNat ∧ (s.arbitrate.1.replies.messages.filter (·.isNotice)).length ≤ 1
  rcases s.arbitrate_replies with hr | ⟨m, hm, hr⟩
  · rw [hr]
    exact ⟨hplaces, hreserved, hnotices⟩
  · rw [hm] at hplaces hnotices
    refine ⟨?_, by rw [hr, hreserved], ?_⟩
    · rw [List.length_cons] at hplaces
      omega
    · refine le_trans (List.Sublist.length_le ?_) hnotices
      exact (List.sublist_cons_self m _).filter _

theorem State.reset_controlSound : State.reset.controlSound := by
  simp [State.controlSound, Fade.sound, State.powerSound, State.repliesSound, State.reset]

theorem controlSound_step : StepClosed State.controlSound where
  toDeliveryClosed := controlSound_delivery
  command hi h he := exec_command_controlSound hi h he
  pending _ _ h := h
  plans _ _ h := h
  powerOn _ _ := State.reset_controlSound
  hold _ h := h
  syncFound u pos h := by rw [State.syncFound_eq]; exact h
  syncMissing u h := by rw [State.syncMissing_eq]; exact h
  lock _ _ _ h := h
  lose _ _ h := h
  complete u _ _ hp hs h := absurd (h.2.1.2.1 hp) (by simp [hs])
  expire _ _ _ h := h
  enumerate u src tag n check h := State.controlSound_of_control (LaneKeeps.laneFirst u _).control h
  begins _ h := State.beginFrames_controlSound h
  period _ _ h := h
  clocks _ _ h := h

/-- Settles O58: each change of a step keeps the fade, the power state, the executing slot and the Reply Queue in agreement; between the report of SHUT and the
completion of POWER QUIET they are as `State.Closed` says. -/
theorem powerAndRepliesStaySound : Obligations.PowerAndRepliesStaySound := fun _ _ hf hp hr he => step_keeps controlSound_step ⟨hf, hp, hr⟩ he

end Sys2Proof.Machine
end

section
/-!
PROOFS. Syncs found and missing, by sync state and window (R3 to R7, R14, R15).
-/

namespace Sys2Proof.Machine

/-! ### Moments and phases -/

/-- FOLLOW, as the statements spell it (R14, R15). -/
theorem State.follow_iff (s : State) : s.follow = true ↔ s.tb.adopted = false ∧ (s.rx.sync = .locked ∨ s.rx.sync = .holdover) := by
  simp [State.follow, and_comm]

theorem State.begunAt_eq (s : State) (pos : Nat) :
    s.begunAt pos =
      min 8 ((pos - s.tb.periodStart - if s.tb.adopted = false ∧ (s.rx.sync = .locked ∨ s.rx.sync = .holdover) then 4 else 0) / 256 + 1) := by
  simp only [State.begunAt, begunAfter, State.follow_iff]

/-- A line position noted (log 26). -/
theorem State.note_eq (s : State) (pos : Nat) :
    s.note pos = s.withBegun (max (min 8 s.begun) (min 8 ((pos - s.tb.periodStart -
      if s.tb.adopted = false ∧ (s.rx.sync = .locked ∨ s.rx.sync = .holdover) then 4 else 0) / 256 + 1))) := by
  rw [State.note, State.begunAt_eq]

theorem LinkReceiver.not_inWindow_iff (r : LinkReceiver) (pos : Nat) : r.inWindow pos = false ↔ pos + 4 < r.expected ∨ r.expected + 4 < pos := by
  rw [Bool.eq_false_iff, ne_eq, LinkReceiver.inWindow_iff]
  omega

theorem Timebase.endAt_eq (t : Timebase) (expected pos : Nat) :
    t.endAt expected pos = if t.adopted = true ∨ expected ≤ t.periodStart then t else { t with periodEnd := pos, due := true } := by
  simp [Timebase.endAt]

theorem Timebase.adopt_eq (t : Timebase) (pos : Nat) :
    t.adopt pos =
      if t.periodStart + 1024 ≤ pos then { t with periodEnd := pos, due := true, adopted := true }
      else { t with periodEnd := pos + 2048, due := false, adopted := true } := rfl

/-! ### What a sync found does (R3 to R7) -/

/-- The third sync in CONFIRM (R5, R15). -/
theorem State.lock_fields (s : State) (pos : Nat) :
    s.lock pos =
      (s.withRx
          { s.rx with sync := .locked, confirm := 0, reference := some pos, expected := pos + 2048, accepted := some pos, lockedDue := true }).withTb
        (if s.tb.periodStart + 1024 ≤ pos then { s.tb with periodEnd := pos, due := true, adopted := true }
        else { s.tb with periodEnd := pos + 2048, due := false, adopted := true }) := rfl

/-- A sync at the expected position in LOCKED or HOLDOVER (R6, R7, R14). -/
theorem State.keepLock_fields (s : State) (pos : Nat) :
    s.keepLock pos =
      (s.withRx { s.rx with sync := .locked, miss := 0, reference := some pos, expected := pos + 2048, accepted := some pos }).withTb
        (if s.tb.adopted = true ∨ s.rx.expected ≤ s.tb.periodStart then s.tb else { s.tb with periodEnd := pos, due := true }) := by
  rw [← Timebase.endAt_eq]
  rfl

/-- What a sync pattern found does, by sync state and window. -/
theorem State.takeSync_fields (s : State) (pos : Nat) :
    s.takeSync pos =
      if s.rx.sync = .search then s.withRx { s.rx with sync := .confirm, confirm := 1, reference := some pos, expected := pos + 2048 }
      else if pos + 4 < s.rx.expected ∨ s.rx.expected + 4 < pos then s
      else if s.rx.sync = .confirm ∧ s.rx.confirm < 2 then
        s.withRx { s.rx with confirm := s.rx.confirm + 1, reference := some pos, expected := pos + 2048 }
      else if s.rx.sync = .confirm then
        (s.withRx
            { s.rx with sync := .locked, confirm := 0, reference := some pos, expected := pos + 2048, accepted := some pos, lockedDue := true }).withTb
          (if s.tb.periodStart + 1024 ≤ pos then { s.tb with periodEnd := pos, due := true, adopted := true }
          else { s.tb with periodEnd := pos + 2048, due := false, adopted := true })
      else
        (s.withRx { s.rx with sync := .locked, miss := 0, reference := some pos, expected := pos + 2048, accepted := some pos }).withTb
          (if s.tb.adopted = true ∨ s.rx.expected ≤ s.tb.periodStart then s.tb else { s.tb with periodEnd := pos, due := true }) := by
  simp only [← State.keepLock_fields, ← State.lock_fields, ← LinkReceiver.not_inWindow_iff]
  unfold State.takeSync
  cases hsync : s.rx.sync <;> simp only [reduceCtorEq, true_and, false_and, if_true, if_false]
  case search => rfl
  case confirm =>
    rcases hw : s.rx.inWindow pos
    · rfl
    · simp only [reduceCtorEq, if_true, if_false, Nat.add_lt_add_iff_right (m := 2), LinkReceiver.refer, hsync, Config.framePeriod]
  case locked => rcases hw : s.rx.inWindow pos <;> rfl
  case holdover => rcases hw : s.rx.inWindow pos <;> rfl

/-- Settles O5: the moment is noted, and the sync does what its sync state and window say. -/
theorem syncFoundActs : Obligations.SyncFoundActs := by
  intro s pos hr
  simp only [exec, execSyncFound, whileReleased_released hr, State.syncFound, State.note_eq]
  exact congrArg _ (State.takeSync_fields _ pos)

/-! ### What a missing sync does (R3, R5 to R7) -/

theorem State.noteClose_eq (s : State) :
    s.noteClose = s.withBegun (max (min 8 s.begun) (min 8 ((s.rx.expected + 4 - s.tb.periodStart -
      if s.tb.adopted = false ∧ (s.rx.sync = .locked ∨ s.rx.sync = .holdover) then 4 else 0) / 256 + 1))) := State.note_eq s _

/-- The eighth missing sync (R7). -/
theorem State.lose_fields (s : State) :
    s.lose =
      (s.noteClose.withRx { s.rx with sync := .search, miss := 0, reference := none, missed := true, lostDue := true }).withTb
        (if s.tb.adopted = true ∨ s.rx.expected ≤ s.tb.periodStart then s.tb else { s.tb with periodEnd := s.rx.expected + 4, due := true }) := by
  rw [← Timebase.endAt_eq]
  rfl

/-- A missing sync short of the eighth (R6, R7). -/
theorem State.miss_fields (s : State) (count : Nat) :
    s.miss count =
      (s.noteClose.withRx { s.rx with sync := .holdover, miss := count, expected := s.rx.expected + 2048, missed := true }).withTb
        (if s.tb.adopted = true ∨ s.rx.expected ≤ s.tb.periodStart then s.tb else { s.tb with periodEnd := s.rx.expected + 4, due := true }) := by
  rw [← Timebase.endAt_eq]
  rfl

/-- Settles O6: the sync states but SEARCH note the moment and count the sync as missing. -/
theorem syncMissingActs : Obligations.SyncMissingActs := by
  intro s hr
  simp only [exec, execSyncMissing, whileReleased_released hr, ← State.noteClose_eq, ← State.lose_fields, ← State.miss_fields]
  congr 1
  unfold State.syncMissing
  cases hsync : s.rx.sync <;> simp only [reduceCtorEq, true_and, false_and, if_true, if_false]
  case holdover =>
    by_cases hm : s.rx.miss + 1 < 8
    · rw [if_pos hm, if_neg (by omega)]
    · rw [if_neg hm, if_pos (by omega)]

/-- Settles O7: the two rows make the same change as SYNC_FOUND and SYNC_MISSING at their condition. -/
theorem linkLockedAndLost : Obligations.LinkLockedAndLost := by
  refine ⟨fun s pos hr => ?_, fun s hr => ?_⟩
  · simp only [exec, execLinkLocked, whileReleased_released hr, LinkReceiver.inWindow_iff]
    congr 1
    by_cases h : s.rx.sync = .confirm ∧ 2 ≤ s.rx.confirm ∧ pos ≤ s.rx.expected + 4 ∧ s.rx.expected ≤ pos + 4
    · rw [if_pos h, if_pos ⟨h.1, by omega, h.2.2⟩, State.lock_fields, State.note_eq]
      simp only [h.1, reduceCtorEq, or_self, and_false, if_false, Nat.sub_zero]
      rfl
    · rw [if_neg h, if_neg fun hc => h ⟨hc.1, by omega, hc.2.2⟩]
  · simp only [exec, execLinkLost, whileReleased_released hr]
    congr 1
    by_cases h : s.rx.sync = .holdover ∧ 7 ≤ s.rx.miss
    · rw [if_pos h, if_pos ⟨h.1, by omega⟩, State.lose_fields, State.noteClose_eq]
      simp only [h.1, reduceCtorEq, false_or, and_true]
    · rw [if_neg h, if_neg fun hc => h ⟨hc.1, by omega⟩]

end Sys2Proof.Machine
end

section
/-!
PROOFS. The step, power-on, reset and the rows of messages (R19, R137, R162, R170, section 12.2).
-/

namespace Sys2Proof.Machine

/-- Settles O1. -/
theorem stepRunsFront : Obligations.StepRunsFront := by
  refine ⟨fun s c rest h => ?_, fun s h => ?_⟩
  · simp only [step, h]
  · simp only [step, h]

/-- Position 8 × lane + position carries mix 4 × lane + position / 2 (R141). -/
theorem Route.defaults_eq :
    Route.defaults = (List.range 32).map fun i => .mix (4 * (i / 8) + i % 8 / 2) (if i % 2 = 0 then .left else .right) := by
  refine List.map_congr_left fun i _ => ?_
  rw [show 4 * (i / 8) + i % 8 / 2 = i / 2 by omega]

/-- Settles O2: the values of the reset state, field by field. -/
theorem powerOnValues : Obligations.PowerOnValues := by
  intro s
  rw [← Route.defaults_eq]
  rfl

/-! ### RESET_N low (R19, R137) -/

/-- Coded zeros: one transition in each bit-time, at its begin (R1). -/
theorem codeBits_zeros (before : Bool) {n k : Nat} (hk : k < n) :
    (codeBits before (List.replicate n false))[k]? = some (decide (k % 2 = 0) ^^ before, decide (k % 2 = 0) ^^ before) := by
  induction n generalizing before k with
  | zero => exact absurd hk (Nat.not_lt_zero k)
  | succ n ih =>
    rw [List.replicate_succ, codeBits]
    cases k with
    | zero => simp
    | succ k =>
      rw [List.getElem?_cons_succ, ih _ (Nat.lt_of_succ_lt_succ hk)]
      rcases Nat.mod_two_eq_zero_or_one k with h | h <;> simp [h, Nat.add_mod]

theorem State.linkOut_idle {s : State} (h : s.tx.emitted = none) (before : Bool) (n : Nat) :
    s.linkOut before n = codeBits before (List.replicate n false) := by
  simp only [State.linkOut, h]

theorem State.laneBit_idle {s : State} (h : s.lanes.frame = none) (lane clock : Nat) : s.laneBit lane clock = false := by
  simp only [State.laneBit, State.lanePosition, h]

theorem exec_held {s : State} (h : s.resetHeld = true) {i : Instr} (hon : i ≠ .powerOn) (hassert : i ≠ .resetAssert) : exec i s = .next s := by
  cases hc : commandOf i with
  | some x => rw [exec_command hc]; simp only [commandRow, whileReleased_held h]
  | none =>
    cases i <;> simp only [commandOf, reduceCtorEq] at hc
    case powerOn => exact absurd rfl hon
    case resetAssert => exact absurd rfl hassert
    all_goals exact congrArg Host.Outcome.next (whileReleased_held h _)

/-- Settles O3: with nothing emitted and no lane frame the lines carry coded zeros and lows, and a held unit does nothing. -/
theorem resetAssertHoldsUnit : Obligations.ResetAssertHoldsUnit := by
  refine ⟨fun s => ⟨_, rfl, rfl, fun before n => ?_, fun lane clock => ?_⟩, fun s i h hon hassert => exec_held h hon hassert⟩
  · rw [State.linkOut_idle rfl]
    exact ⟨by rw [codeBits_length, List.length_replicate], fun k hk => codeBits_zeros before hk⟩
  · exact ⟨State.laneBit_idle rfl lane clock, rfl⟩

/-- Settles O4: each block's own lemma about its values at reset. -/
theorem resetIsSound : Obligations.ResetIsSound := by
  obtain ⟨hfade, hpower, hreplies⟩ := State.reset_controlSound
  exact ⟨⟨rfl, rfl, rfl⟩, LinkCounters.zero_sound, SourceStore.reset_sound, MixTable.reset_sound, Staging.empty_sound rfl, hfade, hpower, hreplies,
    LaneController.reset_sound, OutputLanes.reset_sound, Transmitter.reset_cueSound⟩

/-! ### The row of a message (section 12.2) -/

open Sys2Proof.Laws in
/-- The per-row facts of `Laws/PerInstr.lean`, for every row. -/
theorem rowOfMessage (i : Instr) : RowOfMessage.Statement i := by
  cases i
  exacts [RowOfMessage.powerOn, RowOfMessage.resetAssert, RowOfMessage.syncFound _, RowOfMessage.syncMissing, RowOfMessage.linkLocked _,
    RowOfMessage.linkLost, RowOfMessage.delivery _, RowOfMessage.deliveryPoint, RowOfMessage.commitFire, RowOfMessage.powerQuietComplete,
    RowOfMessage.talkHoldExpiry _, RowOfMessage.enumerate _ _ _ _, RowOfMessage.frameEvent, RowOfMessage.noticeQueue, RowOfMessage.identify _,
    RowOfMessage.statusRead _, RowOfMessage.statusPeek _, RowOfMessage.unitSetup _, RowOfMessage.eventAck _, RowOfMessage.linkCounters _,
    RowOfMessage.mixWrite _, RowOfMessage.mixWriteStaged _, RowOfMessage.mixRead _, RowOfMessage.entryWrite _, RowOfMessage.entryWriteStaged _,
    RowOfMessage.entryRemove _, RowOfMessage.entryRemoveStaged _, RowOfMessage.mixClear _, RowOfMessage.mixClearStaged _, RowOfMessage.entryRead _,
    RowOfMessage.groupMute _, RowOfMessage.groupMuteStaged _, RowOfMessage.routeWrite _, RowOfMessage.routeRead _, RowOfMessage.cueSelect _,
    RowOfMessage.commitAtFrame _, RowOfMessage.commitNext _, RowOfMessage.cancel _, RowOfMessage.discard _, RowOfMessage.flagsRead _,
    RowOfMessage.flagsClear _, RowOfMessage.powerQuiet _, RowOfMessage.powerRun _, RowOfMessage.unitReset _, RowOfMessage.unknownCommand _ _]

/-- A KIND code above the catalogue's or 0 is none of its kinds. -/
theorem isCommandKind_eq_false {kind : Byte} (h : kind.toNat = 0 ∨ 0x17 < kind.toNat) : isCommandKind kind = false := by
  simp only [isCommandKind, Bool.and_eq_false_iff, decide_eq_false_iff_not]
  omega

/-- The row that a KIND and payload select names that KIND and takes that payload. -/
theorem rowOf_own (kind : Byte) (payload : List Byte) (c : CommandSource) :
    commandOf (rowOf kind payload c) = some (kind, c) ∧ (rowOf kind payload c).ownPayload payload = true := by
  have named : ∀ n, kind.toNat = n → n < 256 → BitVec.ofNat 8 n = kind := fun n h _ => by rw [← h]; simp
  unfold rowOf
  split
  case h_24 =>
    simp only [imp_false] at *
    have hk : kind.toNat = 0 ∨ 0x17 < kind.toNat := by omega
    exact ⟨rfl, by rw [Instr.ownPayload, isCommandKind_eq_false hk]; rfl⟩
  all_goals
    rename_i hk
    rw [← named _ hk (by decide)]
  all_goals first | exact ⟨rfl, rfl⟩ | (split <;> simp_all [commandOf, Instr.ownPayload])

/-- Settles O34: the selected row is of the KIND and payload, and the per-row facts leave no other. -/
theorem rowTakesItsKind : Obligations.RowTakesItsKind := fun kind payload c =>
  ⟨rowOf_own kind payload c, fun i hi hp => ((rowOfMessage i).1 kind payload c hi hp).symm⟩

end Sys2Proof.Machine
end

section
/-!
PROOFS. The one delivery of a period and the frame events of periods that owe theirs (R8, R14, R15, R19, R137).
-/

namespace Sys2Proof.Machine

theorem whileReleased_same {s : State} {f : State → State} (h : f s = s) : whileReleased s f = s :=
  whileReleased_keeps (P := (· = s)) rfl fun _ => h

theorem State.frameInPeriod_iff (s : State) : s.frameInPeriod = true ↔ ∃ pos, s.rx.accepted = some pos ∧ pos + 1664 ≤ s.tb.periodEnd := by
  unfold State.frameInPeriod
  cases s.rx.accepted <;> simp [Config.trailerEnd]

/-- A frame's delivery comes only where the period owes its delivery and an accepted frame ends in it (R4, R5, R8). -/
theorem exec_delivery_not_due {s : State} (line : LineBody) (h : s.tb.owed = false ∨ s.frameInPeriod = false) : exec (.delivery line) s = .next s := by
  refine congrArg Host.Outcome.next (whileReleased_same ?_)
  rw [State.deliverFrame, if_neg (by rcases h with h | h <;> simp [h])]

/-- The delivery point comes only where the period owes its delivery and no accepted frame ends in it (R8). -/
theorem exec_deliveryPoint_not_due {s : State} (h : s.tb.owed = false ∨ s.frameInPeriod = true) : exec .deliveryPoint s = .next s := by
  refine congrArg Host.Outcome.next (whileReleased_same ?_)
  rw [State.deliverNone, if_neg (by rcases h with h | h <;> simp [h])]

/-- The arbiter with nothing to send (R156). -/
theorem State.arbitrate_nothing {s : State} (he : s.lane.emission = .none) (hh : s.lane.hold = []) (hm : s.replies.messages = []) :
    s.arbitrate = (s, .idle, zeroLane) := by
  simp only [State.arbitrate, he, State.arbitrateIdle, hh, hm]

/-- The frame event at the release of RESET_N (R137, R144, log 10). -/
theorem exec_frameEvent_release {s : State} (hr : s.resetHeld = false) (hrel : s.tb.releaseEvent = true) (ho : s.tb.owed = true) :
    exec .frameEvent s = .next (s.beginFrames.withTb { s.tb with releaseEvent := false }) := by
  simp [exec, execFrameEvent, hr, State.frameEvent, hrel, ho]

/-- A frame event waits in FOLLOW for the expected position (R14). -/
theorem exec_frameEvent_waits {s : State} (hrel : (s.tb.releaseEvent && s.tb.owed) = false) (hd : s.eventDue = false) :
    exec .frameEvent s = .next s := by
  refine congrArg Host.Outcome.next (whileReleased_same ?_)
  simp only [State.frameEvent, hrel, hd, Bool.false_eq_true, if_false]

/-- The period's delivery leaves the coming of its frame event as it is (R14). -/
theorem State.eventComes_deliver {s : State} (h : s.eventComes) (plan : ChainPlan) (cls : DeliveryClass) {frame : Option ReceivedFrame}
    (hf : ∀ f, frame = some f → ∃ line, f = decodeBody line) : (s.deliver plan cls frame).eventComes := by
  obtain ⟨hr, -, hdue⟩ := h
  obtain ⟨hperiod, howed⟩ := State.deliver_period s plan cls hf
  simp only [State.period, Prod.mk.injEq, Timebase.mk.injEq] at hperiod
  obtain ⟨-, -, hheld, hsync, -, -, hdue', hadopted, -⟩ := hperiod
  refine ⟨by rw [hheld, hr], by rw [howed, Bool.and_false], ?_⟩
  rw [hdue', hadopted, hsync]
  exact hdue

/-- Settles O29. -/
theorem oneDeliveryPerPeriod : Obligations.OneDeliveryPerPeriod := by
  refine ⟨fun s line h => ?_, fun s h => ?_, fun s hr hrel ho hheld hhold hm he => ?_, fun s t hcomes hdue hexec => ?_, fun s hrel hsync hd ha => ?_⟩
  · refine exec_delivery_not_due line (h.imp_right fun h => ?_)
    rw [Bool.eq_false_iff, ne_eq, State.frameInPeriod_iff]
    rintro ⟨pos, hpos, hle⟩
    rcases h with h | ⟨pos', hpos', hlt⟩
    · rw [h] at hpos
      cases hpos
    · rw [hpos'] at hpos
      cases hpos
      omega
  · exact exec_deliveryPoint_not_due (h.imp_right s.frameInPeriod_iff.mpr)
  · refine ⟨_, _, exec_frameEvent_release hr hrel ho, by rw [State.beginFrames_eq]; rfl, ?_⟩
    rw [State.beginFrames_eq, State.arbitrate_nothing he hhold hm]
    simp only [State.frameBegun, State.emitNumber, State.emitDamaged, hheld]
    exact ⟨trivial, trivial, trivial, rfl, rfl, rfl⟩
  · rw [exec_noneDue hdue] at hexec
    injection hexec with hexec
    subst hexec
    rw [exec_frameEvent hcomes, exec_frameEvent (State.eventComes_deliver hcomes _ _ (by simp)), State.endPeriod_owed hdue.2.1]
  · refine exec_frameEvent_waits hrel ?_
    have hfollow : s.follow = true := s.follow_iff.mpr ⟨ha, hsync⟩
    simp only [State.eventDue, hfollow, hd, Bool.not_true, Bool.or_false]

end Sys2Proof.Machine
end

section
/-!
PROOFS. What a delivery settles of the link, the Source Store and the fade (R8 to R11, R13, R20 to R26).
-/

namespace Sys2Proof.Machine

/-! ### The class of a frame and its counters (R2, R8, R10, R11) -/

theorem ReceivedFrame.cls_corrupt {f : ReceivedFrame} (h : (f.codingBad || f.checkBad || f.trailerBad) = true) : f.cls = .corrupt := by
  simp only [ReceivedFrame.cls, h, if_true]

theorem ReceivedFrame.cls_valid {f : ReceivedFrame} (h : (f.codingBad || f.checkBad || f.trailerBad) = false) :
    f.cls = if f.damaged then .marked else .good := by
  simp only [ReceivedFrame.cls, h, Bool.false_eq_true, if_false]

/-- The local frame number of a frame's delivery (R10). -/
theorem nextFrameNumber_frame (now : FrameNo) (f : ReceivedFrame) :
    nextFrameNumber now f.cls (some f) = if f.codingBad || f.checkBad || f.trailerBad then now + 1 else f.number := by
  cases h : f.codingBad || f.checkBad || f.trailerBad with
  | true => rw [ReceivedFrame.cls_corrupt h]; rfl
  | false =>
    rw [ReceivedFrame.cls_valid h]
    cases f.damaged <;> rfl

/-- The counters of a frame's delivery (R11): each failed test of a CORRUPT one, the damage of a MARKED one. -/
theorem LinkCounters.atDelivery_frame {c : LinkCounters} (hc : c.sound) (f : ReceivedFrame) (missed : Bool) :
    c.atDelivery f.cls (some f) missed =
      { c with
        codingViolations := if f.codingBad then min 65535 (c.codingViolations + 1) else c.codingViolations
        frameCheckErrors := if f.checkBad then min 65535 (c.frameCheckErrors + 1) else c.frameCheckErrors
        trailerErrors := if f.trailerBad then min 65535 (c.trailerErrors + 1) else c.trailerErrors
        inheritedDamage :=
          if !(f.codingBad || f.checkBad || f.trailerBad) && f.damaged then min 65535 (c.inheritedDamage + 1) else c.inheritedDamage } := by
  obtain ⟨h1, h2, h3, h4, -⟩ := hc
  simp only [← rise_eq h1, ← rise_eq h2, ← rise_eq h3, ← rise_eq h4]
  cases h : f.codingBad || f.checkBad || f.trailerBad with
  | true => rw [ReceivedFrame.cls_corrupt h]; rfl
  | false =>
    rw [ReceivedFrame.cls_valid h]
    obtain ⟨⟨hcoding, hcheck⟩, htrailer⟩ : (f.codingBad = false ∧ f.checkBad = false) ∧ f.trailerBad = false := by
      simpa only [Bool.or_eq_false_iff] using h
    cases f.damaged <;> simp [hcoding, hcheck, htrailer, LinkCounters.atDelivery]

/-- The counters of a NONE delivery (R11). -/
theorem LinkCounters.atDelivery_nothing {c : LinkCounters} (hc : c.sound) (missed : Bool) :
    c.atDelivery .nothing none missed = { c with missedSyncs := if missed then min 65535 (c.missedSyncs + 1) else c.missedSyncs } := by
  obtain ⟨-, -, -, -, h5, -⟩ := hc
  rw [← rise_eq h5]
  cases missed <;> rfl

/-! ### The Link Transmitter and the moment of a delivery -/

/-- A delivery holds its frame for the Link Transmitter and notes whether a pass ran; the cue selection and the frame being emitted stay (R9, R18). -/
theorem State.deliver_tx {plan : ChainPlan} (hp : plan.falls = []) (s : State) (cls : DeliveryClass) (frame : Option ReceivedFrame) :
    (s.deliver plan cls frame).tx =
      { s.tx with
        heldFrame := frame.map fun f => { cls := cls, number := f.number, flags := f.flags, slots := f.slots }
        passRan := (s.deliver plan cls frame).tx.passRan } := by
  have k := PassKeeps.fadeAndPass hp (s.settled cls frame) (s.begunAtDelivery frame.isSome)
  obtain ⟨-, -, -, htx, -⟩ := s.settled_keeps cls frame
  have hcue := k.cueMix
  have hleft := k.cueLeft
  have hright := k.cueRight
  have hemitted := k.emitted
  rw [htx] at hcue hleft hright hemitted
  rw [State.deliver_eq hp]
  dsimp only
  rw [← hcue, ← hleft, ← hright, ← hemitted]
  rfl

theorem begunAfter_eq (n : Nat) : begunAfter n = min 8 (n / 256 + 1) := rfl

theorem State.begunAtDelivery_frame {s : State} {pos : Nat} (h : s.rx.accepted = some pos) :
    s.begunAtDelivery true = min 8 ((pos + 1664 - s.tb.periodStart) / 256 + 1) := by
  simp only [State.begunAtDelivery, State.deliveryTime, h, begunAfter_eq, Config.trailerEnd]

theorem State.begunAtDelivery_nothing (s : State) :
    s.begunAtDelivery false = min 8 (min 1664 (s.tb.periodEnd - s.tb.periodStart) / 256 + 1) := rfl

/-- NONE hands no valid lane, so no message is checked (R147, R151). -/
theorem State.deliver_nothing_messageCheckErrors {plan : ChainPlan} (hp : plan.falls = []) (s : State) :
    (s.deliver plan .nothing none).rx.counters.messageCheckErrors = s.rx.counters.messageCheckErrors := by
  have hrx : (s.deliver plan .nothing none).rx = (s.settleLink .nothing none).spoil.rx := by
    rw [State.deliver_eq hp]
    exact (PassKeeps.fadeAndPass hp _ _).rx.trans (State.commitStage_keeps _).1
  have hcounters : (s.settleLink .nothing none).rx.counters = s.rx.counters.atDelivery .nothing none s.rx.missed := by
    rw [State.settleLink_eq]
    rfl
  rw [hrx, State.spoil_messageCheckErrors, hcounters]
  cases s.rx.missed <;> rfl

/-- Settles O8: the rules of the first stage, whose work no later stage of the delivery undoes. -/
theorem deliveriesSettleLink : Obligations.DeliveriesSettleLink := by
  refine ⟨fun s line hends hp hc => ⟨_, exec_frameEnds hends line, ?_⟩, fun s hdue hp hc => ⟨_, exec_noneDue hdue, ?_⟩⟩
  · have hperiod := (State.deliver_period s s.plan (decodeBody line).cls (frame := some (decodeBody line)) (fun f hf => ⟨line, by simpa using hf.symm⟩)).1
    simp only [State.period, Prod.mk.injEq] at hperiod
    obtain ⟨hpending, hplans, hheld, -⟩ := hperiod
    have hgrows := State.deliver_grows hp s (decodeBody line).cls (some (decodeBody line))
    obtain ⟨hlocked, hlost⟩ := State.deliver_bits hp s (decodeBody line).cls (some (decodeBody line))
    refine ⟨?_, ?_, ?_, hgrows.mask, hgrows.latch, State.deliver_tx hp s _ _, State.deliver_tb hp s _ _, hpending, hplans, hheld, fun pos hpos => ?_⟩
    · rw [State.deliver_rx hp, LinkCounters.atDelivery_frame hc, nextFrameNumber_frame]
      rfl
    · simpa using hlocked
    · simpa using hlost
    · rw [State.deliver_begun hp, ← State.begunAtDelivery_frame hpos]
      rfl
  · have hperiod := (State.deliver_period s s.plan .nothing (frame := none) (by simp)).1
    simp only [State.period, Prod.mk.injEq] at hperiod
    obtain ⟨hpending, hplans, hheld, -⟩ := hperiod
    have hgrows := State.deliver_grows hp s .nothing none
    obtain ⟨hlocked, hlost⟩ := State.deliver_bits hp s .nothing none
    refine ⟨?_, ?_, ?_, hgrows.mask, hgrows.latch, State.deliver_tx hp s _ _, State.deliver_tb hp s _ _, hpending, hplans, hheld,
      (State.deliver_begun hp s .nothing none).trans s.begunAtDelivery_nothing⟩
    · have hcheck := State.deliver_nothing_messageCheckErrors hp s
      rw [State.deliver_rx hp, LinkCounters.atDelivery_nothing hc]
      rw [hcheck]
      rfl
    · simpa using hlocked
    · simpa using hlost

end Sys2Proof.Machine
end

section
/-!
PROOFS. What a delivery leaves of the Source Store and the fade (R20 to R26).
-/

namespace Sys2Proof.Machine

/-! ### The Source Store (R21, R22) -/

/-- The samples are held and every age rises to at most 255 (R22). -/
theorem SourceStore.holdBad_eq {st : SourceStore} (h : st.sound) :
    st.holdBad =
      { sources := st.sources.map fun x => { sample := x.sample, age := min 255 (x.age + 1) }, bad := min 65535 (st.bad + 1), good := 0 } := by
  obtain ⟨-, -, ⟨age, hage, hall⟩, hbad, -⟩ := h
  have hsources : ∀ x ∈ st.sources, ({ x with age := if x.age < 255 then x.age + 1 else x.age } : Source) = ⟨x.sample, min 255 (x.age + 1)⟩ := by
    intro x hx
    have hx' : x.age ≤ 255 := (hall x hx).trans_le hage
    congr 1
    split <;> omega
  rw [SourceStore.holdBad, rise_eq hbad, List.map_congr_left hsources]

theorem SourceStore.takeGood_eq {st : SourceStore} (h : st.sound) (slots : List Int) :
    st.takeGood slots =
      { sources := (List.range 64).map fun k => { sample := slots.getD k 0, age := 0 }, bad := 0, good := min 65535 (st.good + 1) } := by
  obtain ⟨-, -, -, -, hgood, -⟩ := h
  rw [← rise_eq hgood]
  rfl

theorem SourceStore.apply_not_good {cls : DeliveryClass} (h : cls ≠ .good) (st : SourceStore) (slots : List Int) : st.apply cls slots = st.holdBad := by
  cases cls
  case good => exact absurd rfl h
  all_goals rfl

/-- A GOOD delivery is a frame's. -/
theorem classOf_good {i : Instr} (h : classOf i = .good) : ∃ line, i = .delivery line := by
  unfold classOf at h
  split at h
  next line => exact ⟨line, rfl⟩
  next => cases h

/-- Settles O10. -/
theorem deliveryUpdatesSources : Obligations.DeliveryUpdatesSources := by
  intro s i cls hd hs
  obtain ⟨hexec, hp, hcls⟩ := exec_delivers hd
  refine ⟨_, hexec, fun hg => ?_, fun hg => ?_⟩
  · obtain ⟨line, rfl⟩ := classOf_good (hcls.symm.trans hg)
    refine ⟨line, rfl, ?_⟩
    rw [State.deliver_store hp, hg]
    exact SourceStore.takeGood_eq hs _
  · rw [State.deliver_store hp, SourceStore.apply_not_good hg, SourceStore.holdBad_eq hs]

/-! ### The fade (R24 to R26) -/

/-- The first stage raises LINK_LOCKED and LINK_LOST alone (R13). -/
theorem State.settleLink_bit (s : State) (cls : DeliveryClass) (frame : Option ReceivedFrame) {i : Nat} (h : 2 ≤ i) :
    (s.settleLink cls frame).events.summary.getLsbD i = s.events.summary.getLsbD i := by
  have raised : ∀ e : Event, e.bit < 2 → (s.events.raise e).summary.getLsbD i = s.events.summary.getLsbD i := fun e he => by
    have hne : (i == e.bit) = false := beq_eq_false_iff_ne.mpr (by omega)
    rw [EventUnit.raise_bit, hne, Bool.or_false]
  rw [State.settleLink_eq]
  simp only [State.withEvents_events]
  split
  · exact raised _ (by decide)
  · split
    · exact raised _ (by decide)
    · rfl

/-- The stages before the fade raise neither LINK_SILENT nor MIX_FAULT. -/
theorem State.settled_bit (s : State) (cls : DeliveryClass) (frame : Option ReceivedFrame) {i : Nat} (h2 : 2 ≤ i) (h4 : i < 4) :
    (s.settled cls frame).events.summary.getLsbD i = s.events.summary.getLsbD i := by
  obtain ⟨-, -, -, -, -, -, -, -, -, -, -, -, hbits, -⟩ := State.commitStage_keeps ((s.settleLink cls frame).laneDeliver cls frame)
  calc (s.settled cls frame).events.summary.getLsbD i
      = ((s.settleLink cls frame).laneDeliver cls frame).events.summary.getLsbD i := hbits i (by omega)
    _ = (s.settleLink cls frame).events.summary.getLsbD i := (LaneKeeps.laneDeliver _ cls frame).bits i (by omega)
    _ = s.events.summary.getLsbD i := s.settleLink_bit cls frame h2

theorem State.settled_store (s : State) (cls : DeliveryClass) (frame : Option ReceivedFrame) :
    (s.settled cls frame).store = s.store.apply cls ((frame.map (·.slots)).getD []) := by
  simp [State.settled, State.applySources, (State.commitStage_keeps _).2.1, (LaneKeeps.laneDeliver _ cls frame).store, State.settleLink_eq]

/-- LINK_SILENT in a delivery: raised by the fade's step into SHUT in RUN (R25). -/
theorem State.deliver_bit2 {plan : ChainPlan} (hp : plan.falls = []) (s : State) (cls : DeliveryClass) (frame : Option ReceivedFrame) :
    (s.deliver plan cls frame).events.summary.getLsbD 2 =
      (s.events.summary.getLsbD 2 ||
        (s.fade.shuts (s.deliver plan cls frame).store.bad (s.deliver plan cls frame).store.good s.intake.power && s.intake.power == .run)) := by
  obtain ⟨-, hfade, -, -, hpower, -⟩ := s.settled_keeps cls frame
  rw [State.deliver_store hp, ← State.settled_store, ← s.settled_bit cls frame (i := 2) (by decide) (by decide), ← hfade, ← hpower, State.deliver_eq hp]
  exact State.fadeAndPass_bit2 hp _ _

/-- Settles O11: the fade's step by its table, and LINK_SILENT by the step's entry into SHUT. -/
theorem deliveryStepsFade : Obligations.DeliveryStepsFade := by
  intro s i cls hd hs
  obtain ⟨hexec, hp, -⟩ := exec_delivers hd
  have hfade := State.deliver_fade hp s cls (frameOf i)
  refine ⟨_, hexec, by rw [hfade]; rfl, by rw [hfade]; exact Fade.next_eq hs _ _ _, ?_⟩
  rw [State.deliver_bit2 hp, hfade]
  congr 1
  rw [Bool.eq_iff_iff, Bool.and_eq_true, Fade.shuts_iff hs, beq_iff_eq, decide_eq_true_eq, and_assoc]

end Sys2Proof.Machine
end

section
/-!
PROOFS. The commit stage and the mix pass of a delivery (R31, R32, R80, R101, R109, R125 to R129).
-/

namespace Sys2Proof.Machine

/-! ### The tables keep their mixes -/

theorem MixTable.setEntry_length {t u : MixTable} {k : Nat} {v : EntryValues} {kind : SetKind} (h : t.setEntry k v = some (u, kind)) :
    u.mixes.length = t.mixes.length := by
  rcases t.setEntry_cases k v with ⟨e, -, heq⟩ | ⟨-, -, heq⟩ | ⟨-, -, heq⟩ <;> rw [heq] at h <;> cases h
  · exact setMix_length _ _ _
  · exact setMix_length _ _ _

theorem MixTable.applyEdit_length {t u : MixTable} {e : StagedEdit} (h : t.applyEdit e = some u) : u.mixes.length = t.mixes.length := by
  cases e <;> simp only [applyEdit, Option.map_eq_some_iff, Option.some.injEq, Prod.exists, exists_and_right, exists_eq_right] at h
  case setEntry k source gL gR group mute =>
    obtain ⟨kind, h⟩ := h
    exact setEntry_length h
  case retireEntry k source =>
    subst h
    rcases t.retireEntry_table k source with h | h <;> rw [h]
    exact setMix_length _ _ _
  all_goals
    subst h
    exact setMix_length _ _ _

theorem MixTable.applyEdits_length (t : MixTable) (queue : List StagedEdit) (position : Nat) (c : FiringCounts) :
    (t.applyEdits queue position c).1.mixes.length = t.mixes.length := by
  induction queue generalizing t position c with
  | nil => rfl
  | cons e queue ih =>
    simp only [applyEdits]
    split
    next u hu => rw [ih, applyEdit_length hu]
    next => rw [ih]

/-! ### The commit stage (R125 to R129) -/

/-- The tables as the commit stage of a delivery that settles this local frame number leaves them. -/
def State.committed (s : State) (now : FrameNo) : MixTable :=
  if s.firesAt now then (s.table.applyEdits s.staging.queue 1 ⟨0, 0, none⟩).1 else s.table

theorem State.committed_length (s : State) (now : FrameNo) : (s.committed now).mixes.length = s.table.mixes.length := by
  unfold State.committed
  split
  · exact MixTable.applyEdits_length _ _ _ _
  · rfl

theorem State.firesAt_of_staging {s u : State} (h : u.staging = s.staging) (now : FrameNo) : u.firesAt now = s.firesAt now := by
  simp only [State.firesAt, h]

theorem State.firesAt_armed {s : State} {now : FrameNo} (h : s.firesAt now = true) : ∃ trigger request, s.staging.slot = .armed trigger request := by
  unfold State.firesAt at h
  split at h
  · cases h
  · exact ⟨_, _, by assumption⟩
  · exact ⟨_, _, by assumption⟩

theorem State.commitStage_table (s : State) : s.commitStage.table = s.committed s.rx.localFrame := by
  unfold State.committed
  cases hf : s.firesAt s.rx.localFrame with
  | false => rw [State.commitStage_idle hf]; rfl
  | true =>
    obtain ⟨trigger, request, harmed⟩ := State.firesAt_armed hf
    rw [State.commitStage_fires hf harmed, State.fire_eq]
    rfl

/-- COMMIT_DONE is raised exactly by a firing (R127). -/
theorem State.commitStage_bit4 (s : State) :
    s.commitStage.events.summary.getLsbD 4 = (s.events.summary.getLsbD 4 || s.firesAt s.rx.localFrame) := by
  cases hf : s.firesAt s.rx.localFrame with
  | false => rw [State.commitStage_idle hf, Bool.or_false]
  | true =>
    obtain ⟨trigger, request, harmed⟩ := State.firesAt_armed hf
    rw [State.commitStage_fires hf harmed, State.fire_eq]
    exact EventUnit.raise_bit _ _ _

section
variable {plan : ChainPlan} (hp : plan.falls = []) (s : State) (cls : DeliveryClass) (frame : Option ReceivedFrame)
include hp

/-- The tables that the fade and pass of a delivery find (R31 stages 1 and 2). -/
theorem State.settled_table : (s.settled cls frame).table = s.committed (s.deliver plan cls frame).rx.localFrame := by
  obtain ⟨htable, hstaging, hnow⟩ := State.commitStage_finds hp s cls frame
  have h : (s.settled cls frame).table = ((s.settleLink cls frame).laneDeliver cls frame).committed _ := State.commitStage_table _
  rw [h, State.committed, State.firesAt_of_staging hstaging, htable, hstaging, hnow]
  rfl

theorem State.deliver_staging : (s.deliver plan cls frame).staging = ((s.settleLink cls frame).laneDeliver cls frame).commitStage.staging := by
  rw [State.deliver_eq hp]
  exact (PassKeeps.fadeAndPass hp _ _).staging

/-- COMMIT_DONE in a delivery (R127). -/
theorem State.deliver_bit4 :
    (s.deliver plan cls frame).events.summary.getLsbD 4 =
      (s.events.summary.getLsbD 4 || s.firesAt (s.deliver plan cls frame).rx.localFrame) := by
  obtain ⟨-, hstaging, hnow⟩ := State.commitStage_finds hp s cls frame
  have hlane := (LaneKeeps.laneDeliver (s.settleLink cls frame) cls frame).bits 4 (by decide)
  rw [← hnow, ← State.firesAt_of_staging hstaging, ← s.settleLink_bit cls frame (i := 4) (by decide), ← hlane, ← State.commitStage_bit4,
    State.deliver_eq hp]
  exact (PassKeeps.fadeAndPass hp _ _).bits 4 (by decide) (by decide)

end

/-! ### The pass (R80, R101, R109) -/

/-- What the fade's step leaves to the pass. -/
theorem State.fadeStep_keeps (s : State) :
    s.fadeStep.table = s.table ∧ s.fadeStep.lanes = s.lanes ∧ s.fadeStep.tx = s.tx ∧ s.fadeStep.store = s.store ∧ s.fadeStep.rx = s.rx ∧
      s.fadeStep.intake = s.intake ∧ s.fadeStep.events.summary.getLsbD 3 = s.events.summary.getLsbD 3 := by
  rw [State.fadeStep_eq]
  refine ⟨rfl, rfl, rfl, rfl, rfl, rfl, ?_⟩
  simp only [State.withEvents_events]
  split
  · rw [EventUnit.raise_bit]
    exact Bool.or_false _
  · rfl

/-- A pass that starts works every mix, whatever the order (R80), publishes the pairs (R101) and raises MIX_FAULT for a capture (R109). -/
theorem State.startPass_whole {plan : ChainPlan} (hp : plan.falls = []) {s : State} (hq : s.intake.power ≠ .quiet) (hm : s.table.mixes.length = 16)
    (hh : s.lanes.held.length = 16) :
    (s.startPass plan).table.mixes = s.table.mixes.map (·.pass s.passInput) ∧
      (s.startPass plan).table.free + (s.startPass plan).table.entries = s.table.free + s.table.entries ∧
      (s.startPass plan).lanes = { s.lanes with held := (s.startPass plan).table.mixes.map fun m => (m.yL, m.yR) } ∧
      (s.startPass plan).tx.passRan = true ∧
      (s.startPass plan).events.summary.getLsbD 3 = (s.events.summary.getLsbD 3 || s.table.mixes.any (·.passCaptures s.passInput)) := by
  rw [State.startPass_runs hq hp]
  have passed := Passed.all (mixOrder_nodup plan) (s := s.withTx { s.tx with passRan := true })
    (fun k hk => (mixOrder_lt hk).trans_eq hm.symm) s.passInput
  obtain ⟨hmixes, hheld, hcaptures⟩ := passed.whole (mixOrder_perm plan) hm hh
  refine ⟨hmixes, passed.balance, ?_, ?_, ?_⟩
  · rw [← hheld, passed.eq]
    rfl
  · rw [passed.eq]
    rfl
  · rw [passed.bits, hcaptures]
    rfl

theorem State.deliver_power {plan : ChainPlan} (hp : plan.falls = []) (s : State) (cls : DeliveryClass) (frame : Option ReceivedFrame) :
    (s.deliver plan cls frame).intake.power = if (s.settled cls frame).reportsShut then .quiet else s.intake.power := by
  obtain ⟨-, -, -, -, hpower, -⟩ := s.settled_keeps cls frame
  rw [State.deliver_eq hp, ← hpower]
  exact State.fadeAndPass_power hp _ _

theorem State.reportsShut_power {s : State} (h : s.reportsShut = true) : s.intake.power = .quiescing := by
  simp only [State.reportsShut, Bool.and_eq_true, beq_iff_eq] at h
  exact h.2

/-- A delivery whose fade does not report SHUT: its blocks are those that the pass over the settled unit leaves. -/
theorem State.deliver_runs {plan : ChainPlan} (hp : plan.falls = []) {s : State} {cls : DeliveryClass} {frame : Option ReceivedFrame}
    (h : (s.settled cls frame).reportsShut = false) :
    s.deliver plan cls frame = ((s.settled cls frame).fadeStep.startPass plan).holdDelivered cls frame := by
  rw [State.deliver_eq hp, State.fadeAndPass_runs hp h]

/-- What the pass of a delivery reads (R82). -/
theorem State.settled_passInput {plan : ChainPlan} (hp : plan.falls = []) (s : State) (cls : DeliveryClass) (frame : Option ReceivedFrame) :
    (s.settled cls frame).fadeStep.passInput =
      { store := (s.deliver plan cls frame).store, coeff := (s.deliver plan cls frame).fade.coeff, frame := (s.deliver plan cls frame).rx.localFrame } := by
  have hfade := State.fadeAndPass_fade hp (s.settled cls frame) (s.begunAtDelivery frame.isSome)
  have keeps := PassKeeps.fadeAndPass hp (s.settled cls frame) (s.begunAtDelivery frame.isSome)
  simp only [State.passInput, State.fadeStep_eq, State.withEvents_store, State.withFade_store, State.withEvents_fade, State.withFade_fade,
    State.withEvents_rx, State.withFade_rx, State.deliver_eq hp, State.holdDelivered, State.withTb_store, State.withTx_store, State.withTb_fade,
    State.withTx_fade, State.withTb_rx, State.withTx_rx, hfade, keeps.store, keeps.rx]

/-- Settles O12: the slot is tested once, against the number just settled, and the pass works the tables that the commit leaves. -/
theorem deliveryCommitsAndPasses : Obligations.DeliveryCommitsAndPasses := by
  refine ⟨fun s i cls hd => ?_, fun s i cls hd hm hh => ?_⟩
  all_goals obtain ⟨hexec, hp, -⟩ := exec_delivers hd
  · obtain ⟨htable, hstaging, hnow⟩ := State.commitStage_finds hp s cls (frameOf i)
    refine ⟨_, hexec, State.deliver_bit4 hp _ _ _, ?_⟩
    rw [State.deliver_staging hp]
    rw [← State.firesAt_of_staging hstaging, ← hnow]
    split
    next hf =>
      obtain ⟨trigger, request, harmed⟩ := State.firesAt_armed hf
      refine ⟨trigger, request, by rw [← hstaging, harmed], ?_⟩
      rw [State.commitStage_fires hf harmed, State.fire_eq, ← htable, ← hstaging]
      rfl
    next hf => rw [State.commitStage_idle (by simpa using hf), hstaging]
  · refine ⟨_, hexec, ?_⟩
    obtain ⟨-, -, hlanes, htx, hpower, -⟩ := s.settled_keeps cls (frameOf i)
    obtain ⟨ftable, flanes, ftx, -, -, fintake, fbit⟩ := (s.settled cls (frameOf i)).fadeStep_keeps
    rw [State.settled_table hp] at ftable
    have hbit := s.settled_bit cls (frameOf i) (i := 3) (by decide) (by decide)
    refine ⟨fun hrun => ?_, fun hquiet => ?_⟩
    · have hshut : (s.settled cls (frameOf i)).reportsShut = false := by
        by_contra hshut
        rw [Bool.not_eq_false] at hshut
        rw [State.deliver_power hp, if_pos hshut, ← hpower, State.reportsShut_power hshut] at hrun
        simp at hrun
      have hnot : (s.settled cls (frameOf i)).fadeStep.intake.power ≠ .quiet := by
        rw [State.deliver_power hp, hshut] at hrun
        rw [fintake, hpower]
        intro hq
        simp [hq] at hrun
      obtain ⟨hmixes, hbalance, hheld, hran, hcapture⟩ := State.startPass_whole hp hnot
        (by rw [ftable, State.committed_length, hm]) (by rw [flanes, hlanes, hh])
      rw [State.settled_passInput hp, ftable] at hmixes hcapture
      rw [ftable] at hbalance
      rw [flanes, hlanes] at hheld
      rw [fbit, hbit] at hcapture
      have e := State.deliver_runs hp hshut
      generalize s.deliver s.plan cls (frameOf i) = t at *
      subst e
      exact ⟨hmixes, hbalance, hheld, hran, hcapture⟩
    · have hshut : (s.settled cls (frameOf i)).reportsShut = false := by
        by_contra hshut
        rw [Bool.not_eq_false] at hshut
        have := State.reportsShut_power hshut
        rw [hpower, hquiet] at this
        cases this
      have e := State.deliver_runs hp hshut
      rw [State.startPass_quiet (by rw [fintake, hpower, hquiet])] at e
      generalize s.deliver s.plan cls (frameOf i) = t at *
      subst e
      exact ⟨ftable, flanes.trans hlanes, by rw [← htx, ← ftx]; rfl, fbit.trans hbit⟩

end Sys2Proof.Machine
end

section
/-!
PROOFS. The delivery at which POWER QUIET completes (R28, R32, R140, R167).
-/

namespace Sys2Proof.Machine

/-- The positions that QUIET silences, by the bit-times since the frame event (R137, R140, log 28). -/
theorem silenceFrom_begunAfter (time : Nat) :
    silenceFrom (begunAfter time) = fun values => values.zipIdx.map fun x => if 256 * (x.2 % 8) ≤ time then x.1 else 0 := by
  funext values
  refine List.map_congr_left fun x _ => ?_
  have h : x.2 % 8 < begunAfter time ↔ 256 * (x.2 % 8) ≤ time := by
    rw [begunAfter_eq]
    omega
  simp only [h]

theorem ReceivedFrame.cls_ne_nothing (f : ReceivedFrame) : f.cls ≠ .nothing := by
  unfold ReceivedFrame.cls
  split
  · exact nofun
  · split <;> exact nofun

/-- The bit-times from the begin of the period to a delivery step's delivery (R8). -/
theorem State.deliveryTime_of_delivers {s : State} {i : Instr} {cls : DeliveryClass} (h : s.delivers i cls) :
    s.deliveryTime (frameOf i).isSome =
      if cls = .nothing then min 1664 (s.tb.periodEnd - s.tb.periodStart) else s.rx.accepted.getD 0 + 1664 - s.tb.periodStart := by
  unfold State.delivers at h
  split at h
  · obtain ⟨⟨-, -, pos, hpos, -⟩, -, rfl⟩ := h
    rw [if_neg (ReceivedFrame.cls_ne_nothing _)]
    simp only [frameOf, Option.isSome_some, State.deliveryTime, hpos, Option.getD_some, Config.trailerEnd]
  · obtain ⟨-, -, rfl⟩ := h
    rfl
  · exact h.elim

/-- The fade in QUIESCING reports SHUT at the step that brings f to 0 (R28). -/
theorem State.reportsShut_of_closing {s : State} (hp : s.intake.power = .quiescing) (hs : s.fade.state = .closing) (hc : s.fade.coeff ≤ 128) :
    s.reportsShut = true := by
  have htest : Fade.test s.fade.state s.store.bad s.store.good s.intake.power = .closing := by simp [Fade.test, hs, hp]
  rw [State.reportsShut, Fade.shuts, htest, Fade.next_closing hs _ _ (show s.intake.power ≠ .run by simp [hp]), if_pos hc, hp]
  rfl

/-- What POWER QUIET's completion leaves, whichever order R32 takes with the pass. -/
structure QuietCompleted (s u : State) (c : Command) (begun : Nat) : Prop where
  power : u.intake.power = .quiet
  executing : u.intake.executing = none
  table : u.table = s.table ∨
    u.table.mixes = s.table.mixes.map (·.pass s.fadeStep.passInput) ∧ u.table.free + u.table.entries = s.table.free + s.table.entries
  lanes : u.lanes = s.lanes.quiet begun
  replies : u.replies =
    { messages := s.replies.messages ++ [{ isNotice := false, octets := replyTo c s.lane.unit (powerAnswer .run .quiet) }]
      reserved := s.replies.reserved - 1 }

theorem QuietCompleted.fadeAndPass {plan : ChainPlan} (hp : plan.falls = []) {s : State} {c : Command} (begun : Nat) (hr : s.reportsShut = true)
    (hc : s.intake.executing = some c) (hm : s.table.mixes.length = 16) (hh : s.lanes.held.length = 16) :
    QuietCompleted s (s.fadeAndPass plan begun) c begun := by
  obtain ⟨ftable, flanes, -, -, -, fintake, -⟩ := s.fadeStep_keeps
  have freplies : s.fadeStep.replies = s.replies := by rw [State.fadeStep_eq]; rfl
  have flane := (PassKeeps.fadeStep s).lane
  have hexec : s.fadeStep.intake.executing = some c := by rw [fintake, hc]
  unfold State.fadeAndPass
  simp only [hr, if_true, State.fallsAt_none hp]
  generalize hd : s.fadeStep.withFreeIdx (s.freeIdx + 1) = d
  have hdpower : d.intake.power ≠ .quiet := by
    subst hd
    simp [fintake, State.reportsShut_power hr]
  split
  · have hdexec : d.intake.executing = some c := by subst hd; exact hexec
    have hpower := (State.completeQuiet_keeps d begun).2.2.2.2.2.2
    rw [State.startPass_quiet hpower, State.completeQuiet_eq hdexec]
    subst hd
    exact
      { power := rfl, executing := rfl, table := .inl ftable
        lanes := by rw [← flanes]; rfl
        replies := by rw [← freplies, ← flane]; rfl }
  · obtain ⟨-, pintake, preplies, -⟩ := State.startPass_keeps hp d
    have plane := (PassKeeps.startPass hp d).lane
    obtain ⟨hmixes, hbalance, hlanes, -⟩ := State.startPass_whole hp hdpower (by subst hd; exact ftable ▸ hm) (by subst hd; exact flanes ▸ hh)
    have hdexec : (d.startPass plan).intake.executing = some c := by rw [pintake]; subst hd; exact hexec
    rw [State.completeQuiet_eq hdexec]
    subst hd
    refine { power := rfl, executing := rfl, table := .inr ⟨?_, ?_⟩, lanes := ?_, replies := ?_ }
    · simpa only [State.withReplies_table, State.withBegun_table, State.withLanes_table, State.withIntake_table, State.withFreeIdx_table, ftable,
        State.passInput, State.withFreeIdx_store, State.withFreeIdx_fade, State.withFreeIdx_rx] using hmixes
    · simpa only [State.withReplies_table, State.withBegun_table, State.withLanes_table, State.withIntake_table, State.withFreeIdx_table, ftable] using hbalance
    · simp only [State.withReplies_lanes, State.withBegun_lanes, State.withLanes_lanes, hlanes, OutputLanes.quiet, State.withFreeIdx_lanes, flanes]
    · simp only [State.withReplies_replies, preplies, plane, State.withFreeIdx_replies, State.withFreeIdx_lane, freplies, flane]

/-- Settles O13: the step reports SHUT, and the completion leaves the same in both orders of R32 but for the last pass. -/
theorem quietCompletesAtShut : Obligations.QuietCompletesAtShut := by
  intro s i cls c hd hpower hexec hs hf hm hh
  obtain ⟨hrow, hp, -⟩ := exec_delivers hd
  obtain ⟨kreplies, kfade, klanes, -, kpower, kexec, -⟩ := s.settled_keeps cls (frameOf i)
  have htable := State.settled_table hp s cls (frameOf i)
  have hshut : (s.settled cls (frameOf i)).reportsShut = true :=
    State.reportsShut_of_closing (kpower.trans hpower) (by rw [kfade, hs]) (by rw [kfade]; exact hf)
  have q := QuietCompleted.fadeAndPass hp (s.begunAtDelivery (frameOf i).isSome) hshut (kexec.trans hexec)
    (by rw [htable, State.committed_length, hm]) (by rw [klanes, hh])
  have hfade : (s.deliver s.plan cls (frameOf i)).fade = { s.fade with state := .shut, coeff := 0 } := by
    rw [State.deliver_fade hp, Fade.next_closing hs _ _ (show s.intake.power ≠ .run by simp [hpower]), if_pos hf, Nat.sub_eq_zero_of_le hf]
  have hbit := State.deliver_bit2 hp s cls (frameOf i)
  have hlane := (PassKeeps.fadeAndPass hp (s.settled cls (frameOf i)) (s.begunAtDelivery (frameOf i).isSome)).lane
  obtain ⟨qpower, qexec, qtable, qlanes, qreplies⟩ := q
  rw [State.settled_passInput hp, htable, hfade] at qtable
  rw [kreplies, ← hlane] at qreplies
  refine ⟨_, hrow, ?_⟩
  have e := State.deliver_eq hp s cls (frameOf i)
  generalize s.deliver s.plan cls (frameOf i) = t at *
  subst e
  refine ⟨qpower, qexec, hfade, qtable, ?_, qreplies, ?_⟩
  · refine qlanes.trans ?_
    rw [klanes]
    unfold State.begunAtDelivery OutputLanes.quiet
    rw [silenceFrom_begunAfter, State.deliveryTime_of_delivers hd]
  · rw [hbit, hpower]
    simp

end Sys2Proof.Machine
end

section
/-!
PROOFS. The mix pass of one mix, stage by stage (05_the_mix_pass.md).
-/

namespace Sys2Proof.Machine

/-! ### Ramps (R83) -/

/-- Each pass takes one step off the distance to the target. -/
theorem ramp_iterate_distance (t e n x : Nat) :
    max ((fun y => ramp y t e)^[n] x) t - min ((fun y => ramp y t e)^[n] x) t = (max x t - min x t) - n * e := by
  induction n generalizing x with
  | zero => simp
  | succ n ih => rw [Function.iterate_succ_apply, ih, ramp_distance, Nat.succ_mul, Nat.sub_sub, Nat.add_comm e]

/-- Settles O15: the distance falls by the step in each pass, and a ramp is at its target where the distance is 0. -/
theorem rampRule : Obligations.RampRule := by
  intro x t e
  refine ⟨rfl, le_ramp x t e, ramp_le x t e, fun n _ => ?_⟩
  have := ramp_iterate_distance t e n x
  omega

/-! ### Entries (R38, R44, R84, R86) -/

theorem Entry.silenced_iff (e : Entry) (mutes : Mask8) :
    e.silenced mutes = true ↔ e.state = .retiring ∨ e.mute = true ∨ (e.group.any fun k => mutes.getLsbD k) = true := by
  unfold Entry.silenced
  cases e.group <;> simp [or_assoc]

/-- An entry stays in the list while it is LIVE or one of its sides still sounds (R44). -/
theorem Entry.not_completes (e : Entry) : (!e.completes) = decide (e.state = .live ∨ 0 < e.cL ∨ 0 < e.cR) := by
  rw [Bool.eq_iff_iff]
  unfold Entry.completes
  cases e.state <;> simp
  omega

/-- Settles O17: the ramps and retire completion of one mix, and the one mix that a mix's action works. -/
theorem passMovesEntries : Obligations.PassMovesEntries := by
  refine ⟨fun m input => ?_, fun t k input hk => ⟨MixTable.passMix_balance hk input, MixTable.passMix_mix hk input⟩⟩
  rw [Mix.pass_list, Mix.prepare_list]
  simp only [Entry.not_completes, Entry.ramped, Entry.target, Entry.silenced_iff]

/-! ### The talk detector and the duck (R72 to R74, R85) -/

theorem talkDetected_iff (st : SourceStore) (k threshold : Nat) :
    talkDetected st k threshold = true ↔ (st.source k).age = 0 ∧ threshold ≤ (st.source k).sample.natAbs := by
  simp [talkDetected, Source.stale]

/-- The hold counter and the duck state after the detector's stage (R72, R73). -/
theorem Mix.detect_state (m : Mix) (st : SourceStore) :
    ((m.detect st).hold, (m.detect st).engaged) =
      match m.cfg.talk with
      | none => (m.hold, m.engaged)
      | some k =>
        if m.cfg.enabled = false then (m.hold, m.engaged)
        else if (st.source k).age = 0 ∧ m.cfg.threshold ≤ (st.source k).sample.natAbs then (m.cfg.holdTime, true)
        else (m.hold - 1, decide (1 < m.hold)) := by
  unfold Mix.detect
  cases m.cfg.talk with
  | none => rfl
  | some k =>
    cases m.cfg.enabled with
    | false => rfl
    | true =>
      simp only [if_true, Mix.detectRun_eq, talkDetected_iff, Bool.true_eq_false, if_false]
      split <;> rfl

/-- The duck current's step: down by the attack step, up by the release step, never past the target (R83, R85). -/
theorem Mix.duckRamped_eq (m : Mix) :
    m.duckRamped =
      if m.duckTarget < m.duck then max m.duckTarget (m.duck - m.cfg.attack)
      else if m.duck < m.duckTarget then min m.duckTarget (m.duck + m.cfg.release) else m.duck := by
  unfold Mix.duckRamped ramp
  rcases lt_trichotomy m.duck m.duckTarget with h | h | h
  · rw [if_pos h, if_neg h.not_gt, if_neg h.not_gt, if_pos h]
  · simp only [h, lt_irrefl, if_false]
  · rw [if_neg h.not_gt, if_pos h, if_pos h, if_pos h]

/-- Settles O18: the detector's stage, and the two ramps after it. -/
theorem passDetectsTalkAndDucks : Obligations.PassDetectsTalkAndDucks := by
  intro m input
  refine ⟨?_, ?_, ?_, Mix.pass_cfg m input⟩
  · refine Eq.trans ?_ (m.detect_state input.store)
    rw [Mix.pass_hold, Mix.pass_engaged]
  · rw [Mix.pass_mc, Mix.prepare_mc]
  · rw [Mix.pass_duck, Mix.prepare_duck, Mix.duckRamped_eq, Mix.pass_engaged, Mix.detect_duck, Mix.detect_cfg, Mix.duckTarget, Mix.detect_cfg]

/-! ### The sums and the scaling (R87, R88, R90) -/

theorem sum_filter_weighted {α : Type} (l : List α) (p : α → Bool) (f : α → Int) (a b : Int) :
    ((l.filter (!p ·)).map f).sum * a + ((l.filter p).map f).sum * b = (l.map fun e => f e * if p e then b else a).sum := by
  induction l with
  | nil => simp
  | cons e l ih =>
    rw [List.map_cons, List.sum_cons, ← ih]
    cases h : p e
    · simp only [List.filter_cons, h, Bool.not_false, if_true, Bool.false_eq_true, if_false, List.map_cons, List.sum_cons]
      ring
    · simp only [List.filter_cons, h, Bool.not_true, if_true, Bool.false_eq_true, if_false, List.map_cons, List.sum_cons]
      ring

/-- The bus sum of a side as one sum over the list: the talk entry weighs 4096, every other entry d (R87, R88). -/
theorem Mix.busSum_eq (m : Mix) (st : SourceStore) (current : Entry → Nat) :
    m.busSum st current =
      (m.list.map fun e => (st.source e.source).sample * (current e : Int) * if m.cfg.talk = some e.source then 4096 else (m.duck : Int)).sum := by
  unfold Mix.busSum Mix.sumRest Mix.sumTalk
  rw [sum_filter_weighted]
  simp only [Mix.isTalk, beq_iff_eq]
  rfl

/-- The first pass after an enable transition publishes 0: its r is 0 (R102, log 27). -/
theorem Mix.findings_of_justEnabled {m : Mix} (h : m.justEnabled = true) (input : PassInput) :
    (m.findings input).yL = 0 ∧ (m.findings input).yR = 0 := by
  have zero (mode : Rounding) (lg : Nat) : roundQuotient mode ((0 : Int) * lg) 4096 = 0 := by
    have := roundQuotient_exact mode 0 (d := 4096) (by decide)
    simpa using this
  have hL : (m.findings input).rL = 0 := if_pos h
  have hR : (m.findings input).rR = 0 := if_pos h
  rw [findings_yL, findings_yR, hL, hR, zero]
  exact ⟨clampTo_within (by omega) (by omega), clampTo_within (by omega) (by omega)⟩

/-- Settles O19: the sums of stage 4 and the scaling of stage 5, over what stages 1 to 3 leave. -/
theorem passSumsAndScales : Obligations.PassSumsAndScales := by
  intro m input
  have scaled (s : Int) : (m.prepare input.store).scaled input.coeff s =
      if m.justEnabled = true then 0 else roundQuotient m.cfg.rounding (s * (m.prepare input.store).mc * input.coeff) (2 ^ 48) := by
    rw [Mix.scaled, Mix.prepare_justEnabled, Mix.prepare_cfg]
    rfl
  refine ⟨?_, ?_, scaled _, scaled _, fun he hj => ?_, Mix.pass_justEnabled m input, fun _ => ⟨Mix.pass_list m input, Mix.pass_mc m input, Mix.pass_duck m input⟩⟩
  · rw [← Mix.prepare_cfg m input.store]
    exact Mix.busSum_eq _ _ _
  · rw [← Mix.prepare_cfg m input.store]
    exact Mix.busSum_eq _ _ _
  · simp only [Mix.pass_enabled he]
    exact Mix.findings_of_justEnabled (by rwa [Mix.prepare_justEnabled]) input

/-! ### The limiter (R93, R94) -/

/-- Settles O20: Lcap is the largest gain the ceiling admits, and a pass leaves the gain that R94 gives. -/
theorem limiterHoldsPeak : Obligations.LimiterHoldsPeak := by
  refine ⟨fun c a b => ⟨limiterCap_le c a b, limiterCap_holds c a b, fun g => limiterCap_largest c a b⟩, fun m input => ?_⟩
  have hgain : (m.pass input).lg = if m.cfg.enabled = false then 4096 else
      limiterGain m.lg (limiterCap m.cfg.ceiling ((m.prepare input.store).findings input).rL ((m.prepare input.store).findings input).rR)
        m.cfg.limRelease := by
    cases he : m.cfg.enabled with
    | true => simp only [Mix.pass_enabled he, Mix.findings_lgAfter, Mix.prepare_cfg, Mix.prepare_lg, Bool.true_eq_false, if_false]
    | false => simp only [Mix.pass_disabled he, if_true]
  refine ⟨hgain, fun hm => ?_⟩
  obtain ⟨-, -, -, -, -, hlg, -⟩ := hm
  have hbounds := limiterGain_bounds (limiterCap m.cfg.ceiling ((m.prepare input.store).findings input).rL ((m.prepare input.store).findings input).rR)
    m.cfg.limRelease hlg (limiterCap_le _ _ _)
  rw [hgain]
  cases he : m.cfg.enabled with
  | true => simpa only [Bool.true_eq_false, if_false] using ⟨hbounds.1, hbounds.2, fun _ hcap => limiterGain_le _ hcap⟩
  | false => simp

/-! ### The flags and the capture (R89, R95, R99, R106 to R112) -/

theorem Mix.findings_stale_iff (m : Mix) (input : PassInput) :
    (m.findings input).flags.stale = true ↔ ∃ e ∈ m.list, (0 < e.cL ∨ 0 < e.cR) ∧ 0 < (input.store.source e.source).age := by
  show m.staleFound input.store = true ↔ _
  simp [Mix.staleFound, Source.stale]

theorem Mix.findings_headroom_iff (m : Mix) (input : PassInput) :
    (m.findings input).flags.headroom = true ↔
      (m.findings input).sL < -(2 : Int) ^ 47 ∨ (2 : Int) ^ 47 ≤ (m.findings input).sL ∨
        (m.findings input).sR < -(2 : Int) ^ 47 ∨ (2 : Int) ^ 47 ≤ (m.findings input).sR := by
  show (overRange (m.findings input).sL || overRange (m.findings input).sR) = true ↔ _
  simp [overRange, or_assoc]

theorem Mix.findings_lgBefore (m : Mix) (input : PassInput) : (m.findings input).lgBefore = m.lg := rfl

theorem Mix.report_accrued (m : Mix) (p : PassFindings) (frame : FrameNo) : (m.report p frame).accrued = m.accrued.union p.flags := rfl

/-- A capture is taken from an EMPTY record where the enabled finding is not empty (R109 to R112). -/
theorem Mix.report_capture (m : Mix) (p : PassFindings) (frame : FrameNo) :
    (m.report p frame).capture =
      if m.capture = none ∧ (p.flags.headroom && m.cfg.enables.headroom || p.flags.stale && m.cfg.enables.stale ||
          p.flags.limit && m.cfg.enables.limit || p.flags.clamp && m.cfg.enables.clamp) = true then
        some
          { frame := frame, flags := p.flags
            stage := if (p.flags.limit && m.cfg.enables.limit || p.flags.clamp && m.cfg.enables.clamp) = true then .output else .bus
            sL := p.sL, sR := p.sR, rL := p.rL, rR := p.rR, lgBefore := p.lgBefore, lgAfter := p.lgAfter, yL := p.yL, yR := p.yR }
      else m.capture := by
  have h : (m.captures p.flags = true) = (m.capture = none ∧ (p.flags.headroom && m.cfg.enables.headroom || p.flags.stale && m.cfg.enables.stale ||
      p.flags.limit && m.cfg.enables.limit || p.flags.clamp && m.cfg.enables.clamp) = true) := by
    unfold Mix.captures Flags.any Flags.inter
    rw [Bool.and_eq_true, Option.isNone_iff_eq_none, and_comm]
  simp only [← h]
  rfl

/-- Settles O22: the four findings, and the report of stage 10. -/
theorem passReportsFlags : Obligations.PassReportsFlags := by
  intro m input
  refine ⟨Mix.findings_headroom_iff _ _, Mix.findings_stale_iff _ _, decide_eq_true_iff, fun he => ?_, fun he => ?_⟩
  · simp only [Mix.pass_enabled he, Mix.report_capture, Mix.report_accrued, Mix.prepare_accrued, Mix.prepare_capture, Mix.prepare_cfg, Mix.findings_lgBefore,
      Mix.prepare_lg]
    exact ⟨rfl, rfl, trivial⟩
  · simp only [Mix.pass_disabled he]
    exact ⟨rfl, Mix.prepare_accrued _ _, Mix.prepare_capture _ _⟩

end Sys2Proof.Machine
end

section
/-!
PROOFS. The stages of a delivery as rows of their own (log 4): TALK_HOLD_EXPIRY, COMMIT_FIRE and POWER_QUIET_COMPLETE.
-/

namespace Sys2Proof.Machine

/-- TALK_HOLD_EXPIRY's condition, by the talk source (R72, R73). -/
theorem State.talkHoldEnds_eq (s : State) (k : Nat) :
    decide (s.intake.power ≠ .quiet ∧ (s.table.mix k).holdExpires s.store = true) =
      match (s.table.mix k).cfg.talk with
      | some x =>
        decide
          (s.intake.power ≠ .quiet ∧ (s.table.mix k).cfg.enabled = true ∧ (s.table.mix k).hold = 1 ∧
            ¬((s.store.source x).age = 0 ∧ (s.table.mix k).cfg.threshold ≤ (s.store.source x).sample.natAbs))
      | none => false := by
  unfold Mix.holdExpires
  cases (s.table.mix k).cfg.talk with
  | none => simp
  | some x =>
    rw [decide_eq_decide]
    simp only [← talkDetected_iff, Bool.and_eq_true, Bool.not_eq_true', beq_iff_eq, Bool.not_eq_true]
    tauto

/-- The run of the detector at which the hold expires (R73). -/
theorem Mix.detect_of_holdExpires {m : Mix} {st : SourceStore} (h : m.holdExpires st = true) : m.detect st = { m with hold := 0, engaged := false } := by
  unfold Mix.holdExpires at h
  unfold Mix.detect
  cases ht : m.cfg.talk with
  | none => rw [ht] at h; cases h
  | some x =>
    simp only [ht, Bool.and_eq_true, Bool.not_eq_true', beq_iff_eq] at h ⊢
    obtain ⟨⟨he, hd⟩, hh⟩ := h
    simp [he, Mix.detectRun_eq, hd, hh]

theorem exec_talkHoldExpiry {s : State} (k : Nat) (hr : s.resetHeld = false) :
    exec (.talkHoldExpiry k) s =
      .next (if s.intake.power ≠ .quiet ∧ (s.table.mix k).holdExpires s.store = true then
        s.withTable (s.table.setMix k ((s.table.mix k).detect s.store)) else s) :=
  congrArg Host.Outcome.next (whileReleased_released hr _)

theorem exec_commitFire {s : State} (hr : s.resetHeld = false) : exec .commitFire s = .next s.commitStage :=
  congrArg Host.Outcome.next (whileReleased_released hr _)

theorem exec_powerQuietComplete {s : State} (hr : s.resetHeld = false) :
    exec .powerQuietComplete s =
      .next (if s.intake.power = .quiescing ∧ s.fade.state = .shut then (s.completeQuiet s.drawBegun).withFreeIdx (s.freeIdx + 1) else s) :=
  congrArg Host.Outcome.next (whileReleased_released hr _)

/-- Settles O23: each row is its stage of a delivery, under the stage's own condition. -/
theorem stageRowsAct : Obligations.StageRowsAct := by
  refine ⟨fun s k hr => ?_, fun s hr => ⟨fun h => ?_, fun trigger request h hs => ?_⟩, fun s hr => ⟨fun h => ?_, fun hp hf => ?_⟩⟩
  · rw [exec_talkHoldExpiry k hr]
    refine congrArg Host.Outcome.next (if_ctx_congr (decide_eq_true_iff.symm.trans (Bool.eq_iff_iff.mp (s.talkHoldEnds_eq k))) (fun h => ?_) fun _ => rfl)
    rw [Mix.detect_of_holdExpires (of_decide_eq_true ((s.talkHoldEnds_eq k).trans h)).2]
    rfl
  · rw [exec_commitFire hr, State.commitStage_idle h]
  · rw [exec_commitFire hr, State.commitStage_fires h hs, State.fire_eq]
    rfl
  · rw [exec_powerQuietComplete hr, if_neg h]
  · obtain ⟨hlow, hhigh, hmost⟩ := s.drawBegun_bounds
    refine ⟨s.drawBegun, hlow, hhigh, hhigh.trans hmost, ?_⟩
    rw [exec_powerQuietComplete hr, if_pos ⟨hp, hf⟩]
    unfold State.completeQuiet
    cases he : s.intake.executing with
    | some c => rfl
    | none =>
      have hi : { s.intake with power := PowerState.quiet } = { s.intake with power := PowerState.quiet, executing := none } := by rw [← he]
      dsimp only [State.enterQuiet]
      rw [hi]
      rfl

end Sys2Proof.Machine
end

section
/-!
PROOFS. The operations on a contribution list and the pool (R39 to R43), and the counts of a firing (R127 to R129).
-/

namespace Sys2Proof.Machine

/-! ### Set entry (R39 to R41) -/

/-- A set on a list that holds the source: the values in place, LIVE, the currents as they were (R39, R40). -/
theorem MixTable.setEntry_present {t : MixTable} {k : Nat} {v : EntryValues} {e : Entry} (he : entryFor (t.mix k).list v.source = some e) :
    t.setEntry k v =
      some (t.setMix k { t.mix k with list := updateEntry v.source (·.write v) (t.mix k).list }, if e.state = .live then .replaced else .revived) := by
  rcases t.setEntry_cases k v with ⟨e', he', hs⟩ | ⟨hn, -⟩ | ⟨hn, -⟩
  · cases he.symm.trans he'
    exact hs
  · cases he.symm.trans hn
  · cases he.symm.trans hn

/-! ### Retire entry and clear mix (R42, R43) -/

theorem updateEntry_retire (source : Nat) (l : List Entry) :
    updateEntry source Entry.retire l = l.map fun e => if e.source = source then { e with state := .retiring } else e := by
  simp only [updateEntry, Entry.retire, beq_iff_eq]

/-- An entry that is not in the list is not changed by a retire. -/
theorem updateEntry_absent {source : Nat} {l : List Entry} (h : entryFor l source = none) (f : Entry → Entry) : updateEntry source f l = l := by
  refine (List.map_congr_left fun e he => ?_).trans (List.map_id _)
  rw [beq_eq_false_iff_ne.mpr (entryFor_none.mp h e he)]
  rfl

/-- What a retire does to the list and how it counts the source (R42). -/
theorem MixTable.retireEntry_eq (t : MixTable) (k source : Nat) :
    t.retireEntry k source =
      match entryFor (t.mix k).list source with
      | none => (t, .absent)
      | some e =>
        if e.state = .live then (t.setMix k { t.mix k with list := updateEntry source Entry.retire (t.mix k).list }, .retired) else (t, .already) := by
  unfold MixTable.retireEntry
  dsimp only
  cases entryFor (t.mix k).list source with
  | none => rfl
  | some e =>
    dsimp only
    cases e.state <;> rfl

theorem MixTable.retireEntry_kind (t : MixTable) (k source : Nat) :
    (t.retireEntry k source).2 =
      match entryFor (t.mix k).list source with
      | none => .absent
      | some e => if e.state = .live then .retired else .already := by
  rw [MixTable.retireEntry_eq]
  cases entryFor (t.mix k).list source with
  | none => rfl
  | some e => dsimp only; split <;> rfl

theorem MixTable.retireEntry_free (t : MixTable) (k source : Nat) : (t.retireEntry k source).1.free = t.free := by
  rcases t.retireEntry_table k source with h | h <;> rw [h]
  rfl

theorem MixTable.retireEntry_other (t : MixTable) (k source : Nat) {j : Nat} (hj : j ≠ k) : (t.retireEntry k source).1.mix j = t.mix j := by
  rcases t.retireEntry_table k source with h | h <;> rw [h]
  exact setMix_other t hj _

/-- The mix after a retire: its list alone is another, every entry of the source RETIRING in it (R42). -/
theorem MixTable.retireEntry_mix {t : MixTable} {k : Nat} (hk : k < t.mixes.length) (hl : listSound (t.mix k).list) (source : Nat) :
    (t.retireEntry k source).1.mix k = { t.mix k with list := updateEntry source Entry.retire (t.mix k).list } := by
  rw [MixTable.retireEntry_eq]
  cases he : entryFor (t.mix k).list source with
  | none => rw [updateEntry_absent he]
  | some e =>
    dsimp only
    split
    next => exact setMix_mix hk _
    next hs =>
      rw [updateEntry_retire_self hl.1]
      intro x hx
      cases he.symm.trans hx
      cases hx : e.state
      · exact absurd hx hs
      · rfl

/-- Settles O24: by the cases of a set, and of a retire. -/
theorem setAndRetireOnList : Obligations.SetAndRetireOnList := by
  refine ⟨fun t k v hk hl hsource hgL hgR hgroup => ?_, fun t k source hk hl => ?_, fun t k hk => ?_⟩
  · have hv : v.sound := ⟨hsource, hgL, hgR, hgroup⟩
    rcases t.setEntry_cases k v with ⟨e, he, hs⟩ | ⟨hn, hf, hs⟩ | ⟨hn, hf, hs⟩ <;> rw [hs]
    · have source_kept : ∀ x : Entry, (x.write v).source = x.source := fun _ => rfl
      refine ⟨?_, ?_, fun x hx => ?_, fun j hj => MixTable.setMix_other t hj _⟩
      · rw [MixTable.setMix_mix hk]
        exact listSound_update hl _ source_kept fun x hx => Entry.write_sound hx hv
      · rw [MixTable.setMix_mix hk, entryFor_update _ _ source_kept, he, updateEntry_length]
        obtain ⟨-, hes⟩ := entryFor_mem he
        simp [Entry.write, hes]
      · rw [MixTable.setMix_mix hk]
        exact entryFor_update_other _ _ source_kept _ hx
    · have hmix : MixTable.mix { t.setMix k { t.mix k with list := insertEntry (Entry.create v) (t.mix k).list } with free := t.free - 1 } k =
          { t.mix k with list := insertEntry (Entry.create v) (t.mix k).list } := MixTable.setMix_mix hk _
      have hother (j : Nat) (hj : j ≠ k) :
          MixTable.mix { t.setMix k { t.mix k with list := insertEntry (Entry.create v) (t.mix k).list } with free := t.free - 1 } j = t.mix j :=
        MixTable.setMix_other t hj _
      refine ⟨?_, ?_, fun x hx => ?_, hother⟩
      · rw [hmix]
        exact listSound_insert hl (Entry.create_sound hv) hn
      · rw [hmix, hn, insertEntry_length, show v.source = (Entry.create v).source from rfl, entryFor_insert _ hn]
        refine ⟨rfl, rfl, ?_, rfl⟩
        show t.free - 1 + 1 = t.free
        omega
      · rw [hmix]
        exact entryFor_insert_other _ _ hx
    · exact ⟨hf, hn⟩
  · refine ⟨?_, MixTable.retireEntry_kind t k source, MixTable.retireEntry_free t k source, fun j hj => MixTable.retireEntry_other t k source hj⟩
    rw [MixTable.retireEntry_mix hk hl, ← updateEntry_retire]
  · exact ⟨MixTable.setMix_mix hk _, rfl, fun j hj => MixTable.setMix_other t hj _⟩

/-! ### The counts of a firing (R127 to R129) -/

/-- The records applied and skipped add up (R129). -/
theorem MixTable.applyEdits_total (t : MixTable) (queue : List StagedEdit) (position : Nat) (c : FiringCounts) :
    (t.applyEdits queue position c).2.applied + (t.applyEdits queue position c).2.skipped = c.applied + c.skipped + queue.length := by
  induction queue generalizing t position c with
  | nil => rfl
  | cons e rest ih =>
    simp only [MixTable.applyEdits, List.length_cons]
    split <;> rw [ih] <;> dsimp only <;> omega

theorem MixTable.applyEdits_skipped_le (t : MixTable) (queue : List StagedEdit) (position : Nat) (c : FiringCounts) :
    c.skipped ≤ (t.applyEdits queue position c).2.skipped := by
  induction queue generalizing t position c with
  | nil => exact le_rfl
  | cons e rest ih =>
    simp only [MixTable.applyEdits]
    split
    next u _ => exact ih u (position + 1) { c with applied := c.applied + 1 }
    next =>
      exact (Nat.le_succ _).trans
        (ih t (position + 1) { c with skipped := c.skipped + 1, first := if c.first.isNone then some position else c.first })

/-- A first skipped record, once noted, stays the first. -/
theorem MixTable.applyEdits_first_kept (t : MixTable) (queue : List StagedEdit) (position : Nat) {c : FiringCounts} {p : Nat} (h : c.first = some p) :
    (t.applyEdits queue position c).2.first = some p := by
  induction queue generalizing t position c with
  | nil => exact h
  | cons e rest ih =>
    simp only [MixTable.applyEdits]
    split
    · exact ih _ _ h
    · exact ih _ _ (by simp [h])

/-- The first skipped record of a firing: every record before it was applied, and it could not be. -/
theorem MixTable.applyEdits_first_iff (t : MixTable) (queue : List StagedEdit) (position : Nat) {c : FiringCounts} (hf : c.first = none) (p : Nat) :
    (t.applyEdits queue position c).2.first = some p ↔
      ∃ before e after, queue = before ++ e :: after ∧ p = position + before.length ∧ (t.applyEdits before position c).2.skipped = c.skipped ∧
        (t.applyEdits before position c).1.applyEdit e = none := by
  induction queue generalizing t position c with
  | nil => simp [MixTable.applyEdits, hf]
  | cons a rest ih =>
    simp only [MixTable.applyEdits]
    cases ha : t.applyEdit a with
    | some u =>
      dsimp only
      rw [ih u (position + 1) (c := { c with applied := c.applied + 1 }) hf]
      constructor
      · rintro ⟨before, e, after, rfl, rfl, hs, hn⟩
        refine ⟨a :: before, e, after, rfl, by simp only [List.length_cons]; omega, ?_, ?_⟩ <;> simpa only [MixTable.applyEdits, ha]
      · rintro ⟨before, e, after, hq, rfl, hs, hn⟩
        cases before with
        | nil =>
          obtain ⟨rfl, -⟩ := List.cons.inj hq
          rw [MixTable.applyEdits, ha] at hn
          cases hn
        | cons b before =>
          obtain ⟨rfl, rfl⟩ := List.cons.inj hq
          simp only [MixTable.applyEdits, ha] at hs hn
          exact ⟨before, e, after, rfl, by simp only [List.length_cons]; omega, hs, hn⟩
    | none =>
      dsimp only
      rw [MixTable.applyEdits_first_kept (p := position) _ _ _ (by simp [hf])]
      constructor
      · rintro ⟨⟩
        exact ⟨[], a, rest, rfl, rfl, rfl, ha⟩
      · rintro ⟨before, e, after, hq, rfl, hs, hn⟩
        cases before with
        | nil => rfl
        | cons b before =>
          obtain ⟨rfl, rfl⟩ := List.cons.inj hq
          simp only [MixTable.applyEdits, ha] at hs
          have := t.applyEdits_skipped_le before (position + 1)
            { c with skipped := c.skipped + 1, first := if c.first.isNone then some position else c.first }
          dsimp only at this
          omega

/-- Records are skipped exactly where a first skipped one is noted. -/
theorem MixTable.applyEdits_skipped_iff (t : MixTable) (queue : List StagedEdit) (position : Nat) {c : FiringCounts}
    (hc : c.skipped = 0 ↔ c.first = none) :
    (t.applyEdits queue position c).2.skipped = 0 ↔ (t.applyEdits queue position c).2.first = none := by
  induction queue generalizing t position c with
  | nil => exact hc
  | cons e rest ih =>
    simp only [MixTable.applyEdits]
    split
    · exact ih _ _ hc
    · refine ih _ _ ?_
      cases c.first <;> simp

/-- Settles O25: by induction over the queue. -/
theorem firingCountsRecords : Obligations.FiringCountsRecords := by
  intro t queue
  refine ⟨⟨?_, fun p => ?_, ?_⟩, t.applyEdit_none⟩
  · rw [MixTable.applyEdits_total]
    simp
  · rw [MixTable.applyEdits_first_iff t queue 1 rfl]
    simp only [Nat.add_comm 1]
  · exact MixTable.applyEdits_skipped_iff t queue 1 (by simp)

end Sys2Proof.Machine
end

section
/-!
PROOFS. ENUMERATE (R149, R152 to R155).
-/

namespace Sys2Proof.Machine

theorem exec_enumerate {s : State} (hr : s.resetHeld = false) (src tag n : Byte) (check : BitVec 16) :
    exec (.enumerate src tag n check) s = .next (s.laneFirst (enumerateOctets src tag n check)) :=
  congrArg Host.Outcome.next (whileReleased_released hr _)

/-- The check of an ENUMERATE message, read back from its octets. -/
theorem field_enumerateOctets (src tag n : Byte) (check : BitVec 16) :
    BitVec.ofNat 16 (field (enumerateOctets src tag n check) 6 2) = check := by
  have h : field (enumerateOctets src tag n check) 6 2 = fromBe (be 2 check.toNat) := rfl
  rw [h, fromBe_be, show 256 ^ 2 = 2 ^ 16 from rfl, Nat.mod_eq_of_lt check.isLt, BitVec.ofNat_toNat, BitVec.setWidth_eq]

theorem enumeratedUnit_isSome (n : Byte) : (enumeratedUnit n).isSome = true ↔ 1 ≤ n.toNat ∧ n.toNat ≤ 32 := by
  unfold enumeratedUnit
  split <;> simp_all

/-- A well-checked ENUMERATE's octets, passed on (R154): n + 1 and its check, or the message as it came. -/
theorem enumerateForward_good {src tag n : Byte} {check : BitVec 16} (h : messageCheck [0xFF, src, 0x82, tag, 1, n] = check) :
    enumerateForward (enumerateOctets src tag n check) =
      [0xFF, src, 0x82, tag, 1] ++ [if 1 ≤ n.toNat ∧ n.toNat ≤ 32 then octet (n.toNat + 1) else n] ++
        be 2 (messageCheck ([0xFF, src, 0x82, tag, 1] ++ [if 1 ≤ n.toNat ∧ n.toNat ≤ 32 then octet (n.toNat + 1) else n])).toNat := by
  unfold enumerateForward
  have hn : (enumerateOctets src tag n check).getD 5 0 = n := rfl
  simp only [hn, enumeratedUnit_isSome]
  split
  · rfl
  · rw [← h]
    rfl

/-- The ENUMERATE message in the lane, once the message before it is spoiled (R149). -/
theorem State.laneFirst_enumerate (s : State) (src tag n : Byte) (check : BitVec 16) :
    s.laneFirst (enumerateOctets src tag n check) = s.afterSpoil.enumerate (enumerateOctets src tag n check) := by
  unfold State.laneFirst
  rw [State.spoil_eq]
  rfl

/-- A single-frame pass-through message is admitted, or dropped (R152). -/
theorem State.holdForward_eq (s : State) (total : Nat) (octets : List Byte) :
    s.holdForward total octets =
      if reservedFrames s.lane.hold + total ≤ 64 then
        s.withLane { s.lane with hold := s.lane.hold ++ [{ total := total, frames := [octets], emitted := 0, spoiled := false }] }
      else s.dropLane := by
  unfold State.holdForward State.admits
  simp only [decide_eq_true_eq, Config.holdFrames]

/-- Settles O26: the FIRST frame is spoil, disposition ENUMERATE, check, number and admission in turn. -/
theorem enumerateNumbersUnit : Obligations.EnumerateNumbersUnit := by
  intro s src tag n check hr
  rw [exec_enumerate hr, State.laneFirst_enumerate]
  unfold State.enumerate
  rw [field_enumerateOctets]
  refine congrArg Host.Outcome.next (if_ctx_congr Iff.rfl (fun hgood => ?_) fun _ => rfl)
  rw [enumerateForward_good hgood, State.holdForward_eq]
  rfl

end Sys2Proof.Machine
end

section
/-!
PROOFS. The frame event of a period whose delivery is made: the frames it begins (R14 to R18, R137 to R140) and the Lane Arbiter (R156).
-/

namespace Sys2Proof.Machine

/-- What a frame event leaves, block by block, where the period's delivery is made. -/
theorem exec_frameEvent_settled {s : State} (h : s.eventComes) (ho : s.tb.owed = false) :
    exec .frameEvent s =
      .next
        { s with
          lane := s.arbitrate.1.lane
          replies := s.arbitrate.1.replies
          tx := { s.tx with emitted := some (s.frameBegun s.arbitrate.2.1 s.arbitrate.2.2), heldFrame := none, passRan := false }
          lanes := { s.lanes.beginFrame s.intake.power with lastClocks := s.tb.laneClocks }
          tb := s.tb.nextPeriod
          plans := s.plans.tail
          begun := 1 } := by
  rw [exec_frameEvent h, State.endPeriod_eq ho, State.beginFrames_eq]
  simp only [State.withLane, State.withReplies, State.withTx, State.withLanes, State.withBegun, State.withTb, State.withPlans]

theorem State.emitNumber_eq (s : State) :
    s.emitNumber =
      match s.tx.heldFrame with
      | some h => if h.cls = .good ∨ h.cls = .marked then h.number else s.rx.localFrame
      | none => s.rx.localFrame := by
  unfold State.emitNumber
  cases s.tx.heldFrame with
  | none => rfl
  | some h => cases hc : h.cls <;> simp [hc]

theorem State.emitDamaged_eq (s : State) :
    s.emitDamaged =
      match s.tx.heldFrame with
      | some h => decide (h.cls ≠ .good)
      | none => true := by
  unfold State.emitDamaged
  cases s.tx.heldFrame with
  | none => rfl
  | some h => cases hc : h.cls <;> simp [hc]

theorem State.emitSlots_eq (s : State) :
    s.emitSlots = s.withCue ((s.tx.heldFrame.map (·.slots)).getD (List.replicate 64 0)) := by
  unfold State.emitSlots
  cases s.tx.heldFrame <;> rfl

theorem Timebase.nextPeriod_eq (t : Timebase) :
    t.nextPeriod =
      { periodStart := t.periodEnd, periodEnd := t.periodEnd + 2048, due := false, adopted := false, owed := true, releaseEvent := false } := by
  simp only [Timebase.nextPeriod, Config.framePeriod]

/-- Settles O27: the emitted frame, the lane frame and the next period, block by block. -/
theorem frameEventBeginsFrames : Obligations.FrameEventBeginsFrames := by
  intro s h ho
  refine ⟨_, s.frameBegun s.arbitrate.2.1 s.arbitrate.2.2, exec_frameEvent_settled h ho, rfl, s.emitNumber_eq, s.emitDamaged_eq, s.emitSlots_eq, by simp only [State.frameBegun], ?_,
    s.tb.nextPeriod_eq, rfl, rfl, rfl, rfl, rfl, rfl, rfl, rfl, rfl, rfl⟩
  have routed (r : Route) : s.lanes.routed r =
      match r with
      | .silent => 0
      | .mix k .left => (s.lanes.held.getD k (0, 0)).1
      | .mix k .right => (s.lanes.held.getD k (0, 0)).2 := by
    rcases r with _ | ⟨k, _ | _⟩ <;> rfl
  dsimp only [OutputLanes.beginFrame]
  simp only [routed]
  rfl

/-! ### The arbiter (R152, R153, R156, R157) -/

/-- A pass-through message's next frame: its head of the hold buffer advances, or leaves with its last frame (R152). -/
theorem LaneController.passFrame_cons {l : LaneController} {m : HoldMessage} {rest : List HoldMessage} (h : l.hold = m :: rest) :
    l.passFrame =
      if m.emitted + 1 < m.total then { l with hold := { m with emitted := m.emitted + 1 } :: rest, emission := .pass }
      else { l with hold := rest, emission := .none } := by
  unfold LaneController.passFrame
  rw [h]
  by_cases hm : m.emitted + 1 < m.total <;> simp [advanceHead, headGoesOn, hm]

/-- At a message boundary the pass-through side goes where the reply side is empty or sent last (R156). -/
theorem State.arbitrate_beginPass {s : State} {m : HoldMessage} {rest : List HoldMessage} (he : s.lane.emission = .none) (hh : s.lane.hold = m :: rest)
    (hq : s.replies.messages = [] ∨ s.lane.memory = .own) : s.arbitrate = s.beginPass := by
  simp only [State.arbitrate, he, State.arbitrateIdle, hh]
  rcases hq with hq | hq
  · rw [hq]
  · cases s.replies.messages with
    | nil => rfl
    | cons q qs => simp only [hq]

/-- At a message boundary the reply side goes where the hold buffer is empty or sent last (R156). -/
theorem State.arbitrate_beginOwn {s : State} {q : QueuedMessage} {rest : List QueuedMessage} (he : s.lane.emission = .none)
    (hq : s.replies.messages = q :: rest) (hh : s.lane.hold = [] ∨ s.lane.memory = .pass) : s.arbitrate = s.beginOwn q rest := by
  simp only [State.arbitrate, he, State.arbitrateIdle, hq]
  rcases hh with hh | hh
  · rw [hh]
  · cases s.lane.hold with
    | nil => rfl
    | cons m ms => simp only [hh]

/-- Settles O28: by the emission in progress, and at a message boundary by the two sides and the arbiter memory. -/
theorem frameEventArbitrates : Obligations.FrameEventArbitrates := by
  intro s h ho
  refine ⟨_, _, exec_frameEvent_settled h ho, rfl, ?_⟩
  refine ⟨fun frames sent he => ?_, fun m rest he hh hs => ?_, fun m rest he hh hs => ?_, fun he hh hm => ?_, fun m rest he hh hq => ?_,
    fun q rest he hq hh => ?_⟩ <;> dsimp only [State.frameBegun]
  · simp only [State.arbitrate, he]
    exact ⟨trivial, rfl, rfl, rfl⟩
  · simp only [State.arbitrate, he, hh, headSpoiled, hs, if_true]
    exact ⟨trivial, rfl, rfl, rfl⟩
  · simp only [State.arbitrate, he, hh, headSpoiled, hs, Bool.false_eq_true, if_false]
    exact ⟨trivial, rfl, rfl, hs ▸ LaneController.passFrame_cons hh⟩
  · simp only [State.arbitrate_nothing he hh hm]
    exact ⟨trivial, rfl, trivial, trivial⟩
  · simp only [State.arbitrate_beginPass he hh hq, State.beginPass, hh]
    refine ⟨trivial, rfl, rfl, ?_⟩
    show { s.lane.passFrame with memory := ArbiterMemory.pass } = _
    rw [LaneController.passFrame_cons hh]
    split <;> rfl
  · simp only [State.arbitrate_beginOwn he hq hh, State.beginOwn]
    exact ⟨trivial, rfl, rfl, rfl⟩

end Sys2Proof.Machine
end

section
/-!
PROOFS. What the output lines carry (R1, R17, R137), the NOTICE (R173), and the two encodings read back: an emitted frame (R2) and a message in lane frames (R148).
-/

namespace Sys2Proof.Machine

/-! ### The lines (R1, R17, R137 to R140) -/

theorem State.laneBit_eq {s : State} {values : List Int} (h : s.lanes.frame = some values) (lane clock : Nat) :
    s.laneBit lane clock =
      if clock < 256 ∧ clock % 32 < 24 then (BitVec.ofInt 24 (values.getD (8 * lane + clock / 32) 0)).getMsbD (clock % 32) else false := by
  simp only [State.laneBit, State.lanePosition, h]

/-- The body of an emitted frame occupies the bit-times from its sync pattern to its trailer's end (section 12.1). -/
theorem State.linkOut_emitted {s : State} {e : EmittedFrame} (he : s.tx.emitted = some e) (before : Bool) (n : Nat) :
    s.linkOut before n =
      (Config.syncPattern before ++
        codeBits ((((Config.syncPattern before).map (·.2)).getLast?).getD before) (bitsOf e.body ++ List.replicate (n - 1664) false)).take n := by
  simp only [State.linkOut, he, Config.trailerEnd]

/-- Settles O30: bit by bit for the lanes, and by the lengths of its parts for LINK_OUT. -/
theorem linesCarryFrames : Obligations.LinesCarryFrames := by
  refine ⟨fun s values h => ⟨fun lane position bit _ hp hb => ?_, fun lane clock hc => ?_, fun clock => ?_⟩,
    Config.syncPattern, syncPattern_shape, fun s e before n he hs hl => ?_⟩
  · rw [State.laneBit_eq h, show (32 * position + bit) / 32 = position by omega, show (32 * position + bit) % 32 = bit by omega]
    by_cases hbit : 24 ≤ bit
    · rw [if_pos hbit, if_neg (by omega)]
    · rw [if_neg hbit, if_pos (by omega)]
  · rw [State.laneBit_eq h, if_neg (by omega)]
  · rw [State.laneSync, h, Option.isSome_some, Bool.true_and]
    rfl
  · have length (k : Nat) : (Config.syncPattern before ++
        codeBits ((((Config.syncPattern before).map (·.2)).getLast?).getD before) (bitsOf e.body ++ List.replicate (k - 1664) false)).length =
          1664 + (k - 1664) := by
      rw [List.length_append, (syncPattern_shape before).1, codeBits_length, List.length_append, bitsOf_length, (EmittedFrame.body_parts hs hl).1,
        List.length_replicate]
      omega
    simp only [State.linkOut_emitted he]
    refine ⟨fun hn => List.take_of_length_le (by rw [length]; omega), fun hn => ?_, ?_⟩
    · rw [List.take_take, min_eq_left hn.le, show n - 1664 = 1664 - 1664 by omega]
    · rw [List.length_take, length]
      omega

/-! ### NOTICE_QUEUE (R173) -/

theorem exec_noticeQueue {s : State} (hr : s.resetHeld = false) : exec .noticeQueue s = .next s.offerNotice :=
  congrArg Host.Outcome.next (whileReleased_released hr _)

/-- A NOTICE is composed where the latch is set, none is queued and a place is free (R173). -/
theorem State.offerNotice_eq (s : State) :
    s.offerNotice =
      if s.events.latch = true ∧ (∀ m ∈ s.replies.messages, m.isNotice = false) ∧ s.replies.messages.length + s.replies.reserved < 8 then s.queueNotice
      else s := by
  have hqueued : s.noticeQueued = false ↔ ∀ m ∈ s.replies.messages, m.isNotice = false := by simp [State.noticeQueued]
  have hplace : s.hasPlace = true ↔ s.replies.messages.length + s.replies.reserved < 8 := decide_eq_true_iff
  unfold State.offerNotice
  simp only [hqueued, hplace]

theorem State.noticeOctets_eq (s : State) :
    s.noticeOctets =
      message 0 (octet (s.lane.unit.getD 254)) 0x81 0
        [s.events.summary, octet (s.rx.localFrame.toNat / 256), octet s.rx.localFrame.toNat, octet s.intake.power.code, octet s.rx.sync.code] := by
  rw [State.noticeOctets, be_two]
  rfl

/-- Whether a command can be taken, by the executing slot and the Reply Queue's places (R161). -/
theorem State.not_canTake (s : State) :
    (!s.canTake) = (s.intake.executing.isSome || decide (8 ≤ s.replies.messages.length + s.replies.reserved)) := by
  simp [State.canTake, State.busy, State.hasPlace, Config.replyPlaces, ← decide_not]

/-- Whether a held command has to stay in the holding slot (R165). -/
theorem State.noteWait_eq (s : State) :
    s.noteWait =
      s.withIntake
        { s.intake with
          holding := s.intake.holding.map fun c =>
            { c with waited := c.waited || s.intake.executing.isSome || decide (8 ≤ s.replies.messages.length + s.replies.reserved) } } := by
  unfold State.noteWait
  simp only [State.not_canTake, Bool.or_assoc]
  cases hh : s.intake.holding with
  | none =>
    have hi : s.intake = { s.intake with holding := none } := by rw [← hh]
    exact congrArg s.withIntake hi
  | some c => rfl

/-- Settles O31: the NOTICE and the note of a held command, or nothing. -/
theorem noticeJoinsQueue : Obligations.NoticeJoinsQueue := by
  intro s hr
  rw [exec_noticeQueue hr, State.offerNotice_eq]
  refine ⟨fun h => ?_, fun h => by rw [if_neg h]⟩
  rw [if_pos h]
  unfold State.queueNotice
  rw [State.noteWait_eq]
  refine ⟨_, rfl, by rw [← State.noticeOctets_eq]; rfl, rfl, rfl, rfl, ?_, rfl⟩
  simp

/-! ### An emitted frame read back (R1, R2, R17) -/

/-- Settles O32: the body is decoded from the octets it was coded from, and each field is where it was written. -/
theorem emittedFrameArrivesIntact : Obligations.EmittedFrameArrivesIntact := by
  intro e level hs hy hl hc
  obtain ⟨hlen, hcov, hcheck, htrailer, hflags⟩ := EmittedFrame.body_parts hs hl
  obtain ⟨hdamaged, hkind⟩ := flagsOctet_fields e.damaged e.kind
  have hbody : e.body =
      be 2 e.number.toNat ++ [flagsOctet e.damaged e.kind] ++ (e.slots.flatMap (beInt 3) ++ (e.lane ++ (be 2 e.check.toNat ++ [0xB4]))) := by
    simp only [EmittedFrame.body, coveredOctets, List.append_assoc]
  have hslots : (e.body.drop 3).take 192 = e.slots.flatMap (beInt 3) := by
    rw [hbody]
    exact List.take_left' (by rw [flatMap_beInt_length, hs])
  have hnumber : field e.body 0 2 = e.number.toNat := by
    rw [hbody]
    show fromBe (be 2 e.number.toNat) = _
    rw [fromBe_be, show 256 ^ 2 = 2 ^ 16 from rfl, Nat.mod_eq_of_lt e.number.isLt]
  refine ⟨?_, ?_⟩
  · rw [decodeBody_coded level hlen]
    simp only [decodeOctets, hcov, hcheck, htrailer, hflags, hdamaged, hkind, hslots, hnumber, EmittedFrame.body_lane hs hl, samplesOf_flatMap e.slots hy, ← hc]
    simp [flagsOctet]
  · simp [LineBody.wellFormed, codeBits_length, bitsOf_length, hlen]

/-! ### A message in lane frames read back (R148 to R151, R160) -/

/-- The unit after the first i lane frames of a message addressed to it: WAITING, receiving, or with the message verified (R149 to R151). -/
def State.afterFrames (s : State) (m : List Byte) (i : Nat) : State :=
  if i = 0 then s
  else if i < (laneFrames m).length then
    s.receive
      (.receiving { toLocal := true, toForward := false, admitted := false, octets := m.length, expected := (laneFrames m).length, received := i })
      (m.take (8 * i))
  else s.verifyLocal m

/-- The octets received so far and the next lane frame, cut to the message's length, are the octets received then (R148). -/
theorem take_join_laneFrame (m : List Byte) {i : Nat} (hi : i < (laneFrames m).length) :
    (m.take (8 * i) ++ (laneFrames m)[i]).take m.length = m.take (8 * (i + 1)) := by
  rw [laneFrames_getElem m hi, ← List.append_assoc, ← List.take_add, List.length_take, List.length_drop, Nat.mul_succ]
  rcases Nat.le_total m.length (8 * i + 8) with h | h
  · rw [List.take_of_length_le h, List.take_left' rfl]
  · rw [show 8 - min 8 (m.length - 8 * i) = 0 by omega, List.replicate_zero, List.append_nil, List.take_take, min_eq_right h]

section

variable {s : State} {dest src kind tag : Byte} {payload : List Byte}

/-- The FIRST frame of a message addressed to the unit (R149). -/
theorem State.laneFirst_own (hp : payload.length ≤ 240) (hu : s.lane.unit = some dest.toNat) (hd : dest.toNat ≤ 32) (hw : s.lane.rx = .waiting)
    (h0 : 0 < (laneFrames (message dest src kind tag payload)).length) :
    s.laneFirst (laneFrames (message dest src kind tag payload))[0] = s.afterFrames (message dest src kind tag payload) 1 := by
  have hspoil : s.spoil = s := by simp [State.spoil, hw]
  have hhead : ∃ rest, (laneFrames (message dest src kind tag payload))[0] = dest :: src :: kind :: tag :: octet payload.length :: rest := by
    rw [laneFrames_getElem]
    exact ⟨_, rfl⟩
  have hbuffer := take_join_laneFrame (message dest src kind tag payload) h0
  have hcount : (laneFrames (message dest src kind tag payload)).length = frameCount payload.length := by
    rw [laneFrames_length, message_length, frameCount]
  rw [Nat.mul_zero, List.take_zero, List.nil_append, message_length] at hbuffer
  generalize hf : (laneFrames (message dest src kind tag payload))[0] = frame at *
  obtain ⟨rest, rfl⟩ := hhead
  have hparts : disposition s.lane.unit dest kind payload.length = .parts true false := by
    rw [disposition, if_neg (by omega), if_neg (by omega), if_pos hu]
  have hlength : (octet payload.length).toNat = payload.length := octet_toNat (by omega)
  simp only [State.laneFirst, hspoil, List.getD_cons_zero, List.getD_cons_succ, hlength, hparts]
  rw [if_neg (by omega)]
  simp only [State.beginMessage, Bool.false_and, Bool.false_eq_true, if_false, if_true, Nat.add_comm 7, hbuffer, ← hcount]
  rw [State.afterFrames, if_neg (show ¬(1 : Nat) = 0 by decide)]
  by_cases h1 : (laneFrames (message dest src kind tag payload)).length = 1
  · rw [if_pos h1, if_neg (by omega), List.take_of_length_le]
    rw [laneFrames_length] at h1
    omega
  · rw [if_neg h1, if_pos (by omega), message_length]

/-- A CONT frame of a message that the unit is receiving for itself (R150, R151). -/
theorem State.laneCont_own (hw : s.lane.rx = .waiting) (hb : s.lane.buffer = []) (m : List Byte) {i : Nat} (hi : i < (laneFrames m).length) (hpos : 0 < i) :
    (s.afterFrames m i).laneCont (laneFrames m)[i] = s.afterFrames m (i + 1) := by
  have hafter : s.afterFrames m i =
      s.receive
        (.receiving { toLocal := true, toForward := false, admitted := false, octets := m.length, expected := (laneFrames m).length, received := i })
        (m.take (8 * i)) := by
    rw [State.afterFrames, if_neg (by omega), if_pos hi]
  have hidle : s.receive .waiting [] = s := by rw [← hw, ← hb]; rfl
  have hjoin := take_join_laneFrame m hi
  rw [hafter, State.afterFrames, if_neg (by omega)]
  simp only [State.laneCont, State.receive, State.withLane_lane, hjoin, if_true, Bool.false_and, Bool.false_eq_true, if_false]
  by_cases hmore : i + 1 < (laneFrames m).length
  · rw [if_pos hmore, if_pos hmore]
    rfl
  · have hwhole : m.length ≤ 8 * (i + 1) := by
      rw [laneFrames_length] at hmore
      omega
    rw [if_neg hmore, if_neg hmore, List.take_of_length_le hwhole]
    exact congrArg (State.verifyLocal · m) hidle

end

/-- The frames of a message addressed to the unit, received one after another. -/
theorem State.foldl_laneFrames {s : State} (base : ReceivedFrame) {dest : Byte} (src kind tag : Byte) {payload : List Byte} (hp : payload.length ≤ 240)
    (hu : s.lane.unit = some dest.toNat) (hd : dest.toNat ≤ 32) (hw : s.lane.rx = .waiting) (hb : s.lane.buffer = []) (i : Nat)
    (hi : i ≤ (laneFrames (message dest src kind tag payload)).length) :
    ((laneFrames (message dest src kind tag payload)).zipIdx.take i).foldl
        (fun u f => u.laneFrame { base with kind := if f.2 = 0 then .first else .cont, lane := f.1 }) s =
      s.afterFrames (message dest src kind tag payload) i := by
  induction i with
  | zero => rfl
  | succ i ih =>
    have hlt : i < (laneFrames (message dest src kind tag payload)).length := hi
    rw [List.take_succ_eq_append_getElem (by simpa using hlt), List.foldl_append, ih hlt.le]
    simp only [List.foldl_cons, List.foldl_nil, List.getElem_zipIdx, Nat.zero_add]
    rcases Nat.eq_zero_or_pos i with rfl | hpos
    · exact State.laneFirst_own hp hu hd hw hlt
    · rw [if_neg hpos.ne']
      exact State.laneCont_own hw hb _ hlt hpos

/-- Settles O33: by induction over the message's lane frames. -/
theorem messageReachesIntake : Obligations.MessageReachesIntake := by
  intro s base dest src kind tag payload hp hu hd hw hb
  have h := State.foldl_laneFrames base src kind tag hp hu hd hw hb _ le_rfl
  rw [List.take_of_length_le (by simp)] at h
  rw [h, State.afterFrames, if_neg, if_neg (lt_irrefl _), State.verifyLocal_message s dest src kind tag hp]
  rw [laneFrames_length, message_length]
  omega

end Sys2Proof.Machine
end

section
/-!
PROOFS. The taking of commands: waiting, overruns, the generic checks (R160 to R162), and how a row's answer is read off its action.
-/

namespace Sys2Proof.Machine

/-! ### Rows that answer -/

/-- A row whose command is taken and answered at once, read off its action: what the action leaves is another state with the same command begun. -/
theorem commandRow_replies {s u : State} {src : CommandSource} {kind : Byte} {c : Command} {belongs : List Byte → Bool} {act : Action} {a : Answer}
    (ht : s.takes src kind c) (hb : belongs c.payload = true) (hu : u.intake.executing = s.intake.executing)
    (hact : act c (s.beginCommand c) = (u.beginCommand c, some a)) : commandRow kind belongs act src s = u.replied c a := by
  rw [commandRow_answers ht hb hact, State.completeCommand_beginCommand (hu.trans (State.takes_executing ht))]

/-- Taking a command moves it between the slots and reserves a place, and changes no other block (R161). -/
@[simp] theorem State.beginCommand_rx (s : State) (c : Command) : (s.beginCommand c).rx = s.rx := rfl
@[simp] theorem State.beginCommand_tb (s : State) (c : Command) : (s.beginCommand c).tb = s.tb := rfl
@[simp] theorem State.beginCommand_tx (s : State) (c : Command) : (s.beginCommand c).tx = s.tx := rfl
@[simp] theorem State.beginCommand_store (s : State) (c : Command) : (s.beginCommand c).store = s.store := rfl
@[simp] theorem State.beginCommand_fade (s : State) (c : Command) : (s.beginCommand c).fade = s.fade := rfl
@[simp] theorem State.beginCommand_table (s : State) (c : Command) : (s.beginCommand c).table = s.table := rfl
@[simp] theorem State.beginCommand_staging (s : State) (c : Command) : (s.beginCommand c).staging = s.staging := rfl
@[simp] theorem State.beginCommand_lanes (s : State) (c : Command) : (s.beginCommand c).lanes = s.lanes := rfl
@[simp] theorem State.beginCommand_lane (s : State) (c : Command) : (s.beginCommand c).lane = s.lane := rfl
@[simp] theorem State.beginCommand_events (s : State) (c : Command) : (s.beginCommand c).events = s.events := rfl
@[simp] theorem State.beginCommand_power (s : State) (c : Command) : (s.beginCommand c).intake.power = s.intake.power := rfl

/-- A taken command whose payload has its kind's length is put to its own checks (R162). -/
theorem checkedLength_taken {s : State} {src : CommandSource} {kind : Byte} {c : Command} (ht : s.takes src kind c) (hl : lengthRight kind c.payload = true)
    (act : Action) : checkedLength act c = act c := by
  funext u
  exact checkedLength_right (by rwa [State.takes_kind ht])

/-! ### Waiting and overruns (R160, R161) -/

theorem State.canTake_eq_false {s : State} (h : s.intake.executing ≠ none ∨ 8 ≤ s.replies.messages.length + s.replies.reserved) : s.canTake = false := by
  have := s.not_canTake
  rw [← Bool.not_eq_true', this, Bool.or_eq_true, decide_eq_true_eq, Option.isSome_iff_ne_none]
  exact h

/-- A row whose command is not the held one leaves the unit as it is (log 3). -/
theorem commandRow_other {s : State} {kind : Byte} {belongs : List Byte → Bool} (act : Action)
    (h : ∀ c, s.intake.holding = some c → c.kind ≠ kind ∨ belongs c.payload = false) : commandRow kind belongs act .held s = s := by
  refine whileReleased_same ?_
  unfold State.takeHeld
  cases hh : s.intake.holding with
  | none => rfl
  | some c =>
    rcases h c hh with hk | hb
    · simp [hk]
    · simp [hb]

/-- An arriving command that cannot be taken stays in the holding slot with its note (R160, R165). -/
theorem commandRow_enters {s : State} {kind sender tag : Byte} {payload : List Byte} {belongs : List Byte → Bool} (act : Action) (hr : s.resetHeld = false)
    (hb : belongs payload = true) (hh : s.intake.holding = none) (hc : s.canTake = false) :
    commandRow kind belongs act (.arriving sender tag payload) s =
      s.withIntake
        { s.intake with
          holding := some { kind := kind, src := sender, tag := tag, payload := payload, busyAtArrival := s.intake.executing.isSome, waited := true } } := by
  have hover : s.handOver kind sender tag payload =
      s.withIntake
        { s.intake with
          holding := some { kind := kind, src := sender, tag := tag, payload := payload, busyAtArrival := s.intake.executing.isSome, waited := true } } := by
    simp [State.handOver, hh, hc, State.busy]
  have hwaits (u : State) (hu : u.canTake = false) : u.takeHeld kind belongs act = u := by
    unfold State.takeHeld
    split
    · rw [hu, Bool.and_false, if_neg Bool.false_ne_true]
    · rfl
  unfold commandRow
  rw [whileReleased_released hr]
  dsimp only
  rw [if_pos hb, hh]
  dsimp only
  rw [hover]
  exact hwaits _ hc

theorem Instr.ownPayload_of_wellFormed {i : Instr} {kind sender tag : Byte} {payload : List Byte} (hi : commandOf i = some (kind, .arriving sender tag payload))
    (hw : i.wellFormed = true) : i.ownPayload payload = true := by
  unfold Instr.wellFormed at hw
  split at hw
  · cases hi
  · cases hi
  · rw [hi] at hw
    exact (Bool.and_eq_true_iff.mp hw).2

/-- Settles O35: by where the command comes from and what stands in the slots. -/
theorem commandsWaitOrOverrun : Obligations.CommandsWaitOrOverrun := by
  intro s i kind src hi hw hr
  rw [exec_command hi]
  cases src with
  | held =>
    dsimp only
    intro h
    congr 1
    rcases h with h | h | h | ⟨c, hc, h⟩
    · exact commandRow_waits _ (State.canTake_eq_false (.inl h))
    · exact commandRow_waits _ (State.canTake_eq_false (.inr h))
    · exact commandRow_other _ (by simp [h])
    · exact commandRow_other _ fun c' hc' => by cases hc.symm.trans hc'; exact h
  | arriving sender tag payload =>
    have hb := Instr.ownPayload_of_wellFormed hi hw
    refine ⟨fun c hc => ?_, fun hh h => ?_⟩
    · rw [commandRow_overrun _ hr hb hc]
      rfl
    · rw [commandRow_enters _ hr hb hh (State.canTake_eq_false h)]

/-! ### The generic checks (R162) -/

/-- Every row of the catalogue checks the length first. -/
theorem actionOf_checksLength {kind : Byte} (payload : List Byte) (h1 : 1 ≤ kind.toNat) (h2 : kind.toNat ≤ 0x17) :
    ∃ act, actionOf kind payload = checkedLength act := by
  unfold actionOf
  split
  case h_24 =>
    simp only [imp_false] at *
    omega
  all_goals first | exact ⟨_, rfl⟩ | (split <;> exact ⟨_, rfl⟩)

theorem actionOf_unknown {kind : Byte} {payload : List Byte} (h : kind.toNat = 0 ∨ 0x17 < kind.toNat) : actionOf kind payload = actUnknown := by
  unfold actionOf
  split <;> first | omega | rfl

/-- The lengths that R162 refuses, kind by kind. -/
theorem lengthRight_eq_false {kind : Byte} {p : List Byte} (h1 : 1 ≤ kind.toNat) (h2 : kind.toNat ≤ 0x17)
    (h : match kind.toNat with
        | 0x04 => p.length ≠ 3
        | 0x05 => p.length ≠ 1
        | 0x06 => p.length ≠ 1
        | 0x07 => p.length ≠ 27
        | 0x08 => p.length ≠ 1
        | 0x09 => p.length < 3 ∨ p.length ≠ 3 + 6 * (p.getD 2 0).toNat
        | 0x0A => p.length < 3 ∨ p.length ≠ 3 + (p.getD 2 0).toNat
        | 0x0B => p.length ≠ 2
        | 0x0C => p.length ≠ 3
        | 0x0D => p.length ≠ 3
        | 0x0E => p.length ≠ 32
        | 0x10 => p.length ≠ 3
        | 0x11 => p.length ≠ 3
        | 0x14 => p.length ≠ 1
        | 0x15 => p.length ≠ 3
        | 0x16 => p.length ≠ 1
        | _ => p.length ≠ 0) : lengthRight kind p = false := by
  unfold lengthRight
  generalize kind.toNat = n at *
  interval_cases n <;> first | exact beq_eq_false_iff_ne.mpr h | (simp only [Bool.and_eq_false_iff, decide_eq_false_iff_not, beq_eq_false_iff_ne, at8] at h ⊢; omega)

/-- Settles O36: by the action of the KIND, which for every kind of the catalogue checks the length first. -/
theorem genericChecksRefuse : Obligations.GenericChecksRefuse := by
  refine ⟨fun s src kind c ht hk => ?_, fun s i src kind c hi ht h1 h2 hb hl => ?_⟩
  · rw [exec_command rfl]
    refine congrArg Host.Outcome.next (commandRow_replies ht (by simp [Instr.ownPayload, isCommandKind_eq_false hk]) rfl ?_)
    rw [State.takes_kind ht, actionOf_unknown hk]
    rfl
  · rw [exec_command hi]
    refine congrArg Host.Outcome.next (commandRow_replies ht hb rfl ?_)
    obtain ⟨act, hact⟩ := actionOf_checksLength c.payload h1 h2
    rw [State.takes_kind ht, hact, checkedLength_wrong (by rw [State.takes_kind ht]; exact lengthRight_eq_false h1 h2 hl)]
    rfl

end Sys2Proof.Machine
end

section
/-!
PROOFS. The commands on the unit as a whole (R12, R27, R164, R165, R169, R171, R172, R174).
-/

namespace Sys2Proof.Machine

/-! ### IDENTIFY and STATUS (R164, R165) -/

/-- The status payload, its two-octet fields written out (R165, section 12.5). -/
theorem statusOctets_eq (c : Command) (s : State) :
    statusOctets c s =
      [octet s.intake.power.code, octet s.rx.sync.code, octet s.fade.state.code, octet (s.fade.coeff / 256), octet s.fade.coeff,
          octet c.busyAtArrival.toNat, octet c.waited.toNat, octet (s.rx.localFrame.toNat / 256), octet s.rx.localFrame.toNat] ++
          s.staging.slot.octets ++
        reportOctets s.staging.report ++
      [octet s.staging.queue.length, octet s.replies.messages.length, octet (reservedFrames s.lane.hold), octet (s.table.free / 256),
        octet s.table.free, s.events.summary, s.events.mask] := by
  simp only [statusOctets, be_two, List.append_assoc, List.cons_append, List.nil_append]

/-- Settles O37: what each answer is composed from, in the order of its octets. -/
theorem identifyAndStatusAnswer : Obligations.IdentifyAndStatusAnswer := by
  refine ⟨fun s src c ht hp => ?_, fun s src c hp => ⟨fun ht => ?_, fun ht => ?_⟩⟩
  · refine congrArg Host.Outcome.next (commandRow_replies ht rfl rfl ?_)
    rw [actIdentify, checkedLength_taken ht (by rw [hp]; rfl)]
    simp only [identifyOctets, be_two]
    rfl
  · refine congrArg Host.Outcome.next (commandRow_replies ht rfl rfl ?_)
    rw [actStatusRead, checkedLength_taken ht (by rw [hp]; rfl)]
    rw [statusOctets_eq]
    rfl
  · refine congrArg Host.Outcome.next (commandRow_replies ht rfl rfl ?_)
    rw [actStatusPeek, checkedLength_taken ht (by rw [hp]; rfl)]
    rw [statusOctets_eq]
    rfl

/-! ### UNIT_SETUP and EVENT_ACK (R27, R171, R172) -/

theorem ne_zero_iff_any_bit (x : Mask8) : (x != 0) = (List.range 8).any fun k => x.getLsbD k := by
  rw [Bool.eq_iff_iff, bne_iff_ne, List.any_eq_true]
  constructor
  · intro h
    by_contra hn
    refine h (BitVec.eq_of_getLsbD_eq fun i hi => ?_)
    have := hn ∘ fun hb => ⟨i, List.mem_range.mpr hi, hb⟩
    simpa using this
  · rintro ⟨i, -, hi⟩ rfl
    simp at hi

/-- The latch after another mask (R172, log 17). -/
theorem EventUnit.setMask_eq (u : EventUnit) (mask : Mask8) :
    u.setMask mask =
      { summary := u.summary, mask := mask
        latch := u.latch || (List.range 8).any fun k => mask.getLsbD k && !u.mask.getLsbD k && u.summary.getLsbD k } := by
  unfold EventUnit.setMask
  rw [ne_zero_iff_any_bit]
  congr 2
  refine congrArg (List.any _) (funext fun k => ?_)
  by_cases hk : k < 8
  · simp [hk]
  · simp [BitVec.getLsbD_of_ge mask k (by omega)]

/-- The two-octet field after the first octet of a payload of three. -/
theorem at16_one (x a b : Byte) : at16 [x, a, b] 1 = word2 a b := by
  simp [at16, field, fromBe, word2]

/-- Settles O38: the mask and the clamped step, and the bits that the echo clears. -/
theorem unitSetupAndEventAck : Obligations.UnitSetupAndEventAck := by
  refine ⟨fun s src c mask a b ht hp => ?_, fun s src c echo ht hp => ⟨s.events.summary &&& ~~~echo, fun k => ?_, ?_⟩⟩
  · refine congrArg Host.Outcome.next (commandRow_replies ht rfl rfl ?_)
    rw [actUnitSetup, checkedLength_taken ht (by rw [hp]; rfl)]
    simp only [hp, at16_one, takeStep, clampInto_eq (show 1 ≤ 4096 by decide), Nat.lt_one_iff, EventUnit.setMask_eq, be_two]
    rfl
  · by_cases hk : k < 8
    · simp [hk]
    · simp [BitVec.getLsbD_of_ge s.events.summary k (by omega)]
  · refine congrArg Host.Outcome.next (commandRow_replies ht rfl rfl ?_)
    rw [actEventAck, checkedLength_taken ht (by rw [hp]; rfl)]
    simp only [hp]
    rfl

/-! ### LINK_COUNTERS (R12) -/

/-- Settles O39: by the clear option. -/
theorem linkCountersReadAndClear : Obligations.LinkCountersReadAndClear := by
  intro s src c option ht hp
  have hact (u : State) : actLinkCounters c u =
      if option.toNat = 0 then (u, some (.done u.rx.counters.octets))
      else if option.toNat = 1 then (u.withRx { u.rx with counters := LinkCounters.zero }, some (.done u.rx.counters.octets))
      else (u, some (.refuse .refusedValue [])) := by
    rw [actLinkCounters, checkedLength_taken ht (by rw [hp]; rfl)]
    simp only [hp, at8, List.getD_cons_zero]
    split
    · simp_all
    · simp_all [State.count_eq]
    · rw [if_neg (by assumption), if_neg (by assumption)]
  have hoctets : s.rx.counters.octets = [s.rx.counters.codingViolations, s.rx.counters.frameCheckErrors, s.rx.counters.trailerErrors,
      s.rx.counters.inheritedDamage, s.rx.counters.missedSyncs, s.rx.counters.laneFramingErrors, s.rx.counters.laneDrops,
      s.rx.counters.messageCheckErrors].flatMap fun n => [octet (n / 256), octet n] := by
    simp only [LinkCounters.octets, be_two, List.flatMap_cons, List.flatMap_nil, List.append_nil, List.append_assoc]
  dsimp only
  rw [← hoctets]
  by_cases h0 : option.toNat = 0
  · rw [if_pos h0]
    exact congrArg Host.Outcome.next (commandRow_replies ht rfl rfl (by rw [hact, if_pos h0]; rfl))
  by_cases h1 : option.toNat = 1
  · rw [if_neg h0, if_pos h1]
    exact congrArg Host.Outcome.next (commandRow_replies ht rfl rfl (by rw [hact, if_neg h0, if_pos h1]; rfl))
  · rw [if_neg h0, if_neg h1]
    exact congrArg Host.Outcome.next (commandRow_replies ht rfl rfl (by rw [hact, if_neg h0, if_neg h1]; rfl))

/-! ### UNIT_RESET (R169) -/

/-- Settles O55: the reset commutes with the taking of the command. -/
theorem unitResetReturnsDefaults : Obligations.UnitResetReturnsDefaults := by
  intro s src c ht hp
  refine congrArg Host.Outcome.next (commandRow_replies ht rfl rfl ?_)
  rw [actUnitReset, checkedLength_taken ht (by rw [hp]; rfl)]
  rfl

end Sys2Proof.Machine
end

section
/-!
PROOFS. Replies and records octet by octet (R163, R177, sections 12.2 to 12.4), and the settings record as it is taken (R61, R62).
-/

namespace Sys2Proof.Machine

/-! ### Fields of octets -/

theorem be_three (n : Nat) : be 3 n = [octet (n / 65536), octet (n / 256), octet n] := by simp [be]

theorem octet_congr {m n : Nat} (h : m % 256 = n % 256) : octet m = octet n := by
  apply BitVec.eq_of_toNat_eq
  simpa [octet] using h

/-- A field shows a number cut to its octets (12). -/
theorem be_congr {k m n : Nat} (h : m % 256 ^ k = n % 256 ^ k) : be k m = be k n := by
  induction k with
  | zero => rfl
  | succ k ih =>
    rw [pow_succ] at h
    rw [be, be, ih]
    · rw [octet_congr]
      rw [← Nat.mod_mul_right_div_self, ← Nat.mod_mul_right_div_self, h]
    · have hd : 256 ^ k ∣ 256 ^ k * 256 := Dvd.intro _ rfl
      rw [← Nat.mod_mod_of_dvd m hd, h, Nat.mod_mod_of_dvd n hd]

/-- The digit of a number at place k, whatever its sign. -/
theorem toNat_emod_pow_ediv (k : Nat) (x : Int) : (x % ((256 ^ (k + 1) : Nat) : Int)).toNat / 256 ^ k = (x / 256 ^ k % 256).toNat := by
  have hpos : (0 : Int) < 256 ^ k := by positivity
  obtain ⟨n, hn⟩ := Int.eq_ofNat_of_zero_le (Int.emod_nonneg x (show ((256 ^ (k + 1) : Nat) : Int) ≠ 0 by positivity))
  have hlt : n < 256 ^ (k + 1) := by
    have := Int.emod_lt_of_pos x (show (0 : Int) < ((256 ^ (k + 1) : Nat) : Int) by positivity)
    rw [hn] at this
    exact_mod_cast this
  have hx : x = n + x / ((256 ^ (k + 1) : Nat) : Int) * 256 * 256 ^ k := by
    have := Int.emod_add_mul_ediv x ((256 ^ (k + 1) : Nat) : Int)
    rw [hn] at this
    rw [mul_assoc, mul_comm 256, show (256 : Int) ^ k * 256 = ((256 ^ (k + 1) : Nat) : Int) by push_cast; ring, mul_comm]
    exact this.symm
  rw [hn, Int.toNat_natCast]
  conv_rhs => rw [hx, Int.add_mul_ediv_right _ _ hpos.ne', Int.add_mul_emod_self_right]
  norm_cast
  rw [Nat.mod_eq_of_lt]
  rw [Nat.div_lt_iff_lt_mul (by positivity), Nat.mul_comm, ← pow_succ]
  exact hlt

/-- A two's complement field, octet by octet (12). -/
theorem beInt_eq (k : Nat) (x : Int) : beInt k x = (List.range k).reverse.map fun i => octet (x / 256 ^ i % 256).toNat := by
  induction k with
  | zero => rfl
  | succ k ih =>
    rw [List.range_succ, List.reverse_append, List.reverse_singleton, List.singleton_append, List.map_cons, ← ih]
    rw [beInt, be, beInt]
    congr 1
    · rw [← toNat_emod_pow_ediv]
    · refine be_congr ?_
      have hd : ((256 ^ k : Nat) : Int) ∣ ((256 ^ (k + 1) : Nat) : Int) := by exact_mod_cast pow_dvd_pow 256 (Nat.le_succ k)
      rw [← Int.emod_emod_of_dvd x hd, Int.toNat_emod (Int.emod_nonneg x (by positivity)) (by positivity), Int.toNat_natCast, Nat.mod_mod]

theorem Flags.octet_eq (f : Flags) : f.octet = Machine.octet (f.headroom.toNat + 2 * f.stale.toNat + 4 * f.limit.toNat + 8 * f.clamp.toNat) := rfl

/-! ### Replies and records -/

/-- Settles O40: each record's fields in their order, the two- and three-octet ones written out. -/
theorem replyAndRecordOctets : Obligations.ReplyAndRecordOctets := by
  refine ⟨fun c unit a => ?_, fun r => ?_, fun s => ?_, fun r => ?_, fun x => ?_⟩
  · simp only [replyTo, message, be_two, unitCode]
    have hlen : octet ([c.kind, a.result.code, octet a.clamped.toNat, octet (a.item.getD 255)] ++ a.data).length = octet (4 + a.data.length) := by
      rw [List.length_append]
      rfl
    have hclamped : octet a.clamped.toNat = if a.clamped then 1 else 0 := by cases a.clamped <;> rfl
    rw [hlen, hclamped]
    rfl
  · have henabled : octet r.enabled.toNat = if r.enabled then 1 else 0 := by cases r.enabled <;> rfl
    simp only [Settings.octets, be_two, be_three, henabled]
    cases r.rounding <;> rfl
  · rcases s with _ | ⟨_ | n, request⟩
    · rfl
    · rfl
    · simp only [CommitSlot.octets, be_two]
  · rcases r with _ | r
    · rfl
    · obtain ⟨frameFired, _ | ⟨n, late⟩, applied, skipped, first⟩ := r <;> simp only [reportOctets, CommitRequest.octets, be_two]
  · rcases x with _ | c
    · rfl
    · simp only [captureOctets, be_two, beInt_eq]
      rfl

/-! ### The settings record (R61, R62) -/

theorem roundingOf_eq (n : Nat) :
    roundingOf n = if 2 < n then none else some (if n = 0 then .nearestEven else if n = 1 then .towardZero else .floor) := by
  match n with
  | 0 => rfl
  | 1 => rfl
  | 2 => rfl
  | n + 3 => rw [if_pos (by omega)]; rfl

theorem talkOf_eq (b : Byte) :
    talkOf b.toNat = if 63 < b.toNat ∧ b.toNat ≠ 255 then none else some (if b.toNat = 255 then none else some b.toNat) := by
  unfold talkOf
  by_cases h : b.toNat < 64
  · rw [if_pos h, if_neg (by omega), if_neg (by omega)]
  · by_cases h255 : b.toNat = 255
    · rw [if_neg h, if_pos h255, if_neg (by omega), if_pos h255]
    · rw [if_neg h, if_neg h255, if_pos ⟨by omega, h255⟩]

theorem at16_append {p : List Byte} (before : List Byte) (a b : Byte) (rest : List Byte) (h : p = before ++ a :: b :: rest) :
    at16 p before.length = word2 a b := by
  subst h
  simp [at16, field, fromBe, word2]

theorem at24_append {p : List Byte} (before : List Byte) (a b c : Byte) (rest : List Byte) (h : p = before ++ a :: b :: c :: rest) :
    at24 p before.length = word3 a b c := by
  subst h
  simp [at24, field, fromBe, word3]

/-- Settles O41: the fields are read at their offsets, and each is clamped or refused by its own rule. -/
theorem settingsTaken : Obligations.SettingsTaken := by
  intro en m1 m0 e1 e0 c2 c1 c0 r1 r0 mode mask talk t2 t1 t0 h1 h0 d1 d0 a1 a0 l1 l0 fl
  generalize hp : [en, m1, m0, e1, e0, c2, c1, c0, r1, r0, mode, mask, talk, t2, t1, t0, h1, h0, d1, d0, a1, a0, l1, l0, fl] = p
  have hm : at16 p 1 = word2 m1 m0 := at16_append [en] m1 m0 _ hp.symm
  have he : at16 p 3 = word2 e1 e0 := at16_append [en, m1, m0] e1 e0 _ hp.symm
  have hc : at24 p 5 = word3 c2 c1 c0 := at24_append [en, m1, m0, e1, e0] c2 c1 c0 _ hp.symm
  have hr : at16 p 8 = word2 r1 r0 := at16_append [en, m1, m0, e1, e0, c2, c1, c0] r1 r0 _ hp.symm
  have ht : at24 p 13 = word3 t2 t1 t0 := at24_append [en, m1, m0, e1, e0, c2, c1, c0, r1, r0, mode, mask, talk] t2 t1 t0 _ hp.symm
  have hh : at16 p 16 = word2 h1 h0 := at16_append [en, m1, m0, e1, e0, c2, c1, c0, r1, r0, mode, mask, talk, t2, t1, t0] h1 h0 _ hp.symm
  have hd : at16 p 18 = word2 d1 d0 := at16_append [en, m1, m0, e1, e0, c2, c1, c0, r1, r0, mode, mask, talk, t2, t1, t0, h1, h0] d1 d0 _ hp.symm
  have ha : at16 p 20 = word2 a1 a0 :=
    at16_append [en, m1, m0, e1, e0, c2, c1, c0, r1, r0, mode, mask, talk, t2, t1, t0, h1, h0, d1, d0] a1 a0 _ hp.symm
  have hl : at16 p 22 = word2 l1 l0 :=
    at16_append [en, m1, m0, e1, e0, c2, c1, c0, r1, r0, mode, mask, talk, t2, t1, t0, h1, h0, d1, d0, a1, a0] l1 l0 _ hp.symm
  have hmode : at8 p 10 = mode.toNat := by subst hp; rfl
  have htalk : at8 p 12 = talk.toNat := by subst hp; rfl
  have hen : at8 p 0 = en.toNat := by subst hp; rfl
  have hmask : p.getD 11 0 = mask := by subst hp; rfl
  have hfl : p.getD 24 0 = fl := by subst hp; rfl
  unfold takeSettings
  rw [hmode, roundingOf_eq]
  by_cases hbad : 2 < mode.toNat
  · rw [if_pos hbad, if_pos hbad]
  rw [if_neg hbad, if_neg hbad]
  dsimp only
  rw [htalk, talkOf_eq]
  by_cases hbadTalk : 63 < talk.toNat ∧ talk.toNat ≠ 255
  · rw [if_pos hbadTalk, if_pos hbadTalk]
  rw [if_neg hbadTalk, if_neg hbadTalk]
  simp only [takeGain, takeRampStep, takeCeiling, takeStep, takeThreshold, takeDepth, hm, he, hc, hr, ht, hh, hd, ha, hl, hen, hmask, hfl,
    clampInto_eq (Nat.zero_le _), clampInto_eq (show 1 ≤ Config.gainMax by decide), clampInto_eq (show 256 ≤ Config.sampleMax by decide),
    clampInto_eq (show 1 ≤ 4096 by decide), Config.gainMax, Config.sampleMax, Nat.zero_max, Nat.not_lt_zero, false_or, Nat.lt_one_iff]
  have hon : (en.toNat != 0) = decide (en.toNat ≠ 0) := by rw [Bool.eq_iff_iff, bne_iff_ne, decide_eq_true_eq]
  simp only [← Bool.decide_or, or_assoc, hon, Flags.ofOctet]

end Sys2Proof.Machine
end

section
/-!
PROOFS. The commands on routes, cue, commit slot, staged records, flags and power (R113 to R115, R122 to R131, R142, R145, R166, R167).
-/

namespace Sys2Proof.Machine

/-! ### ROUTE_WRITE (R142) -/

/-- Settles O49: a table of good octets as O48 has it, and the first bad one by its index. -/
theorem routeWriteActs : Obligations.RouteWriteActs := by
  intro s src c ht hlen
  refine ⟨fun hgood => ?_, fun before b after hp hbefore hb => ?_⟩
  · have hall : ∀ b ∈ c.payload, b.toNat = 255 ∨ (b.toNat < 64 ∧ b.toNat % 32 < 16) := fun b hb => of_decide_eq_true (List.all_eq_true.mp hgood b hb)
    exact exec_routeWrite_good ht hlen hall
  · have hgood : ∀ x ∈ before, x.toNat = 255 ∨ (x.toNat < 64 ∧ x.toNat % 32 < 16) := fun x hx => of_decide_eq_true (List.all_eq_true.mp hbefore x hx)
    have hroutes : takeRoutes c.payload 0 = .error before.length := by
      rw [hp, takeRoutes_invalid before hgood b (of_decide_eq_false hb) after, Nat.zero_add]
    refine congrArg Host.Outcome.next (commandRow_replies ht rfl rfl ?_)
    rw [actRouteWrite, checkedLength_taken ht (by simp [lengthRight, hlen])]
    simp only [hroutes]

/-! ### CUE_SELECT (R145) -/

theorem cueMixOf_eq (b : Byte) :
    cueMixOf b.toNat = if 15 < b.toNat ∧ b.toNat ≠ 255 then none else some (if b.toNat = 255 then none else some b.toNat) := by
  unfold cueMixOf
  by_cases h : b.toNat < 16
  · rw [if_pos h, if_neg (by omega), if_neg (by omega)]
  · by_cases h255 : b.toNat = 255
    · rw [if_neg h, if_pos h255, if_neg (by omega), if_pos h255]
    · rw [if_neg h, if_neg h255, if_pos ⟨by omega, h255⟩]

/-- A cue mix code taken is the code sent (R145). -/
theorem octet_cueMix (b : Byte) : octet ((if b.toNat = 255 then none else some b.toNat : Option Nat).getD 255) = b := by
  split
  · next h => exact BitVec.eq_of_toNat_eq (by simp [octet, h])
  · exact octet_of_toNat b

/-- Settles O50: the checks in their order, and the selection. -/
theorem cueSelectActs : Obligations.CueSelectActs := by
  intro s src c k l r ht hp
  have hact (u : State) : actCueSelect c u =
      if 15 < k.toNat ∧ k.toNat ≠ 255 then (u, some (.refuse .refusedMix []))
      else if 63 < l.toNat ∨ 63 < r.toNat ∨ l = r then (u, some (.refuse .refusedValue []))
      else
        (u.withTx { u.tx with cueMix := if k.toNat = 255 then none else some k.toNat, cueLeft := l.toNat, cueRight := r.toNat },
          some (.done [octet (u.tx.cueMix.getD 255), octet u.tx.cueLeft, octet u.tx.cueRight, k, l, r])) := by
    rw [actCueSelect, checkedLength_taken ht (by rw [hp]; rfl)]
    have h0 : at8 c.payload 0 = k.toNat := by rw [hp]; rfl
    have h1 : at8 c.payload 1 = l.toNat := by rw [hp]; rfl
    have h2 : at8 c.payload 2 = r.toNat := by rw [hp]; rfl
    simp only [h0, h1, h2, cueMixOf_eq, BitVec.toNat_inj]
    by_cases hk : 15 < k.toNat ∧ k.toNat ≠ 255
    · rw [if_pos hk, if_pos hk]
    · rw [if_neg hk, if_neg hk]
      simp only [Transmitter.cueOctets, octet_cueMix, octet_of_toNat]
      rfl
  by_cases hk : 15 < k.toNat ∧ k.toNat ≠ 255
  · rw [if_pos hk]
    exact congrArg Host.Outcome.next (commandRow_replies ht rfl rfl (by rw [hact, if_pos hk]; rfl))
  by_cases hl : 63 < l.toNat ∨ 63 < r.toNat ∨ l = r
  · rw [if_neg hk, if_pos hl]
    exact congrArg Host.Outcome.next (commandRow_replies ht rfl rfl (by rw [hact, if_neg hk, if_pos hl]; rfl))
  · rw [if_neg hk, if_neg hl]
    exact congrArg Host.Outcome.next (commandRow_replies ht rfl rfl (by rw [hact, if_neg hk, if_neg hl]; rfl))

/-! ### COMMIT, CANCEL and DISCARD (R122 to R126, R131) -/

/-- The first octet of a payload that asks for the first row of its kind's two (section 12.2). -/
theorem asksOne_cons (b : Byte) (rest : List Byte) : asksOne (b :: rest) = decide (b.toNat = 1) := by
  rw [Bool.eq_iff_iff, decide_eq_true_eq]
  simp [asksOne, ← BitVec.toNat_inj]

/-- COMMIT with any request but NEXT, by its checks in order and the distance (R123, R124). -/
theorem actCommitAtFrame_eq {c : Command} (hl : lengthRight c.kind c.payload = true) {n : FrameNo} (hn : BitVec.ofNat 16 (at16 c.payload 1) = n) (u : State) :
    actCommitAtFrame c u =
      if at8 c.payload 0 ≠ 0 then (u, some (refuseCommit .refusedValue u))
      else if u.staging.slot ≠ .disarmed then (u, some (refuseCommit .refusedArmed u))
      else if 1 ≤ (n - u.rx.localFrame).toNat ∧ (n - u.rx.localFrame).toNat ≤ 32767 then
        (u.withStaging { u.staging with slot := .armed (.frame n) (.atFrame n false) },
          some (.done (commitOctets c.payload (n - u.rx.localFrame).toNat u)))
      else
        (u.withStaging { u.staging with slot := .armed .nextDelivery (.atFrame n true) },
          some { result := .doneLate, clamped := false, item := none, data := commitOctets c.payload (n - u.rx.localFrame).toNat u }) := by
  rw [actCommitAtFrame, checkedLength_right hl]
  by_cases h : at8 c.payload 0 = 0
  · rw [if_neg (not_not.mpr h)]
    simp only [h, hn, if_true, slotAtFrame]
    cases u.staging.slot with
    | disarmed =>
      dsimp only
      split <;> rfl
    | armed trigger request => rfl
  · rw [if_pos h, if_neg h]

/-- COMMIT NEXT, by its check (R123, R124). -/
theorem actCommitNext_eq {c : Command} (hl : lengthRight c.kind c.payload = true) (u : State) :
    actCommitNext c u =
      if u.staging.slot ≠ .disarmed then (u, some (refuseCommit .refusedArmed u))
      else (u.withStaging { u.staging with slot := .armed .nextDelivery .next }, some (.done (commitOctets c.payload 0 u))) := by
  rw [actCommitNext, checkedLength_right hl]
  dsimp only
  cases u.staging.slot <;> rfl

theorem commitOctets_three (request a b : Byte) (distance : Nat) (u : State) :
    commitOctets [request, a, b] distance u =
      [request, a, b, octet (distance / 256), octet distance, octet (u.rx.localFrame.toNat / 256), octet u.rx.localFrame.toNat,
        octet u.staging.queue.length] := by
  simp only [commitOctets, be_two]
  rfl

/-- Settles O51: by the request, the slot and the distance. -/
theorem commitArms : Obligations.CommitArms := by
  intro s src c request a b ht hp
  have hl : lengthRight c.kind c.payload = true := by rw [State.takes_kind ht, hp]; rfl
  have h0 : at8 [request, a, b] 0 = request.toNat := rfl
  have hn : at16 c.payload 1 = word2 a b := by rw [hp, at16_one]
  refine ⟨fun hr => ?_, fun hr => ?_⟩
  · have hrow : notOne c.payload = true := by rw [hp, notOne, asksOne_cons, decide_eq_false hr]; rfl
    have hact := actCommitAtFrame_eq hl (congrArg (BitVec.ofNat 16) hn) (s.beginCommand c)
    simp only [hp, h0, commitOctets_three, State.beginCommand_staging, State.beginCommand_rx] at hact
    by_cases h1 : 1 < request.toNat
    · rw [if_pos h1]
      rw [if_pos (by omega)] at hact
      exact congrArg Host.Outcome.next (commandRow_replies ht hrow rfl hact)
    rw [if_neg h1]
    rw [if_neg (by omega)] at hact
    by_cases hs : s.staging.slot ≠ .disarmed
    · rw [if_pos hs]
      rw [if_pos hs] at hact
      exact congrArg Host.Outcome.next (commandRow_replies ht hrow rfl hact)
    rw [if_neg hs]
    rw [if_neg hs] at hact
    by_cases hd : 1 ≤ (BitVec.ofNat 16 (word2 a b) - s.rx.localFrame).toNat ∧ (BitVec.ofNat 16 (word2 a b) - s.rx.localFrame).toNat ≤ 32767
    · rw [if_pos hd]
      rw [if_pos hd] at hact
      exact congrArg Host.Outcome.next (commandRow_replies ht hrow rfl hact)
    · rw [if_neg hd]
      rw [if_neg hd] at hact
      exact congrArg Host.Outcome.next (commandRow_replies ht hrow rfl hact)
  · have hrow : asksOne c.payload = true := by rw [hp, asksOne_cons, decide_eq_true hr]
    have hact := actCommitNext_eq hl (s.beginCommand c)
    simp only [hp, commitOctets_three, State.beginCommand_staging, State.beginCommand_rx] at hact
    by_cases hs : s.staging.slot ≠ .disarmed
    · rw [if_pos hs]
      rw [if_pos hs] at hact
      exact congrArg Host.Outcome.next (commandRow_replies ht hrow rfl hact)
    · rw [if_neg hs]
      rw [if_neg hs] at hact
      exact congrArg Host.Outcome.next (commandRow_replies ht hrow rfl hact)

/-- CANCEL, by the slot (R131). -/
theorem actCancel_eq {c : Command} (hl : lengthRight c.kind c.payload = true) (u : State) :
    actCancel c u =
      if u.staging.slot = .disarmed then (u, some (.refuse .refusedNotArmed []))
      else
        (u.withStaging { u.staging with slot := .disarmed }, some (.done (u.staging.slot.octets ++ [octet u.staging.queue.length]))) := by
  rw [actCancel, checkedLength_right hl]
  dsimp only
  cases u.staging.slot <;> rfl

/-- Settles O52: by the slot. -/
theorem cancelAndDiscardAct : Obligations.CancelAndDiscardAct := by
  refine ⟨fun s src c ht hp => ?_, fun s src c ht hp => ?_⟩
  · have hact := actCancel_eq (c := c) (by rw [State.takes_kind ht, hp]; rfl) (s.beginCommand c)
    rw [State.beginCommand_staging] at hact
    by_cases hs : s.staging.slot = .disarmed
    · rw [if_pos hs]
      rw [if_pos hs] at hact
      exact congrArg Host.Outcome.next (commandRow_replies ht rfl rfl hact)
    · rw [if_neg hs]
      rw [if_neg hs] at hact
      exact congrArg Host.Outcome.next (commandRow_replies ht rfl rfl hact)
  · refine congrArg Host.Outcome.next (commandRow_replies ht rfl rfl ?_)
    rw [actDiscard, checkedLength_taken ht (by rw [hp]; rfl)]
    rfl

/-! ### FLAGS_READ and FLAGS_CLEAR (R113 to R115) -/

theorem captureKind_eq (x : Option Capture) : captureKind x = if x = none then 0 else 1 := by
  cases x <;> rfl

/-- Settles O53: the flags as they stand, and the cleared ones. -/
theorem flagsReadAndClear : Obligations.FlagsReadAndClear := by
  intro s src c k echo option
  refine ⟨fun ht hp => ?_, fun ht hp => ?_⟩
  · have h0 : at8 c.payload 0 = k.toNat := by rw [hp]; rfl
    refine congrArg Host.Outcome.next (commandRow_replies ht rfl rfl ?_)
    rw [actFlagsRead, checkedLength_taken ht (by rw [hp]; rfl)]
    simp only [h0]
    split <;> rfl
  · have h0 : at8 c.payload 0 = k.toNat := by rw [hp]; rfl
    have h1 : c.payload.getD 1 0 = echo := by rw [hp]; rfl
    have h2 : at8 c.payload 2 = option.toNat := by rw [hp]; rfl
    have hact (u : State) : actFlagsClear c u =
        if 15 < k.toNat then (u, some (.refuse .refusedMix []))
        else if 1 < option.toNat then (u, some (.refuse .refusedValue []))
        else
          (u.withTable (u.table.setMix k.toNat ((u.table.mix k.toNat).clearFlags (Flags.ofOctet echo) (option.toNat == 1))),
            some (.done ([(u.table.mix k.toNat).accrued.octet, ((u.table.mix k.toNat).accrued.without (Flags.ofOctet echo)).octet,
              captureKind (u.table.mix k.toNat).capture, captureKind (if option.toNat = 1 then none else (u.table.mix k.toNat).capture)] ++
                captureOctets (if option.toNat = 1 then (u.table.mix k.toNat).capture else none)))) := by
      rw [actFlagsClear, checkedLength_taken ht (by rw [hp]; rfl)]
      simp only [h0, h1, h2, Mix.clearFlags, beq_iff_eq]
    have hstep := hact (s.beginCommand c)
    by_cases hk : 15 < k.toNat
    · rw [if_pos hk]
      rw [if_pos hk] at hstep
      exact congrArg Host.Outcome.next (commandRow_replies ht rfl rfl hstep)
    rw [if_neg hk]
    rw [if_neg hk] at hstep
    by_cases ho : 1 < option.toNat
    · rw [if_pos ho]
      rw [if_pos ho] at hstep
      exact congrArg Host.Outcome.next (commandRow_replies ht rfl rfl hstep)
    rw [if_neg ho]
    rw [if_neg ho] at hstep
    simp only [Mix.clearFlags, beq_iff_eq, captureKind_eq] at hstep
    exact congrArg Host.Outcome.next (commandRow_replies ht rfl rfl hstep)

/-! ### POWER (R28, R166, R167) -/

theorem Fade.startClose_eq {fd : Fade} (h : fd.state ≠ .shut) : fd.startClose = { fd with state := .closing } := by
  unfold Fade.startClose
  split
  · rfl
  · rfl
  · next hs => rw [← hs]
  · next hs => exact absurd hs h

/-- Settles O54: by the request, the power state and the fade. -/
theorem powerActs : Obligations.PowerActs := by
  intro s src c request ht hp hpower
  have hl : lengthRight c.kind c.payload = true := by rw [State.takes_kind ht, hp]; rfl
  have hrun (hq : s.intake.power ≠ .quiet) : s.intake.power = .run := by
    cases h : s.intake.power
    · rfl
    · exact absurd h hpower
    · exact absurd h hq
  refine ⟨fun hr => ⟨s.drawBegun, ?_⟩, fun hr => ?_⟩
  · obtain ⟨hlow, hhigh, hmost⟩ := s.drawBegun_bounds
    refine ⟨hlow, hhigh, hhigh.trans hmost, ?_⟩
    have hrow : asksOne c.payload = true := by rw [hp, asksOne_cons, decide_eq_true hr]
    by_cases hq : s.intake.power = .quiet
    · rw [if_pos hq]
      refine congrArg Host.Outcome.next (commandRow_replies ht hrow rfl ?_)
      simp only [actPowerQuiet, checkedLength_right hl, State.beginCommand_power, hq]
      rfl
    rw [if_neg hq]
    have hrun := hrun hq
    by_cases hf : s.fade.state = .shut
    · rw [if_pos hf]
      refine congrArg Host.Outcome.next (commandRow_replies ht hrow rfl ?_)
      simp only [actPowerQuiet, checkedLength_right hl, State.beginCommand_power, State.beginCommand_fade, hrun, hf, if_true]
      rfl
    · rw [if_neg hf]
      refine congrArg Host.Outcome.next ((commandRow_takes _ ht hrow).trans ?_)
      have hact : actPowerQuiet c (s.beginCommand c) =
          (((s.beginCommand c).withIntake { (s.beginCommand c).intake with power := .quiescing }).withFade { s.fade with state := .closing }, none) := by
        simp only [actPowerQuiet, checkedLength_right hl, State.beginCommand_power, State.beginCommand_fade, hrun, hf, if_false, Fade.startClose_eq hf]
      rw [State.takeCommand, hact]
      rfl
  · have hrow : (!asksOne c.payload) = true := by rw [hp, asksOne_cons, decide_eq_false hr]; rfl
    have h0 : at8 c.payload 0 = request.toNat := by rw [hp]; rfl
    by_cases hreq : request.toNat = 0
    · rw [if_neg (not_not.mpr hreq)]
      by_cases hq : s.intake.power = .quiet
      · rw [if_pos hq]
        refine congrArg Host.Outcome.next (commandRow_replies ht hrow rfl ?_)
        simp only [actPowerRun, checkedLength_right hl, h0, hreq, if_true, State.beginCommand_power, hq]
        rfl
      · rw [if_neg hq]
        have hrun := hrun hq
        refine congrArg Host.Outcome.next (commandRow_replies ht hrow rfl ?_)
        simp only [actPowerRun, checkedLength_right hl, h0, hreq, if_true, State.beginCommand_power, hrun]
        rfl
    · rw [if_pos hreq]
      refine congrArg Host.Outcome.next (commandRow_replies ht hrow rfl ?_)
      simp only [actPowerRun, checkedLength_right hl, h0, hreq, if_false]
      rfl

end Sys2Proof.Machine
end

section
/-!
PROOFS. The commands on mix records: MIX_WRITE, MIX_READ, GROUP_MUTE and ENTRY_READ (R54, R55, R62 to R71).
-/

namespace Sys2Proof.Machine

/-! ### Mix and mode (R46, R51, R53, R62, R71) -/

/-- The second octet of a payload with a mode names the STAGED row (section 12.2). -/
theorem isStaged_cons (k mode : Byte) (rest : List Byte) : isStaged (k :: mode :: rest) = decide (mode.toNat = 1) := by
  rw [Bool.eq_iff_iff, decide_eq_true_eq]
  simp [isStaged, ← BitVec.toNat_inj]

theorem notStaged_cons {k mode : Byte} (h : mode.toNat ≠ 1) (rest : List Byte) : notStaged (k :: mode :: rest) = true := by
  rw [notStaged, isStaged_cons, decide_eq_false h]
  rfl

theorem mixAndMode_badMix {k : Byte} (h : 15 < k.toNat) (mode : Byte) (rest : List Byte) : mixAndMode (k :: mode :: rest) = some .refusedMix := if_pos h

theorem mixAndMode_badMode {k mode : Byte} (hk : k.toNat ≤ 15) (h : 1 < mode.toNat) (rest : List Byte) :
    mixAndMode (k :: mode :: rest) = some .refusedValue :=
  (if_neg (show ¬15 < k.toNat by omega)).trans (if_pos h)

theorem mixAndMode_good {k mode : Byte} (hk : k.toNat ≤ 15) (h : mode.toNat ≤ 1) (rest : List Byte) : mixAndMode (k :: mode :: rest) = none :=
  (if_neg (show ¬15 < k.toNat by omega)).trans (if_neg (show ¬1 < mode.toNat by omega))

/-! ### MIX_WRITE (R62, R63, R65) -/

theorem mixWriteChecks_refused {p : List Byte} {r : Result} (h : mixAndMode p = some r) : mixWriteChecks p = .error (.refuse r []) := by
  rw [mixWriteChecks, h]

theorem mixWriteChecks_badField {p : List Byte} {index : Nat} (h : mixAndMode p = none) (hs : takeSettings (p.drop 2) = .error index) :
    mixWriteChecks p = .error { result := .refusedValue, clamped := false, item := some index, data := [] } := by
  rw [mixWriteChecks, h]
  dsimp only
  rw [hs]

theorem mixWriteChecks_good {p : List Byte} {taken : Settings × Bool} (h : mixAndMode p = none) (hs : takeSettings (p.drop 2) = .ok taken) :
    mixWriteChecks p = .ok taken := by
  rw [mixWriteChecks, h]
  dsimp only
  rw [hs]

theorem actMixWrite_refused {c : Command} (hl : lengthRight c.kind c.payload = true) {a : Answer} (h : mixWriteChecks c.payload = .error a) (u : State) :
    actMixWrite c u = (u, some a) := by
  rw [actMixWrite, checkedLength_right hl]
  rw [h]

theorem actMixWriteStaged_refused {c : Command} (hl : lengthRight c.kind c.payload = true) {a : Answer} (h : mixWriteChecks c.payload = .error a)
    (u : State) : actMixWriteStaged c u = (u, some a) := by
  rw [actMixWriteStaged, checkedLength_right hl]
  rw [h]

theorem actMixWrite_good {c : Command} (hl : lengthRight c.kind c.payload = true) {taken : Settings × Bool} (h : mixWriteChecks c.payload = .ok taken)
    (u : State) :
    actMixWrite c u =
      (u.withTable (u.table.replaceSettings (at8 c.payload 0) taken.1),
        some { result := .done, clamped := taken.2, item := none, data := taken.1.octets }) := by
  rw [actMixWrite, checkedLength_right hl]
  rw [h]

/-- A MIX_WRITE's payload: mix, mode and the 25 octets of the record (section 12.2). -/
theorem lengthRight_mixWrite {c : Command} {k mode : Byte} {r : List Byte} (hk : c.kind = 0x07) (hp : c.payload = k :: mode :: r) (hr : r.length = 25) :
    lengthRight c.kind c.payload = true := by
  rw [hk, hp]
  simp [lengthRight, hr]

theorem exec_mixWriteStaged_refused {s : State} {src : CommandSource} {c : Command} {k : Byte} {r : List Byte} (ht : s.takes src 0x07 c)
    (hp : c.payload = k :: 1 :: r) (hr : r.length = 25) {a : Answer} (h : mixWriteChecks (k :: 1 :: r) = .error a) :
    exec (.mixWriteStaged src) s = .next (s.replied c a) :=
  congrArg Host.Outcome.next
    (commandRow_replies ht (by rw [hp, isStaged_cons]; rfl) rfl
      (actMixWriteStaged_refused (lengthRight_mixWrite (State.takes_kind ht) hp hr) (by rw [hp]; exact h) _))

/-! ### GROUP_MUTE (R71) -/

theorem actGroupMute_refused {c : Command} (hl : lengthRight c.kind c.payload = true) {r : Result} (h : mixAndMode c.payload = some r) (u : State) :
    actGroupMute c u = (u, some (.refuse r [])) := by
  rw [actGroupMute, checkedLength_right hl]
  dsimp only
  rw [h]

theorem actGroupMuteStaged_refused {c : Command} (hl : lengthRight c.kind c.payload = true) {r : Result} (h : mixAndMode c.payload = some r) (u : State) :
    actGroupMuteStaged c u = (u, some (.refuse r [])) := by
  rw [actGroupMuteStaged, checkedLength_right hl]
  rw [h]

theorem actGroupMute_good {c : Command} (hl : lengthRight c.kind c.payload = true) (h : mixAndMode c.payload = none) (u : State) :
    actGroupMute c u =
      (u.withTable (u.table.setGroupMutes (at8 c.payload 0) (c.payload.getD 2 0)),
        some (.done [(u.table.mix (at8 c.payload 0)).cfg.groupMutes, c.payload.getD 2 0])) := by
  rw [actGroupMute, checkedLength_right hl]
  dsimp only
  rw [h]

/-- Settles O42: by the checks in their order; the replaced record and its effects are `Mix.replaceSettings_eq`. -/
theorem mixWriteAndGroupMuteAct : Obligations.MixWriteAndGroupMuteAct := by
  refine ⟨fun s src c k mode r ht hp hr hmode => ?_, fun s src c k mode mask ht hp hmode => ?_, fun s src c k r ht hp hr => ⟨fun hk => ?_, fun index hk hs => ?_⟩,
    fun s src c k mask ht hp hk => ?_⟩
  · have hl := lengthRight_mixWrite (State.takes_kind ht) hp hr
    have hrow : notStaged c.payload = true := by rw [hp]; exact notStaged_cons hmode _
    by_cases hk : 15 < k.toNat
    · rw [if_pos hk]
      exact congrArg Host.Outcome.next
        (commandRow_replies ht hrow rfl (actMixWrite_refused hl (mixWriteChecks_refused (by rw [hp]; exact mixAndMode_badMix hk _ _)) _))
    rw [if_neg hk]
    by_cases hm : mode.toNat ≠ 0
    · rw [if_pos hm]
      exact congrArg Host.Outcome.next
        (commandRow_replies ht hrow rfl
          (actMixWrite_refused hl (mixWriteChecks_refused (by rw [hp]; exact mixAndMode_badMode (by omega) (by omega) _)) _))
    rw [if_neg hm]
    have hgood : mixAndMode c.payload = none := by rw [hp]; exact mixAndMode_good (by omega) (by omega) _
    have hdrop : c.payload.drop 2 = r := by rw [hp]; rfl
    cases hs : takeSettings r with
    | error index =>
      exact congrArg Host.Outcome.next
        (commandRow_replies ht hrow rfl (actMixWrite_refused hl (mixWriteChecks_badField hgood (by rw [hdrop, hs])) _))
    | ok taken =>
      have hact := actMixWrite_good hl (mixWriteChecks_good hgood (by rw [hdrop, hs])) (s.beginCommand c)
      have h0 : at8 c.payload 0 = k.toNat := by rw [hp]; rfl
      rw [h0, MixTable.replaceSettings, Mix.replaceSettings_eq, State.beginCommand_table] at hact
      exact congrArg Host.Outcome.next (commandRow_replies ht hrow rfl hact)
  · have hl : lengthRight c.kind c.payload = true := by rw [State.takes_kind ht, hp]; rfl
    have hrow : notStaged c.payload = true := by rw [hp]; exact notStaged_cons hmode _
    by_cases hk : 15 < k.toNat
    · rw [if_pos hk]
      exact congrArg Host.Outcome.next (commandRow_replies ht hrow rfl (actGroupMute_refused hl (by rw [hp]; exact mixAndMode_badMix hk _ _) _))
    rw [if_neg hk]
    by_cases hm : mode.toNat ≠ 0
    · rw [if_pos hm]
      exact congrArg Host.Outcome.next
        (commandRow_replies ht hrow rfl (actGroupMute_refused hl (by rw [hp]; exact mixAndMode_badMode (by omega) (by omega) _) _))
    rw [if_neg hm]
    have hact := actGroupMute_good hl (by rw [hp]; exact mixAndMode_good (by omega) (by omega) _) (s.beginCommand c)
    simp only [hp] at hact
    exact congrArg Host.Outcome.next (commandRow_replies ht hrow rfl hact)
  · exact exec_mixWriteStaged_refused ht hp hr (mixWriteChecks_refused (mixAndMode_badMix hk _ _))
  · exact exec_mixWriteStaged_refused ht hp hr (mixWriteChecks_badField (mixAndMode_good hk (by decide) _) hs)
  · exact congrArg Host.Outcome.next
      (commandRow_replies ht (by rw [hp, isStaged_cons]; rfl) rfl
        (actGroupMuteStaged_refused (by rw [State.takes_kind ht, hp]; rfl) (by rw [hp]; exact mixAndMode_badMix hk _ _) _))

/-! ### MIX_READ and ENTRY_READ (R54, R55, R66) -/

theorem mixReadOctets_eq (m : Mix) :
    mixReadOctets m =
      m.cfg.octets ++
          [octet (m.mc / 256), octet m.mc, octet (m.duck / 256), octet m.duck, octet (m.hold / 256), octet m.hold, octet m.engaged.toNat,
            octet (m.lg / 256), octet m.lg, octet m.list.length] ++
        beInt 3 m.yL ++ beInt 3 m.yR := by
  simp only [mixReadOctets, be_two, List.append_assoc, List.cons_append, List.nil_append]

theorem Entry.octets_eq (e : Entry) :
    e.octets =
      [octet e.source, octet (e.group.getD 15 + (if e.mute then 16 else 0) + (if e.state = .retiring then 32 else 0)), octet (e.gL / 256), octet e.gL,
        octet (e.gR / 256), octet e.gR, octet (e.cL / 256), octet e.cL, octet (e.cR / 256), octet e.cR] := by
  have hattributes : e.attributes = octet (e.group.getD 15 + (if e.mute then 16 else 0) + (if e.state = .retiring then 32 else 0)) := by
    unfold Entry.attributes
    cases e.mute <;> cases e.state <;> rfl
  simp only [Entry.octets, be_two, hattributes]
  rfl

theorem readStretch_length (l : List Entry) (start count : Nat) :
    (readStretch l start count).length = min (if count = 0 ∨ 20 < count then 20 else count) (l.length - start) := by
  simp [readStretch]

/-- Settles O43: the two answers, octet by octet. -/
theorem mixReadAndEntryReadAnswer : Obligations.MixReadAndEntryReadAnswer := by
  refine ⟨fun s src c k ht hp => ?_, fun s src c k start count ht hp => ?_⟩
  · have h0 : at8 c.payload 0 = k.toNat := by rw [hp]; rfl
    refine congrArg Host.Outcome.next (commandRow_replies ht rfl rfl ?_)
    rw [actMixRead, checkedLength_taken ht (by rw [hp]; rfl)]
    simp only [h0, mixReadOctets_eq]
    split <;> rfl
  · have h0 : at8 c.payload 0 = k.toNat := by rw [hp]; rfl
    have h1 : at8 c.payload 1 = start.toNat := by rw [hp]; rfl
    have h2 : at8 c.payload 2 = count.toNat := by rw [hp]; rfl
    refine congrArg Host.Outcome.next (commandRow_replies ht rfl rfl ?_)
    rw [actEntryRead, checkedLength_taken ht (by rw [hp]; rfl)]
    simp only [h0, h1, h2, octet_of_toNat, readStretch_length]
    split
    · rfl
    · simp only [readStretch, ← Entry.octets_eq]
      rfl

end Sys2Proof.Machine
end

section
/-!
PROOFS. The commands on lists: ENTRY_WRITE, ENTRY_REMOVE and MIX_CLEAR, IMMEDIATE and STAGED, and the five STAGED commands' records (R46 to R53, R119 to R121).
-/

namespace Sys2Proof.Machine

/-! ### The checks, on a payload written out -/

/-- The list length and the free count that the replies carry, the two octets of the count written out. -/
theorem listAndFree_eq (s : State) (p : List Byte) :
    listAndFree s p =
      [octet (if 15 < at8 p 0 then 0 else (s.table.mix (at8 p 0)).list.length), octet (s.table.free / 256), octet s.table.free] := by
  rw [listAndFree, be_two]
  rfl

theorem entryWriteChecks_refused {s : State} {p : List Byte} {r : Result} (h : mixAndMode p = some r) :
    entryWriteChecks s p = .error (.refuse r ([0, 0, 0] ++ listAndFree s p)) := by
  rw [entryWriteChecks, h]

theorem entryWriteChecks_badCount {s : State} {p : List Byte} (h : mixAndMode p = none) (hc : 32 < at8 p 2) :
    entryWriteChecks s p = .error (.refuse .refusedValue ([0, 0, 0] ++ listAndFree s p)) := by
  rw [entryWriteChecks, h]
  exact if_pos hc

theorem entryWriteChecks_badRecord {s : State} {p : List Byte} {index : Nat} (h : mixAndMode p = none) (hc : at8 p 2 ≤ 32)
    (ht : takeEntries p 0 (at8 p 2) = .error index) :
    entryWriteChecks s p = .error { result := .refusedValue, clamped := false, item := some index, data := [0, 0, 0] ++ listAndFree s p } := by
  rw [entryWriteChecks, h]
  dsimp only
  rw [if_neg (by omega), ht]

theorem entryWriteChecks_good {s : State} {p : List Byte} {taken : List EntryValues × Bool} (h : mixAndMode p = none) (hc : at8 p 2 ≤ 32)
    (ht : takeEntries p 0 (at8 p 2) = .ok taken) : entryWriteChecks s p = .ok taken := by
  rw [entryWriteChecks, h]
  dsimp only
  rw [if_neg (by omega), ht]

theorem entryRemoveChecks_refused {s : State} {p : List Byte} {r : Result} (h : mixAndMode p = some r) :
    entryRemoveChecks s p = .error (.refuse r ([0, 0, 0] ++ listAndFree s p)) := by
  rw [entryRemoveChecks, h]

theorem entryRemoveChecks_badCount {s : State} {p : List Byte} (h : mixAndMode p = none) (hc : at8 p 2 = 0 ∨ 32 < at8 p 2) :
    entryRemoveChecks s p = .error (.refuse .refusedValue ([0, 0, 0] ++ listAndFree s p)) := by
  rw [entryRemoveChecks, h]
  exact if_pos hc

theorem entryRemoveChecks_badSource {s : State} {p : List Byte} {index : Nat} (h : mixAndMode p = none) (hc : ¬(at8 p 2 = 0 ∨ 32 < at8 p 2))
    (ht : takeSources p 0 (at8 p 2) = .error index) :
    entryRemoveChecks s p = .error { result := .refusedValue, clamped := false, item := some index, data := [0, 0, 0] ++ listAndFree s p } := by
  rw [entryRemoveChecks, h]
  dsimp only
  rw [if_neg hc, ht]

theorem entryRemoveChecks_good {s : State} {p : List Byte} {sources : List Nat} (h : mixAndMode p = none) (hc : ¬(at8 p 2 = 0 ∨ 32 < at8 p 2))
    (ht : takeSources p 0 (at8 p 2) = .ok sources) : entryRemoveChecks s p = .ok sources := by
  rw [entryRemoveChecks, h]
  dsimp only
  rw [if_neg hc, ht]

/-- An ENTRY_WRITE's payload: mix, mode, count and the records (section 12.2). -/
theorem lengthRight_entryWrite {c : Command} {k mode : Byte} {ws : List WireRecord} (hk : c.kind = 0x09) (hw : ws.length ≤ 39)
    (hp : c.payload = k :: mode :: octet ws.length :: ws.flatMap WireRecord.octets) : lengthRight c.kind c.payload = true := by
  have hcount : (octet ws.length).toNat = ws.length := octet_toNat (by omega)
  rw [hk, hp]
  simp [lengthRight, at8, -List.length_flatMap, WireRecord.octets_flatMap_length, hcount]
  omega

/-- An ENTRY_REMOVE's payload: mix, mode, count and the sources (section 12.2). -/
theorem lengthRight_entryRemove {c : Command} {k mode : Byte} {sources : List Byte} (hk : c.kind = 0x0A) (hs : sources.length ≤ 237)
    (hp : c.payload = k :: mode :: octet sources.length :: sources) : lengthRight c.kind c.payload = true := by
  have hcount : (octet sources.length).toNat = sources.length := octet_toNat (by omega)
  rw [hk, hp]
  simp [lengthRight, at8, hcount]
  omega

/-- The records of an ENTRY_WRITE, all good (R46). -/
theorem takeEntries_payload (k mode n : Byte) {ws : List WireRecord} (h : ∀ w ∈ ws, w.valid) :
    takeEntries (k :: mode :: n :: ws.flatMap WireRecord.octets) 0 ws.length = .ok (ws.map (·.values), ws.any (·.clamped)) :=
  takeEntries_valid [k, mode, n] rfl ws h []

/-- The first bad record of an ENTRY_WRITE (R46). -/
theorem takeEntries_payload_bad (k mode n : Byte) {before : List WireRecord} (h : ∀ w ∈ before, w.valid) {w : WireRecord} (hw : ¬w.valid)
    (after : List WireRecord) :
    takeEntries (k :: mode :: n :: (before ++ w :: after).flatMap WireRecord.octets) 0 (before ++ w :: after).length = .error before.length := by
  have := takeEntries_invalid [k, mode, n] rfl before h w hw after []
  rwa [List.length_nil, Nat.zero_add] at this

/-- The sources of an ENTRY_REMOVE, all good (R51). -/
theorem takeSources_payload (k mode n : Byte) {sources : List Byte} (h : ∀ x ∈ sources, x.toNat ≤ 63) :
    takeSources (k :: mode :: n :: sources) 0 sources.length = .ok (sources.map (·.toNat)) :=
  takeSources_valid [k, mode, n] rfl sources h []

/-- The first bad source of an ENTRY_REMOVE (R51). -/
theorem takeSources_payload_bad (k mode n : Byte) {before : List Byte} (h : ∀ x ∈ before, x.toNat ≤ 63) {x : Byte} (hx : 63 < x.toNat) (after : List Byte) :
    takeSources (k :: mode :: n :: (before ++ x :: after)) 0 (before ++ x :: after).length = .error before.length := by
  have := takeSources_invalid [k, mode, n] rfl before h x hx after []
  rwa [List.length_nil, Nat.zero_add] at this

/-! ### What the rows' actions do after their checks -/

section

variable {c : Command} (hl : lengthRight c.kind c.payload = true) (u : State)
include hl

theorem actEntryWrite_refused {a : Answer} (h : entryWriteChecks u c.payload = .error a) : actEntryWrite c u = (u, some a) := by
  rw [actEntryWrite, checkedLength_right hl, h]

theorem actEntryWriteStaged_refused {a : Answer} (h : entryWriteChecks u c.payload = .error a) : actEntryWriteStaged c u = (u, some a) := by
  rw [actEntryWriteStaged, checkedLength_right hl, h]

theorem actEntryRemove_refused {a : Answer} (h : entryRemoveChecks u c.payload = .error a) : actEntryRemove c u = (u, some a) := by
  rw [actEntryRemove, checkedLength_right hl, h]

theorem actEntryRemoveStaged_refused {a : Answer} (h : entryRemoveChecks u c.payload = .error a) : actEntryRemoveStaged c u = (u, some a) := by
  rw [actEntryRemoveStaged, checkedLength_right hl, h]

theorem actMixClear_refused {r : Result} (h : mixAndMode c.payload = some r) :
    actMixClear c u = (u, some (.refuse r ([0, 0] ++ listAndFree u c.payload))) := by
  rw [actMixClear, checkedLength_right hl, h]

theorem actMixClearStaged_refused {r : Result} (h : mixAndMode c.payload = some r) :
    actMixClearStaged c u = (u, some (.refuse r ([0, 0] ++ listAndFree u c.payload))) := by
  rw [actMixClearStaged, checkedLength_right hl, h]

end

/-! ### Refusals (R46, R50 to R53) -/

/-- A refused ENTRY_WRITE of either mode leaves the unit with the refusal. -/
theorem exec_entryWrite_refused {s : State} {src : CommandSource} {i : Instr} {c : Command} {k mode : Byte} {ws : List WireRecord}
    (ht : s.takes src 0x09 c) (hw : ws.length ≤ 39) (hp : c.payload = k :: mode :: octet ws.length :: ws.flatMap WireRecord.octets)
    (hi : i = if mode.toNat = 1 then .entryWriteStaged src else .entryWrite src) {a : Answer}
    (h : entryWriteChecks (s.beginCommand c) c.payload = .error a) : exec i s = .next (s.replied c a) := by
  have hl := lengthRight_entryWrite (State.takes_kind ht) hw hp
  subst hi
  by_cases hm : mode.toNat = 1
  · rw [if_pos hm]
    exact congrArg Host.Outcome.next
      (commandRow_replies ht (by rw [hp, isStaged_cons, decide_eq_true hm]) rfl (actEntryWriteStaged_refused hl _ h))
  · rw [if_neg hm]
    exact congrArg Host.Outcome.next (commandRow_replies ht (by rw [hp]; exact notStaged_cons hm _) rfl (actEntryWrite_refused hl _ h))

/-- A refused ENTRY_REMOVE of either mode leaves the unit with the refusal. -/
theorem exec_entryRemove_refused {s : State} {src : CommandSource} {i : Instr} {c : Command} {k mode : Byte} {sources : List Byte}
    (ht : s.takes src 0x0A c) (hs : sources.length ≤ 237) (hp : c.payload = k :: mode :: octet sources.length :: sources)
    (hi : i = if mode.toNat = 1 then .entryRemoveStaged src else .entryRemove src) {a : Answer}
    (h : entryRemoveChecks (s.beginCommand c) c.payload = .error a) : exec i s = .next (s.replied c a) := by
  have hl := lengthRight_entryRemove (State.takes_kind ht) hs hp
  subst hi
  by_cases hm : mode.toNat = 1
  · rw [if_pos hm]
    exact congrArg Host.Outcome.next
      (commandRow_replies ht (by rw [hp, isStaged_cons, decide_eq_true hm]) rfl (actEntryRemoveStaged_refused hl _ h))
  · rw [if_neg hm]
    exact congrArg Host.Outcome.next (commandRow_replies ht (by rw [hp]; exact notStaged_cons hm _) rfl (actEntryRemove_refused hl _ h))

/-- A refused MIX_CLEAR of either mode leaves the unit with the refusal. -/
theorem exec_mixClear_refused {s : State} {src : CommandSource} {i : Instr} {c : Command} {k mode : Byte} (ht : s.takes src 0x0B c)
    (hp : c.payload = [k, mode]) (hi : i = if mode.toNat = 1 then .mixClearStaged src else .mixClear src) {r : Result}
    (h : mixAndMode c.payload = some r) : exec i s = .next (s.replied c (.refuse r ([0, 0] ++ listAndFree s c.payload))) := by
  have hl : lengthRight c.kind c.payload = true := by rw [State.takes_kind ht, hp]; rfl
  subst hi
  by_cases hm : mode.toNat = 1
  · rw [if_pos hm]
    exact congrArg Host.Outcome.next
      (commandRow_replies ht (by rw [hp, isStaged_cons, decide_eq_true hm]) rfl (actMixClearStaged_refused hl _ h))
  · rw [if_neg hm]
    exact congrArg Host.Outcome.next (commandRow_replies ht (by rw [hp]; exact notStaged_cons hm _) rfl (actMixClear_refused hl _ h))

/-- Settles O45: by the checks in their order. -/
theorem listCommandsRefuse : Obligations.ListCommandsRefuse := by
  refine ⟨fun s src i c k mode ws ht hw hp hi => ?_, fun s src c k mode => ⟨fun i sources ht hs hp hi => ?_, fun i ht hp hi => ?_⟩⟩
  · have hlist (hk : 15 < k.toNat) : listAndFree (s.beginCommand c) c.payload = [octet 0, octet (s.table.free / 256), octet s.table.free] := by
      rw [listAndFree_eq, hp]
      exact congrArg (fun n => [octet n, octet (s.table.free / 256), octet s.table.free]) (if_pos hk)
    have hlist' (hk : k.toNat ≤ 15) : listAndFree (s.beginCommand c) c.payload =
        [octet (s.table.mix k.toNat).list.length, octet (s.table.free / 256), octet s.table.free] := by
      rw [listAndFree_eq, hp]
      exact congrArg (fun n => [octet n, octet (s.table.free / 256), octet s.table.free]) (if_neg (by omega : ¬15 < k.toNat))
    have hcount : at8 c.payload 2 = ws.length := by rw [hp]; exact octet_toNat (by omega)
    refine ⟨fun hk => ?_, fun hk hm => ?_, fun hk hm hlen => ?_, fun before w after hk hm hlen hws hbefore hbad => ?_⟩
    · have h := exec_entryWrite_refused ht hw hp hi (entryWriteChecks_refused (by rw [hp]; exact mixAndMode_badMix hk _ _))
      rw [hlist hk] at h
      exact h
    · have h := exec_entryWrite_refused ht hw hp hi (entryWriteChecks_refused (by rw [hp]; exact mixAndMode_badMode hk hm _))
      rw [hlist' hk] at h
      exact h
    · have h := exec_entryWrite_refused ht hw hp hi (entryWriteChecks_badCount (by rw [hp]; exact mixAndMode_good hk hm _) (by omega))
      rw [hlist' hk] at h
      exact h
    · have htake : takeEntries c.payload 0 (at8 c.payload 2) = .error before.length := by
        rw [hcount, hp, hws]
        exact takeEntries_payload_bad _ _ _ hbefore hbad _
      have h := exec_entryWrite_refused ht hw hp hi
        (entryWriteChecks_badRecord (by rw [hp]; exact mixAndMode_good hk hm _) (by omega) htake)
      rw [hlist' hk] at h
      exact h
  · have hlist : listAndFree (s.beginCommand c) c.payload =
        [octet (if 15 < k.toNat then 0 else (s.table.mix k.toNat).list.length), octet (s.table.free / 256), octet s.table.free] := by
      rw [listAndFree_eq, hp]
      rfl
    have hcount : at8 c.payload 2 = sources.length := by rw [hp]; exact octet_toNat (by omega)
    refine ⟨fun hk => ?_, fun hk h => ?_, fun before x after hk hm hlen hxs hbefore hbad => ?_⟩
    · have h := exec_entryRemove_refused ht hs hp hi (entryRemoveChecks_refused (by rw [hp]; exact mixAndMode_badMix hk _ _))
      rw [hlist] at h
      exact h
    · by_cases hm : 1 < mode.toNat
      · have h := exec_entryRemove_refused ht hs hp hi (entryRemoveChecks_refused (by rw [hp]; exact mixAndMode_badMode hk hm _))
        rw [hlist] at h
        exact h
      · have hbad : at8 c.payload 2 = 0 ∨ 32 < at8 c.payload 2 := by
          rw [hcount, List.length_eq_zero_iff]
          exact h.resolve_left hm
        have h := exec_entryRemove_refused ht hs hp hi
          (entryRemoveChecks_badCount (by rw [hp]; exact mixAndMode_good hk (by omega) _) hbad)
        rw [hlist] at h
        exact h
    · have hpos : ¬(at8 c.payload 2 = 0 ∨ 32 < at8 c.payload 2) := by
        have hlength : sources.length = before.length + (after.length + 1) := by rw [hxs, List.length_append, List.length_cons]
        omega
      have htake : takeSources c.payload 0 (at8 c.payload 2) = .error before.length := by
        rw [hcount, hp, hxs]
        exact takeSources_payload_bad _ _ _ hbefore hbad _
      have h := exec_entryRemove_refused ht hs hp hi (entryRemoveChecks_badSource (by rw [hp]; exact mixAndMode_good hk hm _) hpos htake)
      rw [hlist] at h
      exact h
  · have hlist : listAndFree s c.payload =
        [octet (if 15 < k.toNat then 0 else (s.table.mix k.toNat).list.length), octet (s.table.free / 256), octet s.table.free] := by
      rw [listAndFree_eq, hp]
      rfl
    refine ⟨fun hk => ?_, fun hk hm => ?_⟩
    · have h := exec_mixClear_refused ht hp hi (by rw [hp]; exact mixAndMode_badMix hk _ _)
      rw [hlist] at h
      exact h
    · have h := exec_mixClear_refused ht hp hi (by rw [hp]; exact mixAndMode_badMode hk hm _)
      rw [hlist] at h
      exact h

end Sys2Proof.Machine
end

section
/-!
PROOFS. The accepted commands on lists: the pool check and the counts of ENTRY_WRITE (R46 to R50), ENTRY_REMOVE and MIX_CLEAR (R51 to R53), and the records of the
STAGED commands (R119 to R121).
-/

namespace Sys2Proof.Machine

/-! ### The pool check (R48) -/

theorem newEntriesNeeded_eq_card (l : List Entry) (vs : List EntryValues) :
    newEntriesNeeded l vs = (((vs.map (·.source)).filter fun x => (entryFor l x).isNone).toFinset).card := (List.card_toFinset _).symm

/-- The pool check asks only which sources have an entry. -/
theorem newEntriesNeeded_congr {l l' : List Entry} (h : ∀ x, (entryFor l x).isNone = (entryFor l' x).isNone) (vs : List EntryValues) :
    newEntriesNeeded l vs = newEntriesNeeded l' vs := by
  simp only [newEntriesNeeded, h]

/-- A record for a source that has an entry needs none. -/
theorem newEntriesNeeded_present {l : List Entry} {v : EntryValues} {e : Entry} (h : entryFor l v.source = some e) (vs : List EntryValues) :
    newEntriesNeeded l (v :: vs) = newEntriesNeeded l vs := by
  simp [newEntriesNeeded, h]

/-- A record for an absent source needs one entry, which the records after it find in the list. -/
theorem newEntriesNeeded_absent {l : List Entry} {v : EntryValues} (h : entryFor l v.source = none) (vs : List EntryValues) :
    newEntriesNeeded l (v :: vs) = newEntriesNeeded (insertEntry (Entry.create v) l) vs + 1 := by
  have hset : ((vs.map (·.source)).filter fun x => (entryFor (insertEntry (Entry.create v) l) x).isNone).toFinset =
      (((v :: vs).map (·.source)).filter fun x => (entryFor l x).isNone).toFinset.erase v.source := by
    ext x
    have hin : entryFor (insertEntry (Entry.create v) l) v.source = some (Entry.create v) := entryFor_insert (Entry.create v) h
    have hother : x ≠ v.source → entryFor (insertEntry (Entry.create v) l) x = entryFor l x := entryFor_insert_other (Entry.create v) l
    by_cases hx : x = v.source
    · subst hx
      simp [hin]
    · simp [hother hx, hx]
  rw [newEntriesNeeded_eq_card, newEntriesNeeded_eq_card, hset, Finset.card_erase_add_one]
  simp [h]

/-- A set in place changes no source, and so not what the pool check finds. -/
theorem newEntriesNeeded_update (v : EntryValues) (l : List Entry) (vs : List EntryValues) :
    newEntriesNeeded (updateEntry v.source (·.write v) l) vs = newEntriesNeeded l vs := by
  have hkeeps : ∀ e : Entry, (e.write v).source = e.source := fun _ => rfl
  refine newEntriesNeeded_congr (fun x => ?_) vs
  by_cases hx : x = v.source
  · rw [hx, entryFor_update _ _ hkeeps, Option.isNone_map]
  · rw [entryFor_update_other _ _ hkeeps _ hx]

/-! ### The counts of the records (R49) -/

theorem SetCounts.add_total (c : SetCounts) (kind : SetKind) :
    (c.add kind).created + (c.add kind).revived + (c.add kind).replaced = c.created + c.revived + c.replaced + 1 := by
  cases kind <;> simp only [SetCounts.add] <;> omega

/-- A set on a source that has an entry takes none from the pool (R39, R40). -/
theorem MixTable.setEntry_keepsPool {t : MixTable} {k : Nat} (hk : k < t.mixes.length) {v : EntryValues} {e : Entry}
    (he : entryFor (t.mix k).list v.source = some e) :
    ∃ u kind, t.setEntry k v = some (u, kind) ∧ k < u.mixes.length ∧ u.free = t.free ∧
      (u.mix k).list = updateEntry v.source (·.write v) (t.mix k).list ∧ ∀ c : SetCounts, (c.add kind).created = c.created := by
  refine ⟨_, _, MixTable.setEntry_present he, hk.trans_eq (MixTable.setMix_length t k _).symm, rfl, by rw [MixTable.setMix_mix hk], fun c => ?_⟩
  split <;> rfl

/-- A set on an absent source takes one entry from the pool (R41). -/
theorem MixTable.setEntry_takesOne {t : MixTable} {k : Nat} (hk : k < t.mixes.length) {v : EntryValues} (hn : entryFor (t.mix k).list v.source = none)
    (hf : 1 ≤ t.free) :
    ∃ u, t.setEntry k v = some (u, .created) ∧ k < u.mixes.length ∧ u.free + 1 = t.free ∧
      (u.mix k).list = insertEntry (Entry.create v) (t.mix k).list := by
  rcases t.setEntry_cases k v with ⟨e, he, -⟩ | ⟨-, -, hs⟩ | ⟨-, h0, -⟩
  · cases hn.symm.trans he
  · exact ⟨_, hs, hk.trans_eq (MixTable.setMix_length t k _).symm, Nat.sub_add_cancel hf, congrArg Mix.list (MixTable.setMix_mix hk _)⟩
  · omega

/-- Records that the pool check admits take exactly the entries it counted, and each is counted once (R48, R49). -/
theorem MixTable.setEntries_counts {t : MixTable} {k : Nat} (hk : k < t.mixes.length) (vs : List EntryValues) (c : SetCounts)
    (hfree : newEntriesNeeded (t.mix k).list vs ≤ t.free) :
    (t.setEntries k vs c).2.created = c.created + newEntriesNeeded (t.mix k).list vs ∧
      (t.setEntries k vs c).2.created + (t.setEntries k vs c).2.revived + (t.setEntries k vs c).2.replaced =
        c.created + c.revived + c.replaced + vs.length ∧
      (t.setEntries k vs c).1.free + newEntriesNeeded (t.mix k).list vs = t.free ∧
      ((t.setEntries k vs c).1.mix k).list.length = (t.mix k).list.length + newEntriesNeeded (t.mix k).list vs := by
  induction vs generalizing t c with
  | nil => exact ⟨rfl, rfl, rfl, rfl⟩
  | cons v vs ih =>
    have hlength : (v :: vs).length = vs.length + 1 := rfl
    cases he : entryFor (t.mix k).list v.source with
    | some e =>
      obtain ⟨u, kind, hs, hlen, hfree', hlist, hkind⟩ := MixTable.setEntry_keepsPool hk he
      have htotal := c.add_total kind
      have hcreated := hkind c
      rw [newEntriesNeeded_present he] at hfree ⊢
      have step := ih hlen (c.add kind)
      rw [hlist, newEntriesNeeded_update, updateEntry_length] at step
      obtain ⟨h1, h2, h3, h4⟩ := step (by omega)
      simp only [MixTable.setEntries, hs]
      omega
    | none =>
      rw [newEntriesNeeded_absent he] at hfree ⊢
      obtain ⟨u, hs, hlen, hfree', hlist⟩ := MixTable.setEntry_takesOne hk he (by omega)
      have htotal := c.add_total .created
      have hcreated : (c.add .created).created = c.created + 1 := rfl
      have step := ih hlen (c.add .created)
      rw [hlist, insertEntry_length] at step
      obtain ⟨h1, h2, h3, h4⟩ := step (by omega)
      simp only [MixTable.setEntries, hs]
      omega

/-! ### ENTRY_WRITE, ENTRY_REMOVE and MIX_CLEAR (R46 to R53) -/

/-- What the reply carries of a list whose mix is good (R50, R52, R53). -/
theorem listAndFree_good {k : Byte} (hk : k.toNat ≤ 15) (u : State) (rest : List Byte) :
    listAndFree u (k :: rest) = [octet (u.table.mix k.toNat).list.length, octet (u.table.free / 256), octet u.table.free] := by
  have h0 : at8 (k :: rest) 0 = k.toNat := rfl
  rw [listAndFree_eq, h0, if_neg (by omega)]

/-- An ENTRY_WRITE whose records are good meets the pool check (R48, R49). -/
theorem actEntryWrite_good {c : Command} (hl : lengthRight c.kind c.payload = true) {u : State} {vs : List EntryValues} {clamped : Bool}
    (h : entryWriteChecks u c.payload = .ok (vs, clamped)) :
    actEntryWrite c u =
      if u.table.free < newEntriesNeeded (u.table.mix (at8 c.payload 0)).list vs then
        (u, some (.refuse .refusedPool ([octet (newEntriesNeeded (u.table.mix (at8 c.payload 0)).list vs), 0, 0] ++ listAndFree u c.payload)))
      else
        (u.withTable (u.table.setEntries (at8 c.payload 0) vs ⟨0, 0, 0⟩).1,
          some
            { result := .done, clamped := clamped, item := none
              data :=
                [octet (u.table.setEntries (at8 c.payload 0) vs ⟨0, 0, 0⟩).2.created, octet (u.table.setEntries (at8 c.payload 0) vs ⟨0, 0, 0⟩).2.revived,
                  octet (u.table.setEntries (at8 c.payload 0) vs ⟨0, 0, 0⟩).2.replaced] ++
                  listAndFree (u.withTable (u.table.setEntries (at8 c.payload 0) vs ⟨0, 0, 0⟩).1) c.payload }) := by
  rw [actEntryWrite, checkedLength_right hl, h]

/-- The records of a good ENTRY_WRITE of either mode (R46). -/
theorem entryWriteChecks_payload {k mode : Byte} (hk : k.toNat ≤ 15) (hm : mode.toNat ≤ 1) {ws : List WireRecord} (hw : ws.length ≤ 32)
    (hvalid : ∀ w ∈ ws, w.valid) (u : State) :
    entryWriteChecks u (k :: mode :: octet ws.length :: ws.flatMap WireRecord.octets) = .ok (ws.map (·.values), ws.any (·.clamped)) := by
  have hcount : at8 (k :: mode :: octet ws.length :: ws.flatMap WireRecord.octets) 2 = ws.length := octet_toNat (by omega)
  refine entryWriteChecks_good (mixAndMode_good hk hm _) (by omega) ?_
  rw [hcount]
  exact takeEntries_payload _ _ _ hvalid

/-- Settles O44: the pool check, the records in order, and their counts. -/
theorem entryWriteActs : Obligations.EntryWriteActs := by
  refine ⟨fun s src c k ws ht hk hw hvalid hp => ?_, fun t k vs hk hfree => ?_⟩
  · have hl := lengthRight_entryWrite (State.takes_kind ht) (by omega) hp
    have hrow : notStaged c.payload = true := by rw [hp]; exact notStaged_cons (by decide) _
    have h0 : at8 c.payload 0 = k.toNat := by rw [hp]; rfl
    have hchecks : entryWriteChecks (s.beginCommand c) c.payload = .ok (ws.map (·.values), ws.any (·.clamped)) := by
      rw [hp]
      exact entryWriteChecks_payload hk (by decide) hw hvalid _
    have hneeded : newEntriesNeeded (s.table.mix k.toNat).list (ws.map (·.values)) =
        ((ws.map (·.source.toNat)).filter fun x => (entryFor (s.table.mix k.toNat).list x).isNone).dedup.length := by
      rw [newEntriesNeeded, List.map_map]
      rfl
    have hact := actEntryWrite_good hl hchecks
    rw [h0, State.beginCommand_table, hneeded, hp, listAndFree_good hk, listAndFree_good hk] at hact
    dsimp only
    split
    next h =>
      rw [if_pos h] at hact
      exact congrArg Host.Outcome.next (commandRow_replies ht hrow rfl hact)
    next h =>
      rw [if_neg h] at hact
      exact congrArg Host.Outcome.next (commandRow_replies ht hrow rfl hact)
  · have h := MixTable.setEntries_counts hk vs ⟨0, 0, 0⟩ hfree
    simp only [Nat.zero_add] at h
    exact h

/-- The sources of a good ENTRY_REMOVE of either mode (R51). -/
theorem entryRemoveChecks_payload {k mode : Byte} (hk : k.toNat ≤ 15) (hm : mode.toNat ≤ 1) {sources : List Byte} (h1 : 1 ≤ sources.length)
    (h32 : sources.length ≤ 32) (hgood : ∀ x ∈ sources, x.toNat ≤ 63) (u : State) :
    entryRemoveChecks u (k :: mode :: octet sources.length :: sources) = .ok (sources.map (·.toNat)) := by
  have hcount : at8 (k :: mode :: octet sources.length :: sources) 2 = sources.length := octet_toNat (by omega)
  refine entryRemoveChecks_good (mixAndMode_good hk hm _) (by omega) ?_
  rw [hcount]
  exact takeSources_payload _ _ _ hgood

theorem actEntryRemove_good {c : Command} (hl : lengthRight c.kind c.payload = true) {u : State} {sources : List Nat}
    (h : entryRemoveChecks u c.payload = .ok sources) :
    actEntryRemove c u =
      (u.withTable (u.table.retireEntries (at8 c.payload 0) sources ⟨0, 0, 0⟩).1,
        some (.done ([octet (u.table.retireEntries (at8 c.payload 0) sources ⟨0, 0, 0⟩).2.retired,
          octet (u.table.retireEntries (at8 c.payload 0) sources ⟨0, 0, 0⟩).2.already, octet (u.table.retireEntries (at8 c.payload 0) sources ⟨0, 0, 0⟩).2.absent] ++
            listAndFree (u.withTable (u.table.retireEntries (at8 c.payload 0) sources ⟨0, 0, 0⟩).1) c.payload))) := by
  rw [actEntryRemove, checkedLength_right hl, h]

theorem actMixClear_good {c : Command} (hl : lengthRight c.kind c.payload = true) (h : mixAndMode c.payload = none) (u : State) :
    actMixClear c u =
      (u.withTable (u.table.clearMix (at8 c.payload 0)),
        some (.done ([octet (liveCount (u.table.mix (at8 c.payload 0)).list),
          octet ((u.table.mix (at8 c.payload 0)).list.length - liveCount (u.table.mix (at8 c.payload 0)).list)] ++
            listAndFree (u.withTable (u.table.clearMix (at8 c.payload 0))) c.payload))) := by
  rw [actMixClear, checkedLength_right hl, h]

/-- Settles O46: what the two actions leave and answer, once their checks have passed. -/
theorem entryRemoveAndMixClearAct : Obligations.EntryRemoveAndMixClearAct := by
  refine fun s src c k hk => ⟨fun sources ht h1 h32 hgood hp => ?_, fun ht hp => ?_⟩
  · have hl := lengthRight_entryRemove (State.takes_kind ht) (by omega) hp
    have hrow : notStaged c.payload = true := by rw [hp]; exact notStaged_cons (by decide) _
    have h0 : at8 c.payload 0 = k.toNat := by rw [hp]; rfl
    have hchecks : entryRemoveChecks (s.beginCommand c) c.payload = .ok (sources.map (·.toNat)) := by
      rw [hp]
      exact entryRemoveChecks_payload hk (by decide) h1 h32 hgood _
    have hact := actEntryRemove_good hl hchecks
    rw [h0, State.beginCommand_table, hp, listAndFree_good hk] at hact
    exact congrArg Host.Outcome.next (commandRow_replies ht hrow rfl hact)
  · have hl : lengthRight c.kind c.payload = true := by rw [State.takes_kind ht, hp]; rfl
    have hrow : notStaged c.payload = true := by rw [hp]; exact notStaged_cons (by decide) _
    have h0 : at8 c.payload 0 = k.toNat := by rw [hp]; rfl
    have hact := actMixClear_good hl (by rw [hp]; exact mixAndMode_good hk (by decide) _) (s.beginCommand c)
    rw [h0, State.beginCommand_table, hp, listAndFree_good hk] at hact
    exact congrArg Host.Outcome.next (commandRow_replies ht hrow rfl hact)

/-! ### STAGED commands (R119 to R121) -/

/-- A row whose checks passed meets the room check: every record joins the queue, or none (R120, R121). -/
theorem commandRow_stages {s : State} {src : CommandSource} {kind : Byte} {c : Command} {belongs : List Byte → Bool} {act : Action} {edits : List StagedEdit}
    {clamped : Bool} {extra : List Byte} (ht : s.takes src kind c) (hb : belongs c.payload = true)
    (hact : act c (s.beginCommand c) = stageEdits edits clamped extra (s.beginCommand c)) :
    commandRow kind belongs act src s =
      if edits.length ≤ 128 - s.staging.queue.length then
        State.replied { s with staging := { s.staging with queue := s.staging.queue ++ edits } } c
          { result := .done, clamped := clamped, item := none
            data := [octet edits.length, octet (s.staging.queue.length + edits.length)] ++ extra }
      else s.replied c { result := .refusedStage, clamped := false, item := none, data := [octet edits.length, octet s.staging.queue.length] } := by
  have hroom : s.staging.hasRoom edits.length = true ↔ edits.length ≤ 128 - s.staging.queue.length := decide_eq_true_iff
  rw [stageEdits, State.beginCommand_staging] at hact
  split
  next h =>
    rw [if_pos (hroom.mpr h)] at hact
    exact commandRow_replies ht hb rfl hact
  next h =>
    rw [if_neg (by rwa [hroom])] at hact
    exact commandRow_replies ht hb rfl hact

theorem actEntryWriteStaged_good {c : Command} (hl : lengthRight c.kind c.payload = true) {u : State} {vs : List EntryValues} {clamped : Bool}
    (h : entryWriteChecks u c.payload = .ok (vs, clamped)) :
    actEntryWriteStaged c u = stageEdits (vs.map fun v => .setEntry (at8 c.payload 0) v.source v.gL v.gR v.group v.mute) clamped [] u := by
  rw [actEntryWriteStaged, checkedLength_right hl, h]

theorem actEntryRemoveStaged_good {c : Command} (hl : lengthRight c.kind c.payload = true) {u : State} {sources : List Nat}
    (h : entryRemoveChecks u c.payload = .ok sources) :
    actEntryRemoveStaged c u = stageEdits (sources.map fun x => .retireEntry (at8 c.payload 0) x) false [] u := by
  rw [actEntryRemoveStaged, checkedLength_right hl, h]

theorem actMixClearStaged_good {c : Command} (hl : lengthRight c.kind c.payload = true) (h : mixAndMode c.payload = none) (u : State) :
    actMixClearStaged c u = stageEdits [.clearMix (at8 c.payload 0)] false [] u := by
  rw [actMixClearStaged, checkedLength_right hl, h]

theorem actMixWriteStaged_good {c : Command} (hl : lengthRight c.kind c.payload = true) {taken : Settings × Bool}
    (h : mixWriteChecks c.payload = .ok taken) (u : State) :
    actMixWriteStaged c u = stageEdits [.setMix (at8 c.payload 0) taken.1] taken.2 taken.1.octets u := by
  rw [actMixWriteStaged, checkedLength_right hl, h]

theorem actGroupMuteStaged_good {c : Command} (hl : lengthRight c.kind c.payload = true) (h : mixAndMode c.payload = none) (u : State) :
    actGroupMuteStaged c u = stageEdits [.setGroupMutes (at8 c.payload 0) (c.payload.getD 2 0)] false [c.payload.getD 2 0] u := by
  rw [actGroupMuteStaged, checkedLength_right hl, h]

/-- Settles O47: each row's records, once its checks have passed. -/
theorem stagedCommandsAppend : Obligations.StagedCommandsAppend := by
  intro s src c k hk
  have hgood (rest : List Byte) : mixAndMode (k :: 1 :: rest) = none := mixAndMode_good hk (by decide) rest
  have hrow {rest : List Byte} (hp : c.payload = k :: 1 :: rest) : isStaged c.payload = true := by rw [hp, isStaged_cons]; decide
  have hmix {rest : List Byte} (hp : c.payload = k :: 1 :: rest) : at8 c.payload 0 = k.toNat := by rw [hp]; rfl
  refine ⟨fun ws ht hw hvalid hp => ?_, fun sources ht h1 h32 hsources hp => ?_, fun ht hp => ?_, fun r cfg clamped ht hr hp hs => ?_, fun mask ht hp => ?_⟩
  case refine_1 =>
    have hl := lengthRight_entryWrite (State.takes_kind ht) (by omega) hp
    have hchecks : entryWriteChecks (s.beginCommand c) c.payload = .ok (ws.map (·.values), ws.any (·.clamped)) := by
      rw [hp]
      exact entryWriteChecks_payload hk (by decide) hw hvalid _
    have hact := actEntryWriteStaged_good hl hchecks
    rw [hmix hp, List.map_map] at hact
    have hrun := commandRow_stages ht (hrow hp) hact
    rw [List.length_map] at hrun
    dsimp only
    rw [List.length_map]
    exact congrArg Host.Outcome.next hrun
  case refine_2 =>
    have hl := lengthRight_entryRemove (State.takes_kind ht) (by omega) hp
    have hchecks : entryRemoveChecks (s.beginCommand c) c.payload = .ok (sources.map (·.toNat)) := by
      rw [hp]
      exact entryRemoveChecks_payload hk (by decide) h1 h32 hsources _
    have hact := actEntryRemoveStaged_good hl hchecks
    rw [hmix hp, List.map_map] at hact
    exact congrArg Host.Outcome.next (commandRow_stages ht (hrow hp) hact)
  case refine_3 =>
    have hl : lengthRight c.kind c.payload = true := by rw [State.takes_kind ht, hp]; rfl
    have hact := actMixClearStaged_good hl (by rw [hp]; exact hgood _) (s.beginCommand c)
    rw [hmix hp] at hact
    exact congrArg Host.Outcome.next (commandRow_stages ht (hrow hp) hact)
  case refine_4 =>
    have hl := lengthRight_mixWrite (State.takes_kind ht) hp hr
    have hchecks : mixWriteChecks c.payload = .ok (cfg, clamped) :=
      mixWriteChecks_good (by rw [hp]; exact hgood _) (by rw [hp]; exact hs)
    have hact := actMixWriteStaged_good hl hchecks (s.beginCommand c)
    rw [hmix hp] at hact
    exact congrArg Host.Outcome.next (commandRow_stages ht (hrow hp) hact)
  case refine_5 =>
    have hl : lengthRight c.kind c.payload = true := by rw [State.takes_kind ht, hp]; rfl
    have hact := actGroupMuteStaged_good hl (by rw [hp]; exact hgood _) (s.beginCommand c)
    have hmask : c.payload.getD 2 0 = mask := by rw [hp]; rfl
    rw [hmix hp, hmask] at hact
    exact congrArg Host.Outcome.next (commandRow_stages ht (hrow hp) hact)

end Sys2Proof.Machine
end

section
/-!
PROOFS. What the lane of a delivery does (R147 to R153, R160): the lane's operations read and write the same part of the unit, so the first stage of the delivery
before them and the stages after them do not change their outcome.
-/

namespace Sys2Proof.Machine

/-! ### Two units alike in all that the lane reads and writes -/

/-- Two units agree in all that a lane frame reads: what `State.sameLane` names, and what the note of a message in the holding slot is taken from (R165). -/
structure LaneAlike (t u : State) : Prop where
  lane : t.lane = u.lane
  holding : t.intake.holding = u.intake.holding
  executing : t.intake.executing = u.intake.executing
  replies : t.replies = u.replies
  framing : t.rx.counters.laneFramingErrors = u.rx.counters.laneFramingErrors
  drops : t.rx.counters.laneDrops = u.rx.counters.laneDrops
  checks : t.rx.counters.messageCheckErrors = u.rx.counters.messageCheckErrors
  bits : ∀ i, 5 ≤ i → i ≤ 7 → t.events.summary.getLsbD i = u.events.summary.getLsbD i

namespace LaneAlike

variable {t u : State}

theorem sameLane (h : LaneAlike t u) : t.sameLane u := ⟨h.lane, h.holding, h.framing, h.drops, h.checks, h.bits⟩

theorem withLane (h : LaneAlike t u) (l : LaneController) : LaneAlike (t.withLane l) (u.withLane l) := { h with lane := rfl }

theorem receive (h : LaneAlike t u) (rx : ReceiveState) (buffer : List Byte) : LaneAlike (t.receive rx buffer) (u.receive rx buffer) := by
  unfold State.receive
  rw [h.lane]
  exact h.withLane _

theorem countFraming (h : LaneAlike t u) : LaneAlike t.countFraming u.countFraming := { h with framing := congrArg rise h.framing }

theorem raise (h : LaneAlike t u) (e : Event) : LaneAlike (t.raise e) (u.raise e) :=
  { h with
    bits := fun i h5 h7 => by
      simp only [State.raise_eq, State.withEvents_events, EventUnit.raise_bit, h.bits i h5 h7] }

theorem dropLane (h : LaneAlike t u) : LaneAlike t.dropLane u.dropLane :=
  raise (t := t.count fun c => { c with laneDrops := rise c.laneDrops }) (u := u.count fun c => { c with laneDrops := rise c.laneDrops })
    { h with drops := congrArg rise h.drops } .laneDrop

theorem checkError (h : LaneAlike t u) : LaneAlike t.checkError u.checkError :=
  raise (t := t.count fun c => { c with messageCheckErrors := rise c.messageCheckErrors })
    (u := u.count fun c => { c with messageCheckErrors := rise c.messageCheckErrors }) { h with checks := congrArg rise h.checks } .checkError

theorem busy (h : LaneAlike t u) : t.busy = u.busy := congrArg Option.isSome h.executing

theorem canTake (h : LaneAlike t u) : t.canTake = u.canTake := by
  unfold State.canTake State.hasPlace
  rw [h.busy, h.replies]

theorem handOver (h : LaneAlike t u) (kind src tag : Byte) (payload : List Byte) :
    LaneAlike (t.handOver kind src tag payload) (u.handOver kind src tag payload) := by
  unfold State.handOver
  rw [h.holding, h.busy, h.canTake]
  split
  · exact { h with holding := rfl }
  · exact h.raise _

theorem holdForward (h : LaneAlike t u) (total : Nat) (octets : List Byte) : LaneAlike (t.holdForward total octets) (u.holdForward total octets) := by
  unfold State.holdForward State.admits
  rw [h.lane]
  split
  · exact h.withLane _
  · exact h.dropLane

theorem verifyLocal (h : LaneAlike t u) (m : List Byte) : LaneAlike (t.verifyLocal m) (u.verifyLocal m) := by
  unfold State.verifyLocal
  dsimp only
  split
  · exact h.handOver ..
  · exact h.checkError

theorem enumerate (h : LaneAlike t u) (octets : List Byte) : LaneAlike (t.enumerate octets) (u.enumerate octets) := by
  unfold State.enumerate
  rw [h.lane]
  split
  · exact (h.withLane _).holdForward ..
  · exact h.checkError

/-- One branch or the other of a test, on both sides. -/
theorem ite {t' u' : State} (b : Bool) (h : LaneAlike t u) (h' : LaneAlike t' u') : LaneAlike (if b then t else t') (if b then u else u') := by
  cases b <;> assumption

theorem spoil (h : LaneAlike t u) : LaneAlike t.spoil u.spoil := by
  unfold State.spoil
  rw [h.lane]
  split
  · exact h
  next r _ =>
    have hw := h.receive .waiting []
    have hc := ite r.toLocal hw.countFraming hw
    dsimp only
    rw [hc.lane]
    exact ite _ (hc.withLane _).dropLane hc

theorem beginMessage (h : LaneAlike t u) (toLocal toForward : Bool) (length : Nat) (octets : List Byte) :
    LaneAlike (t.beginMessage toLocal toForward length octets) (u.beginMessage toLocal toForward length octets) := by
  have hadmits : t.admits (frameCount length) = u.admits (frameCount length) := by rw [State.admits, h.lane, State.admits]
  have hheld := ite toForward (h.holdForward (frameCount length) octets) h
  unfold State.beginMessage
  dsimp only
  rw [hadmits]
  split
  · exact ite toLocal (hheld.verifyLocal _) hheld
  · exact hheld.receive ..

theorem laneFirst (h : LaneAlike t u) (octets : List Byte) : LaneAlike (t.laneFirst octets) (u.laneFirst octets) := by
  have hs := h.spoil
  unfold State.laneFirst
  dsimp only
  rw [hs.lane]
  split
  · exact hs.countFraming
  · split
    · exact hs.enumerate _
    · exact hs.beginMessage ..

theorem laneCont (h : LaneAlike t u) (octets : List Byte) : LaneAlike (t.laneCont octets) (u.laneCont octets) := by
  unfold State.laneCont
  rw [h.lane]
  split
  · exact h.countFraming
  next r _ =>
    have hheld := ite (r.toForward && r.admitted)
      (h.withLane { u.lane with hold := changeLast (fun m => { m with frames := m.frames ++ [octets] }) u.lane.hold }) h
    dsimp only
    split
    · exact hheld.receive ..
    · exact ite r.toLocal ((hheld.receive ..).verifyLocal _) (hheld.receive ..)

theorem laneFrame (h : LaneAlike t u) (f : ReceivedFrame) : LaneAlike (t.laneFrame f) (u.laneFrame f) := by
  unfold State.laneFrame
  cases f.kind
  case idle => exact h.spoil
  case first => exact h.laneFirst _
  case cont => exact h.laneCont _
  case abort => exact h.spoil

end LaneAlike

/-! ### The lane within a delivery (R31, log 23) -/

/-- The first stage settles counters 1 to 5 and the link events, which the lane does not read (R9 to R11, R13). -/
theorem LaneAlike.settleLink (s : State) (cls : DeliveryClass) (frame : Option ReceivedFrame) : LaneAlike (s.settleLink cls frame) s := by
  have hcounters : ((s.settleLink cls frame).rx.counters.laneFramingErrors = s.rx.counters.laneFramingErrors ∧
      (s.settleLink cls frame).rx.counters.laneDrops = s.rx.counters.laneDrops) ∧
        (s.settleLink cls frame).rx.counters.messageCheckErrors = s.rx.counters.messageCheckErrors := by
    rw [State.settleLink_eq]
    show ((s.rx.counters.atDelivery cls frame s.rx.missed).laneFramingErrors = _ ∧ (s.rx.counters.atDelivery cls frame s.rx.missed).laneDrops = _) ∧
      (s.rx.counters.atDelivery cls frame s.rx.missed).messageCheckErrors = _
    unfold LinkCounters.atDelivery
    split
    · exact ⟨⟨rfl, rfl⟩, rfl⟩
    · exact ⟨⟨rfl, rfl⟩, rfl⟩
    · split <;> exact ⟨⟨rfl, rfl⟩, rfl⟩
    · exact ⟨⟨rfl, rfl⟩, rfl⟩
  obtain ⟨⟨hframing, hdrops⟩, hchecks⟩ := hcounters
  have hevents : ∀ i, 5 ≤ i → i ≤ 7 → (s.settleLink cls frame).events.summary.getLsbD i = s.events.summary.getLsbD i := by
    intro i h5 _
    have hraise {e : Event} (he : e.bit ≤ 1) : (s.events.raise e).summary.getLsbD i = s.events.summary.getLsbD i := by
      rw [EventUnit.raise_bit, beq_false_of_ne (by omega), Bool.or_false]
    rw [State.settleLink_eq, State.withEvents_events]
    split
    · exact hraise (by decide)
    · split
      · exact hraise (by decide)
      · rfl
  exact
    { lane := by simp [State.settleLink_eq], holding := by simp [State.settleLink_eq], executing := by simp [State.settleLink_eq]
      replies := by simp [State.settleLink_eq], framing := hframing, drops := hdrops, checks := hchecks, bits := hevents }

/-- The stages after the lane change nothing that the lane of a delivery can change. -/
theorem State.deliver_sameLane {plan : ChainPlan} (hp : plan.falls = []) (s : State) (cls : DeliveryClass) (frame : Option ReceivedFrame) {u : State}
    (h : LaneAlike ((s.settleLink cls frame).laneDeliver cls frame) u) : (s.deliver plan cls frame).sameLane u := by
  have hlater : (s.deliver plan cls frame).sameLane ((s.settleLink cls frame).laneDeliver cls frame) := by
    have k := PassKeeps.fadeAndPass hp (s.settled cls frame) (s.begunAtDelivery frame.isSome)
    obtain ⟨hrx, -, -, -, -, hlane, -, -, hintake, -, -, -, hbits, -⟩ := State.commitStage_keeps ((s.settleLink cls frame).laneDeliver cls frame)
    have hcounters := congrArg LinkReceiver.counters (k.rx.trans hrx)
    rw [State.deliver_eq hp]
    refine ⟨k.lane.trans hlane, k.holding.trans (congrArg Intake.holding hintake), congrArg (·.laneFramingErrors) hcounters,
      congrArg (·.laneDrops) hcounters, congrArg (·.messageCheckErrors) hcounters, fun i h5 h7 => ?_⟩
    exact (k.bits i (by omega) (by omega)).trans (hbits i (by omega))
  obtain ⟨h1, h2, h3, h4, h5, h6⟩ := hlater
  exact ⟨h1.trans h.lane, h2.trans h.holding, h3.trans h.framing, h4.trans h.drops, h5.trans h.checks, fun i h5 h7 => (h6 i h5 h7).trans (h.bits i h5 h7)⟩

end Sys2Proof.Machine
end

section
/-!
PROOFS. What each kind of lane frame does, written out (R147 to R152, R160), and the lane of a whole delivery.
-/

namespace Sys2Proof.Machine

/-! ### The frame handed over, and its kind (R147) -/

theorem State.laneDeliver_valid {f : ReceivedFrame} (h : (f.codingBad || f.checkBad || f.trailerBad) = false) (s : State) :
    s.laneDeliver f.cls (some f) = s.laneFrame f := by
  rw [ReceivedFrame.cls_valid h]
  cases f.damaged <;> rfl

theorem State.laneDeliver_corrupt {f : ReceivedFrame} (h : (f.codingBad || f.checkBad || f.trailerBad) = true) (s : State) :
    s.laneDeliver f.cls (some f) = s.spoil := by
  rw [ReceivedFrame.cls_corrupt h]
  rfl

theorem State.laneFrame_first {f : ReceivedFrame} (h : f.kind = .first) (s : State) : s.laneFrame f = s.laneFirst f.lane := by
  rw [State.laneFrame, h]

theorem State.laneFrame_cont {f : ReceivedFrame} (h : f.kind = .cont) (s : State) : s.laneFrame f = s.laneCont f.lane := by
  rw [State.laneFrame, h]

/-- IDLE and ABORT spoil the message being received (R150). -/
theorem State.laneFrame_spoils {f : ReceivedFrame} (h : f.kind = .idle ∨ f.kind = .abort) (s : State) : s.laneFrame f = s.spoil := by
  rcases h with h | h <;> rw [State.laneFrame, h]

theorem State.afterSpoil_unit (s : State) : s.afterSpoil.lane.unit = s.lane.unit := by
  unfold State.afterSpoil
  split <;> rfl

/-! ### A complete LOCAL message (R151, R160) -/

/-- A message handed over enters the empty holding slot, or is an overrun (R160). -/
theorem State.handOver_eq (s : State) (kind src tag : Byte) (payload : List Byte) :
    s.handOver kind src tag payload =
      if s.intake.holding = none then
        s.withIntake
          { s.intake with
            holding :=
              some
                { kind := kind, src := src, tag := tag, payload := payload, busyAtArrival := s.intake.executing.isSome
                  waited := s.intake.executing.isSome || decide (8 ≤ s.replies.messages.length + s.replies.reserved) } }
      else s.raise .intakeOverrun := by
  unfold State.handOver
  cases h : s.intake.holding with
  | none =>
    rw [if_pos rfl, State.not_canTake]
    rfl
  | some c => rw [if_neg (Option.some_ne_none c)]

theorem State.verifyLocal_eq (s : State) (m : List Byte) :
    s.verifyLocal m =
      if messageCheck (m.take (5 + (m.getD 4 0).toNat)) = BitVec.ofNat 16 (fromBe ((m.drop (5 + (m.getD 4 0).toNat)).take 2)) then
        if s.intake.holding = none then
          s.withIntake
            { s.intake with
              holding :=
                some
                  { kind := m.getD 2 0, src := m.getD 1 0, tag := m.getD 3 0, payload := (m.drop 5).take (m.getD 4 0).toNat
                    busyAtArrival := s.intake.executing.isSome
                    waited := s.intake.executing.isSome || decide (8 ≤ s.replies.messages.length + s.replies.reserved) } }
        else s.raise .intakeOverrun
      else s.checkError := by
  unfold State.verifyLocal
  dsimp only
  rw [State.handOver_eq]
  rfl

/-! ### FIRST (R149) -/

/-- The check of an ENUMERATE message as its two octets (R154). -/
theorem enumerateOctets_word2 (src tag n c1 c0 : Byte) :
    enumerateOctets src tag n (BitVec.ofNat 16 (word2 c1 c0)) = [0xFF, src, 0x82, tag, 1, n, c1, c0] := by
  have h1 := c1.isLt
  have h0 := c0.isLt
  have hcheck : (BitVec.ofNat 16 (word2 c1 c0)).toNat = c1.toNat * 256 + c0.toNat := by
    rw [BitVec.toNat_ofNat, word2]
    omega
  have hhigh : octet ((c1.toNat * 256 + c0.toNat) / 256) = c1 := by
    rw [show (c1.toNat * 256 + c0.toNat) / 256 = c1.toNat by omega, octet_of_toNat]
  have hlow : octet (c1.toNat * 256 + c0.toNat) = c0 := BitVec.eq_of_toNat_eq (by simp [octet]; omega)
  rw [enumerateOctets, hcheck, be_two, hhigh, hlow]
  rfl


/-- The parts of a message that is not an ENUMERATE (R149). -/
theorem disposition_parts {unit : Option Nat} {dest kind : Byte} {length : Nat} (h : ¬(kind = 0x82 ∧ dest = 0xFF ∧ length = 1)) :
    disposition unit dest kind length =
      .parts (decide (dest = 0xFF ∨ unit = some dest.toNat)) (decide (dest = 0xFF ∨ unit ≠ some dest.toNat)) := by
  have hkind : kind.toNat = 0x82 ↔ kind = 0x82 := BitVec.toNat_inj (y := 0x82)
  have hdest : dest.toNat = 255 ↔ dest = 0xFF := BitVec.toNat_inj (y := 0xFF)
  unfold disposition
  rw [if_neg (by rwa [hkind, hdest])]
  by_cases hall : dest = 0xFF
  · simp [hall]
  · rw [if_neg (by rwa [hdest])]
    simp only [hall, false_or]
    by_cases hunit : unit = some dest.toNat <;> simp [hunit]

theorem State.laneFirst_tooLong {octets : List Byte} (h : 240 < (octets.getD 4 0).toNat) (s : State) :
    s.laneFirst octets = s.afterSpoil.countFraming := by
  unfold State.laneFirst
  rw [State.spoil_eq]
  exact if_pos h

/-- A FIRST frame of a good length that is not an ENUMERATE's (R149). -/
theorem State.laneFirst_parts {octets : List Byte} (h : (octets.getD 4 0).toNat ≤ 240)
    (hk : ¬(octets.getD 2 0 = 0x82 ∧ octets.getD 0 0 = 0xFF ∧ (octets.getD 4 0).toNat = 1)) (s : State) :
    s.laneFirst octets =
      s.afterSpoil.beginMessage (decide (octets.getD 0 0 = 0xFF ∨ s.lane.unit = some (octets.getD 0 0).toNat))
        (decide (octets.getD 0 0 = 0xFF ∨ s.lane.unit ≠ some (octets.getD 0 0).toNat)) (octets.getD 4 0).toNat octets := by
  unfold State.laneFirst
  dsimp only
  rw [State.spoil_eq, State.afterSpoil_unit, if_neg (by omega), disposition_parts hk]

theorem frameCount_eq (length : Nat) : frameCount length = (7 + length + 7) / 8 := by
  unfold frameCount
  congr 1
  omega

/-- The parts of a message at its FIRST frame (R149, R152): admitted or dropped, then verified or received. -/
theorem State.beginMessage_eq (s : State) (toLocal toForward : Bool) (length : Nat) (octets : List Byte) :
    s.beginMessage toLocal toForward length octets =
      let held := if toForward = true then s.holdForward ((7 + length + 7) / 8) octets else s
      if (7 + length + 7) / 8 = 1 then if toLocal = true then held.verifyLocal (octets.take (7 + length)) else held
      else
        held.receive
          (.receiving
            { toLocal := toLocal, toForward := toForward
              admitted := toForward && decide (reservedFrames s.lane.hold + (7 + length + 7) / 8 ≤ 64), octets := 7 + length
              expected := (7 + length + 7) / 8, received := 1 })
          (if toLocal = true then octets.take (7 + length) else []) := by
  unfold State.beginMessage State.admits
  rw [frameCount_eq]
  cases toLocal <;> rfl

/-! ### CONT (R150) -/

theorem changeLast_eq (f : HoldMessage → HoldMessage) (hold : List HoldMessage) :
    changeLast f hold = hold.dropLast ++ (hold.getLast?.map f).toList := by
  induction hold with
  | nil => rfl
  | cons m rest ih =>
    cases rest with
    | nil => rfl
    | cons m' rest' =>
      rw [changeLast, ih, List.dropLast_cons_cons, List.getLast?_cons_cons, List.cons_append]
      exact List.cons_ne_nil _ _

theorem State.laneCont_waiting {s : State} (h : s.lane.rx = .waiting) (octets : List Byte) : s.laneCont octets = s.countFraming := by
  rw [State.laneCont, h]

/-- A CONT frame joins the message being received, which is complete at its last frame (R150). -/
theorem State.laneCont_receiving {s : State} {r : Reception} (h : s.lane.rx = .receiving r) (octets : List Byte) :
    s.laneCont octets =
      let hold :=
        if (r.toForward && r.admitted) = true then
          s.lane.hold.dropLast ++ (s.lane.hold.getLast?.map fun m => { m with frames := m.frames ++ [octets] }).toList
        else s.lane.hold
      let buffer := if r.toLocal = true then (s.lane.buffer ++ octets).take r.octets else []
      if r.received + 1 < r.expected then
        s.withLane { s.lane with hold := hold, rx := .receiving { r with received := r.received + 1 }, buffer := buffer }
      else
        let done := s.withLane { s.lane with hold := hold, rx := .waiting, buffer := [] }
        if r.toLocal = true then done.verifyLocal buffer else done := by
  unfold State.laneCont
  rw [h]
  dsimp only
  rw [changeLast_eq]
  cases r.toForward && r.admitted <;> rfl

/-! ### The lane of a delivery (log 23) -/

/-- Settles O9: the lane's own operations on the unit before the delivery, written out case by case. -/
theorem deliveryHandsLane : Obligations.DeliveryHandsLane := by
  refine ⟨fun s hdue hp => ⟨_, exec_noneDue hdue, ?_⟩, fun s line hends hp => ⟨_, exec_frameEnds hends line, ?_⟩⟩
  · rw [← State.spoil_eq]
    exact State.deliver_sameLane hp s _ _ (LaneAlike.settleLink s .nothing none).spoil
  · have halike := LaneAlike.settleLink s (decodeBody line).cls (some (decodeBody line))
    generalize decodeBody line = f at halike ⊢
    have hspoil : ((s.settleLink f.cls (some f)).laneDeliver f.cls (some f)) = (s.settleLink f.cls (some f)).spoil →
        (s.deliver s.plan f.cls (some f)).sameLane s.afterSpoil := fun h => by
      rw [← State.spoil_eq]
      exact State.deliver_sameLane hp s _ _ (h ▸ halike.spoil)
    have hvalid (hv : (!(f.codingBad || f.checkBad || f.trailerBad)) = true) {u : State} (hu : s.laneFrame f = u) :
        (s.deliver s.plan f.cls (some f)).sameLane u := by
      refine State.deliver_sameLane hp s _ _ ?_
      rw [State.laneDeliver_valid (by simpa using hv), ← hu]
      exact halike.laneFrame f
    refine ⟨fun h => ?_, fun hv hk hl => ?_, fun src tag n c1 c0 hv hk ho => ?_, fun hv hk hl hne => ?_, fun hv hk hw => ?_, fun r hv hk hr => ?_⟩
    case refine_1 =>
      cases hv : f.codingBad || f.checkBad || f.trailerBad with
      | true => exact hspoil (State.laneDeliver_corrupt hv _)
      | false =>
        rw [hv] at h
        exact hspoil ((State.laneDeliver_valid hv _).trans (State.laneFrame_spoils (h.resolve_left (by decide)) _))
    case refine_2 => exact hvalid hv ((State.laneFrame_first hk s).trans (State.laneFirst_tooLong hl s))
    case refine_3 =>
      refine ⟨_, exec_enumerate hends.1 src tag n _, hvalid hv ((State.laneFrame_first hk s).trans ?_)⟩
      rw [ho, enumerateOctets_word2]
    case refine_4 =>
      refine hvalid hv ((State.laneFrame_first hk s).trans ((State.laneFirst_parts hl hne s).trans ?_))
      simp only [State.beginMessage_eq, State.holdForward_eq, State.verifyLocal_eq, decide_eq_true_eq]
      rfl
    case refine_5 => exact hvalid hv ((State.laneFrame_cont hk s).trans (State.laneCont_waiting hw _))
    case refine_6 =>
      refine hvalid hv ((State.laneFrame_cont hk s).trans ((State.laneCont_receiving hr _).trans ?_))
      simp only [State.verifyLocal_eq]
      rfl

end Sys2Proof.Machine
end

section
/-!
PROOFS. The part of the unit that a delivery's chain and the commands that fall inside it read and write, and what each stage and each command does to it (log 7).
-/

namespace Sys2Proof.Machine

/-! ### The view of a chain -/

/-- What the stages of a delivery after the first read and write, the Lane Controller and the events left out. -/
structure ChainView where
  power : PowerState
  executing : Option Command
  holding : Option Command
  replies : ReplyQueue
  fade : Fade
  store : SourceStore
  table : MixTable
  staging : Staging
  now : FrameNo
  held : List (Int × Int)
  passRan : Bool

/-- The unit as a chain sees it. -/
def State.chain (s : State) : ChainView :=
  { power := s.intake.power, executing := s.intake.executing, holding := s.intake.holding, replies := s.replies, fade := s.fade, store := s.store
    table := s.table, staging := s.staging, now := s.rx.localFrame, held := s.lanes.held, passRan := s.tx.passRan }

/-- The held command `c` can be taken (R161). -/
structure ChainView.Ready (x : ChainView) (c : Command) : Prop where
  holding : x.holding = some c
  executing : x.executing = none
  place : x.replies.messages.length + x.replies.reserved < 8

/-- The tables as a commit stage that finds this view leaves them (R125, R127). -/
def ChainView.committed (x : ChainView) : MixTable := ((State.reset.withStaging x.staging).withTable x.table).committed x.now

theorem State.chain_committed (s : State) : s.chain.committed = s.committed s.rx.localFrame := rfl

/-! ### The stages -/

theorem State.settleLink_chain (s : State) (cls : DeliveryClass) (frame : Option ReceivedFrame) :
    (s.settleLink cls frame).chain = { s.chain with now := (s.settleLink cls frame).rx.localFrame } := by
  simp [State.chain, State.settleLink_eq]

/-- The lane changes nothing of the view but the holding slot (R160). -/
theorem State.laneDeliver_chain (s : State) (cls : DeliveryClass) (frame : Option ReceivedFrame) :
    (s.laneDeliver cls frame).chain = { s.chain with holding := (s.laneDeliver cls frame).intake.holding } := by
  have k := LaneKeeps.laneDeliver s cls frame
  simp [State.chain, k.power, k.executing, k.replies, k.fade, k.store, k.table, k.staging, k.lanes, k.tx, congrArg LinkReceiver.localFrame k.rx]

/-- A command in the holding slot stays there (R160). -/
theorem State.laneDeliver_occupied {s : State} {c : Command} (h : s.intake.holding = some c) (cls : DeliveryClass) (frame : Option ReceivedFrame) :
    (s.laneDeliver cls frame).chain = s.chain := by
  rw [State.laneDeliver_chain, (LaneKeeps.laneDeliver s cls frame).holding c h, ← h]
  rfl

theorem State.commitStage_chain (s : State) :
    s.commitStage.chain = { s.chain with table := s.chain.committed, staging := s.commitStage.staging } := by
  obtain ⟨hrx, hstore, hfade, -, htx, -, hlanes, hreplies, hintake, -⟩ := State.commitStage_keeps s
  simp [State.chain, hrx, hstore, hfade, htx, hlanes, hreplies, hintake, State.commitStage_table]
  rfl

theorem State.applySources_chain (s : State) (cls : DeliveryClass) (frame : Option ReceivedFrame) :
    (s.applySources cls frame).chain = { s.chain with store := s.chain.store.apply cls ((frame.map (·.slots)).getD []) } := rfl

theorem State.fadeStep_chain (s : State) :
    s.fadeStep.chain = { s.chain with fade := s.chain.fade.next s.chain.store.bad s.chain.store.good s.chain.power } := by
  rw [State.fadeStep_eq]
  rfl

theorem State.passRan_chain (s : State) : (s.withTx { s.tx with passRan := true }).chain = { s.chain with passRan := true } := rfl

theorem State.holdDelivered_chain (s : State) (cls : DeliveryClass) (frame : Option ReceivedFrame) : (s.holdDelivered cls frame).chain = s.chain := rfl

theorem State.passInput_chain (s : State) : s.passInput = { store := s.chain.store, coeff := s.chain.fade.coeff, frame := s.chain.now } := rfl

/-- The pass works the tables and publishes the pairs (R80, R101). -/
theorem Passed.chain {s u : State} {input : PassInput} {l : List Nat} (h : Passed s u input l) :
    u.chain = { s.chain with table := u.table, held := u.lanes.held } := by
  rw [h.eq]
  rfl

/-! ### The commands -/

/-- A held command that can be taken is, and what its action leaves has the reply joined (R161). -/
theorem State.takeWaiting_answers {s u : State} {c : Command} {a : Answer} (h : s.chain.Ready c)
    (hact : actionOf c.kind c.payload c (s.beginCommand c) = (u, some a)) : s.takeWaiting = u.completeCommand c a := by
  have hholding : s.intake.holding = some c := h.holding
  have hcan : s.canTake = true := by
    have hexecuting : s.intake.executing = none := h.executing
    have hplace : s.replies.messages.length + s.replies.reserved < 8 := h.place
    have hnot := s.not_canTake
    rw [hexecuting, decide_eq_false (by omega)] at hnot
    simpa using hnot
  rw [State.takeWaiting, hholding]
  exact (if_pos hcan).trans (State.takeCommand_answers hact)

/-- A completed command frees the executing slot; its reply is in the queue (R161, R163). -/
theorem State.completeCommand_chain (s : State) (c : Command) (a : Answer) :
    (s.completeCommand c a).chain = { s.chain with executing := none, replies := (s.completeCommand c a).replies } := rfl

/-- POWER RUN taken in QUIET (R166). -/
theorem State.takeWaiting_powerRun {s : State} {c : Command} (h : s.chain.Ready c) (hk : c.kind = 0x16) (hp : c.payload = [0])
    (hq : s.chain.power = .quiet) :
    s.takeWaiting.chain = { s.chain with power := .run, executing := none, holding := none, replies := s.takeWaiting.replies } := by
  have hq' : (s.beginCommand c).intake.power = .quiet := hq
  have hact : actionOf c.kind c.payload c (s.beginCommand c) =
      ((s.beginCommand c).withIntake { (s.beginCommand c).intake with power := .run }, some (powerAnswer .quiet .run)) := by
    have hl : lengthRight c.kind c.payload = true := by rw [hk, hp]; rfl
    have hrow : actionOf c.kind c.payload = actPowerRun := by rw [hk, hp]; rfl
    have h0 : at8 c.payload 0 = 0 := by rw [hp]; rfl
    rw [hrow, actPowerRun, checkedLength_right hl, if_pos h0, hq']
  rw [State.takeWaiting_answers h hact, State.completeCommand_chain]
  rfl

/-- UNIT_RESET (R169). -/
theorem State.takeWaiting_unitReset {s : State} {c : Command} (h : s.chain.Ready c) (hk : c.kind = 0x17) (hp : c.payload = []) :
    s.takeWaiting.chain =
      { s.chain with
        power := .run, executing := none, holding := none, replies := s.takeWaiting.replies, fade := { state := .shut, coeff := 0, step := 1 }
        store := { s.chain.store with bad := 0, good := 0 }, table := MixTable.reset, staging := Staging.reset } := by
  have hact : actionOf c.kind c.payload c (s.beginCommand c) = ((s.beginCommand c).unitReset, some (.done [unitCode (s.beginCommand c).lane.unit])) := by
    have hl : lengthRight c.kind c.payload = true := by rw [hk, hp]; rfl
    have hrow : actionOf c.kind c.payload = actUnitReset := by rw [hk]; rfl
    rw [hrow, actUnitReset, checkedLength_right hl]
  rw [State.takeWaiting_answers h hact, State.completeCommand_chain]
  rfl

/-- An accepted MIX_WRITE IMMEDIATE (R62, R65). -/
theorem State.takeWaiting_mixWrite {s : State} {c : Command} (h : s.chain.Ready c) (hk : c.kind = 0x07) {n : Byte} {r : List Byte}
    (hp : c.payload = n :: 0 :: r) (hr : r.length = 25) (hn : n.toNat ≤ 15) {cfg : Settings} {clamped : Bool} (hs : takeSettings r = .ok (cfg, clamped)) :
    s.takeWaiting.chain =
      { s.chain with executing := none, holding := none, replies := s.takeWaiting.replies, table := s.chain.table.replaceSettings n.toNat cfg } := by
  have hl := lengthRight_mixWrite hk hp hr
  have hrow : actionOf c.kind c.payload = actMixWrite := by
    have hi : isStaged (n :: 0 :: r) = false := by rw [isStaged_cons]; decide
    rw [hk, hp]
    show (if isStaged (n :: 0 :: r) = true then actMixWriteStaged else actMixWrite) = actMixWrite
    rw [hi]
    rfl
  have hchecks : mixWriteChecks c.payload = .ok (cfg, clamped) :=
    mixWriteChecks_good (by rw [hp]; exact mixAndMode_good hn (by decide) r) (by rw [hp]; exact hs)
  have hmix : at8 c.payload 0 = n.toNat := by rw [hp]; rfl
  have hact := actMixWrite_good hl hchecks (s.beginCommand c)
  rw [← hrow, hmix] at hact
  rw [State.takeWaiting_answers h hact, State.completeCommand_chain]
  rfl

end Sys2Proof.Machine
end

section
/-!
PROOFS. A delivery inside which the held command is taken at one point of its chain (R31 to R33, R45, R80 to R82, log 7).
-/

namespace Sys2Proof.Machine

/-! ### The chain with one command falling inside it -/

/-- The plan of a delivery whose pass works the mixes in this order, the held command taken at this point. -/
def ChainPlan.taking (order : List Nat) (point : ChainPoint) : ChainPlan := { order := order, falls := [(point, .take)] }

theorem State.fallsAt_taking (s : State) (order : List Nat) (point here : ChainPoint) :
    s.fallsAt (.taking order point) here = if point = here then s.takeWaiting else s := s.fallsAt_one order point here .take

section
variable (s : State) (order : List Nat) (cls : DeliveryClass) (frame : Option ReceivedFrame)

theorem State.settleDelivery_lane :
    s.settleDelivery (.taking order .lane) cls frame = (((s.settleLink cls frame).takeWaiting.laneDeliver cls frame).commitStage).applySources cls frame := by
  simp [State.settleDelivery, State.fallsAt_taking]

theorem State.settleDelivery_commit :
    s.settleDelivery (.taking order .commit) cls frame = (((s.settleLink cls frame).laneDeliver cls frame).takeWaiting.commitStage).applySources cls frame := by
  simp [State.settleDelivery, State.fallsAt_taking]

theorem State.settleDelivery_sources :
    s.settleDelivery (.taking order .sources) cls frame = (((s.settleLink cls frame).laneDeliver cls frame).commitStage.takeWaiting).applySources cls frame := by
  simp [State.settleDelivery, State.fallsAt_taking]

/-- A command that falls later leaves the first stages as they are. -/
theorem State.settleDelivery_later {point : ChainPoint} (h : point ≠ .lane ∧ point ≠ .commit ∧ point ≠ .sources) :
    s.settleDelivery (.taking order point) cls frame = s.settled cls frame := by
  simp [State.settleDelivery, State.settled, State.fallsAt_taking, h]

/-- Outside QUIESCING no step reports SHUT to the Command Intake (R28), and the chain is the fade's step and the pass (R31 stages 3 and 4). -/
theorem State.deliver_open {plan : ChainPlan} (h : (s.settleDelivery plan cls frame).chain.power ≠ .quiescing) :
    s.deliver plan cls frame = (((s.settleDelivery plan cls frame).fadeStep.fallsAt plan .read).startPass plan).holdDelivered cls frame := by
  have hshut : (s.settleDelivery plan cls frame).reportsShut = false := by
    by_contra hshut
    exact h (State.reportsShut_power (Bool.not_eq_false _ ▸ hshut))
  unfold State.deliver State.fadeAndPass
  dsimp only
  rw [hshut]
  rfl

end

/-! ### The pass -/

/-- A pass with nothing falling between its mixes. -/
theorem State.startPass_clear {plan : ChainPlan} (hclear : ∀ (k : Nat) (u : State), u.fallsAt plan (.mix k) = u) {s : State} (h : s.chain.power ≠ .quiet) :
    s.startPass plan = (s.withTx { s.tx with passRan := true }).passAll s.passInput (mixOrder plan) := by
  unfold State.startPass
  split
  next hq => exact absurd hq h
  next => exact State.passMixes_clear (fun k _ => hclear k) _ _

/-- A pass before one of whose mixes the held command is taken (R45, R82). -/
theorem State.startPass_takes {before after : List Nat} {k : Nat} (hperm : (before ++ k :: after).Perm (List.range 16)) {s : State} (h : s.chain.power ≠ .quiet) :
    s.startPass (.taking (before ++ k :: after) (.mix k)) =
      (((s.withTx { s.tx with passRan := true }).passAll s.passInput before).takeWaiting).passAll s.passInput (k :: after) := by
  have hnodup : (before ++ k :: after).Nodup := hperm.nodup_iff.mpr List.nodup_range
  obtain ⟨-, hcons, hdisjoint⟩ := List.nodup_append.mp hnodup
  have hclear {j : Nat} (hj : j ≠ k) (u : State) : u.fallsAt (.taking (before ++ k :: after) (.mix k)) (.mix j) = u := by
    rw [State.fallsAt_taking, if_neg (fun e => hj (ChainPoint.mix.inj e).symm)]
  have hbefore : ∀ j ∈ before, j ≠ k := fun j hj => hdisjoint j hj k List.mem_cons_self
  have hafter : ∀ j ∈ after, j ≠ k := fun j hj e => (List.nodup_cons.mp hcons).1 (e ▸ hj)
  have hrun : s.startPass (.taking (before ++ k :: after) (.mix k)) =
      (s.withTx { s.tx with passRan := true }).passMixes (.taking (before ++ k :: after) (.mix k)) s.passInput (before ++ k :: after) := by
    unfold State.startPass
    split
    next hq => exact absurd hq h
    next => rw [mixOrder_eq (plan := .taking (before ++ k :: after) (.mix k)) hperm]; rfl
  rw [hrun, State.passMixes_append, State.passMixes_clear fun j hj => hclear (hbefore j hj), State.passMixes, State.fallsAt_taking, if_pos rfl,
    State.passMixes_clear fun j hj => hclear (hafter j hj)]
  rfl

/-- A pass that works every mix, its tables and its pairs (R80, R101). -/
theorem State.startPass_published {plan : ChainPlan} (hclear : ∀ (k : Nat) (u : State), u.fallsAt plan (.mix k) = u) {s : State}
    (hq : s.chain.power ≠ .quiet) (hm : s.chain.table.mixes.length = 16) (hh : s.chain.held.length = 16) :
    (s.startPass plan).chain = { s.chain with passRan := true, table := (s.startPass plan).table, held := (s.startPass plan).lanes.held } ∧
      (s.startPass plan).table.mixes = s.chain.table.mixes.map (·.pass s.passInput) ∧
      (s.startPass plan).lanes.held = (s.startPass plan).table.mixes.map fun m => (m.yL, m.yR) := by
  rw [State.startPass_clear hclear hq]
  have passed := Passed.all (mixOrder_nodup plan) (s := s.withTx { s.tx with passRan := true }) (fun k hk => (mixOrder_lt hk).trans_eq hm.symm) s.passInput
  obtain ⟨hmixes, hheld, -⟩ := passed.whole (mixOrder_perm plan) hm hh
  exact ⟨passed.chain, hmixes, hheld⟩

/-! ### Reset tables in a pass (R33, R57, R105) -/

/-- A mix at its defaults is disabled and at rest, and its pass leaves it there (R67, R102). -/
theorem Mix.reset_pass (input : PassInput) : Mix.reset.pass input = Mix.reset := by
  have hramps : Mix.reset.rampStage = Mix.reset := by decide
  have hprepare : Mix.reset.prepare input.store = Mix.reset := congrArg Mix.complete hramps
  unfold Mix.pass
  dsimp only
  rw [hprepare]
  rfl

theorem MixTable.reset_mix (k : Nat) : MixTable.reset.mix k = Mix.reset := by
  unfold MixTable.mix MixTable.reset
  rw [List.getD_eq_getElem?_getD, List.getElem?_replicate]
  split <;> rfl

theorem MixTable.reset_passMix (k : Nat) (input : PassInput) : MixTable.reset.passMix k input = MixTable.reset := by
  have hset : (List.replicate 16 Mix.reset).set k Mix.reset = List.replicate 16 Mix.reset := List.set_replicate_self
  unfold MixTable.passMix Mix.passReturns
  rw [MixTable.reset_mix, Mix.reset_pass]
  exact congrArg (fun l => ({ mixes := l, free := 512 } : MixTable)) hset

/-- Mixes at their defaults publish 0 and stay at them (R105). -/
theorem State.passAll_reset {s : State} (h : s.table = MixTable.reset) (input : PassInput) (l : List Nat) : (s.passAll input l).table = MixTable.reset := by
  induction l generalizing s with
  | nil => exact h
  | cons k l ih =>
    refine ih (s := s.mixAction input k) ?_
    rw [State.mixAction_eq]
    exact (congrArg (·.passMix k input) h).trans (MixTable.reset_passMix k input)

end Sys2Proof.Machine
end

section
/-!
PROOFS. POWER RUN, UNIT_RESET and MIX_WRITE taken inside a delivery (R26, R32, R33, R45, R57, R82, R105, log 7).
-/

namespace Sys2Proof.Machine

/-! ### The first stages (R9, R31 stages 1 and 2) -/

/-- The local frame number that a delivery settles (R10). -/
def State.settledNow (s : State) (cls : DeliveryClass) (frame : Option ReceivedFrame) : FrameNo := (s.settleLink cls frame).rx.localFrame

/-- The slots that a delivery hands the Source Store (R21). -/
def slotsOf (frame : Option ReceivedFrame) : List Int := (frame.map (·.slots)).getD []

section
variable {s : State} {c : Command} (hready : s.chain.Ready c) (order : List Nat) (cls : DeliveryClass) (frame : Option ReceivedFrame)
include hready

theorem State.settleLink_ready : (s.settleLink cls frame).chain.Ready c := by
  rw [State.settleLink_chain]
  exact ⟨hready.holding, hready.executing, hready.place⟩

/-- The lane leaves a command that waits, and all else of the view (R160). -/
theorem State.laned_chain : ((s.settleLink cls frame).laneDeliver cls frame).chain = { s.chain with now := s.settledNow cls frame } := by
  rw [State.laneDeliver_occupied (State.settleLink_ready hready cls frame).holding, State.settleLink_chain]
  rfl

theorem State.laned_ready : ((s.settleLink cls frame).laneDeliver cls frame).chain.Ready c := by
  rw [State.laned_chain hready]
  exact ⟨hready.holding, hready.executing, hready.place⟩

theorem State.committed_chain {u : State} (hu : u = ((s.settleLink cls frame).laneDeliver cls frame).commitStage) :
    u.chain = { s.chain with now := s.settledNow cls frame, table := s.committed (s.settledNow cls frame), staging := u.chain.staging } := by
  rw [hu, State.commitStage_chain, State.laned_chain hready]
  rfl

theorem State.committed_ready : ((s.settleLink cls frame).laneDeliver cls frame).commitStage.chain.Ready c := by
  rw [State.committed_chain hready cls frame rfl]
  exact ⟨hready.holding, hready.executing, hready.place⟩

/-- The unit as the fade's step of a delivery finds it, where nothing has fallen before. -/
theorem State.settled_chain {u : State} (hu : u = s.settled cls frame) :
    u.chain =
      { s.chain with
        now := s.settledNow cls frame, table := s.committed (s.settledNow cls frame), staging := u.chain.staging
        store := s.chain.store.apply cls (slotsOf frame) } := by
  rw [hu, State.settled, State.applySources_chain, State.committed_chain hready cls frame rfl]
  rfl

/-! ### POWER RUN in QUIET (R26, R32) -/

/-- POWER RUN taken before the Source Store applies the delivery: the fade's step finds RUN. -/
theorem State.settleDelivery_powerRun (hk : c.kind = 0x16) (hp : c.payload = [0]) (hq : s.chain.power = .quiet) {point : ChainPoint}
    (hpoint : point = .lane ∨ point = .commit ∨ point = .sources) {u : State} (hu : u = s.settleDelivery (.taking order point) cls frame) :
    (point ≠ .lane → u.chain.holding = none) ∧ u.chain =
      { s.chain with
        power := .run, executing := none, holding := u.chain.holding, replies := u.chain.replies, now := s.settledNow cls frame
        table := s.committed (s.settledNow cls frame), staging := u.chain.staging, store := s.chain.store.apply cls (slotsOf frame) } := by
  subst hu
  rcases hpoint with rfl | rfl | rfl
  case inl =>
    have htake := State.takeWaiting_powerRun (State.settleLink_ready hready cls frame) hk hp (by rw [State.settleLink_chain]; exact hq)
    rw [State.settleDelivery_lane, State.applySources_chain, State.commitStage_chain, State.laneDeliver_chain, htake, State.settleLink_chain]
    exact ⟨fun h => absurd rfl h, rfl⟩
  case inr.inl =>
    have htake := State.takeWaiting_powerRun (State.laned_ready hready cls frame) hk hp (by rw [State.laned_chain hready]; exact hq)
    rw [State.settleDelivery_commit, State.applySources_chain, State.commitStage_chain, htake, State.laned_chain hready]
    exact ⟨fun _ => rfl, rfl⟩
  case inr.inr =>
    have htake := State.takeWaiting_powerRun (State.committed_ready hready cls frame) hk hp (by rw [State.committed_chain hready cls frame rfl]; exact hq)
    rw [State.settleDelivery_sources, State.applySources_chain, htake, State.committed_chain hready cls frame rfl]
    exact ⟨fun _ => rfl, rfl⟩

end

/-- The fade at rest opens on its step in RUN at G 16 or more, and stays otherwise (R24, R26). -/
theorem Fade.next_shut {fd : Fade} (hs : fd.state = .shut) (hc : fd.coeff = 0) (bad good : Nat) (power : PowerState) :
    fd.next bad good power =
      if 16 ≤ good ∧ power = .run then { fd with state := if 4096 ≤ fd.step then .opened else .opening, coeff := min 4096 fd.step } else fd := by
  obtain ⟨state, coeff, step⟩ := fd
  obtain rfl : state = .shut := hs
  obtain rfl : coeff = 0 := hc
  have hopens : Fade.endTest .opening (min 4096 step) = if 4096 ≤ step then .opened else .opening := if_congr min_eq_left_iff rfl rfl
  have htest : Fade.test .shut bad good power = if 16 ≤ good ∧ power = .run then .opening else .shut := rfl
  have hmove : Fade.move .opening 0 step = min 4096 step := congrArg (min 4096) (Nat.zero_add step)
  unfold Fade.next
  dsimp only
  rw [htest]
  split
  · rw [hmove, hopens]
  · rfl

end Sys2Proof.Machine
end

section
/-!
PROOFS. The three commands inside a delivery, from its first stage to its last: the unit before the pass, or in it, and what the pass leaves (log 7).
-/

namespace Sys2Proof.Machine

/-! ### After a reset -/

/-- A delivery after a reset of the counts leaves them one step from 0 (R21 to R23). -/
theorem SourceStore.apply_fresh (st : SourceStore) (cls : DeliveryClass) (slots : List Int) :
    (SourceStore.apply { st with bad := 0, good := 0 } cls slots).good = (if cls = .good then 1 else 0) ∧
      (SourceStore.apply { st with bad := 0, good := 0 } cls slots).bad = if cls = .good then 0 else 1 := by
  cases cls <;> exact ⟨rfl, rfl⟩

/-- With the slot disarmed by a reset, the commit stage does nothing (R125, R135). -/
theorem State.commitStage_reset {s : State} (h : s.chain.staging = Staging.reset) : s.commitStage = s := by
  refine State.commitStage_idle ?_
  rw [State.firesAt, show s.staging = Staging.reset from h]
  rfl

/-! ### POWER RUN before the pass (R26, R32) -/

section
variable {s : State} {c : Command} (hready : s.chain.Ready c) (order : List Nat) (cls : DeliveryClass) (frame : Option ReceivedFrame)
include hready

/-- POWER RUN taken in QUIET before the pass: the pass starts in RUN, and the fade has stepped in RUN but where the command came after the step. -/
theorem State.deliver_powerRun (hk : c.kind = 0x16) (hp : c.payload = [0]) (hq : s.chain.power = .quiet) (hshut : s.chain.fade.state = .shut)
    (hcoeff : s.chain.fade.coeff = 0) {point : ChainPoint} (hpoint : ∀ k, point ≠ .mix k) :
    ∃ w : State, s.deliver (.taking order point) cls frame = (w.startPass (.taking order point)).holdDelivered cls frame ∧
      (point ≠ .lane → w.chain.holding = none) ∧ w.chain =
        { s.chain with
          power := .run, executing := none, holding := w.chain.holding, replies := w.chain.replies, now := s.settledNow cls frame
          table := s.committed (s.settledNow cls frame), staging := w.chain.staging, store := s.chain.store.apply cls (slotsOf frame)
          fade :=
            if point ≠ .read ∧ 16 ≤ (s.chain.store.apply cls (slotsOf frame)).good then
              { s.chain.fade with state := if 4096 ≤ s.chain.fade.step then .opened else .opening, coeff := min 4096 s.chain.fade.step }
            else s.chain.fade } := by
  by_cases hread : point = .read
  case pos =>
    subst hread
    have hlater := State.settleDelivery_later s order cls frame (point := .read) (by decide)
    have hsettled := State.settled_chain hready cls frame rfl
    have hstep : (s.settled cls frame).fadeStep.chain = { (s.settled cls frame).chain with fade := s.chain.fade } := by
      rw [State.fadeStep_chain, hsettled]
      dsimp only
      rw [Fade.next_shut hshut hcoeff, if_neg (by rw [hq]; exact fun h => nomatch h.2)]
    have htake := State.takeWaiting_powerRun (s := (s.settled cls frame).fadeStep)
      (by rw [hstep, hsettled]; exact ⟨hready.holding, hready.executing, hready.place⟩) hk hp (by rw [hstep, hsettled]; exact hq)
    have hdeliver := State.deliver_open s cls frame (plan := .taking order .read) (by rw [hlater, hsettled]; dsimp only; rw [hq]; decide)
    rw [State.fallsAt_taking, if_pos rfl, hlater] at hdeliver
    refine ⟨_, hdeliver, fun _ => by rw [htake], ?_⟩
    rw [if_neg (by simp), htake, hstep, hsettled]
  case neg =>
    have hearly : point = .lane ∨ point = .commit ∨ point = .sources := by cases point <;> simp_all
    obtain ⟨hholding, hchain⟩ := State.settleDelivery_powerRun hready order cls frame hk hp hq hearly rfl
    have hdeliver := State.deliver_open s cls frame (plan := .taking order point) (by rw [hchain]; nofun)
    rw [State.fallsAt_taking, if_neg hread] at hdeliver
    refine ⟨_, hdeliver, fun h => by rw [State.fadeStep_chain]; exact hholding h, ?_⟩
    rw [State.fadeStep_chain]
    rw [hchain]
    dsimp only
    rw [Fade.next_shut hshut hcoeff]
    simp only [hread, ne_eq, not_false_eq_true, true_and, and_true]

/-! ### UNIT_RESET before the pass (R33, R57) -/

/-- UNIT_RESET taken before the Source Store applies the delivery. -/
theorem State.settleDelivery_unitReset (hk : c.kind = 0x17) (hp : c.payload = []) {point : ChainPoint}
    (hpoint : point = .lane ∨ point = .commit ∨ point = .sources) {u : State} (hu : u = s.settleDelivery (.taking order point) cls frame) :
    (point ≠ .lane → u.chain.holding = none) ∧ u.chain =
      { s.chain with
        power := .run, executing := none, holding := u.chain.holding, replies := u.chain.replies, now := s.settledNow cls frame
        fade := { state := .shut, coeff := 0, step := 1 }, table := MixTable.reset, staging := Staging.reset
        store := SourceStore.apply { s.chain.store with bad := 0, good := 0 } cls (slotsOf frame) } := by
  subst hu
  rcases hpoint with rfl | rfl | rfl
  case inl =>
    have htake := State.takeWaiting_unitReset (State.settleLink_ready hready cls frame) hk hp
    rw [State.settleDelivery_lane, State.applySources_chain, State.commitStage_reset (by rw [State.laneDeliver_chain, htake]), State.laneDeliver_chain, htake,
      State.settleLink_chain]
    exact ⟨fun h => absurd rfl h, rfl⟩
  case inr.inl =>
    have htake := State.takeWaiting_unitReset (State.laned_ready hready cls frame) hk hp
    rw [State.settleDelivery_commit, State.applySources_chain, State.commitStage_reset (by rw [htake]), htake, State.laned_chain hready]
    exact ⟨fun _ => rfl, rfl⟩
  case inr.inr =>
    have htake := State.takeWaiting_unitReset (State.committed_ready hready cls frame) hk hp
    rw [State.settleDelivery_sources, State.applySources_chain, htake, State.committed_chain hready cls frame rfl]
    exact ⟨fun _ => rfl, rfl⟩

/-- UNIT_RESET taken before the pass: the pass finds reset tables, and the counts one step from 0 where the delivery came after it. -/
theorem State.deliver_unitReset (hk : c.kind = 0x17) (hp : c.payload = []) (hrun : s.chain.power = .run) {point : ChainPoint} (hpoint : ∀ k, point ≠ .mix k) :
    ∃ w : State, s.deliver (.taking order point) cls frame = (w.startPass (.taking order point)).holdDelivered cls frame ∧
      (point ≠ .lane → w.chain.holding = none) ∧ w.chain =
        { s.chain with
          power := .run, executing := none, holding := w.chain.holding, replies := w.chain.replies, now := s.settledNow cls frame
          fade := { state := .shut, coeff := 0, step := 1 }, table := MixTable.reset, staging := Staging.reset
          store :=
            if point = .read then { s.chain.store.apply cls (slotsOf frame) with bad := 0, good := 0 }
            else SourceStore.apply { s.chain.store with bad := 0, good := 0 } cls (slotsOf frame) } := by
  by_cases hread : point = .read
  case pos =>
    subst hread
    have hlater := State.settleDelivery_later s order cls frame (point := .read) (by decide)
    have hsettled := State.settled_chain hready cls frame rfl
    have htake := State.takeWaiting_unitReset (s := (s.settled cls frame).fadeStep)
      (by rw [State.fadeStep_chain, hsettled]; exact ⟨hready.holding, hready.executing, hready.place⟩) hk hp
    have hdeliver := State.deliver_open s cls frame (plan := .taking order .read) (by rw [hlater, hsettled]; dsimp only; rw [hrun]; decide)
    rw [State.fallsAt_taking, if_pos rfl, hlater] at hdeliver
    refine ⟨_, hdeliver, fun _ => by rw [htake], ?_⟩
    rw [if_pos rfl, htake, State.fadeStep_chain, hsettled]
  case neg =>
    have hearly : point = .lane ∨ point = .commit ∨ point = .sources := by cases point <;> simp_all
    obtain ⟨hholding, hchain⟩ := State.settleDelivery_unitReset hready order cls frame hk hp hearly rfl
    have hdeliver := State.deliver_open s cls frame (plan := .taking order point) (by rw [hchain]; nofun)
    rw [State.fallsAt_taking, if_neg hread] at hdeliver
    have hgood : ¬16 ≤ (SourceStore.apply { s.chain.store with bad := 0, good := 0 } cls (slotsOf frame)).good := by
      rw [(SourceStore.apply_fresh ..).1]
      split <;> omega
    refine ⟨_, hdeliver, fun h => by rw [State.fadeStep_chain]; exact hholding h, ?_⟩
    rw [State.fadeStep_chain]
    rw [hchain]
    dsimp only
    rw [Fade.next_shut rfl rfl, if_neg fun h => hgood h.1, if_neg hread]

end

/-! ### A command taken in the pass (R33, R45, R82) -/

/-- The unit as a command that falls in the pass of a delivery of `s` finds it, the mixes of `before` worked: each of them as its own pass leaves it, its pair held;
everything else as the fade's step left it. -/
structure PassedUpTo (s x : State) (c : Command) (cls : DeliveryClass) (frame : Option ReceivedFrame) (before : List Nat) (input : PassInput) : Prop where
  ready : x.chain.Ready c
  input_eq : input = { store := x.chain.store, coeff := x.chain.fade.coeff, frame := x.chain.now }
  chain : x.chain =
    { s.chain with
      now := s.settledNow cls frame, store := s.chain.store.apply cls (slotsOf frame), passRan := true, table := x.table, held := x.chain.held
      fade :=
        s.chain.fade.next (s.chain.store.apply cls (slotsOf frame)).bad (s.chain.store.apply cls (slotsOf frame)).good s.chain.power
      staging := x.chain.staging }
  tableLength : x.table.mixes.length = 16
  heldLength : x.lanes.held.length = 16
  mix : ∀ j, x.table.mix j =
    if j ∈ before then ((s.committed (s.settledNow cls frame)).mix j).pass input else (s.committed (s.settledNow cls frame)).mix j
  held : ∀ j ∈ before, x.lanes.held.getD j (0, 0) =
    ((((s.committed (s.settledNow cls frame)).mix j).pass input).yL, (((s.committed (s.settledNow cls frame)).mix j).pass input).yR)

/-- A delivery in whose pass the held command is taken before mix `k`, the mixes of `before` worked. -/
theorem State.deliver_takesInPass {s : State} {c : Command} (hready : s.chain.Ready c) (hrun : s.chain.power = .run) (hm : s.table.mixes.length = 16)
    (hh : s.lanes.held.length = 16) (cls : DeliveryClass) (frame : Option ReceivedFrame) {before after : List Nat} {k : Nat}
    (hperm : (before ++ k :: after).Perm (List.range 16)) :
    ∃ (x : State) (input : PassInput), PassedUpTo s x c cls frame before input ∧
      s.deliver (.taking (before ++ k :: after) (.mix k)) cls frame = (x.takeWaiting.passAll input (k :: after)).holdDelivered cls frame := by
  have hlater := State.settleDelivery_later s (before ++ k :: after) cls frame (point := .mix k) (by simp)
  have hsettled := State.settled_chain hready cls frame rfl
  have hstep := State.fadeStep_chain (s.settled cls frame)
  rw [hsettled] at hstep
  have hdeliver := State.deliver_open s cls frame (plan := .taking (before ++ k :: after) (.mix k)) (by rw [hlater, hsettled]; dsimp only; rw [hrun]; decide)
  rw [State.fallsAt_taking, if_neg (by simp), hlater, State.startPass_takes hperm (by rw [hstep]; dsimp only; rw [hrun]; decide)] at hdeliver
  generalize (s.settled cls frame).fadeStep = w at hstep hdeliver
  have htable : w.table = s.committed (s.settledNow cls frame) := congrArg ChainView.table hstep
  have hlanes : w.lanes.held = s.lanes.held := congrArg ChainView.held hstep
  have hlength : w.table.mixes.length = 16 := by rw [htable, State.committed_length, hm]
  have hnodup : (before ++ k :: after).Nodup := hperm.nodup_iff.mpr List.nodup_range
  have hlt : ∀ j ∈ before, j < 16 := fun j hj => List.mem_range.mp (hperm.mem_iff.mp (List.mem_append_left _ hj))
  have passed := Passed.all (List.nodup_append.mp hnodup).1 (s := w.withTx { w.tx with passRan := true }) (fun j hj => (hlt j hj).trans_eq hlength.symm)
    w.passInput
  refine ⟨_, _, ?_, hdeliver⟩
  have hchain := passed.chain
  rw [State.passRan_chain, hstep] at hchain
  have hmix := passed.mix
  have hheld := passed.held
  have hl1 := passed.length
  have hl2 := passed.heldLength
  have hinput := w.passInput_chain
  rw [hstep] at hinput
  generalize (w.withTx { w.tx with passRan := true }).passAll w.passInput before = x at *
  constructor
  case ready => rw [hchain]; exact ⟨hready.holding, hready.executing, hready.place⟩
  case input_eq => rw [hchain]; exact hinput
  case chain => rw [hchain]
  case tableLength => exact hl1.trans hlength
  case heldLength => exact hl2.trans (by rw [← hh, ← hlanes]; rfl)
  case mix => rw [← htable]; exact hmix
  case held =>
    intro j hj
    rw [← htable]
    refine (hheld j ?_).trans (if_pos hj)
    show j < w.lanes.held.length
    rw [hlanes, hh]
    exact hlt j hj

end Sys2Proof.Machine
end

section
/-!
PROOFS. What a delivery leaves, with POWER RUN, UNIT_RESET or MIX_WRITE taken inside it (R26, R32, R33, R45, R57, R82, R105, log 7).
-/

namespace Sys2Proof.Machine

/-! ### The held row and the standing action (R161) -/

/-- The held row of the waiting command's KIND and payload takes it as the standing action does (log 7). -/
theorem exec_takesWaiting {s : State} (hr : s.resetHeld = false) {c : Command} (h : s.intake.holding = some c) :
    exec (rowOf c.kind c.payload .held) s = .next s.takeWaiting := by
  obtain ⟨hrow, hown⟩ := rowOf_own c.kind c.payload .held
  rw [exec_command hrow, commandRow, whileReleased_released hr]
  simp only [State.takeHeld, State.takeWaiting, h, hown, beq_self_eq_true, Bool.true_and]
  rfl

/-! ### Before the pass -/

/-- A delivery that ends with a whole pass over the unit `w`: its tables and its pairs (R80, R101). -/
theorem State.delivered_published {plan : ChainPlan} (hclear : ∀ (k : Nat) (u : State), u.fallsAt plan (.mix k) = u) {w t : State} {cls : DeliveryClass}
    {frame : Option ReceivedFrame} (ht : t = (w.startPass plan).holdDelivered cls frame) (hq : w.chain.power ≠ .quiet)
    (hm : w.chain.table.mixes.length = 16) (hh : w.chain.held.length = 16) :
    t.chain = { w.chain with passRan := true, table := t.table, held := t.lanes.held } ∧
      t.table.mixes = w.chain.table.mixes.map (·.pass { store := t.store, coeff := t.fade.coeff, frame := t.rx.localFrame }) ∧
      t.lanes.held = t.table.mixes.map fun m => (m.yL, m.yR) := by
  obtain ⟨hchain, hmixes, hheld⟩ := State.startPass_published hclear hq hm hh
  have hinput : w.passInput = { store := t.store, coeff := t.fade.coeff, frame := t.rx.localFrame } := by
    have ht' : t.chain = { w.chain with passRan := true, table := (w.startPass plan).table, held := (w.startPass plan).lanes.held } := by
      rw [ht, State.holdDelivered_chain, hchain]
    have hstore : t.store = w.chain.store := congrArg ChainView.store ht'
    have hfade : t.fade = w.chain.fade := congrArg ChainView.fade ht'
    have hnow : t.rx.localFrame = w.chain.now := congrArg ChainView.now ht'
    rw [hstore, hfade, hnow, State.passInput_chain]
  subst ht
  exact ⟨hchain, by rw [← hinput]; exact hmixes, hheld⟩

section
variable {s : State} {i : Instr} {cls : DeliveryClass} {order : List Nat} {point : ChainPoint} {c : Command} (hd : s.deliversWith i cls order point .take)
  (hready : s.chain.Ready c) (hh : s.lanes.held.length = 16)
include hd hready hh

/-- POWER RUN taken in QUIET before the pass. -/
theorem exec_powerRun_before (hm : s.table.mixes.length = 16) (hk : c.kind = 0x16) (hp : c.payload = [0]) (hq : s.intake.power = .quiet) (hshut : s.fade.state = .shut)
    (hcoeff : s.fade.coeff = 0) (hpoint : ∀ k, point ≠ .mix k) :
    ∃ t, exec i s = .next t ∧ t.intake.power = .run ∧ t.intake.executing = none ∧ (point ≠ .lane → t.intake.holding = none) ∧ t.tx.passRan = true ∧
      t.fade =
        (if point ≠ .read ∧ 16 ≤ t.store.good then
          { s.fade with state := if 4096 ≤ s.fade.step then .opened else .opening, coeff := min 4096 s.fade.step }
        else s.fade) ∧
      t.table.mixes = (s.committed t.rx.localFrame).mixes.map (·.pass { store := t.store, coeff := t.fade.coeff, frame := t.rx.localFrame }) ∧
      t.lanes.held = t.table.mixes.map fun m => (m.yL, m.yR) := by
  obtain ⟨hexec, -⟩ := exec_deliversWith hd
  obtain ⟨w, hdeliver, hholding, hchain⟩ := State.deliver_powerRun hready order cls (frameOf i) hk hp hq hshut hcoeff hpoint
  have hclear (k : Nat) (u : State) : u.fallsAt (.taking order point) (.mix k) = u := by rw [State.fallsAt_taking, if_neg (hpoint k)]
  obtain ⟨ht, hmixes, hheld⟩ := State.delivered_published hclear (t := (w.startPass (.taking order point)).holdDelivered cls (frameOf i)) rfl
    (by rw [hchain]; nofun) (by rw [hchain]; exact (s.committed_length _).trans hm) (by rw [hchain]; exact hh)
  refine ⟨_, hexec.trans (congrArg Host.Outcome.next hdeliver), ?_⟩
  generalize (w.startPass (.taking order point)).holdDelivered cls (frameOf i) = t at *
  rw [hchain] at ht
  have hstore : t.store = s.store.apply cls (slotsOf (frameOf i)) := congrArg ChainView.store ht
  have hnow : t.rx.localFrame = s.settledNow cls (frameOf i) := congrArg ChainView.now ht
  have htable : w.chain.table = s.committed t.rx.localFrame := by rw [hchain, hnow]
  refine ⟨congrArg ChainView.power ht, congrArg ChainView.executing ht, fun h => (congrArg ChainView.holding ht).trans (hholding h),
    congrArg ChainView.passRan ht, ?_, ?_, hheld⟩
  · rw [hstore]
    exact congrArg ChainView.fade ht
  · rw [← htable]
    exact hmixes

/-- UNIT_RESET taken before the pass. -/
theorem exec_unitReset_before (hk : c.kind = 0x17) (hp : c.payload = []) (hrun : s.intake.power = .run) (hpoint : ∀ k, point ≠ .mix k) :
    ∃ t holding replies, exec i s = .next t ∧ (point ≠ .lane → holding = none) ∧ t.chain =
      { power := .run, executing := none, holding := holding, replies := replies, fade := { state := .shut, coeff := 0, step := 1 }
        store :=
          if point = .read then { s.store.apply cls (slotsOf (frameOf i)) with bad := 0, good := 0 }
          else SourceStore.apply { s.store with bad := 0, good := 0 } cls (slotsOf (frameOf i))
        table := MixTable.reset, staging := Staging.reset, now := s.settledNow cls (frameOf i), held := List.replicate 16 (0, 0), passRan := true } := by
  obtain ⟨hexec, -⟩ := exec_deliversWith hd
  obtain ⟨w, hdeliver, hholding, hchain⟩ := State.deliver_unitReset hready order cls (frameOf i) hk hp hrun hpoint
  have hclear (k : Nat) (u : State) : u.fallsAt (.taking order point) (.mix k) = u := by rw [State.fallsAt_taking, if_neg (hpoint k)]
  have hopen : w.chain.power ≠ .quiet := by rw [hchain]; nofun
  have hreset : w.table = MixTable.reset := congrArg ChainView.table hchain
  obtain ⟨ht, -, hheld⟩ := State.delivered_published hclear (t := (w.startPass (.taking order point)).holdDelivered cls (frameOf i)) rfl
    hopen (by rw [hchain]; rfl) (by rw [hchain]; exact hh)
  have htable : ((w.startPass (.taking order point)).holdDelivered cls (frameOf i)).table = MixTable.reset := by
    rw [State.startPass_clear hclear hopen]
    exact State.passAll_reset (s := w.withTx { w.tx with passRan := true }) hreset _ _
  refine ⟨_, w.chain.holding, w.chain.replies, hexec.trans (congrArg Host.Outcome.next hdeliver), hholding, ?_⟩
  rw [htable] at hheld
  rw [ht, htable, hheld]
  rw [hchain]
  rfl

end

/-! ### In the pass -/

section
variable {s : State} {c : Command} (hready : s.chain.Ready c) (hrun : s.chain.power = .run) (hm : s.table.mixes.length = 16)
  (hh : s.lanes.held.length = 16) (cls : DeliveryClass) (frame : Option ReceivedFrame) {before after : List Nat} {k : Nat}
  (hperm : (before ++ k :: after).Perm (List.range 16))
include hready hrun hm hh hperm

/-- UNIT_RESET taken in the pass: the mixes worked before it keep their pairs, and those worked after it publish 0 (R33, R105). -/
theorem State.deliver_unitReset_inPass (hk : c.kind = 0x17) (hp : c.payload = []) {t : State}
    (ht : t = s.deliver (.taking (before ++ k :: after) (.mix k)) cls frame) :
    t.chain =
      { power := .run, executing := none, holding := none, replies := t.chain.replies, fade := { state := .shut, coeff := 0, step := 1 }
        store := { s.chain.store.apply cls (slotsOf frame) with bad := 0, good := 0 }
        table := MixTable.reset, staging := Staging.reset, now := s.settledNow cls frame, held := t.chain.held, passRan := true } ∧
      ∃ input : PassInput, input.store = s.chain.store.apply cls (slotsOf frame) ∧
        input.coeff = (s.chain.fade.next input.store.bad input.store.good .run).coeff ∧ input.frame = s.settledNow cls frame ∧
        ∀ j, j < 16 → t.lanes.held.getD j (0, 0) =
          if j ∈ before then
            ((((s.committed (s.settledNow cls frame)).mix j).pass input).yL, (((s.committed (s.settledNow cls frame)).mix j).pass input).yR)
          else (0, 0) := by
  obtain ⟨x, input, hx, hdeliver⟩ := State.deliver_takesInPass hready hrun hm hh cls frame hperm
  have htake := State.takeWaiting_unitReset hx.ready hk hp
  have hreset : x.takeWaiting.table = MixTable.reset := congrArg ChainView.table htake
  have hkept : x.takeWaiting.lanes.held = x.lanes.held := congrArg ChainView.held htake
  have hlength : x.takeWaiting.table.mixes.length = 16 := by rw [hreset]; rfl
  have hnodup : (before ++ k :: after).Nodup := hperm.nodup_iff.mpr List.nodup_range
  obtain ⟨-, hcons, hdisjoint⟩ := List.nodup_append.mp hnodup
  have passed := Passed.all hcons (s := x.takeWaiting)
    (fun j hj => (List.mem_range.mp (hperm.mem_iff.mp (List.mem_append_right _ hj))).trans_eq hlength.symm) input
  have htable := State.passAll_reset hreset input (k :: after)
  have hchain := passed.chain
  have hheld := passed.held
  rw [htake, hx.chain, htable] at hchain
  rw [hreset, hkept, hx.heldLength] at hheld
  have hinput := hx.input_eq
  rw [hx.chain] at hinput
  subst ht
  rw [hdeliver, State.holdDelivered_chain]
  generalize x.takeWaiting.passAll input (k :: after) = y at *
  refine ⟨?_, input, by rw [hinput], by rw [hinput, hrun], by rw [hinput], fun j hj => (hheld j hj).trans ?_⟩
  · rw [hchain]
  · by_cases hb : j ∈ before
    · have hnot : j ∉ k :: after := fun ha => hdisjoint j hb j ha rfl
      rw [if_neg hnot, if_pos hb, hx.held j hb]
    · have ha : j ∈ k :: after := (List.mem_append.mp (hperm.mem_iff.mpr (List.mem_range.mpr hj))).resolve_left hb
      rw [if_pos ha, if_neg hb, MixTable.reset_mix, Mix.reset_pass]
      rfl

/-- MIX_WRITE taken in the pass is in force for its mix where that mix is not yet worked, and otherwise after its work (R45, R82). -/
theorem State.deliver_mixWrite_inPass (hk : c.kind = 0x07) {n : Byte} {r : List Byte} (hp : c.payload = n :: 0 :: r) (hr : r.length = 25) (hn : n.toNat ≤ 15)
    {cfg : Settings} {clamped : Bool} (hs : takeSettings r = .ok (cfg, clamped)) {t : State}
    (ht : t = s.deliver (.taking (before ++ k :: after) (.mix k)) cls frame) :
    t.intake.power = .run ∧ t.intake.executing = none ∧ t.intake.holding = none ∧
      ∀ j, j < 16 →
        let input : PassInput := { store := t.store, coeff := t.fade.coeff, frame := t.rx.localFrame }
        let old := (s.committed t.rx.localFrame).mix j
        let passed := if j = n.toNat ∧ j ∉ before then (old.replaceSettings cfg).pass input else old.pass input
        t.table.mix j = (if j = n.toNat ∧ j ∈ before then passed.replaceSettings cfg else passed) ∧ t.lanes.held.getD j (0, 0) = (passed.yL, passed.yR) := by
  obtain ⟨x, input, hx, hdeliver⟩ := State.deliver_takesInPass hready hrun hm hh cls frame hperm
  have htake := State.takeWaiting_mixWrite hx.ready hk hp hr hn hs
  have hwritten : x.takeWaiting.table = x.table.replaceSettings n.toNat cfg := congrArg ChainView.table htake
  have hkept : x.takeWaiting.lanes.held = x.lanes.held := congrArg ChainView.held htake
  have hlength : x.takeWaiting.table.mixes.length = 16 := by rw [hwritten]; exact (MixTable.setMix_length _ _ _).trans hx.tableLength
  have hnodup : (before ++ k :: after).Nodup := hperm.nodup_iff.mpr List.nodup_range
  obtain ⟨-, hcons, hdisjoint⟩ := List.nodup_append.mp hnodup
  have passed := Passed.all hcons (s := x.takeWaiting)
    (fun j hj => (List.mem_range.mp (hperm.mem_iff.mp (List.mem_append_right _ hj))).trans_eq hlength.symm) input
  have hmix (j : Nat) : x.takeWaiting.table.mix j = if j = n.toNat then (x.table.mix j).replaceSettings cfg else x.table.mix j := by
    rw [hwritten, MixTable.replaceSettings]
    split
    next h => rw [h, MixTable.setMix_mix (by rw [hx.tableLength]; omega)]
    next h => rw [MixTable.setMix_other _ h]
  have hchain := passed.chain
  have hpassed := passed.mix
  have hheld := passed.held
  rw [htake, hx.chain] at hchain
  rw [hkept, hx.heldLength] at hheld
  have hinput := hx.input_eq
  rw [hx.chain] at hinput
  have hframe : t.chain = (x.takeWaiting.passAll input (k :: after)).chain := by rw [ht, hdeliver, State.holdDelivered_chain]
  generalize x.takeWaiting.passAll input (k :: after) = y at *
  have htable : t.table = y.table := congrArg ChainView.table hframe
  have hpairs : t.lanes.held = y.lanes.held := congrArg ChainView.held hframe
  rw [hchain] at hframe
  have hnow : t.rx.localFrame = s.settledNow cls frame := congrArg ChainView.now hframe
  have hstore : t.store = s.chain.store.apply cls (slotsOf frame) := congrArg ChainView.store hframe
  have hfade := congrArg ChainView.fade hframe
  refine ⟨(congrArg ChainView.power hframe).trans hrun, congrArg ChainView.executing hframe, congrArg ChainView.holding hframe, fun j hj => ?_⟩
  have hread : ({ store := t.store, coeff := t.fade.coeff, frame := t.rx.localFrame } : PassInput) = input := by
    rw [hinput, hstore, hnow]
    exact congrArg (fun f : Fade => ({ store := _, coeff := f.coeff, frame := _ } : PassInput)) hfade
  dsimp only
  rw [hread, hnow, htable, hpairs, hpassed, hheld j hj, hmix, hx.mix]
  by_cases hb : j ∈ before
  · have hnot : j ∉ k :: after := fun ha => hdisjoint j hb j ha rfl
    rw [hx.held j hb]
    simp only [hb, hnot, if_true, if_false, not_true, and_false, and_true]
  · have ha : j ∈ k :: after := (List.mem_append.mp (hperm.mem_iff.mpr (List.mem_range.mpr hj))).resolve_left hb
    simp only [hb, ha, if_true, if_false, not_false_eq_true, and_false, and_true]
    split <;> exact ⟨rfl, rfl⟩

end

/-- Settles O14: each command's effect on the view of the chain, at its point, and the pass over what it leaves. -/
theorem commandsFallInsideDelivery : Obligations.CommandsFallInsideDelivery := by
  refine ⟨fun s hr => ⟨fun c h => exec_takesWaiting hr h, fun h => by rw [State.takeWaiting, h], exec_noticeQueue hr⟩,
    fun s i cls order point c hd hholding hexecuting hplace hm hh => ?_⟩
  have hready : s.chain.Ready c := ⟨hholding, hexecuting, hplace⟩
  have hperm : order.Perm (List.range 16) := hd.1
  obtain ⟨hexec, -⟩ := exec_deliversWith hd
  refine ⟨fun hk hp hq hshut hcoeff hpoint => exec_powerRun_before hd hready hh hm hk hp hq hshut hcoeff hpoint, fun hk hp hrun => ?_,
    fun n r cfg clamped before k after hk hp hr hn hs hrun hpoint horder => ?_⟩
  · by_cases hmix : ∃ k, point = .mix k
    · obtain ⟨k, rfl⟩ := hmix
      have hin : k ∈ order := hperm.mem_iff.mpr (List.mem_range.mpr (hd.2.1 k rfl))
      obtain ⟨before, after, horder⟩ := List.append_of_mem hin
      have hreset {before after : List Nat} (h : order = before ++ k :: after) :=
        State.deliver_unitReset_inPass hready hrun hm hh cls (frameOf i) (h ▸ hperm) hk hp (t := s.deliver (.taking order (.mix k)) cls (frameOf i)) (by rw [h])
      obtain ⟨ht, -⟩ := hreset horder
      refine ⟨_, hexec, congrArg ChainView.power ht, congrArg ChainView.executing ht, fun _ => congrArg ChainView.holding ht, congrArg ChainView.table ht,
        congrArg ChainView.staging ht, congrArg ChainView.fade ht, by simp,
        fun _ => ⟨congrArg (·.store.good) ht, congrArg (·.store.bad) ht⟩, fun h => absurd rfl (h k), fun before' k' after' hpoint horder' => ?_⟩
      obtain rfl : k = k' := ChainPoint.mix.inj hpoint
      obtain ⟨-, input, hinput, hcoeff, hnow, hheld⟩ := hreset horder'
      have hframe : (s.deliver (.taking order (.mix k)) cls (frameOf i)).rx.localFrame = s.settledNow cls (frameOf i) := congrArg ChainView.now ht
      refine ⟨input, (congrArg SourceStore.sources hinput).trans (congrArg (·.store.sources) ht).symm, hcoeff, hnow.trans hframe.symm, fun j hj => ?_⟩
      rw [← hframe] at hheld
      exact hheld j hj
    · have hpoint : ∀ k, point ≠ .mix k := fun k h => hmix ⟨k, h⟩
      obtain ⟨t, holding, replies, hexec', hholding', ht⟩ := exec_unitReset_before hd hready hh hk hp hrun hpoint
      refine ⟨t, hexec', congrArg ChainView.power ht, congrArg ChainView.executing ht, fun h => (congrArg ChainView.holding ht).trans (hholding' h),
        congrArg ChainView.table ht, congrArg ChainView.staging ht, congrArg ChainView.fade ht, fun h => ?_, fun h => ?_,
        fun _ => congrArg ChainView.held ht, fun before k after h => absurd h (hpoint k)⟩
      · have hread : point ≠ .read := by rintro rfl; simp at h
        rw [if_neg hread] at ht
        exact ⟨(congrArg (·.store.good) ht).trans (SourceStore.apply_fresh ..).1, (congrArg (·.store.bad) ht).trans (SourceStore.apply_fresh ..).2⟩
      · have hread : point = .read := by cases point <;> simp_all
        rw [if_pos hread] at ht
        exact ⟨congrArg (·.store.good) ht, congrArg (·.store.bad) ht⟩
  · subst horder
    obtain ⟨hpower, hexecuting', hholding', hmixes⟩ :=
      State.deliver_mixWrite_inPass hready hrun hm hh cls (frameOf i) hperm hk hp hr hn hs rfl
    subst hpoint
    exact ⟨_, hexec, hpower, hexecuting', fun _ => hholding', hmixes⟩

end Sys2Proof.Machine
end
